-- ==== Sys2Proof/Word.lean ====
section
/-! DEFINITION. The word types of the Hadrix 24E and its numbering (spec/00_scope.md, "Numbering" and "Bits and bytes"). -/

namespace Sys2Proof

/-- One byte of exchange memory. -/
abbrev Byte := BitVec 8

/-- One 16-bit word of the local bus (spec/00_scope.md: registers are written as two 16-bit halves). -/
abbrev Half := BitVec 16

/-- A 32-bit register, and the two 32-bit counters of R174. -/
abbrev Word := BitVec 32

/-- Bays 0 to 23. -/
abbrev Bay := Fin 24

/-- Light channels 0 to 47: `2 * bay` is STATUS, `2 * bay + 1` is ATTENTION. -/
abbrev Chan := Fin 48

/-- Fans 0 to 7. -/
abbrev FanId := Fin 8

/-- Cooling zones 0 to 3. -/
abbrev ZoneId := Fin 4

/-- Sensor ids 0 to 31: drive sensors 0 to 23, board sensors 24 to 31. -/
abbrev SensorId := Fin 32

/-- Order slots 0 to 31. -/
abbrev SlotId := Fin 32

/-- Patterns 0 to 15. -/
abbrev PatId := Fin 16

/-- Ladder levels 0 (fastest slew) to 3 (slowest slew). -/
abbrev Level := Fin 4

end Sys2Proof
end

