-- ==== Sys2Proof/Config.lean ====
section
/-! DEFINITION. The free values: what the spec leaves open for the part and the model leaves open too.
Each is opaque, so no proof can use a value of it. They are applied to the counter `State.free`, which a
step advances at every use. -/

namespace Sys2Proof

/-- Whether the stagger has elapsed at the one tick count at which the 10 ms tick counter cannot tell
(notes/assumptions/5.md): the time since the last admission lies within one tick of the new setting. -/
opaque Config.staggerEdge : Nat → Bool

/-- The code of the blocked reason shown when PSEQ works the reason out without an evaluation and the
candidate meets all three conditions, so that R37 names none (notes/assumptions/6.md). -/
opaque Config.unstatedReason : Nat → Fin 4

end Sys2Proof
end

