-- ==== Sys2Proof/Syntax.lean ====
section
/-! DEFINITION. The commands of the Hadrix 24E: one constructor for each row of spec/opcode_table.json,
in the table's order.  Three kinds of thing command the block: events at its pins, expiries of its timers,
and writes of the host to its registers; the sixteen order kinds and BAD_KIND are the dispatcher's takes
(R155), whose operands stand in the exchange memory. -/

namespace Sys2Proof

/-- The half of a 32-bit register a local bus write names (R151). -/
inductive RegHalf where
  | lower
  | upper
  deriving DecidableEq, Repr

/-- One 16-bit write of the host to the exchange memory: word `word` stands at byte address `2 * word`
(R151: the memory is reached at 0x0000 to 0x3FFF, one 16-bit word at a time). -/
structure HostWrite where
  word : Fin 8192
  value : Half
  deriving DecidableEq, Repr

/-- The register writes that set no bit a register uses (R151, R152).  Each is a write of its whole half: the bits
that half uses are written 0. -/
inductive OtherWrite where
  /-- a half of PORT STATUS -/
  | portStatus (half : RegHalf) (value : Half)
  /-- the upper half of PORT CONTROL -/
  | portControlUpper (value : Half)
  /-- bits 3 to 15 of PORT CONTROL, in its lower half -/
  | portControlUnused (value : Half)
  /-- bits 29 to 31 of CHANGE SUMMARY, in its upper half -/
  | changeSummaryUnused (value : Half)
  /-- bits 29 to 31 of CHANGE ENABLE, in its upper half -/
  | changeEnableUnused (value : Half)
  deriving DecidableEq, Repr

/-- The commands. -/
inductive Instr where
  /-- POWER_ON_RESET (R167) -/
  | powerOnReset
  /-- PRESENCE_CHANGE (R3): the presence input of the bay changes to its other reading. -/
  | presenceChange (bay : Bay)
  /-- DEBOUNCE_EXPIRY (R4) -/
  | debounceExpiry (bay : Bay)
  /-- REPLUG_WINDOW_EXPIRY (R7) -/
  | replugWindowExpiry (bay : Bay)
  /-- ACTIVITY_EDGE (R139) -/
  | activityEdge (bay : Bay)
  /-- POWER_GOOD_ASSERTED (R48) -/
  | powerGoodAsserted (bay : Bay)
  /-- TRIP_ASSERTED (R53) -/
  | tripAsserted (bay : Bay)
  /-- POWER_GOOD_DEASSERTED (R53) -/
  | powerGoodDeasserted (bay : Bay)
  /-- RAMP_WINDOW_END (R48) -/
  | rampWindowEnd (bay : Bay)
  /-- COOL_OFF_END (R49) -/
  | coolOffEnd (bay : Bay)
  /-- SPIN_WINDOW_END (R52) -/
  | spinWindowEnd (bay : Bay)
  /-- HOLD_END (R59) -/
  | holdEnd (bay : Bay)
  /-- STAGGER_EXPIRY (R34) -/
  | staggerExpiry
  /-- SHED_REQUEST (R61): PSEQ takes the oldest shed request THC has handed it for the bay. -/
  | shedRequest (bay : Bay)
  /-- POLL_TIMER_EXPIRY (R71) -/
  | pollTimerExpiry
  /-- SIDEBAND_REPLY (R66): the bytes of the reply in their order of arrival: status, length, data, check.
  After a length above 24 nothing more is read. -/
  | sidebandReply (bytes : List Byte)
  /-- SIDEBAND_NO_REPLY (R64) -/
  | sidebandNoReply
  /-- DEFER_SPACING_END (R67) -/
  | deferSpacingEnd
  /-- BOARD_SENSOR_READ_TIMER (R86) -/
  | boardSensorReadTimer
  /-- BOARD_SENSOR_READ_END (R86): the read of board sensor B`sensor` ends with a reading in q, or fails. -/
  | boardSensorReadEnd (sensor : Fin 8) (reading : Option Int)
  /-- ZONE_PERIOD_START (R97) -/
  | zonePeriodStart
  /-- TACH_GATE_EXPIRY (R117) -/
  | tachGateExpiry
  /-- ENVELOPE_STEP (R136) -/
  | envelopeStep
  /-- LOCATE_TIMER_EXPIRY (R146): the LOCATE timer of the bay's ATTENTION channel expires. -/
  | locateTimerExpiry (bay : Bay)
  /-- MIRROR_RECORD_WRITE (R161) -/
  | mirrorRecordWrite
  /-- ORDER_POST (R153): a write of one half of ORDER POST, and before it the host's writes to the exchange
  memory since its last register write (the table gives a memory write no row of its own). -/
  | orderPost (writes : List HostWrite) (half : RegHalf) (bits : Half)
  /-- ORDER_DONE (R154) -/
  | orderDone (half : RegHalf) (bits : Half)
  /-- CHANGE_SUMMARY (R160) -/
  | changeSummary (half : RegHalf) (bits : Half)
  /-- CHANGE_ENABLE (R160) -/
  | changeEnable (half : RegHalf) (mask : Half)
  /-- DONE_INTERRUPT_ENABLE (R152): bit 0 of a write of PORT CONTROL. -/
  | doneInterruptEnable (on : Bool)
  /-- FREEZE (R163): bit 1 of a write of PORT CONTROL is 1. -/
  | freeze
  /-- THAW (R164): bit 1 of a write of PORT CONTROL is 0. -/
  | thaw
  /-- AUTO_THAW (R165) -/
  | autoThaw
  /-- PORT_RESET (R166): bit 2 of a write of PORT CONTROL is 1. -/
  | portReset
  /-- REGISTER_WRITE_OTHER (R151) -/
  | registerWriteOther (target : OtherWrite)
  /-- BAD_KIND (R156): the dispatcher takes a slot whose kind code names no order kind. -/
  | badKind
  /-- BAY_POWER_ON (R38): the dispatcher takes a slot that holds a BAY POWER ON; so for each kind below. -/
  | bayPowerOn
  /-- BAY_POWER_OFF (R55) -/
  | bayPowerOff
  /-- BAY_POLICY (R18) -/
  | bayPolicy
  /-- CLEAR_FAULT (R14) -/
  | clearFault
  /-- BUDGET_SET (R42) -/
  | budgetSet
  /-- SIDEBAND_QUERY (R74) -/
  | sidebandQuery
  /-- ZONE_MAP (R94) -/
  | zoneMap
  /-- CURVE_SELECT (R111) -/
  | curveSelect
  /-- FAN_CONFIG (R123) -/
  | fanConfig
  /-- FAN_LEARN (R124) -/
  | fanLearn
  /-- LIGHT_SET (R144) -/
  | lightSet
  /-- LOCATE (R145) -/
  | locate
  /-- LIGHT_SYNC (R147) -/
  | lightSync
  /-- PATTERN_LOAD (R135) -/
  | patternLoad
  /-- AUTO_MAP (R143) -/
  | autoMap
  /-- ABORT (R157) -/
  | abort
  /-- TACH_EDGE (R117) -/
  | tachEdge (fan : FanId)
  /-- UPTIME_COUNTER_ADVANCE (R174) -/
  | uptimeCounterAdvance
  /-- TICK_COUNTER_ADVANCE (R174) -/
  | tickCounterAdvance
  deriving DecidableEq, Repr

end Sys2Proof
end

