-- ==== Sys2Proof/WellFormed.lean ====
section
/-! DEFINITION. Which commands say something the spec gives a meaning to.  The operand types already bound
every bay, fan, sensor and word number; two checks remain. -/

namespace Sys2Proof

/-- The bytes of a reply are whole (R65, R66): a status, a length and, where the length is 24 or less,
exactly that many data bytes and a check byte; after a larger length nothing more is read. -/
def replyComplete : List Byte → Bool
  | _ :: len :: rest => if 24 < len.toNat then rest.isEmpty else rest.length == len.toNat + 1
  | _ => false

/-- A write to unused bits names only bits that R151 and R152 leave unused: bits 3 to 15 of the lower half of
PORT CONTROL, bits 13 to 15 of the upper half of CHANGE SUMMARY and of CHANGE ENABLE. -/
def otherWriteUnused : OtherWrite → Bool
  | .portStatus _ _ => true
  | .portControlUpper _ => true
  | .portControlUnused v => (v &&& 0x0007#16) == 0#16
  | .changeSummaryUnused v => (v &&& 0x1FFF#16) == 0#16
  | .changeEnableUnused v => (v &&& 0x1FFF#16) == 0#16

/-- A well-formed command. -/
def Instr.wellFormed : Instr → Bool
  | .sidebandReply bytes => replyComplete bytes
  | .registerWriteOther t => otherWriteUnused t
  | .powerOnReset | .presenceChange _ | .debounceExpiry _ | .replugWindowExpiry _ | .activityEdge _
  | .powerGoodAsserted _ | .tripAsserted _ | .powerGoodDeasserted _ | .rampWindowEnd _ | .coolOffEnd _
  | .spinWindowEnd _ | .holdEnd _ | .staggerExpiry | .shedRequest _ | .pollTimerExpiry | .sidebandNoReply
  | .deferSpacingEnd | .boardSensorReadTimer | .boardSensorReadEnd _ _ | .zonePeriodStart | .tachGateExpiry | .envelopeStep
  | .locateTimerExpiry _ | .mirrorRecordWrite | .orderPost _ _ _ | .orderDone _ _ | .changeSummary _ _
  | .changeEnable _ _ | .doneInterruptEnable _ | .freeze | .thaw | .autoThaw | .portReset | .badKind
  | .bayPowerOn | .bayPowerOff | .bayPolicy | .clearFault | .budgetSet | .sidebandQuery | .zoneMap
  | .curveSelect | .fanConfig | .fanLearn | .lightSet | .locate | .lightSync | .patternLoad | .autoMap
  | .abort | .tachEdge _ | .uptimeCounterAdvance | .tickCounterAdvance => true

end Sys2Proof
end

