-- ==== Sys2Proof/Decode.lean ====
section
/-! DEFINITION. The table's bits.  No row of spec/opcode_table.json gives bits: every row's `fields` is empty
and no row has `fixed` (spec/98_reader.md: "n_rows_with_fixed": 0), so no word spells a command. -/

namespace Sys2Proof

/-- The command that a word spells by the table's bits: none, since no row of the table gives bits. -/
def decodeTableWord (_nbits _w : Nat) : Option Instr := none

end Sys2Proof
end

