-- ==== Sys2Proof/Machine/Types.lean ====
section
/-! DEFINITION. The records the seven blocks of the 24E keep, each with its rule.  Plain data. -/

namespace Sys2Proof.Machine

/-- A timer: not running, or running with the duration in milliseconds it was started with.  How much of it
has elapsed is not held: an expiry is a command (notes/assumptions/3.md). -/
abbrev Timer := Option Nat

/-! ### Bays (BMON, chapter 1) -/

/-- A presence contact's reading. -/
inductive Presence where
  | absent
  | present
  deriving DecidableEq, Repr

/-- The bay state (R1). -/
inductive BayState where
  | empty | settling | off | queued | ramping | spinning | active | stopping | fault
  deriving DecidableEq, Repr

/-- The phase of a stop in progress (R1). -/
inductive StopPhase where
  | standbyWait | hold
  deriving DecidableEq, Repr

/-- Why a bay is in FAULT (R1). -/
inductive FaultCause where
  | powerFault | trip | powerLost | thermal
  deriving DecidableEq, Repr

/-- The drive class (R1). -/
inductive DriveClass where
  | rotating | solid | unknown
  deriving DecidableEq, Repr

/-- The class a bay is charged as (R29, R46). -/
inductive ChargeClass where
  | rotating | solid
  deriving DecidableEq, Repr

/-- The drive's own identity reply (R1, R65). -/
structure Identity where
  classByte : Byte
  serial : Vector Byte 20
  deriving DecidableEq, Repr

/-- A charge pair in budget units (R25). -/
structure ChargePair where
  inrush : Nat
  steady : Nat
  deriving DecidableEq, Repr

/-- Which charge of its pair a bay holds (R1). -/
inductive Held where
  | inrush | steady
  deriving DecidableEq, Repr

/-- The budget charge a bay holds (R1). -/
structure ChargeRecord where
  pair : ChargePair
  held : Held
  deriving DecidableEq, Repr

/-- The host's settings for a bay (R17). -/
structure Policy where
  autoOn : Bool
  shedTemp : Nat
  startLevel : Level
  levelMask : BitVec 4
  useLearned : Bool
  deriving DecidableEq, Repr

/-- The two classes of the admission queue (R30). -/
inductive QClass where
  | normal | urgent
  deriving DecidableEq, Repr

/-- Why the power went off, as the OFF history entry says it (R20). -/
inductive OffWhy where
  | presenceLost | immediate | graceful
  deriving DecidableEq, Repr

/-- A history event with its detail (R20). -/
inductive HistEvent where
  | inserted
  | removed
  | replugged (count : Nat)
  | glitch
  | queued (cls : QClass)
  | dequeued (cls : QClass)
  | admitted (cls : QClass)
  | powerGood (level : Level)
  | active (lastGood : Option Level)
  | standbyAck
  | standbyFailed (skipped : Bool)
  | off (why : OffWhy)
  | fault (cause : FaultCause)
  | cleared (cause : Option FaultCause)
  | shed (temp : Nat)
  deriving DecidableEq, Repr

/-- One entry of a history ring (R19). -/
structure HistEntry where
  seq : Half
  event : HistEvent
  stamp : Word
  deriving DecidableEq, Repr

/-- The bay record (R1).  The ring is the array of 8 positions of R19; the entries it holds are its filled
positions. -/
structure BayRec where
  state : BayState
  stopPhase : Option StopPhase
  settlingFrom : Option Presence
  faultCause : Option FaultCause
  replugCount : Nat
  driveClass : DriveClass
  unrecognised : Bool
  identity : Option Identity
  healthWarn : Bool
  lastGood : Option Level
  charge : Option ChargeRecord
  policy : Policy
  powerOrder : Option SlotId
  ring : Vector (Option HistEntry) 8
  head : Fin 8
  nextSeq : Half
  deriving DecidableEq, Repr

/-- BMON: the bay table and, beside each record, its two timers (R1). -/
structure Bmon where
  bays : Vector BayRec 24
  debounce : Vector Timer 24
  replug : Vector Timer 24
  deriving DecidableEq, Repr

/-! ### Power (PSEQ, chapters 2 and 3) -/

/-- The settings of the budget account (R25). -/
structure Settings where
  capacity : Nat
  floor : Nat
  stagger : Nat
  maxConcurrent : Nat
  rotating : ChargePair
  solid : ChargePair
  rotatingSpin : Nat
  solidSpin : Nat
  deriving DecidableEq, Repr

/-- Why the candidate waits (R37). -/
inductive BlockedReason where
  | none | stagger | concurrency | budget
  deriving DecidableEq, Repr

/-- The budget account (R25): settings and running totals.  The stagger is elapsed while `staggerTimer` is
not running; `sinceAdmission` counts the 10 ms ticks since the last admission, absent while no bay has been
admitted since power-on reset (R34). -/
structure Account where
  settings : Settings
  drives : Nat
  fanEstimate : Nat
  starting : Nat
  staggerTimer : Timer
  sinceAdmission : Option Nat
  blocked : BlockedReason
  deriving DecidableEq, Repr

/-- An entry of the admission queue (R30). -/
structure QEntry where
  bay : Bay
  cls : QClass
  tick : Word
  slot : Option SlotId
  deriving DecidableEq, Repr

/-- The phase of a ladder (R46). -/
inductive LadderPhase where
  | attempt | coolOff | spin
  deriving DecidableEq, Repr

/-- How an attempt ended (R46). -/
inductive AttemptOutcome where
  | good | trip | slow
  deriving DecidableEq, Repr

/-- The ladder state of a power-up (R46), with the class of the queue entry its result reports (R60).
`level` is the level the next or present attempt uses (R49), `begun` that of the last attempt begun
(R60; notes/assumptions/8.md). -/
structure Ladder where
  phase : LadderPhase
  level : Level
  begun : Level
  mask : BitVec 4
  start : Level
  learned : Option Level
  counts : Vector Nat 4
  total : Nat
  last : Option AttemptOutcome
  cls : ChargeClass
  spinWindow : Nat
  queueWait : Nat
  queueClass : QClass
  deriving DecidableEq, Repr

/-- The mode of a BAY POWER OFF (R55). -/
inductive OffMode where
  | graceful | immediate
  deriving DecidableEq, Repr

/-- The standby outcome a BAY POWER OFF reports (R59). -/
inductive StandbyOutcome where
  | none | ack | failed | skipped
  deriving DecidableEq, Repr

/-- How a sideband transaction ended (R75). -/
inductive SbResult where
  | ok | noReply | badCheck | deferredOut | noDevice
  deriving DecidableEq, Repr

/-- What cut a standby wait (R54). -/
inductive CutCause where
  | trip | powerLost
  deriving DecidableEq, Repr

/-- What PSEQ keeps of a stop for the result of its BAY POWER OFF (R59).  `take` is the tick of the take,
`wait` the ticks from it to the switch going off, 0 until then. -/
structure Stop where
  found : BayState
  mode : OffMode
  standby : StandbyOutcome
  txn : Option SbResult
  cut : Option CutCause
  hold : Nat
  take : Word
  wait : Nat
  deriving DecidableEq, Repr

/-- The power path of one bay: its two switch outputs, its ladder or stop, and its timers (R46 to R59). -/
structure Path where
  switchOn : Bool
  slew : Level
  ladder : Option Ladder
  stop : Option Stop
  rampTimer : Timer
  coolTimer : Timer
  spinTimer : Timer
  holdTimer : Timer
  deriving DecidableEq, Repr

/-- A shed request THC has handed PSEQ and PSEQ has not yet taken (R61, R89). -/
structure ShedReq where
  bay : Bay
  temp : Nat
  deriving DecidableEq, Repr

/-- PSEQ: the account, the two classes of the queue, the power paths and the shed requests not yet taken. -/
structure Pseq where
  account : Account
  urgent : List QEntry
  normal : List QEntry
  paths : Vector Path 24
  sheds : List ShedReq
  deriving DecidableEq, Repr

/-! ### Sideband (SBE, chapter 4) -/

/-- What a sideband request asks for (R65). -/
inductive SbItem where
  | ident | temp | health | standby
  deriving DecidableEq, Repr

/-- Where a sideband entry comes from (R69). -/
inductive SbOrigin where
  | poll | arrival | query | standby
  deriving DecidableEq, Repr

/-- An entry of the sideband queue (R69).  `slot` and the tick of the take belong to a QUERY (R74, R75). -/
structure SbEntry where
  bay : Bay
  item : SbItem
  origin : SbOrigin
  slot : Option SlotId
  take : Word
  deriving DecidableEq, Repr

/-- Whether the transaction in flight is in an attempt or waits out a defer spacing (R64, R67). -/
inductive TxnPhase where
  | attempt | spacing
  deriving DecidableEq, Repr

/-- The transaction in flight (R67), with the queue wait its QUERY reports (R75). -/
structure Txn where
  entry : SbEntry
  failed : Nat
  defers : Nat
  phase : TxnPhase
  queueWait : Nat
  deriving DecidableEq, Repr

/-- SBE: the two classes of its queue, the transaction in flight and the poll schedule. -/
structure Sbe where
  orderQ : List SbEntry
  pollQ : List SbEntry
  flight : Option Txn
  interval : Nat
  pollTimer : Timer
  pollCount : Vector (Fin 8) 24
  deriving DecidableEq, Repr

/-! ### Sensors and zones (THC, chapters 5 and 6) -/

/-- A sensor record (R83).  Its state is derived (R85, R87; `sensorState`). -/
structure SensorRec where
  value : Option Int
  fails : Nat
  lastSuccess : Option Word
  deriving DecidableEq, Repr

/-- The state of a sensor (R83). -/
inductive SensorState where
  | valid | stale | lost | absent
  deriving DecidableEq, Repr

/-- What THC keeps of a bay and does not publish (R83, R22): the ACTIVE fact, the starting fact, the shed
temperature copy and the hot count. -/
structure DriveFacts where
  active : Bool
  starting : Bool
  shedCopy : Nat
  hot : Nat
  deriving DecidableEq, Repr

/-- A zone record (R91).  Its member fans are those whose `Thc.fanZone` names it. -/
structure ZoneRec where
  sensors : Word
  excess : Int
  d1 : Nat
  d2 : Nat
  d3 : Nat
  output : Nat
  clamped : Bool
  failedCount : Nat
  preloadActive : Bool
  failsafe : Bool
  deriving DecidableEq, Repr

/-- A segment of a curve (R100). -/
structure Segment where
  offset : Nat
  base : Nat
  slope : Int
  shift : Nat
  deriving DecidableEq, Repr

/-- A curve record (R100). -/
structure CurveRec where
  t0 : Int
  staleMargin : Nat
  floor : Nat
  ceiling : Nat
  preload : Nat
  boost : Nat
  rise : Nat
  fall : Nat
  segs : Vector Segment 4
  deriving DecidableEq, Repr

/-- The curve banks (R98). -/
inductive Bank where
  | a | b
  deriving DecidableEq, Repr

/-- The pending curve select (R111). -/
structure PendingSelect where
  bank : Bank
  slot : Option SlotId
  deriving DecidableEq, Repr

/-- The pending zone map (R94). -/
structure PendingMap where
  fanZone : Vector ZoneId 8
  sensors : Vector Word 4
  fitted : Byte
  slot : Option SlotId
  deriving DecidableEq, Repr

/-- THC: the sensor table, the zone table, the working copy and the two pending orders. -/
structure Thc where
  sensors : Vector SensorRec 32
  facts : Vector DriveFacts 24
  fitted : Vector Bool 8
  reading : Vector Bool 8
  zones : Vector ZoneRec 4
  fanZone : Vector ZoneId 8
  failedFans : Vector Bool 8
  working : Option (Vector CurveRec 4)
  bank : Option Bank
  pendingSelect : Option PendingSelect
  pendingMap : Option PendingMap
  readTimer : Timer
  periodTimer : Timer
  deriving DecidableEq, Repr

/-! ### Fans (FANU, chapter 7) -/

/-- The state of a fan (R116). -/
inductive FanState where
  | stopped | running | stalled | failed | learning | absent
  deriving DecidableEq, Repr

/-- A fan record: the published fields (R116). -/
structure FanRec where
  installed : Bool
  ppr : Nat
  maxUnits : Nat
  threshold : Nat
  state : FanState
  duty : Nat
  lastCount : Nat
  saturated : Bool
  rpm : Nat
  learnedMin : Nat
  fullSpeed : Option Nat
  table : List (Fin 8 × Nat)
  learnMask : Byte
  kicks : Nat
  deriving DecidableEq, Repr

/-- A learn in progress (R124, R125, R129).  `last` is the latest reading at the level, `list` the working
list of completed levels in visiting order. -/
structure Learn where
  slot : Option SlotId
  mask : Byte
  level : Fin 8
  settled : Nat
  readings : Nat
  last : Nat
  list : List (Fin 8 × Nat)
  minBefore : Nat
  gates : Nat
  deriving DecidableEq, Repr

/-- What FANU keeps of a fan and does not publish: the three counts of R116, the edges of the gate in
progress (R117) and the learn in progress. -/
structure FanWork where
  lowGates : Nat
  kickGates : Nat
  goodGates : Nat
  edges : Nat
  learn : Option Learn
  deriving DecidableEq, Repr

/-- FANU: the fan table, and the last outputs, d3 and fan membership THC handed it (R116). -/
structure Fanu where
  fans : Vector FanRec 8
  work : Vector FanWork 8
  output : Vector Nat 4
  d3 : Vector Nat 4
  member : Vector ZoneId 8
  gateTimer : Timer
  deriving DecidableEq, Repr

/-! ### Lights (LGT, chapter 8) -/

/-- The eight entries of the AUTO map (R142). -/
inductive Condition where
  | empty | off | queued | starting | active | stopping | fault | healthWarn
  deriving DecidableEq, Repr

/-- A pattern record (R134). -/
structure Pattern where
  attack : Fin 16
  decay : Fin 16
  release : Fin 16
  peak : Nat
  sustain : Nat
  onTime : Nat
  offTime : Nat
  repeats : Nat
  activity : Bool
  deriving DecidableEq, Repr

/-- The layers of a channel (R140). -/
inductive Layer where
  | auto | order | locate
  deriving DecidableEq, Repr

/-- Where an envelope stands (R137). -/
inductive EnvPhase where
  | attack | decay | sustain | release | rest
  deriving DecidableEq, Repr

/-- The gate of a channel (R138, R139). -/
inductive Gate where
  | opened | closed | dip
  deriving DecidableEq, Repr

/-- A channel record (R133), with the LOCATE timer of R145. -/
structure Channel where
  auto : Option PatId
  order : Option PatId
  locate : Option PatId
  deadline : Option Word
  locateTimer : Timer
  layer : Layer
  pattern : Option PatId
  level : Nat
  phase : EnvPhase
  gate : Gate
  count : Nat
  openings : Nat
  group : Fin 5
  deriving DecidableEq, Repr

/-- An entry of the AUTO map (R142). -/
structure AutoEntry where
  status : Option PatId
  attention : Option PatId
  deriving DecidableEq, Repr

/-- LGT: the channels, the pattern table, the AUTO map, and for each bay the condition and health warning
BMON last handed it (R133). -/
structure Lgt where
  chans : Vector Channel 48
  patterns : Vector Pattern 16
  autoMap : Vector AutoEntry 8
  cond : Vector Condition 24
  warn : Vector Bool 24
  stepTimer : Timer
  deriving DecidableEq, Repr

/-! ### Exchange port (EXP, chapter 9) -/

/-- The order kinds (Table 10-1). -/
inductive Kind where
  | bayPowerOn | bayPowerOff | bayPolicy | clearFault | budgetSet | sidebandQuery | zoneMap | curveSelect
  | fanConfig | fanLearn | lightSet | locate | lightSync | patternLoad | autoMap | abort
  deriving DecidableEq, Repr

/-- The result codes (Table 10-2). -/
inductive Result where
  | ok | already | busy | cancelled | tooLate | notAbortable | superseded | badKind | badArg | badCurve
  | budgetInUse | bayEmpty | bayFault | removed | powerFault | trip | powerLost | queueFull | noReply
  | deferredOut | badCheck | noDevice | noSpin | unsteady | abortedHot
  deriving DecidableEq, Repr

/-- The six registers of the register block (R151). -/
inductive Register where
  | orderPost | orderDone | changeSummary | changeEnable | portControl | portStatus
  deriving DecidableEq, Repr

/-- The four states of a slot (R153). -/
inductive SlotState where
  | free | posted | taken | done
  deriving DecidableEq, Repr

/-- The slot table's entry: the state, and the kind and tag copied at the last take (R155, R157). -/
structure Slot where
  state : SlotState
  kind : Byte
  tag : Half
  deriving DecidableEq, Repr

/-- The 69 mirror records (R161). -/
inductive MirrorRec where
  | bay (b : Bay)
  | fan (f : FanId)
  | zone (z : ZoneId)
  | sensor (i : SensorId)
  | budget
  deriving DecidableEq, Repr

/-- An entry of the dirty set (R161). -/
structure DirtyEntry where
  record : MirrorRec
  notice : Bool
  deriving DecidableEq, Repr

/-- The writing of the whole mirror a reset has begun (R166, R167): the records still to write, and whether
change bits 0 to 27 are set at its end (port reset only). -/
structure ResetWriting where
  left : List DirtyEntry
  setBits : Bool
  deriving DecidableEq, Repr

/-- EXP: the register block, the slot table, the dispatcher's pointer, the dirty set and the freeze.
`stepMarks` and `stepDone` are the model's own note of the step in progress, empty between steps: the
records it marked, and whether it completed an order (R156, R176; notes/assumptions/9.md). -/
structure Exp where
  slots : Vector Slot 32
  pointer : SlotId
  summary : Word
  enable : Word
  doneEnable : Bool
  freezeBit : Bool
  freezeActive : Bool
  freezeExpired : Bool
  ready : Bool
  collisions : Nat
  freezeTimer : Timer
  dirty : List DirtyEntry
  resetWrite : Option ResetWriting
  thawLeft : List MirrorRec
  counts : Vector Byte 69
  histPending : Vector Byte 24
  stepMarks : List MirrorRec
  stepDone : Bool
  deriving DecidableEq, Repr

/-! ### Pins and counters -/

/-- The input pins whose level the part reads: presence (R3) and power-good (R48), one of each per bay. -/
structure Pins where
  presence : Vector Presence 24
  powerGood : Vector Bool 24
  deriving DecidableEq, Repr

/-- The two free-running counters (R174). -/
structure Clock where
  uptime : Word
  tick : Word
  deriving DecidableEq, Repr

end Sys2Proof.Machine
end

