-- ==== Sys2Proof/Machine/Memory.lean ====
section
/-! DEFINITION. The 16 KiB exchange memory (R151, R168): a list of cells in one canonical form, and the byte
and word accesses over it.  Byte order is decided here once: little-endian (spec/00_scope.md, "Bits and
bytes"). -/

namespace Sys2Proof.Machine

/-- The exchange memory: addresses strictly rising, no cell equal to what an unlisted address reads as. -/
abbrev Memory := List Host.Cell

/-- What a byte that nothing has written reads as.  DESIGN CHOICE (notes/assumptions/2.md): the spec leaves
the contents at power-up to "whatever the memory held" (R167). -/
def Memory.unwritten : Byte := 0

/-- The size of the exchange memory in bytes (R151: byte addresses 0x0000 to 0x3FFF). -/
def Memory.size : Nat := 0x4000

/-- The byte at an address. -/
def Memory.read : Memory → Nat → Byte
  | [], _ => Memory.unwritten
  | (k, v) :: rest, a => if k = a then v else Memory.read rest a

/-- Write one byte, keeping the canonical form. -/
def Memory.write : Memory → Nat → Byte → Memory
  | [], a, b => if b = Memory.unwritten then [] else [(a, b)]
  | (k, v) :: rest, a, b =>
    if a < k then if b = Memory.unwritten then (k, v) :: rest else (a, b) :: (k, v) :: rest
    else if a = k then if b = Memory.unwritten then rest else (a, b) :: rest
    else (k, v) :: Memory.write rest a b

/-- Write bytes at rising addresses from `a` on. -/
def Memory.writeBytes : Memory → Nat → List Byte → Memory
  | m, _, [] => m
  | m, a, b :: rest => Memory.writeBytes (m.write a b) (a + 1) rest

/-- The `n` bytes from address `a` on. -/
def Memory.readBytes (m : Memory) (a : Nat) : Nat → List Byte
  | 0 => []
  | n + 1 => m.read a :: Memory.readBytes m (a + 1) n

/-- All cells lie above `lo`, rise strictly, stay inside the exchange memory and differ from an unlisted byte. -/
def Memory.risingFrom : Nat → Memory → Bool
  | _, [] => true
  | lo, (k, v) :: rest =>
    decide (lo ≤ k) && decide (k < Memory.size) && decide (v ≠ Memory.unwritten) && Memory.risingFrom (k + 1) rest

/-- The canonical form. -/
def Memory.wf (m : Memory) : Bool := Memory.risingFrom 0 m

/-- The two bytes of a 16-bit field, the less significant first. -/
def le16 (n : Nat) : List Byte := [BitVec.ofNat 8 n, BitVec.ofNat 8 (n / 256)]

/-- The four bytes of a 32-bit field, the less significant first. -/
def le32 (n : Nat) : List Byte := le16 n ++ le16 (n / 65536)

/-- A signed 16-bit field, two's complement. -/
def le16s (i : Int) : List Byte := le16 (i % 65536).toNat

/-- The unsigned value of bytes `a` and `a + 1`. -/
def Memory.read16 (m : Memory) (a : Nat) : Nat := (m.read a).toNat + 256 * (m.read (a + 1)).toNat

/-- The unsigned value of the four bytes from `a` on. -/
def Memory.read32 (m : Memory) (a : Nat) : Nat := m.read16 a + 65536 * m.read16 (a + 2)

/-- A signed 16-bit value. -/
def signed16 (n : Nat) : Int := (BitVec.ofNat 16 n).toInt

/-- A signed 8-bit value. -/
def signed8 (b : Byte) : Int := b.toInt

/-- One 16-bit write of the host (R151). -/
def Memory.hostWrite (m : Memory) (w : HostWrite) : Memory := m.writeBytes (2 * w.word.val) (le16 w.value.toNat)

end Sys2Proof.Machine
end

