-- ==== Sys2Proof/Machine/Params.lean ====
section
/-! DEFINITION. The figures of the spec: durations in milliseconds, limits, and the places of the areas of
the exchange memory (R168) and of each mirror record (spec/10_record_layouts.md, section 10.6). -/

namespace Sys2Proof.Machine

/-- The debounce of a presence input (R3). -/
def debounceMs : Nat := 250

/-- The replug window (R7). -/
def replugMs : Nat := 2000

/-- The ramp window of a level (R48): 4, 8, 16 and 32 ms. -/
def rampMs (l : Level) : Nat := 4 * 2 ^ l.val

/-- The cool-off between two attempts (R49). -/
def coolOffMs : Nat := 100

/-- The most attempts at one level, and in one ladder (R49). -/
def levelAttempts : Nat := 3
def totalAttempts : Nat := 6

/-- The freeze limit (R163). -/
def freezeMs : Nat := 250

/-- The free-running timers: board sensor reads (R86), zone period (R97), tach gate (R117), envelope step
(R136). -/
def boardReadMs : Nat := 250
def zonePeriodMs : Nat := 1000
def tachGateMs : Nat := 1000
def envelopeStepMs : Nat := 4

/-- The zone demand at or above which a learn stops hot (R124, R127). -/
def learnHotDuty : Nat := 896

/-- Full duty (spec/00_scope.md, "duty"). -/
def fullDuty : Nat := 1023

/-- The most order-class entries of the sideband queue (R69). -/
def orderClassRoom : Nat := 8

/-- A wait in ticks (R174): the difference modulo 2^32, saturated at 65535. -/
def waitTicks (start now : Word) : Nat := min (now - start).toNat 65535

/-- The defer retry limit and spacing of an item (R67). -/
def deferLimit : SbItem → Nat
  | .standby => 20
  | .ident | .temp | .health => 7
def deferSpacingMs : SbItem → Nat
  | .standby => 500
  | .ident | .temp | .health => 20

/-- The expected data length of an item (R65). -/
def expectedLength : SbItem → Nat
  | .ident => 21
  | .temp => 2
  | .health => 1
  | .standby => 0

/-- The duty of a learn level code (R124, Table 10-3). -/
def levelDuty (n : Fin 8) : Nat := if n = 7 then fullDuty else 128 * (n.val + 1)

/-- Where a slot stands (section 10.3). -/
def slotBase (n : SlotId) : Nat := 128 * n.val
/-- Its argument bytes (section 10.3). -/
def argBase (n : SlotId) : Nat := slotBase n + 0x04
/-- Its result area (section 10.3). -/
def resultBase (n : SlotId) : Nat := slotBase n + 0x40

/-- Where a bank stands (R168). -/
def bankBase : Bank → Nat
  | .a => 0x1A00
  | .b => 0x1B00
/-- The pattern area and the AUTO map area (R168). -/
def patternBase (i : PatId) : Nat := 0x1C00 + 32 * i.val
def autoMapBase : Nat := 0x1E00
/-- A history position of a bay (R168). -/
def historyBase (b : Bay) (p : Fin 8) : Nat := 0x2000 + 64 * b.val + 8 * p.val

/-- Where a mirror record stands (section 10.6). -/
def MirrorRec.base : MirrorRec → Nat
  | .bay b => 0x1000 + 64 * b.val
  | .fan f => 0x1600 + 32 * f.val
  | .zone z => 0x1700 + 64 * z.val
  | .sensor i => 0x1800 + 8 * i.val
  | .budget => 0x1900

/-- Where a register stands (R151). -/
def Register.base : Register → Nat
  | .orderPost => 0x4000
  | .orderDone => 0x4004
  | .changeSummary => 0x4008
  | .changeEnable => 0x400C
  | .portControl => 0x4010
  | .portStatus => 0x4014

/-- The six registers, in the order of their addresses. -/
def allRegisters : List Register := [.orderPost, .orderDone, .changeSummary, .changeEnable, .portControl, .portStatus]

/-- The register and the half at a byte address of the local bus (R151): the lower half at the lower address. -/
def registerAt (a : Nat) : Option (Register × RegHalf) :=
  allRegisters.findSome? fun r =>
    if a = r.base then some (r, .lower) else if a = r.base + 2 then some (r, .upper) else none

/-- The number of a mirror record among the 69 (R161). -/
def MirrorRec.index : MirrorRec → Fin 69
  | .bay b => ⟨b.val, by omega⟩
  | .fan f => ⟨24 + f.val, by omega⟩
  | .zone z => ⟨32 + z.val, by omega⟩
  | .sensor i => ⟨36 + i.val, by omega⟩
  | .budget => 68

/-- The 69 mirror records, in the order R161 names them. -/
def allRecords : List MirrorRec :=
  (List.finRange 24).map .bay ++ (List.finRange 8).map .fan ++ (List.finRange 4).map .zone
    ++ (List.finRange 32).map .sensor ++ [.budget]

/-- The change bit a record's notice sets (R159); a drive sensor record has none. -/
def MirrorRec.changeBit : MirrorRec → Option (Fin 29)
  | .bay b => some ⟨b.val, by omega⟩
  | .fan _ => some 24
  | .zone _ => some 25
  | .sensor i => if 24 ≤ i.val then some 26 else none
  | .budget => some 27

/-- The two light channels of a bay (spec/00_scope.md, "Numbering"). -/
def statusChan (b : Bay) : Chan := ⟨2 * b.val, by omega⟩
def attentionChan (b : Bay) : Chan := ⟨2 * b.val + 1, by omega⟩
/-- The bay of a channel. -/
def chanBay (c : Chan) : Bay := ⟨c.val / 2, by omega⟩
/-- Whether a channel is an ATTENTION channel. -/
def isAttention (c : Chan) : Bool := c.val % 2 == 1

/-- The drive sensor of a bay, and the board sensor Bn (R83). -/
def driveSensor (b : Bay) : SensorId := ⟨b.val, by omega⟩
def boardSensor (n : Fin 8) : SensorId := ⟨24 + n.val, by omega⟩

end Sys2Proof.Machine
end

