-- ==== Sys2Proof/Machine/Codes.lean ====
section
/-! DEFINITION. The codes of spec/10_record_layouts.md, section 10.2 (R171, R172), and of the sideband (R65). -/

namespace Sys2Proof.Machine

/-- Table 10-1. -/
def Kind.code : Kind → Byte
  | .bayPowerOn => 0x01
  | .bayPowerOff => 0x02
  | .bayPolicy => 0x03
  | .clearFault => 0x04
  | .budgetSet => 0x05
  | .sidebandQuery => 0x06
  | .zoneMap => 0x07
  | .curveSelect => 0x08
  | .fanConfig => 0x09
  | .fanLearn => 0x0A
  | .lightSet => 0x0B
  | .locate => 0x0C
  | .lightSync => 0x0D
  | .patternLoad => 0x0E
  | .autoMap => 0x0F
  | .abort => 0x10

/-- Table 10-1 read back: a code that names no order kind gives none (R171). -/
def Kind.ofCode (b : Byte) : Option Kind :=
  [Kind.bayPowerOn, .bayPowerOff, .bayPolicy, .clearFault, .budgetSet, .sidebandQuery, .zoneMap, .curveSelect,
    .fanConfig, .fanLearn, .lightSet, .locate, .lightSync, .patternLoad, .autoMap, .abort].find?
    (fun k => k.code == b)

/-- Table 10-2. -/
def Result.code : Result → Byte
  | .ok => 0
  | .already => 1
  | .busy => 2
  | .cancelled => 3
  | .tooLate => 4
  | .notAbortable => 5
  | .superseded => 6
  | .badKind => 7
  | .badArg => 8
  | .badCurve => 9
  | .budgetInUse => 10
  | .bayEmpty => 11
  | .bayFault => 12
  | .removed => 13
  | .powerFault => 14
  | .trip => 15
  | .powerLost => 16
  | .queueFull => 18
  | .noReply => 19
  | .deferredOut => 20
  | .badCheck => 21
  | .noDevice => 22
  | .noSpin => 23
  | .unsteady => 24
  | .abortedHot => 25

/-! Table 10-3. -/

def BayState.code : BayState → Byte
  | .empty => 0
  | .settling => 1
  | .off => 2
  | .queued => 3
  | .ramping => 4
  | .spinning => 5
  | .active => 6
  | .stopping => 7
  | .fault => 8

def FaultCause.code : FaultCause → Byte
  | .powerFault => 0
  | .trip => 1
  | .powerLost => 2
  | .thermal => 3

def DriveClass.code : DriveClass → Byte
  | .rotating => 0
  | .solid => 1
  | .unknown => 2

def ChargeClass.code : ChargeClass → Byte
  | .rotating => 0
  | .solid => 1

def QClass.code : QClass → Byte
  | .normal => 0
  | .urgent => 1

def OffMode.code : OffMode → Byte
  | .graceful => 0
  | .immediate => 1

def StandbyOutcome.code : StandbyOutcome → Byte
  | .none => 0
  | .ack => 1
  | .failed => 2
  | .skipped => 3

def AttemptOutcome.code : AttemptOutcome → Byte
  | .good => 0
  | .trip => 1
  | .slow => 2

/-- The request codes of R65. -/
def SbItem.code : SbItem → Byte
  | .ident => 0x01
  | .temp => 0x02
  | .health => 0x03
  | .standby => 0x04

/-- The items a SIDEBAND QUERY may name (R74). -/
def SbItem.ofQueryCode (b : Byte) : Option SbItem :=
  if b = 0x01 then some .ident else if b = 0x02 then some .temp else if b = 0x03 then some .health else none

def SensorState.code : SensorState → Nat
  | .valid => 0
  | .stale => 1
  | .lost => 2
  | .absent => 3

def FanState.code : FanState → Nat
  | .stopped => 0
  | .running => 1
  | .stalled => 2
  | .failed => 3
  | .learning => 4
  | .absent => 5

def Bank.code : Bank → Byte
  | .a => 0
  | .b => 1

def BlockedReason.code : BlockedReason → Byte
  | .none => 0
  | .stagger => 1
  | .concurrency => 2
  | .budget => 3

/-- The reason of a code 0 to 3. -/
def BlockedReason.ofCode : Fin 4 → BlockedReason
  | 0 => .none
  | 1 => .stagger
  | 2 => .concurrency
  | 3 => .budget

def Layer.code : Layer → Byte
  | .auto => 0
  | .order => 1
  | .locate => 2

def SlotState.code : SlotState → Byte
  | .free => 0
  | .posted => 1
  | .taken => 2
  | .done => 3

def OffWhy.code : OffWhy → Byte
  | .presenceLost => 0
  | .immediate => 1
  | .graceful => 2

/-- The history kind codes. -/
def HistEvent.kindCode : HistEvent → Byte
  | .inserted => 0
  | .removed => 1
  | .replugged _ => 2
  | .glitch => 3
  | .queued _ => 4
  | .dequeued _ => 5
  | .admitted _ => 6
  | .powerGood _ => 7
  | .active _ => 8
  | .standbyAck => 9
  | .standbyFailed _ => 10
  | .off _ => 11
  | .fault _ => 12
  | .cleared _ => 13
  | .shed _ => 14

/-- The detail byte of a history entry (R20). -/
def HistEvent.detail : HistEvent → Byte
  | .inserted | .removed | .glitch | .standbyAck => 0
  | .replugged n => BitVec.ofNat 8 n
  | .queued c | .dequeued c | .admitted c => c.code
  | .powerGood l => BitVec.ofNat 8 l.val
  | .active l => (l.map fun x => BitVec.ofNat 8 x.val).getD 0xFF
  | .standbyFailed skipped => if skipped then 1 else 0
  | .off w => w.code
  | .fault c => c.code
  | .cleared c => (c.map FaultCause.code).getD 0xFF
  | .shed t => BitVec.ofNat 8 t

/-- The order of R142. -/
def Condition.index : Condition → Fin 8
  | .empty => 0
  | .off => 1
  | .queued => 2
  | .starting => 3
  | .active => 4
  | .stopping => 5
  | .fault => 6
  | .healthWarn => 7

/-- A sideband result as a result code (R75). -/
def SbResult.result : SbResult → Result
  | .ok => .ok
  | .noReply => .noReply
  | .badCheck => .badCheck
  | .deferredOut => .deferredOut
  | .noDevice => .noDevice

/-- The result a running fault or cut is named after (R13, R53). -/
def CutCause.result : CutCause → Result
  | .trip => .trip
  | .powerLost => .powerLost
def CutCause.fault : CutCause → FaultCause
  | .trip => .trip
  | .powerLost => .powerLost

/-! The encodings of optional fields (R170): a field that is absent has every byte 0xFF. -/

/-- `n` bytes of the absent encoding. -/
def absent (n : Nat) : List Byte := List.replicate n 0xFF
/-- An optional byte. -/
def optByte : Option Byte → Byte
  | some b => b
  | none => 0xFF
/-- A number as a byte. -/
def byte (n : Nat) : Byte := BitVec.ofNat 8 n
/-- A slot number field, a pattern field. -/
def slotByte (o : Option SlotId) : Byte := optByte (o.map fun n => byte n.val)
def patByte (o : Option PatId) : Byte := optByte (o.map fun n => byte n.val)
/-- A flag as a number, for packing. -/
def bit (b : Bool) : Nat := if b then 1 else 0

end Sys2Proof.Machine
end

