-- ==== Sys2Proof/Machine/Defaults.lean ====
section
/-! DEFINITION. The power-on reset values of every block (R24, R25, R45, R46, R82, R96, R115, R132, R150, R167). -/

namespace Sys2Proof.Machine

/-- The policy after power-on reset (R24). -/
def Policy.reset : Policy :=
  { autoOn := false, shedTemp := 0, startLevel := 1, levelMask := 0xF, useLearned := true }

/-- The bay record after power-on reset (R24). -/
def BayRec.reset : BayRec :=
  { state := .empty, stopPhase := none, settlingFrom := none, faultCause := none, replugCount := 0,
    driveClass := .unknown, unrecognised := false, identity := none, healthWarn := false, lastGood := none,
    charge := none, policy := .reset, powerOrder := none, ring := Vector.replicate 8 none, head := 0, nextSeq := 0 }

def Bmon.reset : Bmon :=
  { bays := Vector.replicate 24 .reset, debounce := Vector.replicate 24 none, replug := Vector.replicate 24 none }

/-- The settings after power-on reset (R25). -/
def Settings.reset : Settings :=
  { capacity := 0, floor := 0, stagger := 20, maxConcurrent := 4, rotating := ⟨20, 8⟩, solid := ⟨6, 5⟩,
    rotatingSpin := 10, solidSpin := 1 }

/-- The account after power-on reset (R25, R45); FANU's first delivery, 160 units, is made as its own reset
completes (R27, R130). -/
def Account.reset : Account :=
  { settings := .reset, drives := 0, fanEstimate := 160, starting := 0, staggerTimer := none,
    sinceAdmission := none, blocked := .none }

/-- A power path after power-on reset (R46, R63). -/
def Path.reset : Path :=
  { switchOn := false, slew := 0, ladder := none, stop := none, rampTimer := none, coolTimer := none,
    spinTimer := none, holdTimer := none }

def Pseq.reset : Pseq :=
  { account := .reset, urgent := [], normal := [], paths := Vector.replicate 24 .reset, sheds := [] }

/-- SBE after power-on reset (R82). -/
def Sbe.reset : Sbe :=
  { orderQ := [], pollQ := [], flight := none, interval := 2, pollTimer := some 2000,
    pollCount := Vector.replicate 24 0 }

/-- A zone record after power-on reset (R96, R115). -/
def ZoneRec.reset : ZoneRec :=
  { sensors := 0, excess := -1, d1 := fullDuty, d2 := fullDuty, d3 := fullDuty, output := fullDuty,
    clamped := false, failedCount := 0, preloadActive := false, failsafe := true }

/-- Fan n belongs to zone n ÷ 2, rounded down (R96). -/
def fanZoneReset : Vector ZoneId 8 := Vector.ofFn fun n => ⟨n.val / 2, by omega⟩

/-- THC after power-on reset (R96, R115). -/
def Thc.reset : Thc :=
  { sensors := Vector.replicate 32 ⟨none, 0, none⟩, facts := Vector.replicate 24 ⟨false, false, 0, 0⟩,
    fitted := Vector.replicate 8 false, reading := Vector.replicate 8 false, zones := Vector.replicate 4 .reset,
    fanZone := fanZoneReset, failedFans := Vector.replicate 8 false, working := none, bank := none,
    pendingSelect := none, pendingMap := none, readTimer := some boardReadMs, periodTimer := some zonePeriodMs }

/-- A fan record after power-on reset (R132). -/
def FanRec.reset : FanRec :=
  { installed := true, ppr := 2, maxUnits := 20, threshold := 600, state := .running, duty := fullDuty,
    lastCount := 0, saturated := false, rpm := 0, learnedMin := 256, fullSpeed := none, table := [],
    learnMask := 0, kicks := 0 }

/-- FANU after power-on reset (R132). -/
def Fanu.reset : Fanu :=
  { fans := Vector.replicate 8 .reset, work := Vector.replicate 8 ⟨0, 0, 0, 0, none⟩,
    output := Vector.replicate 4 fullDuty, d3 := Vector.replicate 4 fullDuty, member := fanZoneReset,
    gateTimer := some tachGateMs }

/-- The default pattern table (R150). -/
def Pattern.defaults : Vector Pattern 16 :=
  #v[⟨0, 0, 0, 255, 255, 0, 0, 0, false⟩, ⟨0, 0, 0, 32, 32, 0, 0, 0, false⟩,
    ⟨9, 0, 9, 160, 160, 50, 50, 0, false⟩, ⟨0, 0, 0, 255, 255, 10, 10, 0, false⟩,
    ⟨0, 0, 0, 200, 200, 0, 3, 0, true⟩, ⟨0, 0, 0, 255, 255, 50, 50, 0, false⟩,
    ⟨3, 0, 3, 255, 255, 15, 15, 0, false⟩, ⟨0, 0, 0, 255, 255, 5, 10, 3, false⟩,
    ⟨7, 7, 7, 255, 0, 25, 25, 1, false⟩, ⟨0, 0, 0, 128, 128, 0, 0, 0, false⟩,
    ⟨0, 0, 0, 255, 255, 50, 200, 0, false⟩, ⟨5, 0, 5, 255, 255, 10, 10, 0, false⟩,
    ⟨9, 0, 9, 64, 64, 50, 50, 0, false⟩, ⟨0, 0, 0, 255, 255, 0, 3, 0, true⟩,
    ⟨0, 0, 0, 255, 255, 5, 5, 5, false⟩, ⟨0, 13, 0, 255, 0, 0, 0, 0, false⟩]

/-- The default AUTO map (R150). -/
def AutoEntry.defaults : Vector AutoEntry 8 :=
  #v[⟨none, none⟩, ⟨some 1, none⟩, ⟨some 2, none⟩, ⟨some 3, none⟩, ⟨some 4, none⟩, ⟨some 5, none⟩,
    ⟨none, some 3⟩, ⟨none, some 5⟩]

/-- A dark channel under AUTO (R150). -/
def Channel.reset : Channel :=
  { auto := none, order := none, locate := none, deadline := none, locateTimer := none, layer := .auto,
    pattern := none, level := 0, phase := .rest, gate := .closed, count := 0, openings := 0, group := 0 }

/-- LGT after power-on reset (R150). -/
def Lgt.reset : Lgt :=
  { chans := Vector.replicate 48 .reset, patterns := Pattern.defaults, autoMap := AutoEntry.defaults,
    cond := Vector.replicate 24 .empty, warn := Vector.replicate 24 false, stepTimer := some envelopeStepMs }

/-- EXP after power-on reset (R167).  The writing of the whole mirror stands in `resetWrite`; the mark of
FANU's first estimate is the one entry added during it (R167; notes/assumptions/10.md). -/
def Exp.reset : Exp :=
  { slots := Vector.replicate 32 ⟨.free, 0, 0⟩, pointer := 31, summary := 0, enable := 0, doneEnable := false,
    freezeBit := false, freezeActive := false, freezeExpired := false, ready := false, collisions := 0,
    freezeTimer := none, dirty := [⟨.budget, true⟩],
    resetWrite := some ⟨allRecords.map fun r => ⟨r, false⟩, false⟩, thawLeft := [],
    counts := Vector.replicate 69 0, histPending := Vector.replicate 24 0xFF, stepMarks := [], stepDone := false }

/-- A pattern record's 32 bytes (section 10.7). -/
def encodePattern (p : Pattern) : List Byte :=
  [byte (p.attack.val + 16 * p.decay.val), byte (p.release.val + 16 * bit p.activity), byte p.peak, byte p.sustain,
    byte p.onTime, byte p.offTime, byte p.repeats] ++ List.replicate 25 0

/-- The 16 bytes of an AUTO map (section 10.7). -/
def encodeAutoMap (m : Vector AutoEntry 8) : List Byte :=
  m.toList.flatMap fun e => [patByte e.status, patByte e.attention]

/-- What LGT writes into the exchange memory at power-on reset (R150): the defaults of the pattern area and
the AUTO map area.  Nothing else is written then (R167). -/
def writeLightDefaults (m : Memory) : Memory :=
  ((List.finRange 16).foldl (fun m i => m.writeBytes (patternBase i) (encodePattern Pattern.defaults[i])) m).writeBytes
    autoMapBase (encodeAutoMap AutoEntry.defaults)

/-- The pins with no drive in any bay. -/
def Pins.quiet : Pins := { presence := Vector.replicate 24 .absent, powerGood := Vector.replicate 24 false }

end Sys2Proof.Machine
end

