-- ==== Sys2Proof/Machine/State.lean ====
section
/-! DEFINITION. The state of the 24E: the state of each block under the block's own name, the pins it reads,
the exchange memory, the two counters, and the queue of commands not yet taken. -/

namespace Sys2Proof.Machine

/-- Why the machine stops with a fault.  The spec names none: every event and write has its effect or no
effect, and no data stops the part. -/
inductive Fault where
  deriving DecidableEq, Repr

/-- Why a command has no meaning in the model. -/
inductive Refusal where
  /-- Raised by an arm of `exec` whose command has no meaning yet; none has (safe). -/
  | notModelled (mnemonic : String)
  deriving DecidableEq, Repr

/-- The state of the part (INVENTORY.md, "State"). -/
structure State where
  pins : Pins
  bmon : Bmon
  pseq : Pseq
  sbe : Sbe
  thc : Thc
  fanu : Fanu
  lgt : Lgt
  exp : Exp
  mem : Memory
  clock : Clock
  /-- the model's own field: how many free values have been used (notes/assumptions/4.md) -/
  free : Nat
  pending : List Instr
  deriving DecidableEq, Repr

/-- Every block at its power-on reset values, with the given pins, memory before the reset, queue and free
counter (R167, R174). -/
def State.poweredOn (pins : Pins) (mem : Memory) (free : Nat) (pending : List Instr) : State :=
  { pins, bmon := .reset, pseq := .reset, sbe := .reset, thc := .reset, fanu := .reset, lgt := .reset,
    exp := .reset, mem := writeLightDefaults mem, clock := ⟨0, 0⟩, free, pending }

/-- The part right after power-on reset, with no drive in any bay (notes/assumptions/1.md), nothing written to
the exchange memory but the defaults of R150, and no command waiting. -/
def State.reset : State := .poweredOn .quiet [] 0 []

end Sys2Proof.Machine
end

