-- ==== Sys2Proof/Machine/Ops.lean ====
section
/-! DEFINITION. The named operations every block works with: reading and changing one record, marking a mirror
record dirty, writing a history entry, taking and releasing a charge, completing an order. -/

namespace Sys2Proof.Machine

/-! ### Reading one record -/

/-- The record of a bay. -/
def State.bay (s : State) (b : Bay) : BayRec := s.bmon.bays[b]
/-- The power path of a bay. -/
def State.path (s : State) (b : Bay) : Path := s.pseq.paths[b]
/-- The budget account. -/
def State.account (s : State) : Account := s.pseq.account
/-- The record of a fan. -/
def State.fan (s : State) (f : FanId) : FanRec := s.fanu.fans[f]
/-- What FANU keeps of a fan beside its record. -/
def State.fanWork (s : State) (f : FanId) : FanWork := s.fanu.work[f]
/-- The record of a sensor. -/
def State.sensor (s : State) (i : SensorId) : SensorRec := s.thc.sensors[i]
/-- The record of a zone. -/
def State.zone (s : State) (z : ZoneId) : ZoneRec := s.thc.zones[z]
/-- A light channel. -/
def State.chan (s : State) (c : Chan) : Channel := s.lgt.chans[c]
/-- The slot table's entry of a slot. -/
def State.slot (s : State) (n : SlotId) : Slot := s.exp.slots[n]

/-- Whether a timer runs. -/
def Timer.running (t : Timer) : Bool := t.isSome

/-! ### Marks (R159, R161) -/

/-- A mark's effect on the dirty set: a record not in the set is added at its end with the mark's notice, a
record in it keeps its place and gathers the notice (R161). -/
def addMark (r : MirrorRec) (notice : Bool) : List DirtyEntry → List DirtyEntry
  | [] => [⟨r, notice⟩]
  | e :: rest => if e.record = r then ⟨r, e.notice || notice⟩ :: rest else e :: addMark r notice rest

/-- Note a record among those the present step marked (R156, R176). -/
def noteMark (r : MirrorRec) (marks : List MirrorRec) : List MirrorRec :=
  if r ∈ marks then marks else marks ++ [r]

/-- An owner marks a mirror record dirty. -/
def mark (r : MirrorRec) (notice : Bool) (s : State) : State :=
  { s with exp := { s.exp with dirty := addMark r notice s.exp.dirty, stepMarks := noteMark r s.exp.stepMarks } }

/-- Mark when a condition holds. -/
def markIf (c : Bool) (r : MirrorRec) (notice : Bool) (s : State) : State := if c then mark r notice s else s

/-- Take the number of the next free value. -/
def useFree (s : State) : State := { s with free := s.free + 1 }

/-! ### Bay records (R1, R19, R23) -/

/-- Change a bay's record, and mark it dirty if the change changes a field (R23). -/
def updBay (b : Bay) (f : BayRec → BayRec) (s : State) : State :=
  markIf (decide (f (s.bay b) ≠ s.bay b)) (.bay b) true
    { s with bmon := { s.bmon with bays := s.bmon.bays.set b (f (s.bay b)) } }

/-- The history ring after one more event (R19). -/
def BayRec.pushed (r : BayRec) (ev : HistEvent) (stamp : Word) : BayRec :=
  { r with ring := r.ring.set r.head (some ⟨r.nextSeq, ev, stamp⟩), head := r.head + 1, nextSeq := r.nextSeq + 1 }

/-- BMON writes a history entry (R19): the position it fills is written with the bay record (R162). -/
def pushHistory (b : Bay) (ev : HistEvent) (s : State) : State :=
  let filled : Byte := 1#8 <<< (s.bay b).head.val
  updBay b (fun r => r.pushed ev s.clock.uptime)
    { s with exp := { s.exp with histPending := s.exp.histPending.set b (s.exp.histPending[b] ||| filled) } }

/-- Set a bay's debounce timer (R3). -/
def setDebounce (b : Bay) (t : Timer) (s : State) : State :=
  { s with bmon := { s.bmon with debounce := s.bmon.debounce.set b t } }

/-- Set a bay's replug window (R7). -/
def setReplug (b : Bay) (t : Timer) (s : State) : State :=
  { s with bmon := { s.bmon with replug := s.bmon.replug.set b t } }

/-! ### The account and the queue (R25, R26, R30, R44) -/

/-- What the budget record shows of PSEQ (R44): the account but for the stagger's timer and its tick count, and
the two classes of the queue. -/
def Pseq.shown (p : Pseq) : Account × List QEntry × List QEntry :=
  ({ p.account with staggerTimer := none, sinceAdmission := none }, p.urgent, p.normal)

/-- Change PSEQ's state, and mark the budget record dirty if a value it shows changes (R44). -/
def updPseq (f : Pseq → Pseq) (s : State) : State :=
  markIf (decide ((f s.pseq).shown ≠ s.pseq.shown)) .budget true { s with pseq := f s.pseq }

/-- Change the account. -/
def updAccount (f : Account → Account) (s : State) : State := updPseq (fun p => { p with account := f p.account }) s

/-- Change a bay's power path. -/
def updPath (b : Bay) (f : Path → Path) (s : State) : State :=
  { s with pseq := { s.pseq with paths := s.pseq.paths.set b (f (s.path b)) } }

/-- The units a charge record claims (R26). -/
def chargeUnits : Option ChargeRecord → Nat
  | none => 0
  | some c =>
    match c.held with
    | .inrush => c.pair.inrush
    | .steady => c.pair.steady

/-! ### Completing an order (R156) -/

/-- The 64 bytes of a result area (section 10.3, R156, R170): what the detail leaves out is absent. -/
def resultArea (r : Result) (tag : Half) (uptime : Word) (detail : List Byte) : List Byte :=
  [r.code, 0] ++ le16 tag.toNat ++ le32 uptime.toNat ++ (detail ++ absent 56).take 56

/-- Complete the order in a slot: write the result area, move the slot from TAKEN to DONE (R156).  Only a TAKEN
slot is completed.  The records the step marked are written at the step's end (`finishStep`). -/
def complete (n : SlotId) (r : Result) (detail : List Byte) (s : State) : State :=
  if (s.slot n).state = .taken then
    { s with
      mem := s.mem.writeBytes (resultBase n) (resultArea r (s.slot n).tag s.clock.uptime detail)
      exp := { s.exp with slots := s.exp.slots.set n { s.slot n with state := .done }, stepDone := true } }
  else s

/-- Complete an order whose slot a port reset may have taken away. -/
def completeOpt (o : Option SlotId) (r : Result) (detail : List Byte) (s : State) : State :=
  match o with
  | none => s
  | some n => complete n r detail s

/-! ### Taking an order (R155) -/

/-- The slots in the order the dispatcher looks at them: after the pointer, ascending, wrapping from 31 to 0. -/
def takeOrder (pointer : SlotId) : List SlotId := (List.finRange 32).map fun i => pointer + i + 1

/-- The slot the dispatcher takes next: the first POSTED one (R155). -/
def nextPosted (s : State) : Option SlotId := (takeOrder s.exp.pointer).find? fun n => (s.slot n).state = .posted

/-- The kind byte and the tag of a slot's order area (section 10.3). -/
def orderKind (s : State) (n : SlotId) : Byte := s.mem.read (slotBase n)
def orderTag (s : State) (n : SlotId) : Half := BitVec.ofNat 16 (s.mem.read16 (slotBase n + 2))

/-- Argument byte `i` of a slot (section 10.4). -/
def argByte (s : State) (n : SlotId) (i : Nat) : Byte := s.mem.read (argBase n + i)
/-- The 16-bit argument at byte `i`. -/
def arg16 (s : State) (n : SlotId) (i : Nat) : Nat := s.mem.read16 (argBase n + i)

/-- The dispatcher takes a slot: the pointer moves to it, it goes from POSTED to TAKEN, and its kind and tag are
copied (R155).  The owner takes the order in the same step, so its arguments are read as they stand. -/
def takeSlot (n : SlotId) (s : State) : State :=
  { s with exp := { s.exp with
      pointer := n
      slots := s.exp.slots.set n { state := .taken, kind := orderKind s n, tag := orderTag s n } } }

/-- The slot a take of one kind concerns: the one the dispatcher takes next, where it holds that kind
(notes/assumptions/14.md). -/
def takeKind (k : Kind) (s : State) : Option SlotId :=
  match nextPosted s with
  | none => none
  | some n => if Kind.ofCode (orderKind s n) = some k then some n else none

/-- The slot of a take whose kind code names no order kind (R156). -/
def takeBadKind (s : State) : Option SlotId :=
  match nextPosted s with
  | none => none
  | some n => if Kind.ofCode (orderKind s n) = none then some n else none

/-- Read a byte as a bay number 0 to 23. -/
def bayOf (b : Byte) : Option Bay := if h : b.toNat < 24 then some ⟨b.toNat, h⟩ else none
/-- Read a byte as a fan number 0 to 7. -/
def fanOf (b : Byte) : Option FanId := if h : b.toNat < 8 then some ⟨b.toNat, h⟩ else none

end Sys2Proof.Machine
end

