-- ==== Sys2Proof/Machine/Flags.lean ====
section
/-! DEFINITION. What is read off the state and not held beside it: sensor states (R85, R87), the room (R28), the
registers as the host reads them (R151, R152), the interrupt line (R158) and the output pins. -/

namespace Sys2Proof.Machine

/-- The state of a drive sensor (R85). -/
def driveState (active : Bool) (r : SensorRec) : SensorState :=
  if active then
    match r.value with
    | some _ => if r.fails ≤ 2 then .valid else if r.fails ≤ 9 then .stale else .lost
    | none => if r.fails ≤ 2 then .absent else .lost
  else .absent

/-- The state of a board sensor (R87). -/
def boardState (fitted : Bool) (r : SensorRec) : SensorState :=
  if fitted then
    match r.value with
    | some _ => if r.fails ≤ 3 then .valid else if r.fails ≤ 39 then .stale else .lost
    | none => if r.fails ≤ 3 then .absent else .lost
  else .absent

/-- The state of a sensor (R83). -/
def sensorState (t : Thc) (i : SensorId) : SensorState :=
  if h : i.val < 24 then driveState (t.facts[(⟨i.val, h⟩ : Bay)]).active t.sensors[i]
  else boardState (t.fitted[(⟨i.val - 24, by omega⟩ : Fin 8)]) t.sensors[i]

/-- The room of the account (R28), which may be negative. -/
def room (a : Account) : Int := a.settings.capacity - max a.settings.floor a.fanEstimate - a.drives

/-- The room as the budget record shows it: 0 when it is negative (R28). -/
def roomShown (a : Account) : Nat := (room a).toNat

/-- The entries a history ring holds (R19). -/
def BayRec.held (r : BayRec) : Nat := r.ring.toList.countP Option.isSome

/-- The set of slots in a state, as a bitmap. -/
def slotSet (e : Exp) (st : SlotState) : Word :=
  (List.finRange 32).foldl (fun acc n => if e.slots[n].state = st then acc ||| (1#32 <<< n.val) else acc) 0

/-- ORDER POST as read (R151). -/
def orderPostReg (s : State) : Word := slotSet s.exp .posted
/-- ORDER DONE as read (R151). -/
def orderDoneReg (s : State) : Word := slotSet s.exp .done
/-- CHANGE SUMMARY as read (R151). -/
def changeSummaryReg (s : State) : Word := s.exp.summary
/-- CHANGE ENABLE as read (R151). -/
def changeEnableReg (s : State) : Word := s.exp.enable
/-- PORT CONTROL as read (R152). -/
def portControlReg (s : State) : Word := BitVec.ofNat 32 (bit s.exp.doneEnable + 2 * bit s.exp.freezeBit)
/-- PORT STATUS as read (R152), with layout version 1. -/
def portStatusReg (s : State) : Word :=
  BitVec.ofNat 32 (bit s.exp.ready + 2 * bit s.exp.freezeActive + 4 * bit s.exp.freezeExpired
    + 256 * s.exp.collisions + 65536)

/-- One half of a register (R151). -/
def regHalf (w : Word) : RegHalf → Half
  | .lower => BitVec.ofNat 16 w.toNat
  | .upper => BitVec.ofNat 16 (w.toNat / 65536)

/-- A register as read (R151). -/
def registerWord (s : State) : Register → Word
  | .orderPost => orderPostReg s
  | .orderDone => orderDoneReg s
  | .changeSummary => changeSummaryReg s
  | .changeEnable => changeEnableReg s
  | .portControl => portControlReg s
  | .portStatus => portStatusReg s

/-- What a 16-bit read of the local bus gives at a byte address (R151): a word of the exchange memory, a half of a
register, or nothing where neither stands. -/
def busRead (s : State) (a : Nat) : Option Half :=
  if a < Memory.size then if a % 2 = 0 then some (BitVec.ofNat 16 (s.mem.read16 a)) else none
  else (registerAt a).map fun p => regHalf (registerWord s p.1) p.2

/-- Whether the interrupt line is asserted (R158). -/
def interruptLine (s : State) : Bool :=
  (s.exp.doneEnable && (List.finRange 32).any fun n => (s.slot n).state == .done)
    || (s.exp.summary &&& s.exp.enable) != 0

/-- A freeze holds while the freeze bit and freeze active are 1 (R163). -/
def freezeHolds (s : State) : Bool := s.exp.freezeBit && s.exp.freezeActive

/-- The select line of a bay (R64): asserted during an attempt of its transaction. -/
def selectLine (s : State) (b : Bay) : Bool :=
  match s.sbe.flight with
  | some t => decide (t.entry.bay = b ∧ t.phase = .attempt)
  | none => false

/-- The request byte on the shared pair (R64, R65): an attempt sends the item code of its transaction; between two
attempts, during a defer spacing and with no transaction the pair is idle. -/
def requestByte (s : State) : Option Byte :=
  match s.sbe.flight with
  | some t => if t.phase = .attempt then some t.entry.item.code else none
  | none => none

/-- The brightness a channel's PWM output shows (R133). -/
def brightness (s : State) (c : Chan) : Nat := (s.chan c).level / 256

/-- The duty on a fan's PWM output (R118). -/
def fanPwm (s : State) (f : FanId) : Nat := (s.fan f).duty

end Sys2Proof.Machine
end

