-- ==== Sys2Proof/Machine/Records.lean ====
section
/-! DEFINITION. The bytes of every mirror record (spec/10_record_layouts.md, section 10.6), less the update count
that ends each (R161).  Reserved bytes are 0 (R169), absent fields as R170 states. -/

namespace Sys2Proof.Machine

/-- A history position (section 10.6); one never written holds the empty encoding (R170). -/
def encodeHist : Option HistEntry → List Byte
  | none => absent 8
  | some e => le16 e.seq.toNat ++ [e.event.kindCode, e.event.detail] ++ le32 e.stamp.toNat

/-- The flag byte of a bay record (byte 1). -/
def bayFlags (r : BayRec) : Byte :=
  byte (bit (r.state = .stopping ∧ r.stopPhase = some .hold) + 2 * bit (r.state = .settling ∧ r.settlingFrom = some .present)
    + 4 * bit r.unrecognised + 8 * bit r.healthWarn + 16 * bit r.identity.isSome
    + 32 * bit (r.charge.map ChargeRecord.held = some .steady))

/-- The policy byte of a bay record (byte 9). -/
def policyByte (p : Policy) : Byte := byte (bit p.autoOn + 2 * bit p.useLearned + 16 * p.levelMask.toNat)

/-- The identity of a bay record: all 21 bytes 0 when absent (R170). -/
def encodeIdentity : Option Identity → List Byte
  | none => List.replicate 21 0
  | some i => i.classByte :: i.serial.toList

/-- An optional 32-bit field (R170). -/
def optWord : Option Word → List Byte
  | none => absent 4
  | some w => le32 w.toNat

/-- Bay record, bytes 0 to 62. -/
def encodeBay (s : State) (b : Bay) : List Byte :=
  let r := s.bay b
  let st := s.chan (statusChan b)
  let at' := s.chan (attentionChan b)
  [r.state.code, bayFlags r, optByte (r.faultCause.map FaultCause.code), byte r.replugCount, r.driveClass.code,
    optByte (r.lastGood.map fun l => byte l.val), byte ((r.charge.map fun c => c.pair.inrush).getD 0),
    byte ((r.charge.map fun c => c.pair.steady).getD 0), slotByte r.powerOrder, policyByte r.policy,
    byte r.policy.startLevel.val, byte r.policy.shedTemp, byte (sensorState s.thc (driveSensor b)).code,
    byte r.head.val]
  ++ le16 r.nextSeq.toNat ++ [byte r.held] ++ encodeIdentity r.identity
  ++ [st.layer.code, patByte st.pattern, patByte st.order, byte st.group.val]
  ++ [at'.layer.code, patByte at'.pattern, patByte at'.order, patByte at'.locate, byte at'.group.val]
  ++ [0] ++ optWord at'.deadline ++ List.replicate 11 0

/-- The learn table of a fan record: 8 positions of RPM ÷ 5. -/
def encodeTable (t : List (Fin 8 × Nat)) : List Byte :=
  ((t.map fun p => le16 (p.2 / 5)) ++ List.replicate (8 - t.length) (absent 2)).flatten.take 16

/-- Fan record, bytes 0 to 30. -/
def encodeFan (r : FanRec) : List Byte :=
  [byte (r.state.code + 8 * r.kicks + 32 * bit r.installed + 64 * bit r.saturated + 128 * bit r.fullSpeed.isSome),
    byte r.maxUnits]
  ++ le16 r.threshold ++ le16 r.duty ++ le32 (r.lastCount + 2 ^ 12 * r.rpm + 2 ^ 30 * (r.ppr - 1))
  ++ le32 (r.learnedMin + 2 ^ 10 * r.fullSpeed.getD 0 + 2 ^ 28 * r.table.length)
  ++ encodeTable r.table ++ [r.learnMask]

/-- The member fans of a zone as a bitmap (R91). -/
def memberFans (t : Thc) (z : ZoneId) : Nat :=
  ((List.finRange 8).map fun f => if t.fanZone[f] = z then 2 ^ f.val else 0).sum

/-- Zone record, bytes 0 to 62. -/
def encodeZone (t : Thc) (z : ZoneId) : List Byte :=
  let r := t.zones[z]
  [byte (bit r.failsafe + 2 * bit r.clamped + 4 * bit r.preloadActive), optByte (t.bank.map Bank.code),
    byte r.failedCount, byte (memberFans t z)]
  ++ le32 r.sensors.toNat ++ le16s r.excess ++ le16 r.d1 ++ le16 r.d2 ++ le16 r.d3 ++ le16 r.output
  ++ List.replicate 45 0

/-- Sensor record, bytes 0 to 6. -/
def encodeSensor (t : Thc) (i : SensorId) : List Byte :=
  let r := t.sensors[i]
  let v : Nat := match r.value with
    | some q => (q % 1024).toNat
    | none => 0
  le16 (v + 2 ^ 10 * (sensorState t i).code + 2 ^ 12 * bit r.value.isSome) ++ optWord r.lastSuccess ++ [byte r.fails]

/-- The settings, laid out as the BUDGET SET arguments (section 10.4). -/
def encodeSettings (c : Settings) : List Byte :=
  le16 c.capacity ++ le16 c.floor ++ [byte c.stagger, byte c.maxConcurrent, byte c.rotating.inrush,
    byte c.rotating.steady, byte c.solid.inrush, byte c.solid.steady, byte c.rotatingSpin, byte c.solidSpin]

/-- The queue view (R44): every URGENT entry, then every NORMAL entry. -/
def queueView (p : Pseq) : List QEntry := p.urgent ++ p.normal

/-- Budget record, bytes 0 to 254. -/
def encodeBudget (p : Pseq) : List Byte :=
  let a := p.account
  encodeSettings a.settings ++ le16 a.drives ++ le16 a.fanEstimate ++ le16 (roomShown a)
  ++ [byte a.starting, a.blocked.code, byte (queueView p).length] ++ List.replicate 3 0
  ++ (((queueView p).map fun e => [byte e.bay.val, e.cls.code]).flatten ++ absent 48).take 48
  ++ List.replicate 183 0

/-- A mirror record's bytes before its update count. -/
def encodeRecord (s : State) : MirrorRec → List Byte
  | .bay b => encodeBay s b
  | .fan f => encodeFan (s.fan f)
  | .zone z => encodeZone s.thc z
  | .sensor i => encodeSensor s.thc i
  | .budget => encodeBudget s.pseq

end Sys2Proof.Machine
end

