-- ==== Sys2Proof/Machine/Mirror.lean ====
section
/-! DEFINITION. Writing the mirror (R160, R161, R162, R164, R166) and the end of a step (R156, R176). -/

namespace Sys2Proof.Machine

/-- The ring positions in ring order: from the one the next entry will take, the oldest place. -/
def ringOrder (head : Fin 8) : List (Fin 8) := (List.finRange 8).map fun i => head + i

/-- With bay record n, EXP writes the positions of its ring filled since its last write (R162); after power-on
reset, every position (R167). -/
def writeHistory (b : Bay) (s : State) (m : Memory) : Memory :=
  (ringOrder (s.bay b).head).foldl
    (fun m p => if (s.exp.histPending[b]).getLsbD p.val then m.writeBytes (historyBase b p) (encodeHist (s.bay b).ring[p]) else m) m

/-- The history written with a record: that of its bay, for a bay record. -/
def writeRecordHistory (r : MirrorRec) (s : State) (m : Memory) : Memory :=
  match r with
  | .bay b => writeHistory b s m
  | .fan _ | .zone _ | .sensor _ | .budget => m

/-- The ring positions still to write after a record is written. -/
def clearHistPending (r : MirrorRec) (v : Vector Byte 24) : Vector Byte 24 :=
  match r with
  | .bay b => v.set b 0
  | .fan _ | .zone _ | .sensor _ | .budget => v

/-- CHANGE SUMMARY after a record is written with or without a notice (R160). -/
def summaryAfter (r : MirrorRec) (notice : Bool) (w : Word) : Word :=
  match r.changeBit with
  | none => w
  | some i => if notice then w ||| (1#32 <<< i.val) else w

/-- EXP writes one record: its words in ascending offset order, the update count last, then its change bit if
the entry carried a notice (R161). -/
def writeRecord (r : MirrorRec) (notice : Bool) (s : State) : State :=
  let n := s.exp.counts[r.index] + 1
  { s with
    mem := (writeRecordHistory r s s.mem).writeBytes r.base (encodeRecord s r ++ [n])
    exp := { s.exp with
      counts := s.exp.counts.set r.index n
      histPending := clearHistPending r s.exp.histPending
      summary := summaryAfter r notice s.exp.summary
      thawLeft := s.exp.thawLeft.filter (· ≠ r) } }

/-- Freeze active falls when the last of the records that were dirty at the thaw has been written (R164). -/
def settleThaw (s : State) : State :=
  if s.exp.freezeActive && !s.exp.freezeBit && s.exp.thawLeft.isEmpty then
    { s with exp := { s.exp with freezeActive := false } }
  else s

/-- Change bits 0 to 27 (R166). -/
def recordBits : Word := 0x0FFFFFFF

/-- After the last record of a reset's writing: the change bits where it was a port reset, then ready (R166,
R167). -/
def settleReset (s : State) : State :=
  match s.exp.resetWrite with
  | some ⟨[], setBits⟩ =>
    { s with exp := { s.exp with
        resetWrite := none
        ready := true
        summary := if setBits then s.exp.summary ||| recordBits else s.exp.summary } }
  | some ⟨_ :: _, _⟩ => s
  | none => s

/-- EXP takes the next record to write: of a reset's writing first, then of the dirty set, each in the order
of entry (R161, R166, R167). -/
def writeNext (s : State) : State :=
  match s.exp.resetWrite with
  | some ⟨e :: left, setBits⟩ =>
    settleReset (settleThaw (writeRecord e.record e.notice
      { s with exp := { s.exp with resetWrite := some ⟨left, setBits⟩ } }))
  | some ⟨[], _⟩ => settleReset s
  | none =>
    match s.exp.dirty with
    | [] => s
    | e :: rest => settleThaw (writeRecord e.record e.notice { s with exp := { s.exp with dirty := rest } })

/-- Write one of the step's records ahead of the rest of the dirty set (R156, R176). -/
def writeStepRecord (s : State) (r : MirrorRec) : State :=
  match s.exp.dirty.find? (fun e => e.record = r) with
  | none => s
  | some e =>
    settleThaw (writeRecord r e.notice
      { s with exp := { s.exp with dirty := s.exp.dirty.filter (fun e => e.record ≠ r) } })

/-- The end of a step: where the step completed an order and no freeze holds, the records it marked are
written (R156, R176; notes/assumptions/9.md); the model's note of the step is emptied. -/
def finishStep (s : State) : State :=
  let s' := if s.exp.stepDone && !freezeHolds s then s.exp.stepMarks.foldl writeStepRecord s else s
  { s' with exp := { s'.exp with stepMarks := [], stepDone := false } }

end Sys2Proof.Machine
end

