-- ==== Sys2Proof/Machine/Lights.lean ====
section
/-! DEFINITION. The Light Engine (spec/08_bay_lights.md): envelopes, gates, layers and sync groups, as functions
of LGT's own state, and the hand-over of its published changes to BMON (R149).

A function that may open a gate answers the new LGT state together with the channels a sync restart reopened:
an envelope step does not step those again (R148). -/

namespace Sys2Proof.Machine

/-- Change one channel. -/
def Lgt.setChan (l : Lgt) (c : Chan) (ch : Channel) : Lgt := { l with chans := l.chans.set c ch }

/-! ### Envelopes (R136, R137) -/

/-- The increment of a time code from 1 to 15 (R136). -/
def increment (code : Fin 16) : Nat := 65536 / 2 ^ (code.val - 1)

/-- The level of a brightness (R137). -/
def levelOf (brightness : Nat) : Nat := brightness * 257

/-- DECAY begins; with code 0, or already at its target, it ends at once (R136, R137). -/
def beginDecay (p : Pattern) (ch : Channel) : Channel :=
  if p.decay = 0 ∨ ch.level = levelOf p.sustain then { ch with level := levelOf p.sustain, phase := .sustain }
  else { ch with phase := .decay }

/-- ATTACK begins (R137). -/
def beginAttack (p : Pattern) (ch : Channel) : Channel :=
  if p.attack = 0 ∨ ch.level = levelOf p.peak then beginDecay p { ch with level := levelOf p.peak }
  else { ch with phase := .attack }

/-- RELEASE begins (R137). -/
def beginRelease (p : Pattern) (ch : Channel) : Channel :=
  if p.release = 0 ∨ ch.level = 0 then { ch with level := 0, phase := .rest } else { ch with phase := .release }

/-- One step of the level toward the target of its phase (R136, R137).  A phase that reaches its target hands
over, and the next phase takes its first step at the next expiry. -/
def moveLevel (p : Pattern) (ch : Channel) : Channel :=
  match ch.phase with
  | .attack =>
    if levelOf p.peak ≤ ch.level + increment p.attack then beginDecay p { ch with level := levelOf p.peak }
    else { ch with level := ch.level + increment p.attack }
  | .decay =>
    if ch.level ≤ levelOf p.sustain + increment p.decay then { ch with level := levelOf p.sustain, phase := .sustain }
    else { ch with level := ch.level - increment p.decay }
  | .release =>
    if ch.level ≤ increment p.release then { ch with level := 0, phase := .rest }
    else { ch with level := ch.level - increment p.release }
  | .sustain => ch
  | .rest => ch

/-- A dark channel (R137, R141). -/
def darken (ch : Channel) : Channel :=
  { ch with level := 0, phase := .rest, gate := .closed, count := 0, openings := 0 }

/-! ### Sync groups (R148) -/

/-- Whether a pattern cycles: on time and off time of 1 or more and the activity flag clear. -/
def Pattern.cycles (p : Pattern) : Bool := decide (1 ≤ p.onTime) && decide (1 ≤ p.offTime) && !p.activity

/-- Whether a channel is cycling (R148); a dark one is not. -/
def cycling (l : Lgt) (c : Chan) : Bool :=
  match l.chans[c].pattern with
  | none => false
  | some p => l.patterns[p].cycles

/-- The leader of a group: its lowest-numbered cycling member (R148); group 0 is no group. -/
def leader (l : Lgt) (g : Fin 5) : Option Chan :=
  if g = 0 then none else (List.finRange 48).find? fun c => l.chans[c].group = g ∧ cycling l c = true

/-- Whether a channel is in its last opening (R138): its openings have reached a repeat of 1 or more. -/
def lastOpening (p : Pattern) (ch : Channel) : Bool := decide (p.repeats ≠ 0) && decide (p.repeats ≤ ch.openings)

/-- A channel's gate opens as a new opening: fresh on time, ATTACK from the present level (R138). -/
def newOpening (p : Pattern) (ch : Channel) : Channel :=
  beginAttack p { ch with gate := .opened, count := 0, openings := min (ch.openings + 1) 255 }

/-- A sync restart of one member (R148). -/
def syncRestart (l : Lgt) (c : Chan) : Lgt :=
  match l.chans[c].pattern with
  | none => l
  | some p => l.setChan c (newOpening l.patterns[p] l.chans[c])

/-- Whether an opening of `c` restarts `d`: a cycling member of the same group, not in its last opening. -/
def follows (l : Lgt) (c d : Chan) : Bool :=
  decide (d ≠ c) && decide (l.chans[d].group = l.chans[c].group) && cycling l d &&
    match l.chans[d].pattern with
    | none => false
    | some p => !lastOpening l.patterns[p] l.chans[d]

/-- The members an opening of `c` restarts: none unless `c` leads its group (R148). -/
def followers (l : Lgt) (c : Chan) : List Chan :=
  if leader l l.chans[c].group = some c then (List.finRange 48).filter (follows l c) else []

/-- A gate has opened: if it is a leader's, the other cycling members make their sync restarts (R148). -/
def gateOpened (l : Lgt) (c : Chan) : Lgt × List Chan :=
  let ds := followers l c
  (ds.foldl syncRestart l, ds)

/-! ### Driving (R140, R141) -/

/-- The driving layer and its pattern (R140). -/
def driving (ch : Channel) : Layer × Option PatId :=
  match ch.locate with
  | some p => (.locate, some p)
  | none =>
    match ch.order with
    | some p => (.order, some p)
    | none => (.auto, ch.auto)

/-- A fresh cycle of the driving pattern: the level lowered to its peak, the gate open, openings 1, ATTACK
(R138, R141). -/
def freshCycle (l : Lgt) (c : Chan) : Lgt × List Chan :=
  match l.chans[c].pattern with
  | none => (l, [])
  | some p =>
    let pt := l.patterns[p]
    let ch := l.chans[c]
    gateOpened (l.setChan c (beginAttack pt
      { ch with level := min ch.level (levelOf pt.peak), gate := .opened, count := 0, openings := 1 })) c

/-- Let the layer that should drive the channel drive it from now on, with a fresh cycle, or dark (R141). -/
def startDriving (l : Lgt) (c : Chan) : Lgt × List Chan :=
  let ch := l.chans[c]
  let d := driving ch
  let ch' := { ch with layer := d.1, pattern := d.2 }
  match d.2 with
  | none => (l.setChan c (darken ch'), [])
  | some _ => freshCycle (l.setChan c ch') c

/-- Choose the driving layer again (R140): nothing happens unless the driving layer or pattern changes. -/
def chooseDriving (l : Lgt) (c : Chan) : Lgt × List Chan :=
  if driving l.chans[c] = (l.chans[c].layer, l.chans[c].pattern) then (l, []) else startDriving l c

/-! ### The AUTO layer (R142) -/

/-- The AUTO pattern of a channel (R142). -/
def autoPattern (l : Lgt) (c : Chan) : Option PatId :=
  let cond := l.cond[chanBay c]
  if isAttention c then
    if cond = .active ∧ l.warn[chanBay c] = true then l.autoMap[Condition.index .healthWarn].attention
    else l.autoMap[cond.index].attention
  else l.autoMap[cond.index].status

/-- Work out a channel's AUTO pattern again (R142). -/
def refreshAuto (l : Lgt) (c : Chan) : Lgt :=
  (chooseDriving (l.setChan c { l.chans[c] with auto := autoPattern l c }) c).1

/-- BMON hands LGT a bay's condition and health warning (R21, R142). -/
def Lgt.handOver (l : Lgt) (b : Bay) (cond : Condition) (warn : Bool) : Lgt :=
  refreshAuto (refreshAuto { l with cond := l.cond.set b cond, warn := l.warn.set b warn } (statusChan b))
    (attentionChan b)

/-- A new AUTO map: every AUTO pattern is worked out again (R143), channel by channel: a leader's sync restarts reach
members still under their old pattern (DESIGN CHOICE, notes/assumptions/33.md). -/
def Lgt.setAutoMap (l : Lgt) (m : Vector AutoEntry 8) : Lgt :=
  (List.finRange 48).foldl refreshAuto { l with autoMap := m }

/-! ### The ORDER and LOCATE layers (R144 to R146) -/

/-- LIGHT SET of a pattern: the ORDER layer is set, and if it drives, a fresh cycle begins, even with the same
index (R144). -/
def Lgt.setOrder (l : Lgt) (c : Chan) (p : PatId) : Lgt :=
  let l' := l.setChan c { l.chans[c] with order := some p }
  if (driving l'.chans[c]).1 = .order then (startDriving l' c).1 else (chooseDriving l' c).1

/-- The ORDER layer is emptied (R144, R146). -/
def emptyOrder (l : Lgt) (c : Chan) : Lgt × List Chan :=
  chooseDriving (l.setChan c { l.chans[c] with order := none }) c

/-- LOCATE sets the layer, its timer and its deadline, and begins a fresh cycle (R145). -/
def Lgt.setLocate (l : Lgt) (c : Chan) (p : PatId) (timer : Timer) (deadline : Option Word) : Lgt :=
  (startDriving (l.setChan c { l.chans[c] with locate := some p, locateTimer := timer, deadline := deadline }) c).1

/-- The LOCATE layer is emptied, its timer stopped, its deadline made absent (R145, R146). -/
def emptyLocate (l : Lgt) (c : Chan) : Lgt × List Chan :=
  chooseDriving (l.setChan c { l.chans[c] with locate := none, locateTimer := none, deadline := none }) c

/-- A finite pattern has ended (R138): AUTO begins it again, an ORDER or LOCATE layer ends (R142, R146). -/
def patternEnd (l : Lgt) (c : Chan) : Lgt × List Chan :=
  match l.chans[c].layer with
  | .auto => freshCycle l c
  | .order => emptyOrder l c
  | .locate => emptyLocate l c

/-! ### The gate (R138, R139) and the envelope step (R136) -/

/-- After the gate has closed for the last time: the pattern ends when the level is 0 (R138). -/
def closedLast (l : Lgt) (c : Chan) (ch : Channel) : Lgt × List Chan :=
  if ch.level = 0 then patternEnd (l.setChan c ch) c else (l.setChan c ch, [])

/-- One envelope step of a channel that is not dark: the gate change that falls due, or else the move of the
level.  A phase that a gate change begins takes its first step at the next expiry (section 8.9;
notes/assumptions/12.md). -/
def stepChannel (l : Lgt) (c : Chan) (p : Pattern) : Lgt × List Chan :=
  let ch := l.chans[c]
  match ch.gate with
  | .opened =>
    if p.onTime = 0 then (l.setChan c (moveLevel p ch), [])
    else if ch.count + 1 < 5 * p.onTime then (l.setChan c (moveLevel p { ch with count := ch.count + 1 }), [])
    else if lastOpening p ch then closedLast l c (beginRelease p { ch with gate := .closed, count := 0 })
    else if p.offTime = 0 then gateOpened (l.setChan c (newOpening p ch)) c
    else (l.setChan c (beginRelease p { ch with gate := .closed, count := 0 }), [])
  | .closed =>
    if lastOpening p ch then closedLast l c (moveLevel p ch)
    else if ch.count + 1 < 5 * p.offTime then (l.setChan c (moveLevel p { ch with count := ch.count + 1 }), [])
    else gateOpened (l.setChan c (newOpening p ch)) c
  | .dip =>
    if ch.count + 1 < 5 * p.offTime then (l.setChan c (moveLevel p { ch with count := ch.count + 1 }), [])
    else (l.setChan c (beginAttack p { ch with gate := .opened, count := 0 }), [])

/-- One envelope step of one channel, unless a sync restart in this step has just reopened it: its own opening
that falls due counts once (R148). -/
def stepOne (acc : Lgt × List Chan) (c : Chan) : Lgt × List Chan :=
  if c ∈ acc.2 then acc
  else
    match acc.1.chans[c].pattern with
    | none => acc
    | some p =>
      let r := stepChannel acc.1 c acc.1.patterns[p]
      (r.1, acc.2 ++ r.2)

/-- The envelope step of all 48 channels (R136), in ascending order. -/
def Lgt.envelopeStep (l : Lgt) : Lgt := ((List.finRange 48).foldl stepOne (l, [])).1

/-- A rising edge of the activity input at one channel (R139).  With an off time of 0 ATTACK begins from the level held
at the edge, for a release code of 0 too: no RELEASE begins, so none is instant (DEDUCED, notes/assumptions/32.md). -/
def activityDip (l : Lgt) (c : Chan) : Lgt :=
  let ch := l.chans[c]
  match ch.pattern with
  | none => l
  | some i =>
    let p := l.patterns[i]
    if p.activity = true ∧ ch.gate = .opened ∧ lastOpening p ch = false then
      if p.offTime = 0 then l.setChan c (beginAttack p { ch with gate := .opened, count := 0 })
      else l.setChan c (beginRelease p { ch with gate := .dip, count := 0 })
    else l

/-! ### Patterns (R135) and groups (R147) -/

/-- Restart a channel whose driving pattern lies in the loaded range (R135). -/
def restartLoaded (first count : Nat) (l : Lgt) (c : Chan) : Lgt :=
  match l.chans[c].pattern with
  | none => l
  | some p => if first ≤ p.val ∧ p.val < first + count then (freshCycle l c).1 else l

/-- An accepted PATTERN LOAD: the records in their places, then the restarts (R135), channel by channel (DESIGN CHOICE,
notes/assumptions/33.md). -/
def Lgt.loadPatterns (l : Lgt) (first count : Nat) (table : Vector Pattern 16) : Lgt :=
  (List.finRange 48).foldl (restartLoaded first count) { l with patterns := table }

/-- LIGHT SYNC: a change of group restarts nothing (R147). -/
def Lgt.setGroup (l : Lgt) (c : Chan) (g : Fin 5) : Lgt := l.setChan c { l.chans[c] with group := g }

/-! ### What BMON is told (R149) -/

/-- The published fields of a channel (R149). -/
def Channel.shown (ch : Channel) : (Layer × Option PatId) × (Option PatId × Option PatId) × (Option Word × Fin 5) :=
  ((ch.layer, ch.pattern), (ch.order, ch.locate), (ch.deadline, ch.group))

/-- Whether a published field of a bay's channels differs between two states of LGT. -/
def lightsDiffer (l l' : Lgt) (b : Bay) : Bool :=
  decide (l.chans[statusChan b].shown ≠ l'.chans[statusChan b].shown)
    || decide (l.chans[attentionChan b].shown ≠ l'.chans[attentionChan b].shown)

/-- LGT takes a new state, and reports each change of a published field to BMON, which marks the bay record
dirty (R23, R149). -/
def setLgt (l : Lgt) (s : State) : State :=
  (List.finRange 24).foldl (fun s' b => markIf (lightsDiffer s.lgt l b) (.bay b) true s') { s with lgt := l }

end Sys2Proof.Machine
end

