-- ==== Sys2Proof/Machine/Sensors.lean ====
section
/-! DEFINITION. The sensor table and what reaches the zone table from outside (spec/05_temperature_sensors_and_cooling_zones.md):
THC's part of a bay's two facts, a sensor reading, preload and failed fans. -/

namespace Sys2Proof.Machine

/-- The range of a temperature in q (R78, R83, R86). -/
def clampTemp (q : Int) : Int := max (-160) (min 511 q)

/-- A change of a sensor's state is reported: of a drive sensor to BMON, which marks the bay record (R23, R90). -/
def reportSensorState (i : SensorId) (changed : Bool) (s : State) : State :=
  if h : i.val < 24 then markIf changed (.bay ⟨i.val, h⟩) true s else s

/-- THC takes a new state that concerns sensor `i`, and marks the sensor record dirty if its value, state,
failure count or last success changed (R90); a board sensor's mark carries a notice at a change of state (R159).  A
reading that leaves all four as they were, which one of the same uptime second can, marks nothing (DEDUCED,
notes/assumptions/31.md). -/
def setSensor (i : SensorId) (t : Thc) (s : State) : State :=
  let stateChanged := decide (sensorState t i ≠ sensorState s.thc i)
  reportSensorState i stateChanged
    (markIf (stateChanged || decide (t.sensors[i] ≠ s.thc.sensors[i])) (.sensor i)
      (stateChanged && decide (24 ≤ i.val)) { s with thc := t })

/-- A sensor record emptied: no value, no failure, last success kept (R85, R86). -/
def SensorRec.emptied (r : SensorRec) : SensorRec := { r with value := none, fails := 0 }

/-- A sensor record after a successful or failed reading (R84, R86). -/
def SensorRec.read (r : SensorRec) (reading : Option Int) (uptime : Word) : SensorRec :=
  match reading with
  | some q => { value := some (clampTemp q), fails := 0, lastSuccess := some uptime }
  | none => { r with fails := min (r.fails + 1) 255 }

/-! ### The two facts of a bay (R22) -/

/-- THC with a bay's ACTIVE fact turned true: the shed temperature is copied, the hot count is 0 (R85). -/
def Thc.activated (t : Thc) (b : Bay) (shedTemp : Nat) : Thc :=
  { t with facts := t.facts.set b { t.facts[b] with active := true, shedCopy := shedTemp, hot := 0 } }

/-- THC with a bay's ACTIVE fact turned false: the drive sensor is emptied (R85). -/
def Thc.deactivated (t : Thc) (b : Bay) : Thc :=
  { t with
    facts := t.facts.set b { t.facts[b] with active := false, hot := 0 }
    sensors := t.sensors.set (driveSensor b) t.sensors[driveSensor b].emptied }

/-- BMON hands THC whether a bay is ACTIVE (R22, R85). -/
def setActiveFact (b : Bay) (on : Bool) (s : State) : State :=
  if s.thc.facts[b].active = on then s
  else if on then setSensor (driveSensor b) (s.thc.activated b (s.bay b).policy.shedTemp) s
  else setSensor (driveSensor b) (s.thc.deactivated b) s

/-- Whether a zone's preload is active: a bay whose drive sensor is a member is in RAMPING or SPINNING (R93). -/
def preloadOf (t : Thc) (z : ZoneId) : Bool :=
  (List.finRange 24).any fun b => t.facts[b].starting && t.zones[z].sensors.getLsbD b.val

/-- Every preload-active flag figured anew (R93). -/
def Thc.refreshPreload (t : Thc) : Thc :=
  { t with zones := Vector.ofFn fun z => { t.zones[z] with preloadActive := preloadOf t z } }

/-- BMON hands THC whether a bay is in RAMPING or SPINNING (R22, R93).  The zone record is written with the
next period (notes/assumptions/24.md). -/
def setStartingFact (b : Bay) (on : Bool) (s : State) : State :=
  if s.thc.facts[b].starting = on then s
  else
    let t := s.thc
    { s with thc := { t with facts := t.facts.set b { t.facts[b] with starting := on } }.refreshPreload }

/-! ### Failed fans (R92) -/

/-- The number of a zone's member fans that are in the failed fan set (R92). -/
def failedOf (t : Thc) (z : ZoneId) : Nat := (List.finRange 8).countP fun f => t.failedFans[f] && decide (t.fanZone[f] = z)

/-- Every failed-fan count figured anew (R92). -/
def Thc.refreshFailed (t : Thc) : Thc :=
  { t with zones := Vector.ofFn fun z => { t.zones[z] with failedCount := failedOf t z } }

/-- Mark each zone record whose failed-fan count differs from before, with a notice (R92). -/
def markFailedCounts (before : Vector ZoneRec 4) (s : State) : State :=
  (List.finRange 4).foldl
    (fun s z => markIf (decide ((s.zone z).failedCount ≠ before[z].failedCount)) (.zone z) true s) s

/-- FANU delivers a fan's change into or out of FAILED to THC (R92). -/
def deliverFailed (f : FanId) (failed : Bool) (s : State) : State :=
  markFailedCounts s.thc.zones
    { s with thc := { s.thc with failedFans := s.thc.failedFans.set f failed }.refreshFailed }

/-! ### Deliveries of drive readings (R84, R89) -/

/-- The hot count after an accepted delivery: at 2 a shed request is made and the count is 0 again (R89). -/
def hotAfter (fact : DriveFacts) (reading : Option Int) : Nat × Bool :=
  match reading with
  | none => (0, false)
  | some q =>
    if fact.shedCopy = 0 ∨ clampTemp q < 4 * (fact.shedCopy : Int) then (0, false)
    else if fact.hot + 1 = 2 then (0, true)
    else (fact.hot + 1, false)

/-- SBE delivers a TEMP poll's result to THC: a success with a value, or a failure (R78, R84).  A shed request
joins those PSEQ has still to take (R61, R89). -/
def deliverTemp (b : Bay) (reading : Option Int) (s : State) : State :=
  let fact := s.thc.facts[b]
  if fact.active then
    let h := hotAfter fact reading
    let i := driveSensor b
    let t : Thc := { s.thc with
      facts := s.thc.facts.set b { fact with hot := h.1 }
      sensors := s.thc.sensors.set i (s.thc.sensors[i].read reading s.clock.uptime) }
    let sheds := if h.2 then s.pseq.sheds ++ [⟨b, fact.shedCopy⟩] else s.pseq.sheds
    setSensor i t { s with pseq := { s.pseq with sheds := sheds } }
  else s

/-! ### Board sensors (R86) -/

/-- The read timer expires: a read of every fitted board sensor starts, and the timer restarts (R86). -/
def startBoardReads (s : State) : State :=
  { s with thc := { s.thc with
      reading := Vector.ofFn fun n => s.thc.reading[n] || s.thc.fitted[n]
      readTimer := some boardReadMs } }

/-- A board read ends; one whose sensor has become not fitted was discarded (R86). -/
def endBoardRead (n : Fin 8) (reading : Option Int) (s : State) : State :=
  if s.thc.reading[n] then
    let i := boardSensor n
    setSensor i { s.thc with
      reading := s.thc.reading.set n false
      sensors := s.thc.sensors.set i (s.thc.sensors[i].read reading s.clock.uptime) } s
  else s

end Sys2Proof.Machine
end

