-- ==== Sys2Proof/Machine/Sideband.lean ====
section
/-! DEFINITION. The sideband queue and its transactions (spec/04_drive_sideband.md, sections 4.2 to 4.4 and 4.7):
joining, starting, polling, and a bay that goes EMPTY. -/

namespace Sys2Proof.Machine

/-! ### Starting and joining (R69, R70) -/

/-- A transaction at its first attempt (R67, R70). -/
def beginTxn (e : SbEntry) (now : Word) : Txn :=
  { entry := e, failed := 0, defers := 0, phase := .attempt, queueWait := waitTicks e.take now }

/-- With no transaction in flight, SBE starts the first entry of the order class, or else of the poll class
(R70). -/
def startNext (s : State) : State :=
  match s.sbe.flight with
  | some _ => s
  | none =>
    match s.sbe.orderQ with
    | e :: rest => { s with sbe := { s.sbe with orderQ := rest, flight := some (beginTxn e s.clock.tick) } }
    | [] =>
      match s.sbe.pollQ with
      | e :: rest => { s with sbe := { s.sbe with pollQ := rest, flight := some (beginTxn e s.clock.tick) } }
      | [] => s

/-- An entry joins the tail of the order class (R69, R70). -/
def joinOrder (e : SbEntry) (s : State) : State :=
  startNext { s with sbe := { s.sbe with orderQ := s.sbe.orderQ ++ [e] } }

/-- An entry joins the tail of the poll class (R69, R70). -/
def joinPoll (e : SbEntry) (s : State) : State :=
  startNext { s with sbe := { s.sbe with pollQ := s.sbe.pollQ ++ [e] } }

/-- Whether the order class has room (R69). -/
def orderRoom (s : State) : Bool := decide (s.sbe.orderQ.length < orderClassRoom)

/-- Whether a bay has an entry queued in the poll class (R69). -/
def pollQueued (s : State) (b : Bay) : Bool := s.sbe.pollQ.any fun e => e.bay = b

/-- An entry without a slot. -/
def plainEntry (b : Bay) (item : SbItem) (origin : SbOrigin) (s : State) : SbEntry :=
  { bay := b, item, origin, slot := none, take := s.clock.tick }

/-! ### Polling (R71, R72) -/

/-- The item of a poll whose count is now `n` (R71). -/
def pollItem (n : Fin 8) : SbItem := if n = 0 then .health else .temp

/-- A poll of a bay: the count advances and the entry joins, unless the bay has a poll-class entry queued (R71). -/
def placePoll (b : Bay) (s : State) : State :=
  if pollQueued s b then s
  else
    let n := s.sbe.pollCount[b] + 1
    joinPoll (plainEntry b (pollItem n) .poll s)
      { s with sbe := { s.sbe with pollCount := s.sbe.pollCount.set b n } }

/-- SBE visits a bay (R71). -/
def visitBay (s : State) (b : Bay) : State := if (s.bay b).state = .active then placePoll b s else s

/-- The poll timer expires and restarts, and SBE visits the bays in ascending order (R71). -/
def pollVisit (s : State) : State :=
  (List.finRange 24).foldl visitBay
    { s with sbe := { s.sbe with pollTimer := some (1000 * s.sbe.interval) } }

/-- A bay enters ACTIVE (R72). -/
def pollEntered (b : Bay) (s : State) : State :=
  placePoll b { s with sbe := { s.sbe with pollCount := s.sbe.pollCount.set b 0 } }

/-- A bay leaves ACTIVE: its queued entry of origin POLL is removed (R72). -/
def pollLeft (b : Bay) (s : State) : State :=
  { s with sbe := { s.sbe with pollQ := s.sbe.pollQ.filter fun e => !(decide (e.bay = b) && decide (e.origin = .poll)) } }

/-- The follow-up TEMP of a POLL HEALTH transaction (R72). -/
def followUp (e : SbEntry) (s : State) : State :=
  if e.origin = .poll ∧ e.item = .health ∧ (s.bay e.bay).state = .active ∧ pollQueued s e.bay = false then
    { s with sbe := { s.sbe with pollQ := s.sbe.pollQ ++ [plainEntry e.bay .temp .poll s] } }
  else s

/-- BMON's identity request (R73). -/
def requestIdent (b : Bay) (s : State) : State :=
  if pollQueued s b then s else joinPoll (plainEntry b .ident .arrival s) s

/-- PSEQ's standby request: queued, or none where the order class is full (R77). -/
def requestStandby (b : Bay) (s : State) : Option State :=
  if orderRoom s then some (joinOrder (plainEntry b .standby .standby s) s) else none

/-! ### A query's result (R75) -/

/-- The temperature of a TEMP reply (R65). -/
def tempOf (data : List Byte) : Int := signed16 ((data.getD 0 0).toNat + 256 * (data.getD 1 0).toNat)

/-- The data fields of a query's detail, from byte 6 on: those of the item read with OK (section 10.5). -/
def queryData (item : SbItem) (r : SbResult) (data : List Byte) : List Byte :=
  match r, item with
  | .ok, .temp => le16s (tempOf data) ++ le16s (clampTemp (tempOf data))
  | .ok, .health => absent 4 ++ data
  | .ok, .ident => absent 5 ++ data
  | _, _ => []

/-- The detail of a query (R75, section 10.5). -/
def queryDetail (e : SbEntry) (defers failed wait : Nat) (rest : List Byte) : List Byte :=
  [byte e.bay.val, e.item.code, byte defers, byte failed] ++ le16 wait ++ rest

/-- A query leaves the queue without its transaction: REMOVED (R80) or CANCELLED (R76), with the queue wait
counted to that moment.  The defer and failed attempt counts of a query that made no attempt are written 0 and 0, the
counts it stands at (DEDUCED, notes/assumptions/30.md). -/
def dropQuery (r : Result) (e : SbEntry) (s : State) : State :=
  completeOpt e.slot r (queryDetail e 0 0 (waitTicks e.take s.clock.tick) []) s

/-! ### A bay that goes EMPTY (R80) -/

/-- SBE ends the transaction in flight for the bay with NO_DEVICE; a QUERY completes with the counts made so far
(R80). -/
def endFlightEmpty (b : Bay) (s : State) : State :=
  match s.sbe.flight with
  | none => s
  | some t =>
    if t.entry.bay = b then
      completeOpt t.entry.slot .noDevice (queryDetail t.entry t.defers t.failed t.queueWait [])
        { s with sbe := { s.sbe with flight := none } }
    else s

/-- SBE removes the bay's queued entries of both classes; each QUERY completes REMOVED (R80). -/
def removeEntries (b : Bay) (s : State) : State :=
  (s.sbe.orderQ.filter fun e => e.bay = b).foldl (fun s e => dropQuery .removed e s)
    { s with sbe := { s.sbe with
        orderQ := s.sbe.orderQ.filter fun e => e.bay ≠ b
        pollQ := s.sbe.pollQ.filter fun e => e.bay ≠ b } }

/-- What SBE does when BMON sets a bay EMPTY (R80). -/
def purgeBay (b : Bay) (s : State) : State := startNext (removeEntries b (endFlightEmpty b s))

end Sys2Proof.Machine
end

