-- ==== Sys2Proof/Machine/Bays.lean ====
section
/-! DEFINITION. The one operation that changes a bay's state (spec/01_bays_and_the_bay_record.md, sections 1.2, 1.4
and 1.8): the record, D and the starting count change together, and BMON hands its neighbours what changed. -/

namespace Sys2Proof.Machine

/-- Whether a bay is starting: in RAMPING or SPINNING (R22, R25). -/
def BayState.starting : BayState → Bool
  | .ramping | .spinning => true
  | .empty | .settling | .off | .queued | .active | .stopping | .fault => false

/-- The AUTO condition of a state; SETTLING keeps the one before (R21). -/
def BayState.condition : BayState → Option Condition
  | .empty => some .empty
  | .settling => none
  | .off => some .off
  | .queued => some .queued
  | .ramping | .spinning => some .starting
  | .active => some .active
  | .stopping => some .stopping
  | .fault => some .fault

/-- BMON hands LGT the AUTO condition and the health warning when the condition changes, or the warning of an
ACTIVE bay does (R16, R21). -/
def handLights (b : Bay) (s : State) : State :=
  match (s.bay b).state.condition with
  | none => s
  | some c =>
    if c ≠ s.lgt.cond[b] ∨ (c = .active ∧ (s.bay b).healthWarn ≠ s.lgt.warn[b]) then
      setLgt (s.lgt.handOver b c (s.bay b).healthWarn) s
    else s

/-- BMON hands THC the bay's two facts (R22). -/
def handThermal (b : Bay) (s : State) : State :=
  setStartingFact b (s.bay b).state.starting (setActiveFact b (decide ((s.bay b).state = .active)) s)

/-- BMON hands SBE the bay's entry to and exit from ACTIVE and its entry to EMPTY (R22). -/
def handSideband (b : Bay) (before : BayState) (s : State) : State :=
  let after := (s.bay b).state
  if before ≠ .active ∧ after = .active then pollEntered b s
  else if before = .active ∧ after ≠ .active then pollLeft b s
  else if before ≠ .empty ∧ after = .empty then purgeBay b s
  else s

/-- The account with a bay's change from record `r` to `r'`: D follows its charge (R26), the starting count
whether it is in RAMPING or SPINNING (R25). -/
def Account.follow (a : Account) (r r' : BayRec) : Account :=
  { a with
    drives := a.drives - chargeUnits r.charge + chargeUnits r'.charge
    starting := a.starting - bit r.state.starting + bit r'.state.starting }

/-- A class of the admission queue with a bay's change to record `r'`: only a QUEUED bay has an entry, and one
that joins the class stands at its tail (R30, R31). -/
def classAfter (c : QClass) (q : List QEntry) (b : Bay) (join : Option QEntry) (r' : BayRec) : List QEntry :=
  let kept := if r'.state = .queued then q else q.filter fun e => e.bay ≠ b
  match join with
  | some e => if e.cls = c then kept ++ [e] else kept
  | none => kept

/-- PSEQ with a bay's change of record: each join and each departure of an entry is one step with BMON's change
of the bay's state (R30). -/
def Pseq.follow (p : Pseq) (b : Bay) (join : Option QEntry) (r r' : BayRec) : Pseq :=
  { p with
    account := p.account.follow r r'
    urgent := classAfter .urgent p.urgent b join r'
    normal := classAfter .normal p.normal b join r' }

/-- A bay's record changes, and with it D, the starting count and the admission queue. -/
def turnBay (b : Bay) (join : Option QEntry) (f : BayRec → BayRec) (s : State) : State :=
  updBay b f (updPseq (fun p => p.follow b join (s.bay b) (f (s.bay b))) s)

/-- BMON changes a bay's record on its own event or on a report, and hands its neighbours what changed (R21,
R22); `join` is the entry with which the bay joins the admission queue. -/
def moveBayWith (join : Option QEntry) (b : Bay) (f : BayRec → BayRec) (s : State) : State :=
  handSideband b (s.bay b).state (handLights b (handThermal b (turnBay b join f s)))

/-- The same with no entry joining. -/
def moveBay (b : Bay) (f : BayRec → BayRec) (s : State) : State := moveBayWith none b f s

/-! ### The states as the rules set them (R1, R12) -/

/-- A record in a new state: the stopping phase, the settling from field and the fault cause go with the state
that carries them (R1). -/
def BayRec.enter (r : BayRec) (st : BayState) : BayRec :=
  { r with state := st, stopPhase := none, settlingFrom := none, faultCause := none }

/-- The record in FAULT: cause set, charge record and power order cleared (R13). -/
def BayRec.faulted (r : BayRec) (c : FaultCause) : BayRec :=
  { r with state := .fault, stopPhase := none, settlingFrom := none, faultCause := some c, charge := none, powerOrder := none }

/-- The record in SETTLING (R3).  The fault cause stays until the settle (R9; notes/assumptions/25.md). -/
def BayRec.settling (r : BayRec) : BayRec :=
  { r with
    state := .settling
    stopPhase := none
    settlingFrom := some (if r.state = .empty then .absent else .present) }

/-- What a REMOVED outcome clears (R10). -/
def BayRec.departed (r : BayRec) : BayRec :=
  { r.enter .empty with
    identity := none, driveClass := .unknown, unrecognised := false, healthWarn := false, lastGood := none }

/-! ### What the drive tells BMON (R15, R16) -/

/-- Whether BMON acts on an identity or health outcome (R2). -/
def BayState.listens : BayState → Bool
  | .off | .queued | .ramping | .spinning | .active | .stopping | .fault => true
  | .empty | .settling => false

/-- The identity of an IDENT reply's 21 data bytes (R65). -/
def identityOf (data : List Byte) : Identity :=
  { classByte := data.getD 0 0, serial := Vector.ofFn fun i => data.getD (i.val + 1) 0 }

/-- The record with an identity stored (R15). -/
def BayRec.identified (r : BayRec) (i : Identity) : BayRec :=
  { r with
    identity := some i
    driveClass := if i.classByte = 0 then .rotating else if i.classByte = 1 then .solid else .unknown
    unrecognised := decide (i.classByte ≠ 0 ∧ i.classByte ≠ 1) }

/-- An identity outcome: a failure, and any outcome in EMPTY or SETTLING, changes nothing (R2, R15). -/
def deliverIdentity (b : Bay) (outcome : Option Identity) (s : State) : State :=
  match outcome with
  | none => s
  | some i => if (s.bay b).state.listens then moveBay b (fun r => r.identified i) s else s

/-- A health outcome: bits 0 and 1 of the flag byte (R16, R79). -/
def deliverHealth (b : Bay) (outcome : Option Byte) (s : State) : State :=
  match outcome with
  | none => s
  | some flags =>
    if (s.bay b).state.listens then
      moveBay b (fun r => { r with healthWarn := decide (flags &&& 3#8 ≠ 0#8) }) s
    else s

end Sys2Proof.Machine
end

