-- ==== Sys2Proof/Machine/Ladder.lean ====
section
/-! DEFINITION. The soft-start ladder (spec/03_ramp_spin_and_stop.md, sections 3.1 to 3.3): levels, the beginning of
an attempt and a GOOD attempt. -/

namespace Sys2Proof.Machine

/-- BMON acts on a report only where the record allows it (R2). -/
def report (b : Bay) (acts : BayRec → Bool) (f : BayRec → BayRec) (events : List HistEvent) (s : State) : State :=
  if acts (s.bay b) then events.foldl (fun s ev => pushHistory b ev s) (moveBay b f s) else s

/-- Whether a level is enabled in a mask (R17). -/
def enabled (mask : BitVec 4) (l : Level) : Bool := mask.getLsbD l.val

/-- The nearest enabled slower level: the lowest enabled one with a higher number (R47, R49). -/
def slower (mask : BitVec 4) (l : Level) : Option Level :=
  (List.finRange 4).find? fun n => decide (l < n) && enabled mask n

/-- The nearest enabled faster level: the highest enabled one with a lower number (R47, R49). -/
def faster (mask : BitVec 4) (l : Level) : Option Level :=
  (List.finRange 4).reverse.find? fun n => decide (n < l) && enabled mask n

/-- The level of the first attempt (R47). -/
def firstLevel (mask : BitVec 4) (start : Level) (learned : Option Level) : Level :=
  let wanted := learned.getD start
  if enabled mask wanted then wanted else (slower mask wanted).getD ((faster mask wanted).getD wanted)

/-- The level after a failed attempt at `l` (R49). -/
def nextLevel (mask : BitVec 4) (l : Level) (outcome : AttemptOutcome) : Level :=
  match outcome with
  | .trip => (slower mask l).getD l
  | .slow => (faster mask l).getD l
  | .good => l

/-- The class a bay is charged as (R29). -/
def chargeClass : DriveClass → ChargeClass
  | .solid => .solid
  | .rotating | .unknown => .rotating

/-- The charge pair and the spin window of a class (R29). -/
def Settings.pair (c : Settings) : ChargeClass → ChargePair
  | .rotating => c.rotating
  | .solid => c.solid
def Settings.spin (c : Settings) : ChargeClass → Nat
  | .rotating => c.rotatingSpin
  | .solid => c.solidSpin

/-- The ladder state of an admission (R36, R46, R47). -/
def Ladder.fresh (r : BayRec) (c : Settings) (e : QEntry) (now : Word) : Ladder :=
  let learned := if r.policy.useLearned then r.lastGood else none
  let first := firstLevel r.policy.levelMask r.policy.startLevel learned
  { phase := .attempt, level := first, begun := first, mask := r.policy.levelMask, start := r.policy.startLevel,
    learned, counts := Vector.replicate 4 0, total := 0, last := none, cls := chargeClass r.driveClass,
    spinWindow := c.spin (chargeClass r.driveClass), queueWait := waitTicks e.tick now, queueClass := e.cls }

/-- The ladder with an attempt begun at its current level (R48). -/
def Ladder.begin (l : Ladder) : Ladder :=
  { l with phase := .attempt, begun := l.level, counts := l.counts.set l.level (l.counts[l.level] + 1), total := l.total + 1 }

/-- The path with an attempt of a ladder begun: slew and switch set, the ramp window started (R48). -/
def Path.begin (p : Path) (l : Ladder) : Path :=
  { p with switchOn := true, slew := l.level, ladder := some l.begin, rampTimer := some (rampMs l.level) }

/-- An attempt ends GOOD: the power-good report, then the spin window (R51). -/
def attemptGood (b : Bay) (s : State) : State :=
  match (s.path b).ladder with
  | none => s
  | some l =>
    updPath b (fun p => { p with spinTimer := some (1000 * l.spinWindow) })
      (report b (fun r => decide (r.state = .ramping)) (fun r => { r.enter .spinning with lastGood := some l.level })
        [.powerGood l.level]
        (updPath b (fun p => { p with ladder := some { l with phase := .spin, last := some .good }, rampTimer := none }) s))

/-- An attempt begins at the current level (R48); power-good already asserted ends it GOOD at once. -/
def attemptBegin (b : Bay) (s : State) : State :=
  match (s.path b).ladder with
  | none => s
  | some l =>
    let s' := updPath b (fun p => p.begin l) s
    if s.pins.powerGood[b] then attemptGood b s' else s'

/-- The detail of a BAY POWER ON that ends after admission (R60, section 10.5): the last outcome is absent where
the last attempt was cut before it ended. -/
def onDetail : Option Ladder → List Byte
  | none => []
  | some l =>
    [l.cls.code, l.queueClass.code] ++ le16 l.queueWait ++ l.counts.toList.map byte
      ++ [byte l.total, if l.total = 0 then 0xFF else byte l.begun.val,
          if l.phase = .attempt then 0xFF else optByte (l.last.map AttemptOutcome.code)]

/-- The detail of a BAY POWER ON that ends before admission (R60, section 10.5). -/
def queuedDetail (e : QEntry) (now : Word) : List Byte :=
  [0xFF, e.cls.code] ++ le16 (waitTicks e.tick now) ++ [0, 0, 0, 0, 0]

end Sys2Proof.Machine
end

