-- ==== Sys2Proof/Machine/Admission.lean ====
section
/-! DEFINITION. The admission queue and its evaluation (spec/02_power_budget_and_admission.md). -/

namespace Sys2Proof.Machine

/-- The candidate: the head of URGENT, or else the head of NORMAL (R30). -/
def candidate (p : Pseq) : Option QEntry :=
  match p.urgent with
  | e :: _ => some e
  | [] => p.normal.head?

/-- A bay's entries leave the queue. -/
def dropEntry (b : Bay) (s : State) : State :=
  updPseq (fun p => { p with urgent := p.urgent.filter (fun e => e.bay ≠ b), normal := p.normal.filter (fun e => e.bay ≠ b) }) s

/-- The charge pair R29 would select for a bay at this moment. -/
def pairNow (s : State) (b : Bay) : ChargePair := s.account.settings.pair (chargeClass (s.bay b).driveClass)

/-- The three conditions of R35. -/
def staggerElapsed (s : State) : Bool := s.account.staggerTimer.isNone
def placeFree (s : State) : Bool := decide (s.account.starting < s.account.settings.maxConcurrent)
def budgetFits (s : State) (b : Bay) : Bool :=
  decide (s.account.drives + (pairNow s b).inrush + max s.account.settings.floor s.account.fanEstimate
    ≤ s.account.settings.capacity)
def fits (s : State) (b : Bay) : Bool := staggerElapsed s && placeFree s && budgetFits s b

/-- The stagger timer after an admission (R34). -/
def staggerStart (stagger : Nat) : Timer := if stagger = 0 then none else some (100 * stagger)

/-- Admission of a candidate (R36): its entry leaves with the bay's change to RAMPING.  A bay that were no longer
QUEUED would only lose its entry (R2). -/
def admitEntry (e : QEntry) (s : State) : State :=
  if (s.bay e.bay).state = .queued then
    attemptBegin e.bay
      (updPath e.bay (fun p => { p with ladder := some (Ladder.fresh (s.bay e.bay) s.account.settings e s.clock.tick) })
        (report e.bay (fun r => decide (r.state = .queued))
          (fun r => { r.enter .ramping with charge := some ⟨pairNow s e.bay, .inrush⟩ }) [.admitted e.cls]
          (updAccount (fun a => { a with staggerTimer := staggerStart a.settings.stagger, sinceAdmission := some 0 }) s)))
  else dropEntry e.bay s

/-- Admissions while the candidate fits (R35); each takes an entry out, so the queue's length bounds them. -/
def admitWhileFits : Nat → State → State
  | 0, s => s
  | n + 1, s =>
    match candidate s.pseq with
    | none => s
    | some e => if fits s e.bay then admitWhileFits n (admitEntry e s) else s

/-- The reason the candidate waits (R37).  Where it meets all three conditions and no evaluation is due, R37
names no reason: a free value (notes/assumptions/6.md). -/
def blockedReason (s : State) : BlockedReason :=
  match candidate s.pseq with
  | none => .none
  | some e =>
    if staggerElapsed s = false then .stagger
    else if placeFree s = false then .concurrency
    else if budgetFits s e.bay = false then .budget
    else .ofCode (Config.unstatedReason s.free)

/-- Whether the blocked reason is the free value. -/
def reasonOpen (s : State) : Bool :=
  match candidate s.pseq with
  | none => false
  | some e => fits s e.bay

/-- PSEQ works the blocked reason out again (R37). -/
def updateBlocked (s : State) : State :=
  let s' := updAccount (fun a => { a with blocked := blockedReason s }) s
  if reasonOpen s then useFree s' else s'

/-- An admission evaluation (R33, R35), and the blocked reason after it (R37). -/
def evaluate (s : State) : State := updateBlocked (admitWhileFits (queueView s.pseq).length s)

/-- FANU delivers the fan estimate: a lower one starts an evaluation (R27), a higher one can change the blocked
reason (R37). -/
def deliverEstimate (n : Nat) (s : State) : State :=
  let old := s.account.fanEstimate
  let s' := updAccount (fun a => { a with fanEstimate := n }) s
  if n < old then evaluate s' else if old < n then updateBlocked s' else s'

/-! ### Joining and leaving the queue (R31, R32) -/

/-- A bay in OFF joins the queue at the tail of a class, and an evaluation starts (R12, R31). -/
def enqueue (b : Bay) (cls : QClass) (slot : Option SlotId) (s : State) : State :=
  if (s.bay b).state = .off then
    evaluate (pushHistory b (.queued cls)
      (moveBayWith (some ⟨b, cls, s.clock.tick, slot⟩) b (fun r => { r.enter .queued with powerOrder := slot }) s))
  else s

/-- The queue entry of a bay. -/
def entryOf (s : State) (b : Bay) : Option QEntry := (queueView s.pseq).find? fun e => e.bay = b

/-- A cancel: the entry leaves, its BAY POWER ON completes CANCELLED, the bay becomes OFF (R32, R40, R41). -/
def cancelQueued (b : Bay) (s : State) : State :=
  match entryOf s b with
  | none => s
  | some e =>
    report b (fun r => decide (r.state = .queued)) (fun r => { r.enter .off with powerOrder := none }) [.dequeued e.cls]
      (completeOpt e.slot .cancelled (queuedDetail e s.clock.tick) s)

/-- The presence-lost departure of a QUEUED bay: BMON moves it to SETTLING, the entry leaves, its BAY POWER ON
completes REMOVED, and BMON writes DEQUEUED (R9, R32). -/
def lostQueued (b : Bay) (s : State) : State :=
  let s' := moveBay b (fun r => { r.settling with powerOrder := none }) s
  match entryOf s b with
  | none => s'
  | some e => pushHistory b (.dequeued e.cls) (completeOpt e.slot .removed (queuedDetail e s.clock.tick) s')

end Sys2Proof.Machine
end

