-- ==== Sys2Proof/Machine/Power.lean ====
section
/-! DEFINITION. The power path after admission (spec/03_ramp_spin_and_stop.md): failed attempts, the end of the spin
window, running faults, stops, the hold, the shed, and PSEQ's part in the early power cut. -/

namespace Sys2Proof.Machine

/-- The path with the switch off and its ladder, stop and timers gone (R8, R56). -/
def Path.idle (p : Path) : Path := { Path.reset with slew := p.slew }

/-- Complete the power order a bay has recorded, if it has one (R59, R60). -/
def completePower (b : Bay) (r : Result) (detail : List Byte) (s : State) : State :=
  completeOpt (s.bay b).powerOrder r detail s

/-! ### Attempts (R49, R50) -/

/-- The ladder is exhausted (R50). -/
def exhausted (b : Bay) (l : Ladder) (s : State) : State :=
  evaluate (updPath b Path.idle
    (report b (fun r => decide (r.state = .ramping)) (fun r => r.faulted .powerFault) [.fault .powerFault]
      (completePower b .powerFault (onDetail (some l)) s)))

/-- Whether the limits forbid an attempt at a level (R49). -/
def Ladder.spent (l : Ladder) (n : Level) : Bool := decide (levelAttempts ≤ l.counts[n] ∨ totalAttempts ≤ l.total)

/-- An attempt ends TRIP or SLOW: the switch goes off, the next level is picked, and a cool-off starts unless the
limits are reached (R49). -/
def attemptFail (b : Bay) (outcome : AttemptOutcome) (s : State) : State :=
  match (s.path b).ladder with
  | none => s
  | some l =>
    let next := nextLevel l.mask l.level outcome
    let ended := { l with last := some outcome, phase := .coolOff }
    if l.spent next then
      exhausted b ended (updPath b (fun p => { p with switchOn := false, rampTimer := none, ladder := some ended }) s)
    else
      let waiting := some { ended with level := next }
      updPath b (fun p => { p with switchOn := false, rampTimer := none, ladder := waiting, coolTimer := some coolOffMs }) s

/-- The cool-off ends and an attempt begins at the current level (R49). -/
def coolOffEnd (b : Bay) (s : State) : State :=
  if (s.path b).coolTimer.isSome then attemptBegin b (updPath b (fun p => { p with coolTimer := none }) s) else s

/-! ### The end of the spin window (R52) -/

/-- A charge record lowered to its steady charge (R52). -/
def lowered (c : Option ChargeRecord) : Option ChargeRecord := c.map fun c => { c with held := .steady }

/-- The spin window ends (R52). -/
def spinEnd (b : Bay) (s : State) : State :=
  if (s.path b).spinTimer.isSome then
    evaluate (updPath b (fun p => { p with spinTimer := none, ladder := none })
      (report b (fun r => decide (r.state = .spinning))
        (fun r => { r.enter .active with charge := lowered r.charge, powerOrder := none }) [.active (s.bay b).lastGood]
        (completePower b .ok (onDetail (s.path b).ladder) s)))
  else s

/-! ### Running faults (R53) -/

/-- Whether a record is in SPINNING or ACTIVE. -/
def BayRec.runs (r : BayRec) : Bool := decide (r.state = .spinning ∨ r.state = .active)

/-- A running fault with its cause (R53). -/
def runningFault (b : Bay) (c : CutCause) (s : State) : State :=
  evaluate (updPath b Path.idle
    (report b BayRec.runs (fun r => r.faulted c.fault) [.fault c.fault]
      (completePower b c.result (onDetail (s.path b).ladder) s)))

/-! ### Stops (R54 to R59) -/

/-- The detail of a BAY POWER OFF (R59, section 10.5). -/
def offDetail : Option Stop → List Byte
  | none => []
  | some t =>
    [t.found.code, t.mode.code, t.standby.code, optByte (t.txn.map fun x => x.result.code),
      optByte (t.cut.map fun x => x.result.code), byte t.hold] ++ le16 t.wait

/-- Whether a record is in STOPPING/STANDBY_WAIT, or in STOPPING/HOLD. -/
def BayRec.waits (r : BayRec) : Bool := decide (r.state = .stopping ∧ r.stopPhase = some .standbyWait)
def BayRec.holds (r : BayRec) : Bool := decide (r.state = .stopping ∧ r.stopPhase = some .hold)

/-- The hold ends: the BAY POWER OFF completes OK and the bay enters OFF (R59). -/
def finishHold (b : Bay) (s : State) : State :=
  updPath b Path.idle
    (report b BayRec.holds (fun r => { r.enter .off with powerOrder := none }) []
      (completePower b .ok (offDetail (s.path b).stop) s))

/-- The hold starts; one of 0 s ends as it starts (R59). -/
def startHold (b : Bay) (seconds : Nat) (s : State) : State :=
  if seconds = 0 then finishHold b s else updPath b (fun p => { p with holdTimer := some (1000 * seconds) }) s

/-- The record with its stop in HOLD and no charge (R12). -/
def BayRec.held' (r : BayRec) : BayRec := { r.enter .stopping with stopPhase := some .hold, charge := none }

/-- The history of the end of a standby wait (R12). -/
def standbyEvents : StandbyOutcome → List HistEvent
  | .ack => [.standbyAck, .off .graceful]
  | .failed => [.standbyFailed false, .off .graceful]
  | .skipped => [.standbyFailed true, .off .graceful]
  | .none => [.off .graceful]

/-- What a standby wait's end leaves in the stop (R58, R59). -/
def Stop.ended (t : Stop) (outcome : StandbyOutcome) (txn : Option SbResult) (cut : Option CutCause) (now : Word) : Stop :=
  { t with standby := outcome, txn := txn, cut := cut, wait := waitTicks t.take now }

/-- The standby wait ends: by the outcome from SBE, the skip or a cut (R54, R57, R58). -/
def standbyEnd (b : Bay) (outcome : StandbyOutcome) (txn : Option SbResult) (cut : Option CutCause) (s : State) : State :=
  match (s.path b).stop with
  | none => s
  | some t =>
    evaluate (startHold b t.hold
      (report b BayRec.waits BayRec.held' (standbyEvents outcome)
        (updPath b (fun p => { p with switchOn := false, stop := some (t.ended outcome txn cut s.clock.tick) }) s)))

/-- PSEQ takes a standby outcome, and discards it for a bay not in STOPPING/STANDBY_WAIT (R58, R77). -/
def deliverStandby (b : Bay) (r : SbResult) (s : State) : State :=
  if (s.bay b).waits then standbyEnd b (if r = .ok then .ack else .failed) (some r) none s else s

/-- An immediate stop, taken for a bay in RAMPING, SPINNING or ACTIVE (R56). -/
def immediateStop (b : Bay) (slot : SlotId) (hold : Nat) (s : State) : State :=
  let t : Stop := { found := (s.bay b).state, mode := .immediate, standby := .none, txn := none, cut := none, hold,
                    take := s.clock.tick, wait := 0 }
  evaluate (startHold b hold
    (report b (fun r => decide (r.state = .ramping) || r.runs) (fun r => { r.held' with powerOrder := some slot })
      [.off .immediate]
      (updPath b (fun p => { p.idle with stop := some t })
        (completePower b .cancelled (onDetail (s.path b).ladder) s))))

/-- A graceful stop, taken for a bay in ACTIVE (R57). -/
def gracefulStop (b : Bay) (slot : SlotId) (hold : Nat) (s : State) : State :=
  let t : Stop := { found := .active, mode := .graceful, standby := .none, txn := none, cut := none, hold,
                    take := s.clock.tick, wait := 0 }
  let s' := report b (fun r => decide (r.state = .active))
    (fun r => { r.enter .stopping with stopPhase := some .standbyWait, powerOrder := some slot }) []
    (updPath b (fun p => { p with stop := some t }) s)
  match requestStandby b s' with
  | some s'' => s''
  | none => standbyEnd b .skipped none none s'

/-- A trip, or a loss of power-good, at a bay whose attempt is over: a running fault, the cut of a standby wait,
or nothing (R53, R54). -/
def powerCut (b : Bay) (c : CutCause) (s : State) : State :=
  if (s.bay b).runs then runningFault b c s
  else if (s.bay b).waits then standbyEnd b .failed none (some c) s
  else s

/-! ### Shed (R61) -/

/-- PSEQ carries out a shed for a bay in ACTIVE, and discards it otherwise (R61). -/
def shed (b : Bay) (temp : Nat) (s : State) : State :=
  if (s.bay b).state = .active then
    evaluate (updPath b Path.idle
      (report b (fun r => decide (r.state = .active)) (fun r => r.faulted .thermal) [.shed temp, .fault .thermal] s))
  else s

/-- The oldest shed request for a bay leaves those waiting. -/
def takeShed (b : Bay) (sheds : List ShedReq) : Option ShedReq × List ShedReq :=
  match sheds.find? fun q => q.bay = b with
  | none => (none, sheds)
  | some q => (some q, sheds.erase q)

/-! ### The early power cut (R8, R62) -/

/-- The stop as the cut leaves it: a switch still on goes off now (R59, R62). -/
def Stop.atCut (t : Stop) (switchOn : Bool) (now : Word) : Stop :=
  if switchOn then { t with wait := waitTicks t.take now } else t

/-- The detail of the power order the cut completes REMOVED (R62). -/
def cutDetail (p : Path) (now : Word) : List Byte :=
  match p.stop with
  | some t => offDetail (some (t.atCut p.switchOn now))
  | none => onDetail p.ladder

/-- Whether the early cut of a record releases a charge or lets the starting count fall: not from STOPPING/HOLD
(R62). -/
def BayRec.frees (r : BayRec) : Bool := r.charge.isSome || r.state.starting

/-- The presence input of a bay in RAMPING, SPINNING, ACTIVE or STOPPING changes (R8).  The release, or the fall of
the starting count, starts an evaluation (R33, R62); from STOPPING/HOLD there is neither, and the model starts none
(DEDUCED, notes/assumptions/28.md). -/
def earlyCut (b : Bay) (s : State) : State :=
  let s' := updPath b Path.idle
    (report b (fun _ => true) (fun r => { r.settling with charge := none, powerOrder := none }) [.off .presenceLost]
      (completePower b .removed (cutDetail (s.path b) s.clock.tick) s))
  if (s.bay b).frees then evaluate s' else s'

end Sys2Proof.Machine
end

