-- ==== Sys2Proof/Machine/Thermal.lean ====
section
/-! DEFINITION. The zone period (spec/06_zone_demand_arithmetic_and_curve_banks.md, and R94, R95): the pending map,
the pending select with its validation, and the zone computation. -/

namespace Sys2Proof.Machine

/-! ### Curve records (R100, R110) -/

/-- A segment as it stands in a bank (section 10.7). -/
def readSegment (m : Memory) (a : Nat) : Segment :=
  { offset := m.read16 a, base := m.read16 (a + 2), slope := signed16 (m.read16 (a + 4)), shift := (m.read (a + 6)).toNat }

/-- A zone's curve record as it stands in a bank (section 10.7). -/
def readCurve (m : Memory) (bank : Bank) (z : ZoneId) : CurveRec :=
  let a := bankBase bank + 64 * z.val
  { t0 := signed8 (m.read a), staleMargin := (m.read (a + 1)).toNat, floor := m.read16 (a + 2),
    ceiling := m.read16 (a + 4), preload := m.read16 (a + 6), boost := m.read16 (a + 8), rise := m.read16 (a + 10),
    fall := m.read16 (a + 12), segs := Vector.ofFn fun i => readSegment m (a + 16 + 8 * i.val) }

/-- A field that fails: its code, and its segment or the absent byte (section 10.5, CURVE SELECT). -/
structure CurveFault where
  field : Byte
  segment : Byte
  deriving DecidableEq, Repr

/-- The tests of one record in their order (R110), each with the field it names. -/
def curveTests (c : CurveRec) : List (Bool × CurveFault) :=
  let o := fun i : Fin 4 => c.segs[i].offset
  [(decide (o 0 = 0), ⟨0, 0⟩), (decide (o 0 < o 1), ⟨0, 1⟩), (decide (o 1 < o 2), ⟨0, 2⟩), (decide (o 2 < o 3), ⟨0, 3⟩),
    (decide (o 3 ≤ fullDuty), ⟨0, 3⟩)]
  ++ ((List.finRange 4).map fun i => (decide (c.segs[i].base ≤ fullDuty), ⟨1, byte i.val⟩))
  ++ ((List.finRange 4).map fun i => (decide (c.segs[i].shift ≤ 15), ⟨2, byte i.val⟩))
  ++ [(decide (c.floor ≤ c.ceiling), ⟨3, 0xFF⟩), (decide (c.ceiling ≤ fullDuty), ⟨4, 0xFF⟩),
    (decide (c.preload ≤ fullDuty), ⟨5, 0xFF⟩), (decide (c.boost ≤ fullDuty), ⟨6, 0xFF⟩),
    (decide (1 ≤ c.rise ∧ c.rise ≤ fullDuty), ⟨7, 0xFF⟩), (decide (1 ≤ c.fall ∧ c.fall ≤ fullDuty), ⟨8, 0xFF⟩)]

/-- The first test of a record that fails (R110). -/
def curveFault (c : CurveRec) : Option CurveFault := ((curveTests c).find? fun t => !t.1).map Prod.snd

/-- The first failing zone and field of a bank (R110). -/
def bankFault (w : Vector CurveRec 4) : Option (ZoneId × CurveFault) :=
  (List.finRange 4).findSome? fun z => (curveFault w[z]).map fun f => (z, f)

/-! ### The zone computation (R88, R101 to R107) -/

/-- What a member sensor contributes (R88). -/
def contribution (t : Thc) (c : CurveRec) (i : SensorId) : Option Int :=
  match sensorState t i with
  | .valid => t.sensors[i].value.map fun v => v - 4 * c.t0
  | .stale => t.sensors[i].value.map fun v => v + c.staleMargin - 4 * c.t0
  | .lost => some 1023
  | .absent => none

/-- The excess: the largest contribution, clamped to -1 to 1023 (R101). -/
def excessOf (t : Thc) (c : CurveRec) (z : ZoneId) : Int :=
  min 1023 ((((List.finRange 32).filter fun i => t.zones[z].sensors.getLsbD i.val).filterMap (contribution t c)).foldl max (-1))

/-- The segment of an excess of 0 or more: the one with the largest start offset at or below it (R102). -/
def segmentOf (c : CurveRec) (e : Int) : Segment :=
  c.segs[((List.finRange 4).reverse.find? fun i => decide ((c.segs[i].offset : Int) ≤ e)).getD 0]

/-- The product shifted with rounding, an exact half toward plus infinity (R103). -/
def roundShift (p : Int) (k : Nat) : Int :=
  if k = 0 then p else if (2 : Int) ^ (k - 1) ≤ p % 2 ^ k then p / 2 ^ k + 1 else p / 2 ^ k

/-- The curve's line at an excess of 0 or more, before the clamp (R103, R104). -/
def lineAt (c : CurveRec) (e : Int) : Int :=
  let g := segmentOf c e
  g.base + roundShift ((e - g.offset) * g.slope) g.shift

/-- d1 before the clamp flag: the floor at -1, else the line clamped to the floor and ceiling (R102, R104). -/
def demandOne (c : CurveRec) (e : Int) : Nat :=
  if e = -1 then c.floor else (max (c.floor : Int) (min c.ceiling (lineAt c e))).toNat

/-- Whether the clamp changed the value (R102, R104). -/
def clampActs (c : CurveRec) (e : Int) : Bool := decide (e ≠ -1 ∧ lineAt c e ≠ (demandOne c e : Int))

/-- The output limited to a rise and a fall from the previous one (R107). -/
def slew (c : CurveRec) (prev d3 : Nat) : Nat :=
  if prev + c.rise < d3 then prev + c.rise else if d3 + c.fall < prev then prev - c.fall else d3

/-- A zone out of failsafe in one period (R101 to R107). -/
def computeZone (t : Thc) (c : CurveRec) (z : ZoneId) : ZoneRec :=
  let r := t.zones[z]
  let e := excessOf t c z
  let d1 := demandOne c e
  let d2 := min fullDuty (d1 + r.failedCount * c.boost)
  let d3 := if r.preloadActive then max d2 c.preload else d2
  { r with excess := e, d1, d2, d3, output := slew c r.output d3, clamped := clampActs c e }

/-- A zone in failsafe in one period (R99). -/
def holdZone (r : ZoneRec) : ZoneRec :=
  { r with excess := -1, d1 := fullDuty, d2 := fullDuty, d3 := fullDuty, output := fullDuty, clamped := false }

/-- A zone's record at a period start; without a working copy the zone is in failsafe (R98, R99). -/
def periodZone (t : Thc) (z : ZoneId) : ZoneRec :=
  match t.working with
  | none => holdZone t.zones[z]
  | some w => if t.zones[z].failsafe then holdZone t.zones[z] else computeZone t w[z] z

/-- The four zones of a period, each from its own record (R97), and their records marked (R91, R108). -/
def computeZones (s : State) : State :=
  (List.finRange 4).foldl (fun s z => mark (.zone z) false s)
    { s with thc := { s.thc with zones := Vector.ofFn fun z => periodZone s.thc z } }

/-! ### The pending map (R95) -/

/-- THC with board sensor `n` fitted or not: a change empties its record, and a read in progress of one not
fitted is discarded (R86, R95). -/
def Thc.fit (t : Thc) (n : Fin 8) (on : Bool) : Thc :=
  if t.fitted[n] = on then t
  else
    { t with
      fitted := t.fitted.set n on
      reading := t.reading.set n false
      sensors := t.sensors.set (boardSensor n) t.sensors[boardSensor n].emptied }

/-- A board sensor's fitted flag becomes its bit of the map; a change marks the sensor record (R95). -/
def fitSensor (fitted : Byte) (s : State) (n : Fin 8) : State :=
  let on := fitted.getLsbD n.val
  setSensor (boardSensor n) (s.thc.fit n on) (markIf (decide (s.thc.fitted[n] ≠ on)) (.sensor (boardSensor n)) false s)

/-- THC with the membership of a map (R95). -/
def Thc.mapped (t : Thc) (p : PendingMap) : Thc :=
  { t with
    fanZone := p.fanZone
    zones := Vector.ofFn fun z => { t.zones[z] with sensors := p.sensors[z] }
    pendingMap := none }

/-- A pending map is put in place (R95).  Where it changes several fitted flags, the board sensor records enter the
dirty set in the order B0 to B7 (DESIGN CHOICE, notes/assumptions/19.md). -/
def applyMap (s : State) : State :=
  match s.thc.pendingMap with
  | none => s
  | some p =>
    let fitted := (List.finRange 8).foldl (fitSensor p.fitted) { s with thc := s.thc.mapped p }
    completeOpt p.slot .ok []
      (markFailedCounts s.thc.zones { fitted with thc := fitted.thc.refreshFailed.refreshPreload })

/-! ### The pending select (R109 to R113) -/

/-- The four records of a bank as they stand (R109). -/
def readBank (m : Memory) (bank : Bank) : Vector CurveRec 4 := Vector.ofFn fun z => readCurve m bank z

/-- Whether any zone is in failsafe (R99, R112). -/
def inFailsafe (t : Thc) : Bool := (List.finRange 4).any fun z => t.zones[z].failsafe

/-- THC with a bank's records in its working copy and failsafe ended (R112). -/
def Thc.selected (t : Thc) (bank : Bank) (w : Vector CurveRec 4) : Thc :=
  { t with
    working := some w
    bank := some bank
    zones := Vector.ofFn fun z => { t.zones[z] with failsafe := false } }

/-- A bank is accepted (R112). -/
def acceptSelect (p : PendingSelect) (w : Vector CurveRec 4) (s : State) : State :=
  let ended := inFailsafe s.thc
  let notice := ended || decide (s.thc.bank ≠ some p.bank)
  completeOpt p.slot .ok [p.bank.code, byte (bit ended)]
    ((List.finRange 4).foldl (fun s z => markIf notice (.zone z) true s) { s with thc := s.thc.selected p.bank w })

/-- A pending select is put in place: accepted (R112) or refused (R113). -/
def applySelect (s : State) : State :=
  match s.thc.pendingSelect with
  | none => s
  | some p =>
    let s' := { s with thc := { s.thc with pendingSelect := none } }
    match bankFault (readBank s.mem p.bank) with
    | none => acceptSelect p (readBank s.mem p.bank) s'
    | some (z, f) => completeOpt p.slot .badCurve [p.bank.code, 0, byte z.val, f.field, f.segment] s'

end Sys2Proof.Machine
end

