-- ==== Sys2Proof/Machine/Fans.lean ====
section
/-! DEFINITION. The Fan Unit (spec/07_fans.md): zone control, stall, kick and failure, the learn, the estimate, the
hand-over of zone outputs and the tach gate. -/

namespace Sys2Proof.Machine

/-- Change a fan's record, and mark it dirty if a published field changes, with a notice at a change of state
(R131, R159). -/
def updFan (f : FanId) (g : FanRec → FanRec) (s : State) : State :=
  markIf (decide (g (s.fan f) ≠ s.fan f)) (.fan f) (decide ((g (s.fan f)).state ≠ (s.fan f).state))
    { s with fanu := { s.fanu with fans := s.fanu.fans.set f (g (s.fan f)) } }

/-- Change what FANU keeps of a fan beside its record. -/
def updWork (f : FanId) (g : FanWork → FanWork) (s : State) : State :=
  { s with fanu := { s.fanu with work := s.fanu.work.set f (g (s.fanWork f)) } }

/-- All eight fan records are marked (R131). -/
def markFans (s : State) : State := (List.finRange 8).foldl (fun s f => mark (.fan f) false s) s

/-! ### The estimate (R130) -/

/-- A fan's share of the estimate: max units times duty over 1024, rounded up. -/
def fanUnits (r : FanRec) : Nat := (r.maxUnits * r.duty + 1023) / 1024

/-- The fan charge estimate (R130). -/
def estimate (s : State) : Nat := ((List.finRange 8).map fun f => fanUnits (s.fan f)).sum

/-- FANU delivers the estimate to PSEQ (R27, R130). -/
def deliverFans (s : State) : State := deliverEstimate (estimate s) s

/-! ### Zone control (R118, R119) -/

/-- The stored output and d3 of a fan's zone (R116). -/
def zoneOutput (s : State) (f : FanId) : Nat := s.fanu.output[s.fanu.member[f]]
def zoneD3 (s : State) (f : FanId) : Nat := s.fanu.d3[s.fanu.member[f]]

/-- A fan's record under an output of its zone (R118, R119). -/
def FanRec.driven (r : FanRec) (output : Nat) : FanRec :=
  if output = 0 then { r with state := .stopped, duty := 0 }
  else { r with state := .running, duty := max output r.learnedMin }

/-- A fan enters zone control with the stored output; an entry to RUNNING sets the low-gate count to 0 (R119). -/
def zoneControl (f : FanId) (s : State) : State :=
  updWork f (fun w => if zoneOutput s f = 0 then w else { w with lowGates := 0 })
    (updFan f (fun r => r.driven (zoneOutput s f)) s)

/-- The stored output applied to a fan in STOPPED or RUNNING at a hand-over (R119). -/
def applyOutput (f : FanId) (s : State) : State :=
  match (s.fan f).state with
  | .stopped => zoneControl f s
  | .running => updFan f (fun r => r.driven (zoneOutput s f)) s
  | .stalled | .failed | .learning | .absent => s

/-- Deliver a change out of FAILED, if the fan was in it (R122). -/
def leftFailed (f : FanId) (before : FanState) (s : State) : State :=
  if before = .failed then deliverFailed f false s else s

/-- A fan enters FAILED (R122); the estimate is delivered by the caller. -/
def enterFailed (f : FanId) (s : State) : State :=
  deliverFailed f true
    (updWork f (fun w => { w with goodGates := 0 })
      (updFan f (fun r => { r with state := .failed, duty := fullDuty }) s))

/-! ### The learn (R124 to R129) -/

/-- The highest enabled level of a mask, and the next enabled level below one (R124, R125). -/
def highestLevel (mask : Byte) : Option (Fin 8) := (List.finRange 8).reverse.find? fun n => mask.getLsbD n.val
def nextLearnLevel (mask : Byte) (l : Fin 8) : Option (Fin 8) :=
  (List.finRange 8).reverse.find? fun n => decide (n < l) && mask.getLsbD n.val

/-- Whether two readings agree (R125). -/
def agree (a b : Nat) : Bool := decide ((a - b + (b - a)) * 16 ≤ max a b)

/-- The full-speed RPM bytes of a learn's detail. -/
def optRpm : Option Nat → List Byte
  | none => absent 4
  | some n => le32 n

/-- The detail of a FAN LEARN that entered LEARNING, `after` being the fan's record then (R129, section 10.5). -/
def learnDetail (f : FanId) (l : Learn) (after : FanRec) : List Byte :=
  [byte f.val, l.mask, byte l.list.length, byte l.readings, byte l.level.val, 0xFF] ++ le16 l.minBefore
    ++ le16 after.learnedMin ++ optRpm after.fullSpeed ++ le16 l.gates
    ++ l.list.flatMap fun p => byte p.1.val :: le16 (p.2 / 5)

/-- The record with a learn committed (R126). -/
def FanRec.committed (r : FanRec) (l : Learn) (min : Nat) : FanRec :=
  { r with
    table := l.list
    learnMask := l.mask
    fullSpeed := match l.list.find? fun p => p.1 = 7 with
      | some p => some p.2
      | none => r.fullSpeed
    learnedMin := min }

/-- A learn ends OK or UNSTEADY: commit, zone control, completion, estimate (R126, R129, R130). -/
def endLearn (f : FanId) (l : Learn) (r : Result) (min : Nat) (s : State) : State :=
  let s' := zoneControl f (updFan f (fun x => x.committed l min) (updWork f (fun w => { w with learn := none }) s))
  deliverFans (completeOpt l.slot r (learnDetail f l (s'.fan f)) s')

/-- A learn ends NO_SPIN: commit with the learned min unchanged, FAILED, completion, estimate (R126). -/
def noSpin (f : FanId) (l : Learn) (s : State) : State :=
  let s' := enterFailed f
    (updFan f (fun x => x.committed l x.learnedMin) (updWork f (fun w => { w with learn := none }) s))
  deliverFans (completeOpt l.slot .noSpin (learnDetail f l (s'.fan f)) s')

/-- A learn is stopped hot or aborted: the record is unchanged but for zone control (R127, R128). -/
def stopLearn (f : FanId) (l : Learn) (r : Result) (s : State) : State :=
  let s' := zoneControl f (updWork f (fun w => { w with learn := none }) s)
  completeOpt l.slot r (learnDetail f l (s'.fan f)) s'

/-- The fan goes to a level of its learn (R125). -/
def visitLevel (f : FanId) (l : Learn) (n : Fin 8) (s : State) : State :=
  deliverFans (updFan f (fun r => { r with state := .learning, duty := levelDuty n })
    (updWork f (fun w => { w with learn := some { l with level := n, settled := 0, readings := 0 } }) s))

/-- The learned min of an UNSTEADY learn: the lowest level completed, or the present one (R126). -/
def unsteadyMin (l : Learn) (present : Nat) : Nat := (l.list.getLast?.map fun p => levelDuty p.1).getD present

/-- The level visited before the last one of the working list (R126). -/
def levelBefore (l : Learn) : Option (Fin 8) := (l.list.dropLast.getLast?).map Prod.fst

/-- A complete level is judged (R126); `l` already holds it at the end of its working list. -/
def judgeLevel (f : FanId) (l : Learn) (rpm : Nat) (s : State) : State :=
  if (s.fan f).threshold ≤ rpm then
    match nextLearnLevel l.mask l.level with
    | some n => visitLevel f l n s
    | none => endLearn f l .ok (levelDuty l.level) s
  else
    match levelBefore l with
    | none => noSpin f l s
    | some n => endLearn f l .ok (levelDuty n) s

/-- A gate expiry of a fan in LEARNING (R125). -/
def learnGate (f : FanId) (l : Learn) (s : State) : State :=
  let rpm := (s.fan f).rpm
  let g := { l with gates := min (l.gates + 1) 65535 }
  if l.settled < 3 then updWork f (fun w => { w with learn := some { g with settled := l.settled + 1 } }) s
  else
    let g' := { g with readings := l.readings + 1, last := rpm }
    if 1 ≤ l.readings ∧ agree l.last rpm then judgeLevel f { g' with list := l.list ++ [(l.level, rpm)] } rpm s
    else if 5 ≤ g'.readings then endLearn f g' .unsteady (unsteadyMin g' (s.fan f).learnedMin) s
    else updWork f (fun w => { w with learn := some g' }) s

/-! ### Stall, kick and failure (R120 to R122) -/

/-- A gate expiry of a fan in RUNNING (R120, R121). -/
def runningGate (f : FanId) (s : State) : State :=
  let r := s.fan f
  if r.learnedMin ≤ r.duty then
    if r.rpm < r.threshold then
      let low := (s.fanWork f).lowGates + 1
      if 3 ≤ low then
        deliverFans (updWork f (fun w => { w with lowGates := low, kickGates := 0 })
          (updFan f (fun r => { r with state := .stalled, duty := fullDuty, kicks := 0 }) s))
      else updWork f (fun w => { w with lowGates := low }) s
    else updWork f (fun w => { w with lowGates := 0 }) s
  else s

/-- A gate expiry of a fan in STALLED: the second gate of a kick judges it (R121). -/
def kickGate (f : FanId) (s : State) : State :=
  let r := s.fan f
  let n := (s.fanWork f).kickGates + 1
  if n < 2 then updWork f (fun w => { w with kickGates := n }) s
  else
    let s' := updWork f (fun w => { w with kickGates := n }) s
    if r.threshold ≤ r.rpm then deliverFans (zoneControl f s')
    else if r.kicks < 2 then
      deliverFans (updWork f (fun w => { w with kickGates := 0 }) (updFan f (fun r => { r with kicks := r.kicks + 1 }) s'))
    else deliverFans (enterFailed f (updFan f (fun r => { r with kicks := 3 }) s'))

/-- A gate expiry of a fan in FAILED: five good gates in a row bring it back (R122). -/
def failedGate (f : FanId) (s : State) : State :=
  let r := s.fan f
  if r.threshold ≤ r.rpm then
    let n := (s.fanWork f).goodGates + 1
    let s' := updWork f (fun w => { w with goodGates := n }) s
    if 5 ≤ n then
      deliverFans (deliverFailed f false (updFan f (fun r => { r with kicks := 0 }) (zoneControl f s')))
    else s'
  else updWork f (fun w => { w with goodGates := 0 }) s

/-- A gate's reading acted on in the fan's state (R117). -/
def actGate (s : State) (f : FanId) : State :=
  match (s.fan f).state with
  | .running => runningGate f s
  | .stalled => kickGate f s
  | .failed => failedGate f s
  | .learning =>
    match (s.fanWork f).learn with
    | none => s
    | some l => learnGate f l s
  | .stopped | .absent => s

/-! ### The tach gate (R117) -/

/-- The most edges a gate counts. -/
def maxEdges : Nat := 4095

/-- A record with the reading of a gate that counted `n` edges (R117). -/
def FanRec.measured (r : FanRec) (n : Nat) : FanRec :=
  { r with lastCount := n, saturated := decide (n = maxEdges), rpm := n * 60 / r.ppr }

/-- A fan's reading stored and its count begun again (R117). -/
def storeReading (s : State) (f : FanId) : State :=
  updWork f (fun w => { w with edges := 0 }) (updFan f (fun r => r.measured (s.fanWork f).edges) s)

/-- The tach gate expires (R117, R131).  The marks of all eight fans enter the dirty set after those of the estimates
and their evaluations (DESIGN CHOICE, notes/assumptions/19.md). -/
def gateExpiry (s : State) : State :=
  markFans ((List.finRange 8).foldl actGate ((List.finRange 8).foldl storeReading
    { s with fanu := { s.fanu with gateTimer := some tachGateMs } }))

/-- A falling edge at a fan's tach input (R117). -/
def tachEdge (f : FanId) (s : State) : State := updWork f (fun w => { w with edges := min (w.edges + 1) maxEdges }) s

/-! ### The hand-over of zone outputs (R108, R119, R127) -/

/-- A fan at a hand-over: a learn in a hot zone stops, a STOPPED or RUNNING fan takes its zone's output. -/
def handFan (s : State) (f : FanId) : State :=
  match (s.fan f).state, (s.fanWork f).learn with
  | .learning, some l => if learnHotDuty ≤ zoneD3 s f then stopLearn f l .abortedHot s else s
  | _, _ => applyOutput f s

/-- THC hands FANU every zone's output and d3 and every fan's membership (R108, R119); then the estimate (R130).  The
marks of all eight fans (R131) enter the dirty set after those of the estimate and its evaluation (DESIGN CHOICE,
notes/assumptions/19.md). -/
def handOutputs (s : State) : State :=
  markFans (deliverFans ((List.finRange 8).foldl handFan
    { s with fanu := { s.fanu with
        output := Vector.ofFn fun z => (s.zone z).output
        d3 := Vector.ofFn fun z => (s.zone z).d3
        member := s.thc.fanZone } }))

/-- The start of a zone period (R97). -/
def zonePeriod (s : State) : State :=
  handOutputs (computeZones (applySelect (applyMap
    { s with thc := { s.thc with periodTimer := some zonePeriodMs } })))

end Sys2Proof.Machine
end

