-- ==== Sys2Proof/Machine/Transactions.lean ====
section
/-! DEFINITION. The transaction in flight (spec/04_drive_sideband.md, sections 4.1, 4.2 and 4.6): judging a reply,
retries, the end of a transaction and its deliveries. -/

namespace Sys2Proof.Machine

/-- What an attempt ended with (R66). -/
inductive Verdict where
  | ok (data : List Byte)
  | defer
  | badCheck
  deriving DecidableEq, Repr

/-- The 8-bit sum of bytes (R65). -/
def byteSum (l : List Byte) : Byte := l.foldl (· + ·) 0

/-- The judgement of a whole reply of an acceptable length (R66): the sum, then the status, then for READY the
item's expected length. -/
def judgeWhole (item : SbItem) (status len : Byte) (rest : List Byte) : Verdict :=
  if byteSum (status :: len :: rest) ≠ 0 then .badCheck
  else if status = 1 then .defer
  else if status = 0 ∧ len.toNat = expectedLength item then .ok (rest.take len.toNat)
  else .badCheck

/-- SBE's judgement of the bytes of a reply, made as soon as its check byte has arrived, whatever follows: a length
above 24 is BAD_CHECK as it arrives; bytes that end before the check byte make no complete reply (R64, R66). -/
def judgeReply (item : SbItem) : List Byte → Option Verdict
  | status :: len :: rest =>
    if 24 < len.toNat then some .badCheck
    else if rest.length < len.toNat + 1 then none
    else some (judgeWhole item status len (rest.take (len.toNat + 1)))
  | _ => none

/-- Where a transaction's result goes (R77, R78, R79); a NO_DEVICE ends nowhere (R80). -/
def deliverResult (e : SbEntry) (r : SbResult) (data : List Byte) (s : State) : State :=
  let ok := decide (r = .ok)
  match e.item with
  | .temp => if e.origin = .poll then deliverTemp e.bay (if ok then some (tempOf data) else none) s else s
  | .ident => deliverIdentity e.bay (if ok then some (identityOf data) else none) s
  | .health => deliverHealth e.bay (if ok then some (data.getD 0 0) else none) s
  | .standby => deliverStandby e.bay r s

/-- The transaction in flight ends with a result: a QUERY completes (R75), the result is delivered, a follow-up
is placed (R72), and the next transaction starts (R70). -/
def endTxn (t : Txn) (r : SbResult) (data : List Byte) (s : State) : State :=
  startNext (followUp t.entry (deliverResult t.entry r data
    (completeOpt t.entry.slot r.result
      (queryDetail t.entry t.defers t.failed t.queueWait (queryData t.entry.item r data))
      { s with sbe := { s.sbe with flight := none } })))

/-- The transaction in flight goes on as `t`. -/
def setFlight (t : Txn) (s : State) : State := { s with sbe := { s.sbe with flight := some t } }

/-- An attempt ends NO_REPLY or BAD_CHECK: at the third the transaction ends, else a new attempt is made at once
(R68). -/
def attemptFailed (t : Txn) (r : SbResult) (s : State) : State :=
  let t' := { t with failed := t.failed + 1 }
  if 3 ≤ t'.failed then endTxn t' r [] s else setFlight t' s

/-- An attempt ends DEFER: at the limit the transaction ends DEFERRED_OUT, else it waits out the spacing (R67). -/
def attemptDeferred (t : Txn) (s : State) : State :=
  if t.defers < deferLimit t.entry.item then setFlight { t with defers := t.defers + 1, phase := .spacing } s
  else endTxn t .deferredOut [] s

/-- The transaction in an attempt, if there is one (R64). -/
def attemptOf (s : State) : Option Txn :=
  match s.sbe.flight with
  | some t => if t.phase = .attempt then some t else none
  | none => none

/-- A complete reply (R66, R67, R68). -/
def replyArrived (bytes : List Byte) (s : State) : State :=
  match attemptOf s with
  | none => s
  | some t =>
    match judgeReply t.entry.item bytes with
    | none => s
    | some (.ok data) => endTxn t .ok data s
    | some .defer => attemptDeferred t s
    | some .badCheck => attemptFailed t .badCheck s

/-- No complete reply within 10 ms (R64, R68). -/
def noReply (s : State) : State :=
  match attemptOf s with
  | none => s
  | some t => attemptFailed t .noReply s

/-- The defer spacing ends and a new attempt is made (R67). -/
def spacingEnd (s : State) : State :=
  match s.sbe.flight with
  | none => s
  | some t => if t.phase = .spacing then setFlight { t with phase := .attempt } s else s

end Sys2Proof.Machine
end

