-- ==== Sys2Proof/Machine/Presence.lean ====
section
/-! DEFINITION. Presence (spec/01_bays_and_the_bay_record.md, section 1.3): the change of a presence input, the debounce
and its outcomes, the replug window. -/

namespace Sys2Proof.Machine

/-- The other reading of a presence contact. -/
def Presence.toggled : Presence → Presence
  | .absent => .present
  | .present => .absent

/-- The presence input of a bay reads otherwise from now on. -/
def togglePresence (b : Bay) (s : State) : State :=
  { s with pins := { s.pins with presence := s.pins.presence.set b s.pins.presence[b].toggled } }

/-- A bay enters SETTLING from its present state (R3, R8, R9). -/
def enterSettling (b : Bay) (s : State) : State :=
  match (s.bay b).state with
  | .settling => s
  | .ramping | .spinning | .active | .stopping => earlyCut b s
  | .queued => evaluate (lostQueued b s)
  | .empty | .off | .fault => moveBay b BayRec.settling s

/-- A change of a presence input: SETTLING, and the debounce timer started or restarted (R3). -/
def presenceChanged (b : Bay) (s : State) : State :=
  setDebounce b (some debounceMs) (enterSettling b (togglePresence b s))

/-- A bay enters OFF after an INSERTED, REPLUGGED or GLITCH outcome: IDENT request, then auto-on (R11). -/
def enterOff (b : Bay) (f : BayRec → BayRec) (ev : HistEvent) (s : State) : State :=
  let s' := requestIdent b (pushHistory b ev (moveBay b (fun r => f (r.enter .off)) s))
  if (s'.bay b).policy.autoOn then enqueue b .normal none s' else s'

/-- The REMOVED outcome (R4, R7, R10). -/
def removed (b : Bay) (s : State) : State :=
  setReplug b (some replugMs) (pushHistory b .removed (moveBay b BayRec.departed s))

/-- The replug count after a REPLUGGED outcome (R5). -/
def BayRec.replugs (r : BayRec) : Nat := min (r.replugCount + 1) 255

/-- The INSERTED or REPLUGGED outcome (R5). -/
def arrived (b : Bay) (s : State) : State :=
  if s.bmon.replug[b].isSome then
    let n := (s.bay b).replugs
    enterOff b (fun r => { r with replugCount := n }) (.replugged n) (setReplug b none s)
  else enterOff b id .inserted s

/-- The debounce timer expires (R4, R5, R6). -/
def debounceEnd (b : Bay) (s : State) : State :=
  if s.bmon.debounce[b].isSome then
    let s' := setDebounce b none s
    match s.pins.presence[b], (s.bay b).settlingFrom with
    | .absent, some .present => removed b s'
    | .absent, some .absent => moveBay b (fun r => r.enter .empty) s'
    | .present, some .absent => arrived b s'
    | .present, some .present => enterOff b id .glitch s'
    | _, none => s'
  else s

end Sys2Proof.Machine
end

