-- ==== Sys2Proof/Machine/Exchange.lean ====
section
/-! DEFINITION. The Exchange Port (spec/09_exchange_memory_and_orders.md): register writes, the freeze, the two resets. -/

namespace Sys2Proof.Machine

/-! ### Register writes (R151 to R154, R160) -/

/-- Bits of a half in their place in the 32-bit register (R151). -/
def placed (half : RegHalf) (bits : Half) : Word :=
  match half with
  | .lower => bits.setWidth 32
  | .upper => bits.setWidth 32 <<< 16

/-- The bits of the other half. -/
def otherHalf (half : RegHalf) : Word :=
  match half with
  | .lower => 0xFFFF0000
  | .upper => 0x0000FFFF

/-- Bits 0 to 28 (R160). -/
def changeBits : Word := 0x1FFFFFFF

/-- Change EXP's state. -/
def updExp (f : Exp → Exp) (s : State) : State := { s with exp := f s.exp }

/-- One bit of a POST write (R153). -/
def postBit (bits : Word) (e : Exp) (n : SlotId) : Exp :=
  if bits.getLsbD n.val then
    if e.slots[n].state = .free then { e with slots := e.slots.set n { e.slots[n] with state := .posted } }
    else { e with collisions := min (e.collisions + 1) 255 }
  else e

/-- A write of ORDER POST; while ready reads 0 it does nothing (R153). -/
def postWrite (half : RegHalf) (bits : Half) (s : State) : State :=
  if s.exp.ready then updExp (fun e => (List.finRange 32).foldl (postBit (placed half bits)) e) s else s

/-- The host's writes to the exchange memory (R151). -/
def hostWrites (writes : List HostWrite) (s : State) : State := { s with mem := writes.foldl Memory.hostWrite s.mem }

/-- One bit of a DONE write (R154). -/
def doneBit (bits : Word) (e : Exp) (n : SlotId) : Exp :=
  if bits.getLsbD n.val = true ∧ e.slots[n].state = .done then
    { e with slots := e.slots.set n { e.slots[n] with state := .free } }
  else e

/-- A write of ORDER DONE (R154). -/
def doneWrite (half : RegHalf) (bits : Half) (s : State) : State :=
  updExp (fun e => (List.finRange 32).foldl (doneBit (placed half bits)) e) s

/-- A write of CHANGE SUMMARY clears the bits written 1 (R160). -/
def summaryWrite (half : RegHalf) (bits : Half) (s : State) : State :=
  updExp (fun e => { e with summary := e.summary &&& ~~~(placed half bits) }) s

/-- A write of CHANGE ENABLE replaces the mask bits of its half (R151); bits 29 to 31 stay 0. -/
def enableWrite (half : RegHalf) (mask : Half) (s : State) : State :=
  updExp (fun e => { e with enable := ((e.enable &&& otherHalf half) ||| placed half mask) &&& changeBits }) s

/-! ### The freeze (R163 to R165) -/

/-- A 1 written to the freeze bit (R163). -/
def freezeOn (s : State) : State :=
  if s.exp.ready && !s.exp.freezeBit then
    updExp (fun e => { e with freezeBit := true, freezeActive := true, freezeExpired := false, freezeTimer := some freezeMs }) s
  else s

/-- The freeze ends: the records now dirty are written before freeze active falls (R164). -/
def endFreeze (s : State) : State :=
  settleThaw (updExp (fun e => { e with
    freezeBit := false, freezeTimer := none, thawLeft := e.dirty.map DirtyEntry.record }) s)

/-- A 0 written to the freeze bit (R164). -/
def freezeOff (s : State) : State := if s.exp.freezeBit then endFreeze s else s

/-- The freeze timer reaches 250 ms (R165): change bit 28 is set. -/
def freezeExpiry (s : State) : State :=
  if s.exp.freezeTimer.isSome then
    endFreeze (updExp (fun e => { e with freezeExpired := true, summary := e.summary ||| 0x10000000 }) s)
  else s

/-! ### Port reset (R166) -/

/-- BMON clears every bay's power order (R24). -/
def clearPowerOrders (s : State) : State :=
  (List.finRange 24).foldl (fun s b => updBay b (fun r => { r with powerOrder := none }) s) s

/-- An entry of the admission queue without its slot (R45). -/
def QEntry.slotless (e : QEntry) : QEntry := { e with slot := none }

/-- PSEQ, SBE, THC and FANU drop their references to slots (R45, R81, R94, R113, R128). -/
def Pseq.slotless (p : Pseq) : Pseq :=
  { p with urgent := p.urgent.map QEntry.slotless, normal := p.normal.map QEntry.slotless }
def Txn.slotless (t : Txn) : Txn := { t with entry := { t.entry with slot := none } }
def Sbe.slotless (b : Sbe) : Sbe :=
  { b with orderQ := b.orderQ.filter (fun e => e.origin ≠ .query), flight := b.flight.map Txn.slotless }
def Thc.slotless (t : Thc) : Thc :=
  { t with
    pendingMap := t.pendingMap.map fun p => { p with slot := none }
    pendingSelect := t.pendingSelect.map fun p => { p with slot := none } }
def FanWork.slotless (w : FanWork) : FanWork := { w with learn := w.learn.map fun l => { l with slot := none } }
def Fanu.slotless (f : Fanu) : Fanu := { f with work := Vector.ofFn fun i => f.work[i].slotless }

/-- Every owner drops its references to slots (R166, step 4). -/
def dropSlots (s : State) : State :=
  let s' := clearPowerOrders s
  { s' with pseq := s'.pseq.slotless, sbe := s'.sbe.slotless, thc := s'.thc.slotless, fanu := s'.fanu.slotless }

/-- The records a reset has still to write. -/
def resetLeft (e : Exp) : List DirtyEntry :=
  match e.resetWrite with
  | none => []
  | some w => w.left

/-- The whole mirror to write at a port reset: what was waiting keeps its place, then every other record (R161,
R166). -/
def wholeMirror (e : Exp) : List DirtyEntry :=
  allRecords.foldl (fun l r => addMark r false l) (e.dirty.foldl (fun l d => addMark d.record d.notice l) (resetLeft e))

/-- EXP at a port reset (R166, steps 1 to 3, 5 and 6). -/
def Exp.portReset (e : Exp) : Exp :=
  { e with
    slots := Vector.ofFn fun n => { e.slots[n] with state := .free }
    pointer := 31, summary := 0, enable := 0, doneEnable := false, freezeBit := false, freezeActive := false
    freezeExpired := false, ready := false, collisions := 0, freezeTimer := none
    dirty := [], resetWrite := some ⟨wholeMirror e, true⟩, thawLeft := [] }

/-- Port reset (R166). -/
def portResetAll (s : State) : State := updExp Exp.portReset (dropSlots s)

/-! ### A write of the local bus (R151, R152) -/

/-- A write of the lower half of PORT CONTROL (R152): port reset alone where bit 2 is set, else bit 0 to the
done-interrupt enable and bit 1 to the freeze. -/
def portControlWrite (v : Half) (s : State) : State :=
  if v.getLsbD 2 then portResetAll s
  else
    let s' := updExp (fun e => { e with doneEnable := v.getLsbD 0 }) s
    if v.getLsbD 1 then freezeOn s' else freezeOff s'

/-- A write of one half of a register (R151, R152). -/
def registerWrite (r : Register) (half : RegHalf) (v : Half) (s : State) : State :=
  match r, half with
  | .orderPost, _ => postWrite half v s
  | .orderDone, _ => doneWrite half v s
  | .changeSummary, _ => summaryWrite half v s
  | .changeEnable, _ => enableWrite half v s
  | .portControl, .lower => portControlWrite v s
  | .portControl, .upper => s
  | .portStatus, _ => s

/-- A 16-bit write of the local bus at a byte address (R151): to a word of the exchange memory, to a half of a
register, or to nothing. -/
def busWrite (a : Nat) (v : Half) (s : State) : State :=
  if a < Memory.size then if a % 2 = 0 then { s with mem := s.mem.writeBytes a (le16 v.toNat) } else s
  else
    match registerAt a with
    | some p => registerWrite p.1 p.2 v s
    | none => s

/-- The bits of a half that PORT CONTROL's lower half, and the upper halves of CHANGE SUMMARY and CHANGE ENABLE, do
not use (R151, R152). -/
def controlUnused : Half := 0xFFF8
def changeUnused : Half := 0xE000

/-- A write of the bits that are not used, or of a half that ignores writes.  It is a write of its whole half: the
bits the half uses are not among the operand's and are written 0 (R151, R152; notes/assumptions/29.md). -/
def otherWrite (target : OtherWrite) (s : State) : State :=
  match target with
  | .portStatus half v => registerWrite .portStatus half v s
  | .portControlUpper v => registerWrite .portControl .upper v s
  | .portControlUnused v => registerWrite .portControl .lower (v &&& controlUnused) s
  | .changeSummaryUnused v => registerWrite .changeSummary .upper (v &&& changeUnused) s
  | .changeEnableUnused v => registerWrite .changeEnable .upper (v &&& changeUnused) s

/-! ### Power-on reset (R24, R167) -/

/-- BMON samples a presence input (R24). -/
def samplePresence (s : State) (b : Bay) : State :=
  if s.pins.presence[b] = .present then setDebounce b (some debounceMs) (moveBay b BayRec.settling s) else s

/-- Power-on reset: every block at its reset values, then the presence inputs are sampled (R24, R167).  The pins,
what the exchange memory held, and the commands still to come stay. -/
def powerOn (s : State) : State :=
  (List.finRange 24).foldl samplePresence (State.poweredOn s.pins s.mem s.free s.pending)

end Sys2Proof.Machine
end

