-- ==== Sys2Proof/Machine/Orders.lean ====
section
/-! DEFINITION. The orders of BMON, PSEQ and SBE as their owners take them (chapters 1 to 4).  Arguments stand where
section 10.4 places them, details where section 10.5 does. -/

namespace Sys2Proof.Machine

/-- A take of one kind: the slot the dispatcher takes next, if it holds that kind, goes to its owner (R155). -/
def take (k : Kind) (act : SlotId → State → State) (s : State) : State :=
  match takeKind k s with
  | none => s
  | some n => act n (takeSlot n s)

/-- A take of a slot whose kind code names no order kind (R156). -/
def takeBad (s : State) : State :=
  match takeBadKind s with
  | none => s
  | some n => complete n .badKind [] (takeSlot n s)

/-! ### BAY POWER ON (R38) -/

/-- A queue class code. -/
def QClass.ofCode (b : Byte) : Option QClass := if b = 0 then some .normal else if b = 1 then some .urgent else none

/-- A valid BAY POWER ON, answered by the state of the bay (R38). -/
def powerOnBay (n : SlotId) (b : Bay) (cls : QClass) (s : State) : State :=
  match (s.bay b).state with
  | .off => enqueue b cls (some n) s
  | .queued | .ramping | .spinning | .active => complete n .already [] s
  | .empty | .settling => complete n .bayEmpty [] s
  | .fault => complete n .bayFault [] s
  | .stopping => complete n .busy [] s

/-- BAY POWER ON. -/
def powerOnOrder (n : SlotId) (s : State) : State :=
  match bayOf (argByte s n 0), QClass.ofCode (argByte s n 1) with
  | some b, some cls => powerOnBay n b cls s
  | _, _ => complete n .badArg [] s

/-! ### BAY POWER OFF (R55) -/

/-- A power-off mode code. -/
def OffMode.ofCode (b : Byte) : Option OffMode := if b = 0 then some .graceful else if b = 1 then some .immediate else none

/-- The hold used: 255 selects 2 s, 11 to 254 are clamped to 10 s (R55). -/
def holdUsed (b : Byte) : Nat := if b = 255 then 2 else min b.toNat 10

/-- The detail of a power-off answered at once: the hold used, where it was clamped (section 10.5). -/
def clampedDetail (b : Byte) : List Byte := if 11 ≤ b.toNat ∧ b.toNat ≤ 254 then absent 5 ++ [10] else []

/-- A valid BAY POWER OFF, answered by the state of the bay (R55). -/
def powerOffBay (n : SlotId) (b : Bay) (mode : OffMode) (hold : Byte) (s : State) : State :=
  match (s.bay b).state with
  | .off | .empty | .settling | .fault => complete n .already (clampedDetail hold) s
  | .queued => evaluate (complete n .ok (clampedDetail hold) (cancelQueued b s))
  | .ramping | .spinning => immediateStop b n (holdUsed hold) s
  | .active =>
    match mode with
    | .immediate => immediateStop b n (holdUsed hold) s
    | .graceful => gracefulStop b n (holdUsed hold) s
  | .stopping => complete n .busy (clampedDetail hold) s

/-- BAY POWER OFF.  BAD_ARG writes no byte, whatever the hold: a refusal is not an answer "at once with a clamped hold",
for R156 sets the two apart (DEDUCED, notes/assumptions/17.md). -/
def powerOffOrder (n : SlotId) (s : State) : State :=
  match bayOf (argByte s n 0), OffMode.ofCode (argByte s n 1) with
  | some b, some mode => powerOffBay n b mode (argByte s n 2) s
  | _, _ => complete n .badArg [] s

/-! ### BAY POLICY (R18) -/

/-- The bays an order names: one of 0 to 23, or all with 255. -/
def baysOf (b : Byte) : Option (List Bay) :=
  if b = 255 then some (List.finRange 24) else (bayOf b).map fun x => [x]

/-- The policy a BAY POLICY carries (section 10.4), the shed temperature clamped to 100 (R18). -/
def policyOf (s : State) (n : SlotId) (start : Level) : Policy :=
  { autoOn := (argByte s n 1).getLsbD 0, shedTemp := min (argByte s n 2).toNat 100, startLevel := start,
    levelMask := (argByte s n 4).setWidth 4, useLearned := (argByte s n 1).getLsbD 1 }

/-- A start level. -/
def levelOfByte (b : Byte) : Option Level := if h : b.toNat < 4 then some ⟨b.toNat, h⟩ else none

/-- A policy written into bays, each marked whether or not a value changed (R18). -/
def writePolicy (p : Policy) (s : State) (b : Bay) : State := mark (.bay b) true (updBay b (fun r => { r with policy := p }) s)

/-- BAY POLICY. -/
def policyOrder (n : SlotId) (s : State) : State :=
  let named := argByte s n 0
  let refuse := fun field : Byte => complete n .badArg [named, 0xFF, field] s
  match baysOf named with
  | none => refuse 0
  | some bays =>
    match levelOfByte (argByte s n 3) with
    | none => refuse 1
    | some start =>
      let p := policyOf s n start
      if p.levelMask = 0 then refuse 2
      else complete n .ok [named, byte p.shedTemp] (bays.foldl (writePolicy p) s)

/-! ### CLEAR FAULT (R14) -/

/-- A bay in FAULT goes to OFF (R14). -/
def clearBay (s : State) (b : Bay) : State :=
  if (s.bay b).state = .fault then
    pushHistory b (.cleared (s.bay b).faultCause) (moveBay b (fun r => r.enter .off) s)
  else s

/-- The bays in FAULT. -/
def faultCount (s : State) : Nat := (List.finRange 24).countP fun b => (s.bay b).state = .fault

/-- CLEAR FAULT of one bay. -/
def clearOne (n : SlotId) (b : Bay) (s : State) : State :=
  match (s.bay b).state with
  | .fault => complete n .ok [byte b.val, 1, optByte ((s.bay b).faultCause.map FaultCause.code)] (clearBay s b)
  | .empty | .settling => complete n .bayEmpty [byte b.val, 0] s
  | .off | .queued | .ramping | .spinning | .active | .stopping => complete n .already [byte b.val, 0] s

/-- CLEAR FAULT of all bays, in ascending order. -/
def clearAll (n : SlotId) (s : State) : State :=
  complete n (if faultCount s = 0 then .already else .ok) [255, byte (faultCount s)] ((List.finRange 24).foldl clearBay s)

/-- CLEAR FAULT. -/
def clearFaultOrder (n : SlotId) (s : State) : State :=
  let named := argByte s n 0
  if named = 255 then clearAll n s
  else
    match bayOf named with
    | some b => clearOne n b s
    | none => complete n .badArg [named] s

/-! ### BUDGET SET (R42, R43) -/

/-- The settings of a BUDGET SET, the tuning values clamped (R42). -/
def settingsOf (s : State) (n : SlotId) : Settings :=
  let arg := fun i => (argByte s n i).toNat
  { capacity := arg16 s n 0, floor := arg16 s n 2, stagger := min (arg 4) 100, maxConcurrent := max 1 (min (arg 5) 24),
    rotating := ⟨arg 6, arg 7⟩, solid := ⟨arg 8, arg 9⟩, rotatingSpin := max 1 (min (arg 10) 60),
    solidSpin := max 1 (min (arg 11) 60) }

/-- A refusal of a BUDGET SET: its result, the setting that failed, and the present value (section 10.5). -/
structure BudgetRefusal where
  result : Result
  setting : Byte
  present : Option Nat
  deriving DecidableEq, Repr

/-- The tests of R42 in their order. -/
def budgetTests (c : Settings) (a : Account) : List (Bool × BudgetRefusal) :=
  [(decide (c.capacity ≤ 4095), ⟨.badArg, 0, none⟩), (decide (c.floor ≤ 4095), ⟨.badArg, 1, none⟩),
    (decide (c.floor ≤ c.capacity), ⟨.badArg, 1, none⟩), (decide (c.rotating.inrush ≠ 0), ⟨.badArg, 4, none⟩),
    (decide (c.rotating.steady ≠ 0), ⟨.badArg, 5, none⟩), (decide (c.solid.inrush ≠ 0), ⟨.badArg, 6, none⟩),
    (decide (c.solid.steady ≠ 0), ⟨.badArg, 7, none⟩),
    (decide (c.rotating.steady ≤ c.rotating.inrush), ⟨.badArg, 5, none⟩),
    (decide (c.solid.steady ≤ c.solid.inrush), ⟨.badArg, 7, none⟩),
    (decide (a.drives ≤ c.capacity - c.floor), ⟨.budgetInUse, 0, some a.drives⟩),
    (decide (a.starting ≤ c.maxConcurrent), ⟨.budgetInUse, 3, some a.starting⟩)]

/-- The first test that fails (R42). -/
def budgetRefusal (c : Settings) (a : Account) : Option BudgetRefusal :=
  ((budgetTests c a).find? fun t => !t.1).map Prod.snd

/-- The detail of a refusal (section 10.5). -/
def BudgetRefusal.detail (r : BudgetRefusal) : List Byte :=
  absent 18 ++ [r.setting, 0xFF] ++ (r.present.map le16).getD (absent 2)

/-- Whether the stagger has elapsed under a new setting (R34).  The ticks since the last admission tell it but at
one count, where the time lies within a tick of the setting: a free value (notes/assumptions/5.md). -/
def staggerOver (a : Account) (new free : Nat) : Bool :=
  if new = 0 ∨ (a.staggerTimer = none ∧ new ≤ a.settings.stagger) then true
  else if a.staggerTimer ≠ none ∧ a.settings.stagger ≤ new then false
  else
    match a.sinceAdmission with
    | none => true
    | some t => if t = 10 * new then Config.staggerEdge free else decide (10 * new < t)

/-- The account with new settings (R43). -/
def Account.accepted (a : Account) (c : Settings) (free : Nat) : Account :=
  { a with settings := c, staggerTimer := if staggerOver a c.stagger free then none else staggerStart c.stagger }

/-- BUDGET SET.  D, E_fan and the room are those of the account with its new settings, before the evaluation the
acceptance starts (R43). -/
def budgetOrder (n : SlotId) (s : State) : State :=
  let c := settingsOf s n
  match budgetRefusal c s.account with
  | some r => complete n r.result r.detail s
  | none =>
    let s' := mark .budget true (useFree (updAccount (fun a => a.accepted c s.free) s))
    let a := s'.account
    evaluate (complete n .ok (encodeSettings c ++ le16 a.drives ++ le16 a.fanEstimate ++ le16 (roomShown a)) s')

/-! ### SIDEBAND QUERY (R74) -/

/-- The item byte of an interval order's detail: the item as taken where it is a listed code, else absent, for an
unlisted code is never written (R172).  The order itself ignores the item (R74). -/
def itemShown (b : Byte) : Byte := if 1 ≤ b.toNat ∧ b.toNat ≤ 4 then b else 0xFF

/-- A SIDEBAND QUERY with bay 255 sets the poll interval. -/
def setInterval (n : SlotId) (s : State) : State :=
  let interval := max 1 (min (argByte s n 2).toNat 60)
  complete n .ok ([255, itemShown (argByte s n 1)] ++ absent 30 ++ [byte interval])
    { s with sbe := { s.sbe with interval, pollTimer := some (1000 * interval) } }

/-- A SIDEBAND QUERY of a bay. -/
def queryBay (n : SlotId) (b : Bay) (item : SbItem) (s : State) : State :=
  match (s.bay b).state with
  | .empty | .settling => complete n .bayEmpty [] s
  | .off | .queued | .ramping | .spinning | .active | .stopping | .fault =>
    if orderRoom s then joinOrder { bay := b, item, origin := .query, slot := some n, take := s.clock.tick } s
    else complete n .queueFull [] s

/-- SIDEBAND QUERY. -/
def queryOrder (n : SlotId) (s : State) : State :=
  if argByte s n 0 = 255 then setInterval n s
  else
    match bayOf (argByte s n 0), SbItem.ofQueryCode (argByte s n 1) with
    | some b, some item => queryBay n b item s
    | _, _ => complete n .badArg [] s

end Sys2Proof.Machine
end

