-- ==== Sys2Proof/Machine/CoolingOrders.lean ====
section
/-! DEFINITION. The orders of THC and FANU as their owners take them (chapters 5 to 7). -/

namespace Sys2Proof.Machine

/-! ### ZONE MAP (R94) -/

/-- A fan's zone number in a ZONE MAP (section 10.4). -/
def fanZoneArg (s : State) (n : SlotId) (f : FanId) : Byte := argByte s n f.val

/-- The first fan whose zone number is above 3 (R94). -/
def badFanZone (s : State) (n : SlotId) : Option FanId :=
  (List.finRange 8).find? fun f => decide (3 < (fanZoneArg s n f).toNat)

/-- The map a valid ZONE MAP carries (section 10.4). -/
def mapOf (s : State) (n : SlotId) : PendingMap :=
  { fanZone := Vector.ofFn fun f => Fin.ofNat 4 (fanZoneArg s n f).toNat
    sensors := Vector.ofFn fun z => BitVec.ofNat 32 (s.mem.read32 (argBase n + 8 + 4 * z.val))
    fitted := argByte s n 24, slot := some n }

/-- The slot of a pending map, if there is one. -/
def pendingMapSlot (t : Thc) : Option SlotId :=
  match t.pendingMap with
  | none => none
  | some p => p.slot

/-- ZONE MAP: the new map becomes pending, an older one with a slot completes SUPERSEDED (R94). -/
def mapOrder (n : SlotId) (s : State) : State :=
  match badFanZone s n with
  | some f => complete n .badArg [byte f.val] s
  | none =>
    completeOpt (pendingMapSlot s.thc) .superseded []
      { s with thc := { s.thc with pendingMap := some (mapOf s n) } }

/-! ### CURVE SELECT (R111) -/

/-- A bank code. -/
def Bank.ofCode (b : Byte) : Option Bank := if b = 0 then some .a else if b = 1 then some .b else none

/-- The slot of a pending select, if there is one. -/
def pendingSelectSlot (t : Thc) : Option SlotId :=
  match t.pendingSelect with
  | none => none
  | some p => p.slot

/-- CURVE SELECT: the new select becomes pending, an older one with a slot completes SUPERSEDED (R111). -/
def selectOrder (n : SlotId) (s : State) : State :=
  match Bank.ofCode (argByte s n 0) with
  | none => complete n .badArg [] s
  | some bank =>
    completeOpt (pendingSelectSlot s.thc) .superseded []
      { s with thc := { s.thc with pendingSelect := some ⟨bank, some n⟩ } }

/-! ### FAN CONFIG (R123) -/

/-- The record with the values of a FAN CONFIG stored (R123). -/
def configured (s : State) (n : SlotId) (r : FanRec) : FanRec :=
  let min' := arg16 s n 6
  { r with
    installed := (argByte s n 1).getLsbD 0
    ppr := (argByte s n 2).toNat
    maxUnits := (argByte s n 3).toNat
    threshold := arg16 s n 4
    learnedMin := if fullDuty < min' then r.learnedMin else min' }

/-- What an accepted FAN CONFIG does to the fan's state (R123). -/
def configuredState (f : FanId) (before : FanState) (s : State) : State :=
  if (s.fan f).installed then
    match before with
    | .running =>
      updWork f (fun w => { w with lowGates := 0 }) (updFan f (fun r => { r with duty := max r.duty r.learnedMin }) s)
    | .stopped => updWork f (fun w => { w with lowGates := 0 }) s
    | .absent | .stalled | .failed | .learning =>
      leftFailed f before (updFan f (fun r => { r with kicks := 0 }) (zoneControl f s))
  else leftFailed f before (updFan f (fun r => { r with state := .absent, duty := 0 }) s)

/-- The detail of an accepted FAN CONFIG (section 10.5). -/
def configDetail (f : FanId) (r : FanRec) : List Byte :=
  [byte f.val, byte r.state.code, byte (bit r.installed), byte r.ppr, byte r.maxUnits, 0xFF] ++ le16 r.threshold
    ++ le16 r.learnedMin

/-- An accepted FAN CONFIG: the record is marked, the order completes, the estimate is delivered (R123, R130). -/
def applyConfig (n : SlotId) (f : FanId) (s : State) : State :=
  let s' := configuredState f (s.fan f).state (mark (.fan f) false (updFan f (configured s n) s))
  deliverFans (complete n .ok (configDetail f (s'.fan f)) s')

/-- FAN CONFIG.  BAD_ARG writes the failing field alone: bytes 0 to 9 are absent (DEDUCED, notes/assumptions/17.md). -/
def configOrder (n : SlotId) (s : State) : State :=
  match fanOf (argByte s n 0) with
  | none => complete n .badArg (absent 10 ++ [0]) s
  | some f =>
    if 1 ≤ (argByte s n 2).toNat ∧ (argByte s n 2).toNat ≤ 4 then
      if (s.fan f).state = .learning then complete n .busy [] s else applyConfig n f s
    else complete n .badArg (absent 10 ++ [1]) s

/-! ### FAN LEARN (R124) -/

/-- The detail of a FAN LEARN answered at once (R129). -/
def learnRefused (s : State) (f : FanId) (mask : Byte) : List Byte :=
  [byte f.val, mask, 0] ++ absent 3 ++ le16 (s.fan f).learnedMin ++ le16 (s.fan f).learnedMin

/-- A learn at its start (R124, R129). -/
def Learn.fresh (n : SlotId) (mask : Byte) (level : Fin 8) (minBefore : Nat) : Learn :=
  { slot := some n, mask, level, settled := 0, readings := 0, last := 0, list := [], minBefore, gates := 0 }

/-- A fan enters LEARNING at its highest enabled level (R124, R125). -/
def startLearn (n : SlotId) (f : FanId) (mask : Byte) (level : Fin 8) (s : State) : State :=
  let before := (s.fan f).state
  let kicks := if before = .stalled then 0 else (s.fan f).kicks
  visitLevel f (Learn.fresh n mask level (s.fan f).learnedMin) level
    (leftFailed f before (updFan f (fun r => { r with state := .learning, kicks := kicks }) s))

/-- A FAN LEARN of a fan 0 to 7 (R124). -/
def learnFan (n : SlotId) (f : FanId) (mask : Byte) (s : State) : State :=
  match highestLevel mask with
  | none => complete n .badArg (learnRefused s f mask) s
  | some level =>
    if (s.fan f).state = .absent then complete n .badArg (learnRefused s f mask) s
    else if (s.fan f).state = .learning then complete n .busy (learnRefused s f mask) s
    else if learnHotDuty ≤ zoneD3 s f then complete n .abortedHot (learnRefused s f mask) s
    else startLearn n f mask level s

/-- FAN LEARN. -/
def learnOrder (n : SlotId) (s : State) : State :=
  match fanOf (argByte s n 0) with
  | none => complete n .badArg [argByte s n 0, argByte s n 1, 0] s
  | some f => learnFan n f (argByte s n 1) s

end Sys2Proof.Machine
end

