-- ==== Sys2Proof/Machine/LightOrders.lean ====
section
/-! DEFINITION. The orders of LGT as it takes them (chapter 8), the two light events beside the envelope step, and
ABORT (R157). -/

namespace Sys2Proof.Machine

/-- A pattern byte: 0 to 15, or 255 for none; anything else is out of range (R171). -/
def patternOf (b : Byte) : Option (Option PatId) :=
  if h : b.toNat < 16 then some (some ⟨b.toNat, h⟩) else if b = 255 then some none else none

/-! ### LIGHT SET (R144) -/

/-- The channel of a bay a LIGHT SET names: 0 STATUS, 1 ATTENTION (section 10.2). -/
def lightChan (b : Bay) (code : Byte) : Option Chan :=
  if code = 0 then some (statusChan b) else if code = 1 then some (attentionChan b) else none

/-- A valid LIGHT SET (R144). -/
def lightSet (n : SlotId) (c : Chan) (p : Option PatId) (s : State) : State :=
  match p with
  | some i => complete n .ok [] (setLgt (s.lgt.setOrder c i) s)
  | none =>
    if (s.chan c).order.isSome then complete n .ok [] (setLgt (emptyOrder s.lgt c).1 s) else complete n .already [] s

/-- LIGHT SET. -/
def lightSetOrder (n : SlotId) (s : State) : State :=
  match (bayOf (argByte s n 0)).bind (fun b => lightChan b (argByte s n 1)), patternOf (argByte s n 2) with
  | some c, some p => lightSet n c p s
  | _, _ => complete n .badArg [] s

/-! ### LOCATE (R145, R146) -/

/-- The LOCATE timer and deadline of a timeout (R145). -/
def locateTimerOf (timeout : Nat) : Timer := if timeout = 0 then none else some (1000 * timeout)
def deadlineOf (timeout : Nat) (uptime : Word) : Option Word :=
  if timeout = 0 then none else some (uptime + BitVec.ofNat 32 timeout)

/-- LOCATE set on the ATTENTION channels of bays (R145), one by one: a leader's sync restarts reach members still under
their old pattern (DESIGN CHOICE, notes/assumptions/33.md). -/
def locateAll (bays : List Bay) (p : PatId) (timeout : Nat) (uptime : Word) (l : Lgt) : Lgt :=
  bays.foldl (fun l b => l.setLocate (attentionChan b) p (locateTimerOf timeout) (deadlineOf timeout uptime)) l

/-- The bays whose LOCATE layer is set. -/
def located (bays : List Bay) (l : Lgt) : List Bay := bays.filter fun b => l.chans[attentionChan b].locate.isSome

/-- LOCATE cleared on the ATTENTION channels of bays (R145), one by one (DESIGN CHOICE, notes/assumptions/33.md). -/
def clearLocate (bays : List Bay) (l : Lgt) : Lgt :=
  (located bays l).foldl (fun l b => (emptyLocate l (attentionChan b)).1) l

/-- A valid LOCATE (R145); the detail gives the timeout used and the channels whose layer changed (section 10.5). -/
def locate (n : SlotId) (bays : List Bay) (p : Option PatId) (timeout : Nat) (s : State) : State :=
  match p with
  | some i =>
    complete n .ok (le16 timeout ++ [byte bays.length]) (setLgt (locateAll bays i timeout s.clock.uptime s.lgt) s)
  | none =>
    let found := (located bays s.lgt).length
    complete n (if found = 0 then .already else .ok) (le16 timeout ++ [byte found]) (setLgt (clearLocate bays s.lgt) s)

/-- LOCATE. -/
def locateOrder (n : SlotId) (s : State) : State :=
  match baysOf (argByte s n 0), patternOf (argByte s n 1) with
  | some bays, some p => locate n bays p (min (arg16 s n 2) 255) s
  | _, _ => complete n .badArg [] s

/-- The LOCATE timer of a bay's ATTENTION channel expires (R146). -/
def locateExpiry (b : Bay) (s : State) : State :=
  if (s.chan (attentionChan b)).locateTimer.isSome then setLgt (emptyLocate s.lgt (attentionChan b)).1 s else s

/-- A rising edge of a bay's activity input reaches both its channels (R139). -/
def activity (b : Bay) (s : State) : State :=
  setLgt (activityDip (activityDip s.lgt (statusChan b)) (attentionChan b)) s

/-- The envelope step timer expires (R136). -/
def lightStep (s : State) : State := setLgt { s.lgt.envelopeStep with stepTimer := some envelopeStepMs } s

/-! ### LIGHT SYNC (R147) -/

/-- A valid LIGHT SYNC; the detail gives the previous group and the new group's leader. -/
def lightSync (n : SlotId) (c : Chan) (g : Fin 5) (s : State) : State :=
  let old := (s.chan c).group
  let s' := setLgt (s.lgt.setGroup c g) s
  complete n (if old = g then .already else .ok) [byte old.val, optByte ((leader s'.lgt g).map fun x => byte x.val)] s'

/-- LIGHT SYNC. -/
def lightSyncOrder (n : SlotId) (s : State) : State :=
  if h : (argByte s n 0).toNat < 48 ∧ (argByte s n 1).toNat < 5 then
    lightSync n ⟨(argByte s n 0).toNat, h.1⟩ ⟨(argByte s n 1).toNat, h.2⟩ s
  else complete n .badArg [] s

/-! ### PATTERN LOAD (R135) -/

/-- A nibble of a byte. -/
def nibble (b : Byte) (high : Bool) : Fin 16 := Fin.ofNat 16 (if high then b.toNat / 16 else b.toNat)

/-- A pattern record as it stands in the pattern area (section 10.7), its sustain clamped to its peak (R135). -/
def readPattern (m : Memory) (i : PatId) : Pattern :=
  let at' := fun k => m.read (patternBase i + k)
  { attack := nibble (at' 0) false, decay := nibble (at' 0) true, release := nibble (at' 1) false, peak := (at' 2).toNat,
    sustain := min (at' 3).toNat (at' 2).toNat, onTime := (at' 4).toNat, offTime := (at' 5).toNat,
    repeats := (at' 6).toNat, activity := (at' 1).getLsbD 4 }

/-- The sustain of a record before its clamp. -/
def rawSustain (m : Memory) (i : PatId) : Nat := (m.read (patternBase i + 3)).toNat

/-- The indices of a load. -/
def loadRange (first count : Nat) : List PatId :=
  (List.finRange 16).filter fun i => decide (first ≤ i.val ∧ i.val < first + count)

/-- The pattern table after an accepted load (R135). -/
def loadedTable (s : State) (first count : Nat) : Vector Pattern 16 :=
  Vector.ofFn fun i : PatId => if first ≤ i.val ∧ i.val < first + count then readPattern s.mem i else s.lgt.patterns[i]

/-- The number of sustains a load clamps (R135). -/
def clampedCount (m : Memory) (first count : Nat) : Nat :=
  (loadRange first count).countP fun i => decide ((readPattern m i).peak < rawSustain m i)

/-- PATTERN LOAD. -/
def patternOrder (n : SlotId) (s : State) : State :=
  let first := (argByte s n 0).toNat
  let count := (argByte s n 1).toNat
  if first ≤ 15 ∧ 1 ≤ count ∧ first + count ≤ 16 then
    match (loadRange first count).find? fun i => decide ((readPattern s.mem i).peak = 0) with
    | some i => complete n .badArg (absent 3 ++ [byte i.val]) s
    | none =>
      complete n .ok [byte first, byte count, byte (clampedCount s.mem first count)]
        (setLgt (s.lgt.loadPatterns first count (loadedTable s first count)) s)
  else complete n .badArg [] s

/-! ### AUTO MAP (R143) -/

/-- The byte of a condition and channel in the AUTO map area (section 10.7). -/
def autoByte (m : Memory) (k : Fin 16) : Byte := m.read (autoMapBase + k.val)

/-- The first byte out of range (R143). -/
def badAutoByte (m : Memory) : Option (Fin 16) := (List.finRange 16).find? fun k => (patternOf (autoByte m k)).isNone

/-- The pattern of a byte in range. -/
def patOf (b : Byte) : Option PatId := (patternOf b).getD none

/-- The AUTO map of the area (section 10.7). -/
def readAutoMap (m : Memory) : Vector AutoEntry 8 :=
  Vector.ofFn fun c : Fin 8 => ⟨patOf (m.read (autoMapBase + 2 * c.val)), patOf (m.read (autoMapBase + 2 * c.val + 1))⟩

/-- AUTO MAP. -/
def autoMapOrder (n : SlotId) (s : State) : State :=
  match badAutoByte s.mem with
  | some k => complete n .badArg [byte (k.val / 2), byte (k.val % 2)] s
  | none => complete n .ok [] (setLgt (s.lgt.setAutoMap (readAutoMap s.mem)) s)

/-! ### ABORT (R157) -/

/-- The detail of an ABORT: the target, the state found, and for a TAKEN target its kind and tag (section 10.5). -/
def abortDetail (t : SlotId) (found : Slot) : List Byte :=
  if found.state = .taken then [byte t.val, found.state.code, found.kind, 0xFF] ++ le16 found.tag.toNat
  else [byte t.val, found.state.code]

/-- The queued bay whose power order is a slot (R41). -/
def queuedBayOf (s : State) (t : SlotId) : Option Bay :=
  (List.finRange 24).find? fun b => decide ((s.bay b).state = .queued ∧ (s.bay b).powerOrder = some t)

/-- The queued query of a slot (R76). -/
def queuedQuery (s : State) (t : SlotId) : Option SbEntry := s.sbe.orderQ.find? fun e => e.slot = some t

/-- The fan whose learn holds a slot (R128). -/
def learnOf (s : State) (t : SlotId) : Option (FanId × Learn) :=
  (List.finRange 8).findSome? fun f =>
    match (s.fanWork f).learn with
    | none => none
    | some l => if l.slot = some t then some (f, l) else none

/-- An ABORT of a BAY POWER ON (R41). -/
def abortPowerOn (n t : SlotId) (found : Slot) (s : State) : State :=
  match queuedBayOf s t with
  | some b => evaluate (complete n .ok (abortDetail t found) (cancelQueued b s))
  | none => complete n .tooLate (abortDetail t found) s

/-- An ABORT of a SIDEBAND QUERY (R76). -/
def abortQuery (n t : SlotId) (found : Slot) (s : State) : State :=
  match queuedQuery s t with
  | some e =>
    complete n .ok (abortDetail t found)
      (dropQuery .cancelled e { s with sbe := { s.sbe with orderQ := s.sbe.orderQ.filter fun x => x.slot ≠ some t } })
  | none => complete n .tooLate (abortDetail t found) s

/-- An ABORT of a FAN LEARN (R128); the fan's new duty reaches the estimate (R130). -/
def abortLearn (n t : SlotId) (found : Slot) (s : State) : State :=
  match learnOf s t with
  | some (f, l) => deliverFans (complete n .ok (abortDetail t found) (stopLearn f l .cancelled s))
  | none => complete n .tooLate (abortDetail t found) s

/-- An ABORT of a TAKEN target, by its kind (R157). -/
def abortTaken (n t : SlotId) (found : Slot) (s : State) : State :=
  match Kind.ofCode found.kind with
  | some .bayPowerOn => abortPowerOn n t found s
  | some .sidebandQuery => abortQuery n t found s
  | some .zoneMap =>
    complete n .ok (abortDetail t found)
      (complete t .cancelled [] { s with thc := { s.thc with pendingMap := none } })
  | some .curveSelect =>
    complete n .ok (abortDetail t found)
      (complete t .cancelled [] { s with thc := { s.thc with pendingSelect := none } })
  | some .fanLearn => abortLearn n t found s
  | _ => complete n .notAbortable (abortDetail t found) s

/-- ABORT (R157). -/
def abortOrder (n : SlotId) (s : State) : State :=
  if h : (argByte s n 0).toNat < 32 then
    let t : SlotId := ⟨(argByte s n 0).toNat, h⟩
    let found := s.slot t
    if found.state = .taken then abortTaken n t found s else complete n .tooLate (abortDetail t found) s
  else complete n .badArg [] s

end Sys2Proof.Machine
end

