-- ==== Sys2Proof/Machine/Events.lean ====
section
/-! DEFINITION. The meanings of the events at the pins and of the timers' expiries, one per row of the table.  An
event that cannot happen in a state (its timer does not run, its request is not there) changes nothing
(notes/assumptions/14.md). -/

namespace Sys2Proof.Machine

/-- A bay's power-good input reads otherwise from now on. -/
def setPowerGood (b : Bay) (on : Bool) (s : State) : State :=
  { s with pins := { s.pins with powerGood := s.pins.powerGood.set b on } }

/-- Power-good is asserted: inside a ramp window the attempt ends GOOD (R48, R51). -/
def powerGoodRises (b : Bay) (s : State) : State :=
  let s' := setPowerGood b true s
  if (s.path b).rampTimer.isSome then attemptGood b s' else s'

/-- Trip is asserted: inside a ramp window the attempt ends TRIP (R49), else R53 and R54 apply. -/
def tripRises (b : Bay) (s : State) : State :=
  if (s.path b).rampTimer.isSome then attemptFail b .trip s else powerCut b .trip s

/-- Power-good is deasserted: an attempt acts on power-good asserted only (R48); else R53 and R54 apply. -/
def powerGoodFalls (b : Bay) (s : State) : State := powerCut b .powerLost (setPowerGood b false s)

/-- The ramp window ends: the attempt ends SLOW (R48). -/
def rampEnd (b : Bay) (s : State) : State := if (s.path b).rampTimer.isSome then attemptFail b .slow s else s

/-- The hold ends (R59). -/
def holdOver (b : Bay) (s : State) : State := if (s.path b).holdTimer.isSome then finishHold b s else s

/-- The ticks since the last admission once the stagger has run out: at least its own (R34). -/
def sinceExpiry (stagger : Nat) : Option Nat → Option Nat
  | none => none
  | some t => some (max t (10 * stagger))

/-- The stagger expires (R34). -/
def staggerOut (s : State) : State :=
  if s.account.staggerTimer.isSome then
    evaluate (updAccount (fun a => { a with
      staggerTimer := none, sinceAdmission := sinceExpiry a.settings.stagger a.sinceAdmission }) s)
  else s

/-- PSEQ takes THC's oldest shed request for a bay (R61). -/
def shedTaken (b : Bay) (s : State) : State :=
  let q := takeShed b s.pseq.sheds
  let s' := { s with pseq := { s.pseq with sheds := q.2 } }
  match q.1 with
  | none => s'
  | some r => shed b r.temp s'

/-- PRESENCE_CHANGE (R3, R8, R9). -/
def execPresenceChange (b : Bay) (s : State) : Host.Outcome State Fault Refusal :=
  .next (finishStep (presenceChanged b s))

/-- DEBOUNCE_EXPIRY (R4, R5, R6). -/
def execDebounceExpiry (b : Bay) (s : State) : Host.Outcome State Fault Refusal :=
  .next (finishStep (debounceEnd b s))

/-- REPLUG_WINDOW_EXPIRY (R7). -/
def execReplugWindowExpiry (b : Bay) (s : State) : Host.Outcome State Fault Refusal :=
  .next (finishStep (setReplug b none s))

/-- ACTIVITY_EDGE (R139). -/
def execActivityEdge (b : Bay) (s : State) : Host.Outcome State Fault Refusal :=
  .next (finishStep (activity b s))

/-- POWER_GOOD_ASSERTED (R48): outside a ramp window the input is only read. -/
def execPowerGoodAsserted (b : Bay) (s : State) : Host.Outcome State Fault Refusal :=
  .next (finishStep (powerGoodRises b s))

/-- TRIP_ASSERTED (R49, R53, R54). -/
def execTripAsserted (b : Bay) (s : State) : Host.Outcome State Fault Refusal :=
  .next (finishStep (tripRises b s))

/-- POWER_GOOD_DEASSERTED (R53, R54). -/
def execPowerGoodDeasserted (b : Bay) (s : State) : Host.Outcome State Fault Refusal :=
  .next (finishStep (powerGoodFalls b s))

/-- RAMP_WINDOW_END (R48, R49). -/
def execRampWindowEnd (b : Bay) (s : State) : Host.Outcome State Fault Refusal :=
  .next (finishStep (rampEnd b s))

/-- COOL_OFF_END (R49). -/
def execCoolOffEnd (b : Bay) (s : State) : Host.Outcome State Fault Refusal :=
  .next (finishStep (coolOffEnd b s))

/-- SPIN_WINDOW_END (R52). -/
def execSpinWindowEnd (b : Bay) (s : State) : Host.Outcome State Fault Refusal :=
  .next (finishStep (spinEnd b s))

/-- HOLD_END (R59). -/
def execHoldEnd (b : Bay) (s : State) : Host.Outcome State Fault Refusal :=
  .next (finishStep (holdOver b s))

/-- STAGGER_EXPIRY (R34). -/
def execStaggerExpiry (s : State) : Host.Outcome State Fault Refusal :=
  .next (finishStep (staggerOut s))

/-- SHED_REQUEST (R61). -/
def execShedRequest (b : Bay) (s : State) : Host.Outcome State Fault Refusal :=
  .next (finishStep (shedTaken b s))

/-- POLL_TIMER_EXPIRY (R71). -/
def execPollTimerExpiry (s : State) : Host.Outcome State Fault Refusal :=
  .next (finishStep (pollVisit s))

/-- SIDEBAND_REPLY (R66). -/
def execSidebandReply (bytes : List Byte) (s : State) : Host.Outcome State Fault Refusal :=
  .next (finishStep (replyArrived bytes s))

/-- SIDEBAND_NO_REPLY (R64, R68). -/
def execSidebandNoReply (s : State) : Host.Outcome State Fault Refusal :=
  .next (finishStep (noReply s))

/-- DEFER_SPACING_END (R67). -/
def execDeferSpacingEnd (s : State) : Host.Outcome State Fault Refusal :=
  .next (finishStep (spacingEnd s))

/-- BOARD_SENSOR_READ_TIMER (R86). -/
def execBoardSensorReadTimer (s : State) : Host.Outcome State Fault Refusal :=
  .next (finishStep (startBoardReads s))

/-- BOARD_SENSOR_READ_END (R86). -/
def execBoardSensorReadEnd (n : Fin 8) (reading : Option Int) (s : State) : Host.Outcome State Fault Refusal :=
  .next (finishStep (endBoardRead n reading s))

/-- ZONE_PERIOD_START (R97). -/
def execZonePeriodStart (s : State) : Host.Outcome State Fault Refusal :=
  .next (finishStep (zonePeriod s))

/-- TACH_GATE_EXPIRY (R117). -/
def execTachGateExpiry (s : State) : Host.Outcome State Fault Refusal :=
  .next (finishStep (gateExpiry s))

/-- ENVELOPE_STEP (R136). -/
def execEnvelopeStep (s : State) : Host.Outcome State Fault Refusal :=
  .next (finishStep (lightStep s))

/-- LOCATE_TIMER_EXPIRY (R146). -/
def execLocateTimerExpiry (b : Bay) (s : State) : Host.Outcome State Fault Refusal :=
  .next (finishStep (locateExpiry b s))

/-- TACH_EDGE (R117). -/
def execTachEdge (f : FanId) (s : State) : Host.Outcome State Fault Refusal :=
  .next (finishStep (tachEdge f s))

end Sys2Proof.Machine
end

