-- ==== Sys2Proof/Machine/Registers.lean ====
section
/-! DEFINITION. The meanings of the host's register writes, of EXP's own steps, of the two resets and of the two
counters (R151 to R167, R174). -/

namespace Sys2Proof.Machine

/-- EXP writes the next record unless a freeze holds (R161, R163). -/
def mirrorWrite (s : State) : State := if freezeHolds s then s else writeNext s

/-- The ticks since the last admission after one more: the count stops above the longest stagger (R34). -/
def sinceTick : Option Nat → Option Nat
  | none => none
  | some t => some (min (t + 1) 1001)

/-- The tick counter advances (R174), and with it the time since the last admission (R34). -/
def tickOn (s : State) : State :=
  updAccount (fun a => { a with sinceAdmission := sinceTick a.sinceAdmission })
    { s with clock := { s.clock with tick := s.clock.tick + 1 } }

/-- POWER_ON_RESET (R167). -/
def execPowerOnReset (s : State) : Host.Outcome State Fault Refusal :=
  .next (finishStep (powerOn s))

/-- MIRROR_RECORD_WRITE (R161). -/
def execMirrorRecordWrite (s : State) : Host.Outcome State Fault Refusal :=
  .next (finishStep (mirrorWrite s))

/-- ORDER_POST (R153), after the host's memory writes (R151; notes/assumptions/7.md). -/
def execOrderPost (writes : List HostWrite) (half : RegHalf) (bits : Half) (s : State) : Host.Outcome State Fault Refusal :=
  .next (finishStep (postWrite half bits (hostWrites writes s)))

/-- ORDER_DONE (R154). -/
def execOrderDone (half : RegHalf) (bits : Half) (s : State) : Host.Outcome State Fault Refusal :=
  .next (finishStep (doneWrite half bits s))

/-- CHANGE_SUMMARY (R160). -/
def execChangeSummary (half : RegHalf) (bits : Half) (s : State) : Host.Outcome State Fault Refusal :=
  .next (finishStep (summaryWrite half bits s))

/-- CHANGE_ENABLE (R151). -/
def execChangeEnable (half : RegHalf) (mask : Half) (s : State) : Host.Outcome State Fault Refusal :=
  .next (finishStep (enableWrite half mask s))

/-- DONE_INTERRUPT_ENABLE (R152). -/
def execDoneInterruptEnable (on : Bool) (s : State) : Host.Outcome State Fault Refusal :=
  .next (finishStep (updExp (fun e => { e with doneEnable := on }) s))

/-- FREEZE (R163). -/
def execFreeze (s : State) : Host.Outcome State Fault Refusal :=
  .next (finishStep (freezeOn s))

/-- THAW (R164). -/
def execThaw (s : State) : Host.Outcome State Fault Refusal :=
  .next (finishStep (freezeOff s))

/-- AUTO_THAW (R165). -/
def execAutoThaw (s : State) : Host.Outcome State Fault Refusal :=
  .next (finishStep (freezeExpiry s))

/-- PORT_RESET (R166). -/
def execPortReset (s : State) : Host.Outcome State Fault Refusal :=
  .next (finishStep (portResetAll s))

/-- REGISTER_WRITE_OTHER (R151, R152). -/
def execRegisterWriteOther (target : OtherWrite) (s : State) : Host.Outcome State Fault Refusal :=
  .next (finishStep (otherWrite target s))

/-- UPTIME_COUNTER_ADVANCE (R174). -/
def execUptimeCounterAdvance (s : State) : Host.Outcome State Fault Refusal :=
  .next (finishStep ({ s with clock := { s.clock with uptime := s.clock.uptime + 1 } }))

/-- TICK_COUNTER_ADVANCE (R174). -/
def execTickCounterAdvance (s : State) : Host.Outcome State Fault Refusal :=
  .next (finishStep (tickOn s))

end Sys2Proof.Machine
end

