-- ==== Sys2Proof/Machine/Takes.lean ====
section
/-! DEFINITION. The meanings of the dispatcher's takes (R155), one per order kind and one for a code that names
none.  A take of a kind the dispatcher's next slot does not hold is no event of the part and changes nothing
(notes/assumptions/14.md). -/

namespace Sys2Proof.Machine

/-- BAD_KIND (R156). -/
def execBadKind (s : State) : Host.Outcome State Fault Refusal :=
  .next (finishStep (takeBad s))

/-- BAY_POWER_ON (R38). -/
def execBayPowerOn (s : State) : Host.Outcome State Fault Refusal :=
  .next (finishStep (take .bayPowerOn powerOnOrder s))

/-- BAY_POWER_OFF (R55). -/
def execBayPowerOff (s : State) : Host.Outcome State Fault Refusal :=
  .next (finishStep (take .bayPowerOff powerOffOrder s))

/-- BAY_POLICY (R18). -/
def execBayPolicy (s : State) : Host.Outcome State Fault Refusal :=
  .next (finishStep (take .bayPolicy policyOrder s))

/-- CLEAR_FAULT (R14). -/
def execClearFault (s : State) : Host.Outcome State Fault Refusal :=
  .next (finishStep (take .clearFault clearFaultOrder s))

/-- BUDGET_SET (R42, R43). -/
def execBudgetSet (s : State) : Host.Outcome State Fault Refusal :=
  .next (finishStep (take .budgetSet budgetOrder s))

/-- SIDEBAND_QUERY (R74). -/
def execSidebandQuery (s : State) : Host.Outcome State Fault Refusal :=
  .next (finishStep (take .sidebandQuery queryOrder s))

/-- ZONE_MAP (R94). -/
def execZoneMap (s : State) : Host.Outcome State Fault Refusal :=
  .next (finishStep (take .zoneMap mapOrder s))

/-- CURVE_SELECT (R111). -/
def execCurveSelect (s : State) : Host.Outcome State Fault Refusal :=
  .next (finishStep (take .curveSelect selectOrder s))

/-- FAN_CONFIG (R123). -/
def execFanConfig (s : State) : Host.Outcome State Fault Refusal :=
  .next (finishStep (take .fanConfig configOrder s))

/-- FAN_LEARN (R124). -/
def execFanLearn (s : State) : Host.Outcome State Fault Refusal :=
  .next (finishStep (take .fanLearn learnOrder s))

/-- LIGHT_SET (R144). -/
def execLightSet (s : State) : Host.Outcome State Fault Refusal :=
  .next (finishStep (take .lightSet lightSetOrder s))

/-- LOCATE (R145). -/
def execLocate (s : State) : Host.Outcome State Fault Refusal :=
  .next (finishStep (take .locate locateOrder s))

/-- LIGHT_SYNC (R147). -/
def execLightSync (s : State) : Host.Outcome State Fault Refusal :=
  .next (finishStep (take .lightSync lightSyncOrder s))

/-- PATTERN_LOAD (R135). -/
def execPatternLoad (s : State) : Host.Outcome State Fault Refusal :=
  .next (finishStep (take .patternLoad patternOrder s))

/-- AUTO_MAP (R143). -/
def execAutoMap (s : State) : Host.Outcome State Fault Refusal :=
  .next (finishStep (take .autoMap autoMapOrder s))

/-- ABORT (R157). -/
def execAbort (s : State) : Host.Outcome State Fault Refusal :=
  .next (finishStep (take .abort abortOrder s))

end Sys2Proof.Machine
end

