-- ==== Sys2Proof/Machine/Dispatch.lean ====
section
/-! DEFINITION. One arm per command: its meaning. -/

namespace Sys2Proof.Machine

def exec (i : Instr) (s : State) : Host.Outcome State Fault Refusal :=
  match i with
  | .powerOnReset => Sys2Proof.Machine.execPowerOnReset s
  | .presenceChange b => Sys2Proof.Machine.execPresenceChange b s
  | .debounceExpiry b => Sys2Proof.Machine.execDebounceExpiry b s
  | .replugWindowExpiry b => Sys2Proof.Machine.execReplugWindowExpiry b s
  | .activityEdge b => Sys2Proof.Machine.execActivityEdge b s
  | .powerGoodAsserted b => Sys2Proof.Machine.execPowerGoodAsserted b s
  | .tripAsserted b => Sys2Proof.Machine.execTripAsserted b s
  | .powerGoodDeasserted b => Sys2Proof.Machine.execPowerGoodDeasserted b s
  | .rampWindowEnd b => Sys2Proof.Machine.execRampWindowEnd b s
  | .coolOffEnd b => Sys2Proof.Machine.execCoolOffEnd b s
  | .spinWindowEnd b => Sys2Proof.Machine.execSpinWindowEnd b s
  | .holdEnd b => Sys2Proof.Machine.execHoldEnd b s
  | .staggerExpiry => Sys2Proof.Machine.execStaggerExpiry s
  | .shedRequest b => Sys2Proof.Machine.execShedRequest b s
  | .pollTimerExpiry => Sys2Proof.Machine.execPollTimerExpiry s
  | .sidebandReply bytes => Sys2Proof.Machine.execSidebandReply bytes s
  | .sidebandNoReply => Sys2Proof.Machine.execSidebandNoReply s
  | .deferSpacingEnd => Sys2Proof.Machine.execDeferSpacingEnd s
  | .boardSensorReadTimer => Sys2Proof.Machine.execBoardSensorReadTimer s
  | .boardSensorReadEnd n reading => Sys2Proof.Machine.execBoardSensorReadEnd n reading s
  | .zonePeriodStart => Sys2Proof.Machine.execZonePeriodStart s
  | .tachGateExpiry => Sys2Proof.Machine.execTachGateExpiry s
  | .envelopeStep => Sys2Proof.Machine.execEnvelopeStep s
  | .locateTimerExpiry b => Sys2Proof.Machine.execLocateTimerExpiry b s
  | .mirrorRecordWrite => Sys2Proof.Machine.execMirrorRecordWrite s
  | .orderPost writes half bits => Sys2Proof.Machine.execOrderPost writes half bits s
  | .orderDone half bits => Sys2Proof.Machine.execOrderDone half bits s
  | .changeSummary half bits => Sys2Proof.Machine.execChangeSummary half bits s
  | .changeEnable half mask => Sys2Proof.Machine.execChangeEnable half mask s
  | .doneInterruptEnable on => Sys2Proof.Machine.execDoneInterruptEnable on s
  | .freeze => Sys2Proof.Machine.execFreeze s
  | .thaw => Sys2Proof.Machine.execThaw s
  | .autoThaw => Sys2Proof.Machine.execAutoThaw s
  | .portReset => Sys2Proof.Machine.execPortReset s
  | .registerWriteOther target => Sys2Proof.Machine.execRegisterWriteOther target s
  | .badKind => Sys2Proof.Machine.execBadKind s
  | .bayPowerOn => Sys2Proof.Machine.execBayPowerOn s
  | .bayPowerOff => Sys2Proof.Machine.execBayPowerOff s
  | .bayPolicy => Sys2Proof.Machine.execBayPolicy s
  | .clearFault => Sys2Proof.Machine.execClearFault s
  | .budgetSet => Sys2Proof.Machine.execBudgetSet s
  | .sidebandQuery => Sys2Proof.Machine.execSidebandQuery s
  | .zoneMap => Sys2Proof.Machine.execZoneMap s
  | .curveSelect => Sys2Proof.Machine.execCurveSelect s
  | .fanConfig => Sys2Proof.Machine.execFanConfig s
  | .fanLearn => Sys2Proof.Machine.execFanLearn s
  | .lightSet => Sys2Proof.Machine.execLightSet s
  | .locate => Sys2Proof.Machine.execLocate s
  | .lightSync => Sys2Proof.Machine.execLightSync s
  | .patternLoad => Sys2Proof.Machine.execPatternLoad s
  | .autoMap => Sys2Proof.Machine.execAutoMap s
  | .abort => Sys2Proof.Machine.execAbort s
  | .tachEdge f => Sys2Proof.Machine.execTachEdge f s
  | .uptimeCounterAdvance => Sys2Proof.Machine.execUptimeCounterAdvance s
  | .tickCounterAdvance => Sys2Proof.Machine.execTickCounterAdvance s

end Sys2Proof.Machine
end

