-- ==== Sys2Proof/Safety.lean ====
section
/-! DEFINITION. What holds of the part between steps: the predicates the invariant statements are made of, one for
each kind of state. -/

namespace Sys2Proof.Machine

/-! ### The power budget (R25, R26, R42) -/

/-- The units all 24 bays hold. -/
def heldUnits (s : State) : Nat := ((List.finRange 24).map fun b => chargeUnits (s.bay b).charge).sum

/-- The bays in RAMPING or SPINNING. -/
def startingBays (s : State) : Nat := ((List.finRange 24).map fun b => bit (s.bay b).state.starting).sum

/-- D is the sum of the held charges and the starting count the number of starting bays (R25, R26). -/
structure AccountAgrees (s : State) : Prop where
  drives : s.account.drives = heldUnits s
  starting : s.account.starting = startingBays s

/-- A charge pair whose steady charge does not exceed its inrush charge (R42). -/
def ChargePair.ordered (p : ChargePair) : Prop := p.steady ≤ p.inrush

/-- The drives never claim more than the capacity leaves above the floor, and never more bays start at a time
than the settings allow (R35, R42). -/
structure BudgetKept (s : State) : Prop where
  agrees : AccountAgrees s
  within : s.account.drives + s.account.settings.floor ≤ s.account.settings.capacity
  places : s.account.starting ≤ s.account.settings.maxConcurrent
  rotating : s.account.settings.rotating.ordered
  solid : s.account.settings.solid.ordered
  charges : ∀ b c, (s.bay b).charge = some c → c.pair.ordered

/-! ### The admission queue (R30) -/

/-- The bays of the queue's entries, URGENT first. -/
def queuedBays (p : Pseq) : List Bay := (queueView p).map QEntry.bay

/-- A bay has an entry exactly while it is in QUEUED, and then one; each entry stands in its own class (R30). -/
structure QueueMatches (s : State) : Prop where
  once : (queuedBays s.pseq).Nodup
  queued : ∀ b, b ∈ queuedBays s.pseq ↔ (s.bay b).state = .queued
  urgent : ∀ e ∈ s.pseq.urgent, e.cls = .urgent
  normal : ∀ e ∈ s.pseq.normal, e.cls = .normal

/-! ### A bay record (R1, R17, R26) -/

/-- The charge a bay holds in its state and phase (R26). -/
def chargeFits (r : BayRec) : Prop :=
  r.charge.map ChargeRecord.held =
    match r.state with
    | .ramping | .spinning => some .inrush
    | .active => some .steady
    | .stopping => if r.stopPhase = some .standbyWait then some .steady else none
    | .empty | .settling | .off | .queued | .fault => none

/-- Whether a power order can be open for a bay in a state (R1). -/
def BayState.ordered : BayState → Bool
  | .queued | .ramping | .spinning | .stopping => true
  | .empty | .settling | .off | .active | .fault => false

/-- The fields of a bay record agree with its state, and its policy lies in its ranges (R1, R5, R17, R18, R26). -/
structure BayShape (r : BayRec) : Prop where
  phase : r.stopPhase.isSome = decide (r.state = .stopping)
  settles : r.settlingFrom.isSome = decide (r.state = .settling)
  caused : r.state = .fault → r.faultCause.isSome = true
  cause : r.faultCause.isSome = true → r.state = .fault ∨ r.state = .settling
  charge : chargeFits r
  order : r.powerOrder.isSome = true → r.state.ordered = true
  replugs : r.replugCount ≤ 255
  mask : r.policy.levelMask ≠ 0
  shed : r.policy.shedTemp ≤ 100

/-- Every bay record has its shape. -/
def BaysShaped (s : State) : Prop := ∀ b, BayShape (s.bay b)

/-! ### The sideband (R67 to R71) -/

/-- The order class holds at most 8 entries, the poll class at most one for each bay, the poll interval lies in
its range, and the counts of the transaction in flight are below its limits. -/
structure SbeBounded (b : Sbe) : Prop where
  orderRoom : b.orderQ.length ≤ orderClassRoom
  pollOnce : (b.pollQ.map SbEntry.bay).Nodup
  interval : 1 ≤ b.interval ∧ b.interval ≤ 60
  counts : ∀ t, b.flight = some t → t.failed ≤ 2 ∧ t.defers ≤ deferLimit t.entry.item

/-! ### Sensors, zones and fans (R83, R100 to R107, R110, R116 to R123) -/

/-- A zone's figures lie in their ranges. -/
structure ZoneInRange (z : ZoneRec) : Prop where
  excess : -1 ≤ z.excess ∧ z.excess ≤ 1023
  d1 : z.d1 ≤ fullDuty
  d2 : z.d2 ≤ fullDuty
  d3 : z.d3 ≤ fullDuty
  output : z.output ≤ fullDuty

/-- Every temperature value and zone figure lies in its range, and the working copy holds records that pass R110. -/
structure ThcInRange (t : Thc) : Prop where
  value : ∀ i v, (t.sensors[(i : SensorId)]).value = some v → -160 ≤ v ∧ v ≤ 511
  fails : ∀ i : SensorId, t.sensors[i].fails ≤ 255
  zones : ∀ z : ZoneId, ZoneInRange t.zones[z]
  working : ∀ w, t.working = some w → ∀ z : ZoneId, curveFault w[z] = none

/-- A fan record's duty, learned min, kick count and pulses per revolution lie in their ranges, and the states of a
fan at rest and at full duty have that duty (R116, R118). -/
structure FanInRange (r : FanRec) : Prop where
  rest : r.state = .stopped ∨ r.state = .absent → r.duty = 0
  full : r.state = .stalled ∨ r.state = .failed → r.duty = fullDuty
  duty : r.duty ≤ fullDuty
  learnedMin : r.learnedMin ≤ fullDuty
  kicks : r.kicks ≤ 3
  ppr : 1 ≤ r.ppr ∧ r.ppr ≤ 4

/-- Every fan record, and what THC last handed FANU, lies in range. -/
structure FanuInRange (u : Fanu) : Prop where
  fans : ∀ f : FanId, FanInRange u.fans[f]
  output : ∀ z : ZoneId, u.output[z] ≤ fullDuty
  d3 : ∀ z : ZoneId, u.d3[z] ≤ fullDuty

/-- The cooling side of the part lies in its ranges. -/
structure CoolingInRange (s : State) : Prop where
  thc : ThcInRange s.thc
  fanu : FanuInRange s.fanu

/-! ### Lights (R133 to R146) -/

/-- A channel is driven by the one layer R140 chooses; its level does not exceed the peak of the driving pattern
and a dark channel stays at 0; a STATUS channel has no LOCATE layer, and a LOCATE layer that is not set has
neither timer nor deadline. -/
structure ChanSound (w : Vector Pattern 16) (c : Chan) (ch : Channel) : Prop where
  drives : driving ch = (ch.layer, ch.pattern)
  dark : ch.pattern = none → ch.level = 0
  peak : ∀ p, ch.pattern = some p → ch.level ≤ levelOf w[p].peak
  openings : ch.openings ≤ 255
  status : isAttention c = false → ch.locate = none
  located : ch.locate = none → ch.locateTimer = none ∧ ch.deadline = none

/-- A pattern's peak fits a byte and its sustain does not exceed its peak (R134, R135). -/
structure PatternInRange (p : Pattern) : Prop where
  peak : p.peak ≤ 255
  sustain : p.sustain ≤ p.peak

/-- Every pattern lies in range and every channel is sound. -/
structure LgtSound (l : Lgt) : Prop where
  patterns : ∀ p : PatId, PatternInRange l.patterns[p]
  chans : ∀ c : Chan, ChanSound l.patterns c l.chans[c]

/-! ### The exchange port (R151 to R167) -/

/-- The records of a list of dirty entries. -/
def dirtyRecords (l : List DirtyEntry) : List MirrorRec := l.map DirtyEntry.record

/-- A record waits at most once; ready reads 0 exactly while a reset's writing is under way; bits 29 to 31 of the
change registers are 0; a freeze has its timer, and freeze active outlasts the freeze bit only while a record
of the thaw waits (R151, R153, R160 to R167). -/
structure ExpSound (e : Exp) : Prop where
  dirtyOnce : (dirtyRecords e.dirty).Nodup
  resetOnce : ∀ w, e.resetWrite = some w → (dirtyRecords w.left).Nodup
  ready : e.ready = e.resetWrite.isNone
  resetLeft : ∀ w, e.resetWrite = some w → w.left ≠ []
  summary : e.summary &&& ~~~changeBits = 0
  enable : e.enable &&& ~~~changeBits = 0
  collisions : e.collisions ≤ 255
  frozen : e.freezeBit = true → e.freezeActive = true
  timed : e.freezeTimer.isSome = e.freezeBit
  thawing : e.freezeActive = true → e.freezeBit = false → e.thawLeft ≠ []
  thawWaits : ∀ r ∈ e.thawLeft, r ∈ dirtyRecords e.dirty

/-- The model's note of the step in progress is empty (notes/assumptions/9.md). -/
def StepNoteEmpty (e : Exp) : Prop := e.stepMarks = [] ∧ e.stepDone = false

/-- A record waits to be written, carrying a notice where one is due, or the step itself has written it, and set its
change bit where a notice was due (R156, R159, R161). -/
def MarkSeen (s t : State) (r : MirrorRec) (notice : Bool) : Prop :=
  (∃ e ∈ t.exp.dirty, e.record = r ∧ (notice = true → e.notice = true)) ∨
    (t.exp.counts[r.index] = s.exp.counts[r.index] + 1 ∧
      ∀ i, notice = true → r.changeBit = some i → t.exp.summary.getLsbD i.val = true)

/-- The transaction SBE starts with none in flight: that of the first entry of the order class, else of the first of
the poll class (R70). -/
def nextTxn (orders polls : List SbEntry) (now : Word) : Option Txn :=
  match orders, polls with
  | e :: _, _ => some (beginTxn e now)
  | [], e :: _ => some (beginTxn e now)
  | [], [] => none

/-! ### The areas the part writes (R168) -/

/-- The mirror and the history (R168). -/
def inMirror (a : Nat) : Prop := (0x1000 ≤ a ∧ a < 0x1A00) ∨ (0x2000 ≤ a ∧ a < 0x2600)

/-- The result areas of the slots (section 10.3). -/
def inResults (a : Nat) : Prop := ∃ n : SlotId, resultBase n ≤ a ∧ a < resultBase n + 64

/-- The part of the exchange memory that LGT writes at power-on reset (R150, R168). -/
def inLightAreas (a : Nat) : Prop := 0x1C00 ≤ a ∧ a < 0x1E10

/-! ### What a command answers -/

/-- The command answers a next state of which `P` holds. -/
def Answers (c : Instr) (s : State) (P : State → Prop) : Prop := ∃ t, exec c s = .next t ∧ P t

/-- Slot `n` is DONE, and its result area holds a result with a tag, an uptime and a detail (R156, section 10.3). -/
structure Completed (t : State) (n : SlotId) (r : Result) (tag : Half) (uptime : Word) (detail : List Byte) : Prop where
  done : (t.slot n).state = .done
  area : t.mem.readBytes (resultBase n) 64 = resultArea r tag uptime detail

/-- The order in slot `n`, taken in state `s`, is complete. -/
def TakeCompleted (s t : State) (n : SlotId) (r : Result) (detail : List Byte) : Prop :=
  Completed t n r (orderTag s n) s.clock.uptime detail

/-- Between steps, with its exchange memory in canonical form. -/
structure Settled (s : State) : Prop where
  mem : s.mem.wf = true
  note : StepNoteEmpty s.exp

/-- The dispatcher's next take is the order in slot `n`, of kind `k` (R155). -/
structure Takes (s : State) (k : Kind) (n : SlotId) : Prop where
  settled : Settled s
  next : takeKind k s = some n

/-- What the light commands and EXP leave: every block but LGT and EXP, the pins and the counters. -/
structure EnclosureKept (s t : State) : Prop where
  pins : t.pins = s.pins
  bmon : t.bmon = s.bmon
  pseq : t.pseq = s.pseq
  sbe : t.sbe = s.sbe
  thc : t.thc = s.thc
  fanu : t.fanu = s.fanu
  clock : t.clock = s.clock

/-- A bay's record and power path. -/
def BaySame (s t : State) (b : Bay) : Prop := t.bay b = s.bay b ∧ t.path b = s.path b

/-- What an admission leaves of a bay record: all but the state with its fields, the charge and the ring (R12). -/
structure BayKept (r r' : BayRec) : Prop where
  replugs : r'.replugCount = r.replugCount
  drive : r'.driveClass = r.driveClass ∧ r'.unrecognised = r.unrecognised ∧ r'.identity = r.identity
  health : r'.healthWarn = r.healthWarn
  policy : r'.policy = r.policy
  order : r'.powerOrder = r.powerOrder

/-- Each bay for which `own` does not hold is the same, or it was QUEUED and has been admitted (R36). -/
def OthersKept (own : Bay → Prop) (s t : State) : Prop :=
  ∀ b, ¬ own b → BaySame s t b ∨
    ((s.bay b).state = .queued ∧ (t.bay b).state.starting = true ∧ BayKept (s.bay b) (t.bay b))

end Sys2Proof.Machine
end

