-- ==== Sys2Proof/Certificates/Slice0/Obligations.lean ====
section
/-! DEFINITION. The statements for the provers. -/

open Sys2Proof Sys2Proof.Machine

/-! ### The step (notes/assumptions/20.md) -/

/-- O1. With command c at the front of the queue, step answers what exec c answers on the state with the queue's
rest; with no command waiting, step answers the state itself (the model's choice, notes/assumptions/20.md). -/
def Obligations.StepTakesTheFrontCommand : Prop :=
  ∀ s,
    (∀ c rest, s.pending = c :: rest → step s = exec c { s with pending := rest }) ∧
    (s.pending = [] → step s = .next s)

/-- O2. Every command on every state answers a next state, in which the queue of waiting commands is as it was and
the model's note of the step is empty (notes/assumptions/9.md). -/
def Obligations.EveryCommandAnswersNext : Prop :=
  ∀ c s, Answers c s fun t => t.pending = s.pending ∧ StepNoteEmpty t.exp

/-- O3. Between steps: an expiry of a timer that does not run, a reply or a missing reply with no attempt under way,
the end of a read not in progress, a shed with no request, and a take of a kind the dispatcher's next slot does
not hold each answer the state itself. The spec has no such event; that the model answers so is its choice
(notes/assumptions/14.md). -/
def Obligations.EventsThatCannotHappenChangeNothing : Prop :=
  ∀ s, StepNoteEmpty s.exp →
    (∀ b, s.bmon.debounce[b] = none → exec (.debounceExpiry b) s = .next s) ∧
    (∀ b, (s.path b).rampTimer = none → exec (.rampWindowEnd b) s = .next s) ∧
    (∀ b, (s.path b).coolTimer = none → exec (.coolOffEnd b) s = .next s) ∧
    (∀ b, (s.path b).spinTimer = none → exec (.spinWindowEnd b) s = .next s) ∧
    (∀ b, (s.path b).holdTimer = none → exec (.holdEnd b) s = .next s) ∧
    (s.account.staggerTimer = none → exec .staggerExpiry s = .next s) ∧
    (∀ b, (s.pseq.sheds.find? fun q => q.bay = b) = none → exec (.shedRequest b) s = .next s) ∧
    (∀ bytes, attemptOf s = none → exec (.sidebandReply bytes) s = .next s) ∧
    (attemptOf s = none → exec .sidebandNoReply s = .next s) ∧
    ((∀ x, s.sbe.flight = some x → x.phase = .attempt) → exec .deferSpacingEnd s = .next s) ∧
    (∀ n r, s.thc.reading[n] = false → exec (.boardSensorReadEnd n r) s = .next s) ∧
    (∀ b, (s.chan (attentionChan b)).locateTimer = none → exec (.locateTimerExpiry b) s = .next s) ∧
    (s.exp.freezeTimer = none → exec .autoThaw s = .next s) ∧
    (takeBadKind s = none → exec .badKind s = .next s) ∧
    (takeKind .bayPowerOn s = none → exec .bayPowerOn s = .next s) ∧
    (takeKind .bayPowerOff s = none → exec .bayPowerOff s = .next s) ∧
    (takeKind .bayPolicy s = none → exec .bayPolicy s = .next s) ∧
    (takeKind .clearFault s = none → exec .clearFault s = .next s) ∧
    (takeKind .budgetSet s = none → exec .budgetSet s = .next s) ∧
    (takeKind .sidebandQuery s = none → exec .sidebandQuery s = .next s) ∧
    (takeKind .zoneMap s = none → exec .zoneMap s = .next s) ∧
    (takeKind .curveSelect s = none → exec .curveSelect s = .next s) ∧
    (takeKind .fanConfig s = none → exec .fanConfig s = .next s) ∧
    (takeKind .fanLearn s = none → exec .fanLearn s = .next s) ∧
    (takeKind .lightSet s = none → exec .lightSet s = .next s) ∧
    (takeKind .locate s = none → exec .locate s = .next s) ∧
    (takeKind .lightSync s = none → exec .lightSync s = .next s) ∧
    (takeKind .patternLoad s = none → exec .patternLoad s = .next s) ∧
    (takeKind .autoMap s = none → exec .autoMap s = .next s) ∧
    (takeKind .abort s = none → exec .abort s = .next s)

/-! ### Invariants every step keeps -/

/-- O4. If the exchange memory is in its canonical form (addresses rising, inside 16 KiB, no cell that reads as an
unlisted byte), it is so after any step. -/
def Obligations.MemoryStaysCanonical : Prop :=
  ∀ s t, s.mem.wf = true → step s = .next t → t.mem.wf = true

/-- O5. If D is the sum of the charges the bays hold, the starting count is the number of bays in RAMPING or
SPINNING, D does not exceed the capacity minus the floor, the starting count does not exceed max concurrent, and
no pair's steady charge exceeds its inrush, then all this holds after any step. -/
def Obligations.BudgetAccountStaysKept : Prop :=
  ∀ s t, BudgetKept s → step s = .next t → BudgetKept t

/-- O6. If a bay has an entry in the admission queue exactly while its state is QUEUED, never more than one, and
each entry stands in its own class, then this holds after any step. -/
def Obligations.AdmissionQueueMatchesTheBays : Prop :=
  ∀ s t, QueueMatches s → step s = .next t → QueueMatches t

/-- O7. If every bay record's optional fields are present exactly in the states the spec gives them in, its charge
is the one its state holds, and its policy lies in range, then this holds after any step. -/
def Obligations.BayRecordsKeepTheirShape : Prop :=
  ∀ s t, BaysShaped s → step s = .next t → BaysShaped t

/-- O8. If the order class holds at most 8 entries, the poll class at most one per bay, the poll interval lies in 1
to 60 s, and the transaction in flight has fewer than 3 failed attempts and no more defers than its limit, then
this holds after any step. -/
def Obligations.SidebandStaysBounded : Prop :=
  ∀ s t, SbeBounded s.sbe → step s = .next t → SbeBounded t.sbe

/-- O9. If every sensor value lies in -160 to 511 q and every failure count in 0 to 255, every zone's excess in -1
to 1023 and its d1, d2, d3 and output in 0 to 1023, the working copy passes the bank tests, every fan's duty and
learned min lie in 0 to 1023, its kick count in 0 to 3 and its ppr in 1 to 4, a STOPPED or ABSENT fan has duty 0
and a STALLED or FAILED one 1023, and what THC last handed FANU lies in 0 to 1023, then all this holds after any
step. Max units, stall thresholds, last counts, RPM and failed-fan counts are not spoken of here. -/
def Obligations.CoolingStaysInRange : Prop :=
  ∀ s t, CoolingInRange s → step s = .next t → CoolingInRange t

/-- O10. If every channel is driven by the one layer the spec chooses, its level does not exceed the driving
pattern's peak times 257, and a dark channel stands at 0, with the pattern table in range, then this holds after
any step. -/
def Obligations.LightChannelsStaySound : Prop :=
  ∀ s t, LgtSound s.lgt → step s = .next t → LgtSound t.lgt

/-- O11. If a record waits in the dirty set at most once, ready is 0 exactly while a reset's writing is under way,
bits 29 to 31 of the change registers are 0, a freeze has its timer, and freeze active outlasts the freeze bit
only while a record of the thaw waits, then this holds after any step. -/
def Obligations.ExchangePortStaysSound : Prop :=
  ∀ s t, ExpSound s.exp → step s = .next t → ExpSound t.exp

/-- O12. The reset state has its memory in canonical form, its budget kept, its queue matching the bays, its bay
records in shape, its sideband bounded, its cooling in range, its lights sound, its exchange port sound, and an
empty step note. -/
def Obligations.ResetMeetsEveryInvariant : Prop :=
  State.reset.mem.wf = true ∧ BudgetKept State.reset ∧ QueueMatches State.reset ∧ BaysShaped State.reset ∧
    SbeBounded State.reset.sbe ∧ CoolingInRange State.reset ∧ LgtSound State.reset.lgt ∧ ExpSound State.reset.exp ∧
    StepNoteEmpty State.reset.exp

/-! ### Reset values -/

/-- O13. After power-on reset with no drive present every bay is EMPTY with the default policy, no charge, no order
and an empty history, its timers stopped and its power path off; the account has capacity 0, floor 0, stagger
20, max concurrent 4, pairs 20/8 and 6/5, spin windows 10 s and 1 s, D 0, E_fan 160, starting count 0, the
stagger elapsed, no reason to wait, and the queue is empty. After power-on reset no sensor has a value, a
failure or a last success, no drive sensor fact is set and no board sensor is fitted; every zone is in failsafe
with E -1, d1, d2, d3 and output 1023 and no member sensor; there is no working copy, no pending map and no
pending select; fan n is in zone n / 2; every fan is installed and RUNNING at 1023 with ppr 2, max units 20,
threshold 600 and learned min 256, and no learn. After power-on reset every channel is dark under AUTO in group
0; the sideband is idle with empty queues and interval 2 s; every slot is FREE, the pointer 31, PORT CONTROL and
the change registers read 0, PORT STATUS reads ready 0 with layout version 1, every update count is 0, the whole
mirror is to be written, and the two counters are 0. POWER_ON_RESET in any state: every bay whose presence input
reads PRESENT is in SETTLING from ABSENT with its debounce running and every other bay record is at its reset
value; PSEQ, SBE, THC, FANU and LGT and the counters are at their reset values; EXP is too, but that its dirty
set goes on with one mark with notice for each bay read PRESENT, in ascending order; the pins stay; and memory
changes in the light areas only. The quiet pins of State.reset (notes/assumptions/1.md), the gate count of 0
(23), the order of the records in the reset's writing (11) and the dirty set beside it, FANU's first estimate
and then the sampled bays (10), are the model's. -/
def Obligations.EveryBlockAfterPowerOn : Prop :=
  (((∀ b, State.reset.bay b =
          { state := .empty, stopPhase := none, settlingFrom := none, faultCause := none, replugCount := 0,
            driveClass := .unknown, unrecognised := false, identity := none, healthWarn := false, lastGood := none,
            charge := none,
            policy := { autoOn := false, shedTemp := 0, startLevel := 1, levelMask := 0xF, useLearned := true },
            powerOrder := none, ring := Vector.replicate 8 none, head := 0, nextSeq := 0 }) ∧
        (∀ b : Bay, State.reset.bmon.debounce[b] = none ∧ State.reset.bmon.replug[b] = none) ∧
        (∀ b, (State.reset.path b).switchOn = false ∧ (State.reset.path b).slew = 0 ∧ (State.reset.path b).ladder = none ∧
          (State.reset.path b).stop = none ∧ (State.reset.path b).rampTimer = none ∧ (State.reset.path b).coolTimer = none ∧
          (State.reset.path b).spinTimer = none ∧ (State.reset.path b).holdTimer = none) ∧
        State.reset.account =
          { settings := { capacity := 0, floor := 0, stagger := 20, maxConcurrent := 4, rotating := ⟨20, 8⟩,
                          solid := ⟨6, 5⟩, rotatingSpin := 10, solidSpin := 1 },
            drives := 0, fanEstimate := 160, starting := 0, staggerTimer := none, sinceAdmission := none,
            blocked := .none } ∧
        State.reset.pseq.urgent = [] ∧ State.reset.pseq.normal = [] ∧ State.reset.pseq.sheds = []) ∧
    ((∀ i, State.reset.sensor i = ⟨none, 0, none⟩) ∧
        (∀ b : Bay, State.reset.thc.facts[b] = ⟨false, false, 0, 0⟩) ∧
        (∀ n : Fin 8, State.reset.thc.fitted[n] = false ∧ State.reset.thc.failedFans[n] = false) ∧
        (∀ z, State.reset.zone z =
          { sensors := 0, excess := -1, d1 := 1023, d2 := 1023, d3 := 1023, output := 1023, clamped := false,
            failedCount := 0, preloadActive := false, failsafe := true }) ∧
        (∀ f : FanId, (State.reset.thc.fanZone[f]).val = f.val / 2 ∧ (State.reset.fanu.member[f]).val = f.val / 2) ∧
        State.reset.thc.working = none ∧ State.reset.thc.bank = none ∧
        State.reset.thc.pendingMap = none ∧ State.reset.thc.pendingSelect = none ∧
        (∀ z : ZoneId, State.reset.fanu.output[z] = 1023 ∧ State.reset.fanu.d3[z] = 1023) ∧
        ∀ f, State.reset.fan f =
            { installed := true, ppr := 2, maxUnits := 20, threshold := 600, state := .running, duty := 1023,
              lastCount := 0, saturated := false, rpm := 0, learnedMin := 256, fullSpeed := none, table := [],
              learnMask := 0, kicks := 0 } ∧
          State.reset.fanWork f = ⟨0, 0, 0, 0, none⟩) ∧
    ((∀ c, State.reset.chan c =
          { auto := none, order := none, locate := none, deadline := none, locateTimer := none, layer := .auto,
            pattern := none, level := 0, phase := .rest, gate := .closed, count := 0, openings := 0, group := 0 }) ∧
        State.reset.sbe.orderQ = [] ∧ State.reset.sbe.pollQ = [] ∧ State.reset.sbe.flight = none ∧
        State.reset.sbe.interval = 2 ∧ State.reset.sbe.pollTimer = some 2000 ∧
        (∀ n, (State.reset.slot n).state = .free) ∧ State.reset.exp.pointer = 31 ∧
        orderPostReg State.reset = 0 ∧ orderDoneReg State.reset = 0 ∧ changeSummaryReg State.reset = 0 ∧
        changeEnableReg State.reset = 0 ∧ portControlReg State.reset = 0 ∧ portStatusReg State.reset = 0x00010000 ∧
        interruptLine State.reset = false ∧ State.reset.exp.freezeTimer = none ∧
        (∀ i : Fin 69, State.reset.exp.counts[i] = 0) ∧
        State.reset.exp.resetWrite = some ⟨allRecords.map fun r => ⟨r, false⟩, false⟩ ∧
        State.reset.clock = ⟨0, 0⟩)) ∧
  (∀ s, Answers .powerOnReset s fun t =>
      (∀ b, t.bay b = if s.pins.presence[b] = .present then
          { BayRec.reset with state := .settling, settlingFrom := some .absent } else BayRec.reset) ∧
      (∀ b : Bay, t.bmon.debounce[b] = if s.pins.presence[b] = .present then some 250 else none) ∧
      (∀ b : Bay, t.bmon.replug[b] = none) ∧
      t.pseq = Pseq.reset ∧ t.sbe = Sbe.reset ∧ t.thc = Thc.reset ∧ t.fanu = Fanu.reset ∧ t.lgt = Lgt.reset ∧
      t.exp = { Exp.reset with dirty := Exp.reset.dirty ++
        ((List.finRange 24).filter fun b => s.pins.presence[b] = .present).map fun b => ⟨.bay b, true⟩ } ∧
      t.clock = ⟨0, 0⟩ ∧ t.pins = s.pins ∧ t.mem = writeLightDefaults s.mem)

/-! ### The register block, the counters and the frames -/

/-- O14. Every command from between steps but the two resets: where a bay record, the state of its drive sensor or a
published field of its lights differs after it, the bay record is marked with a notice; where the account or the
queue as the budget record shows them differ, the budget record with a notice; a fan record that differs, with a
notice where its state does; a sensor record whose content or state differs, with a notice where it is a board
sensor's and its state differs; a zone record whose failed-fan count, failsafe flag or bank differs, with a
notice. ZONE_PERIOD_START marks every zone and fan record, TACH_GATE_EXPIRY every fan record, each BAY_POLICY
that writes a bay that bay's. Marked means: the record waits in the dirty set, with the notice, or the step
itself has written it, its update count one higher and its change bit set (notes/assumptions/9.md). A zone
record's other fields are marked with the period; a preload-active flag that changes between two periods marks
nothing (notes/assumptions/24.md). -/
def Obligations.OwnersMarkWhatTheyChange : Prop :=
  ∀ c s, StepNoteEmpty s.exp → c ≠ .powerOnReset → c ≠ .portReset → Answers c s fun t =>
    (∀ b, t.bay b ≠ s.bay b ∨ sensorState t.thc (driveSensor b) ≠ sensorState s.thc (driveSensor b) ∨
        lightsDiffer s.lgt t.lgt b = true → MarkSeen s t (.bay b) true) ∧
    (t.pseq.shown ≠ s.pseq.shown → MarkSeen s t .budget true) ∧
    (∀ f, t.fan f ≠ s.fan f → MarkSeen s t (.fan f) (decide ((t.fan f).state ≠ (s.fan f).state))) ∧
    (∀ i, t.sensor i ≠ s.sensor i ∨ sensorState t.thc i ≠ sensorState s.thc i →
      MarkSeen s t (.sensor i) (decide (24 ≤ i.val ∧ sensorState t.thc i ≠ sensorState s.thc i))) ∧
    (∀ z, (t.zone z).failedCount ≠ (s.zone z).failedCount ∨ (t.zone z).failsafe ≠ (s.zone z).failsafe ∨
        t.thc.bank ≠ s.thc.bank → MarkSeen s t (.zone z) true) ∧
    (c = .zonePeriodStart → (∀ z, MarkSeen s t (.zone z) false) ∧ ∀ f, MarkSeen s t (.fan f) false) ∧
    (c = .tachGateExpiry → ∀ f, MarkSeen s t (.fan f) false) ∧
    (∀ n, c = .bayPolicy → takeKind .bayPolicy s = some n → (argByte s n 3).toNat < 4 →
      (argByte s n 4).setWidth 4 ≠ 0#4 → ∀ b : Bay, argByte s n 0 = 255 ∨ b.val = (argByte s n 0).toNat →
      MarkSeen s t (.bay b) true)

/-- O15. A write of ORDER DONE makes each DONE slot whose bit is 1 FREE, so that its bit clears in ORDER DONE; a
slot in any other state stays, no memory and nothing else changes. A completion of a slot that is not TAKEN does
nothing, and one of a TAKEN slot makes it DONE. -/
def Obligations.DoneWriteFreesDoneSlots : Prop :=
  ∀ s, StepNoteEmpty s.exp →
    (∀ half bits, exec (.orderDone half bits) s = .next { s with exp := { s.exp with
      slots := Vector.ofFn fun n =>
        if (placed half bits).getLsbD n.val = true ∧ (s.slot n).state = .done then { s.slot n with state := .free }
        else s.slot n } }) ∧
    (∀ half bits t, exec (.orderDone half bits) s = .next t →
      ∀ n : SlotId, (orderDoneReg t).getLsbD n.val =
        ((orderDoneReg s).getLsbD n.val && !(placed half bits).getLsbD n.val)) ∧
    ∀ n r d,
      ((s.slot n).state ≠ .taken → complete n r d s = s) ∧
      ((s.slot n).state = .taken → ((complete n r d s).slot n).state = .done)

/-- O16. ORDER_POST first makes the host's memory writes. While ready is 1 each FREE slot whose bit is 1 becomes
POSTED, and the post collision count rises by the number of the other slots whose bit is 1, up to 255. While
ready is 0 the write does nothing more. Nothing else changes. That the memory writes ride on the command is the
model's choice (notes/assumptions/7.md). -/
def Obligations.PostWritePostsFreeSlots : Prop :=
  ∀ s ws half bits, StepNoteEmpty s.exp →
    exec (.orderPost ws half bits) s = .next
      (if s.exp.ready = true then
        { s with
          mem := ws.foldl Memory.hostWrite s.mem
          exp := { s.exp with
            slots := Vector.ofFn fun n =>
              if (placed half bits).getLsbD n.val = true ∧ (s.slot n).state = .free then
                { s.slot n with state := .posted }
              else s.slot n
            collisions := if (List.finRange 32).countP (fun n =>
                (placed half bits).getLsbD n.val && decide ((s.slot n).state ≠ .free)) = 0 then s.exp.collisions
              else min (s.exp.collisions + (List.finRange 32).countP fun n =>
                (placed half bits).getLsbD n.val && decide ((s.slot n).state ≠ .free)) 255 } }
      else { s with mem := ws.foldl Memory.hostWrite s.mem })

/-- O17. Between steps: a write of CHANGE SUMMARY clears the bits written 1; a write of CHANGE ENABLE replaces the
mask bits 0 to 28 of its half; a write of the done-interrupt enable stores it. A write of PORT STATUS or of the
upper half of PORT CONTROL does nothing, and one of bits 29 to 31 of CHANGE SUMMARY clears those bits alone, so
it does nothing where they read 0, as they do in every state a run reaches (O11); one of bits 29 to 31 of CHANGE
ENABLE clears the other bits of that half, and one of the unused bits of PORT CONTROL, its bits 0 to 2 written
0, disables the done term and thaws a freeze in force (that such a write is one of its whole half is the model's
reading, notes/assumptions/29.md). FREEZE with ready 1 and no freeze in force sets the freeze bit and freeze
active, clears freeze expired and starts the 250 ms timer, and otherwise does nothing; THAW of a freeze in force
clears the bit, stops the timer, and leaves freeze active up exactly while records are dirty, and otherwise does
nothing; AUTO_THAW does the same at the timer's end and sets freeze expired and change bit 28. A bus read gives
the memory word at an even address below 0x4000, the lower half of each register at 0x4000 to 0x4014 and its
upper half 2 above, and nothing from 0x4018 on; a bus write of each half is what its command does, and one of
PORT CONTROL's lower half is PORT_RESET alone where bit 2 is set and else DONE_INTERRUPT_ENABLE and then FREEZE
or THAW (notes/assumptions/13.md). -/
def Obligations.RegisterWritesAndTheFreeze : Prop :=
  (∀ s, StepNoteEmpty s.exp →
      (∀ half bits, exec (.changeSummary half bits) s =
        .next { s with exp := { s.exp with summary := s.exp.summary &&& ~~~(placed half bits) } }) ∧
      (∀ half mask, exec (.changeEnable half mask) s = .next { s with exp := { s.exp with
        enable := ((s.exp.enable &&& otherHalf half) ||| placed half mask) &&& 0x1FFFFFFF } }) ∧
      (∀ on, exec (.doneInterruptEnable on) s = .next { s with exp := { s.exp with doneEnable := on } }) ∧
      (∀ half v, exec (.registerWriteOther (.portStatus half v)) s = .next s) ∧
      (∀ v, exec (.registerWriteOther (.portControlUpper v)) s = .next s) ∧
      (∀ v, exec (.registerWriteOther (.changeSummaryUnused v)) s = .next { s with exp := { s.exp with
        summary := s.exp.summary &&& ~~~(placed .upper (v &&& 0xE000)) } }) ∧
      (s.exp.summary &&& 0xE0000000 = 0 → ∀ v, exec (.registerWriteOther (.changeSummaryUnused v)) s = .next s) ∧
      (∀ v, exec (.registerWriteOther (.changeEnableUnused v)) s =
        .next { s with exp := { s.exp with enable := s.exp.enable &&& 0x0000FFFF } }) ∧
      ∀ v, exec (.registerWriteOther (.portControlUnused v)) s = .next
        (if s.exp.freezeBit = true then
          { s with exp := { s.exp with
            doneEnable := false, freezeBit := false, freezeTimer := none, thawLeft := dirtyRecords s.exp.dirty,
            freezeActive := s.exp.freezeActive && !s.exp.dirty.isEmpty } }
        else { s with exp := { s.exp with doneEnable := false } })) ∧
  (∀ s, StepNoteEmpty s.exp →
      exec .freeze s = .next
        (if s.exp.ready = true ∧ s.exp.freezeBit = false then
          { s with exp := { s.exp with
            freezeBit := true, freezeActive := true, freezeExpired := false, freezeTimer := some 250 } }
        else s) ∧
      exec .thaw s = .next
        (if s.exp.freezeBit = true then
          { s with exp := { s.exp with
            freezeBit := false, freezeTimer := none, thawLeft := dirtyRecords s.exp.dirty,
            freezeActive := s.exp.freezeActive && !s.exp.dirty.isEmpty } }
        else s) ∧
      exec .autoThaw s = .next
        (if s.exp.freezeTimer.isSome = true then
          { s with exp := { s.exp with
            freezeBit := false, freezeTimer := none, thawLeft := dirtyRecords s.exp.dirty,
            freezeActive := s.exp.freezeActive && !s.exp.dirty.isEmpty, freezeExpired := true,
            summary := s.exp.summary ||| 0x10000000 } }
        else s)) ∧
  (∀ s, (∀ a, a < 0x4000 → a % 2 = 0 →
        busRead s a = some (BitVec.ofNat 16 ((s.mem.read a).toNat + 256 * (s.mem.read (a + 1)).toNat))) ∧
      (∀ r ∈ [(0x4000, orderPostReg s), (0x4004, orderDoneReg s), (0x4008, changeSummaryReg s),
          (0x400C, changeEnableReg s), (0x4010, portControlReg s), (0x4014, portStatusReg s)],
        busRead s r.1 = some (BitVec.ofNat 16 r.2.toNat) ∧
        busRead s (r.1 + 2) = some (BitVec.ofNat 16 (r.2.toNat / 65536))) ∧
      (∀ a, 0x4018 ≤ a → busRead s a = none)) ∧
  (∀ s v, StepNoteEmpty s.exp →
      (∀ a, a < 0x4000 → a % 2 = 0 → busWrite a v s = { s with mem := s.mem.writeBytes a (le16 v.toNat) }) ∧
      exec (.orderPost [] .lower v) s = .next (busWrite 0x4000 v s) ∧
      exec (.orderPost [] .upper v) s = .next (busWrite 0x4002 v s) ∧
      exec (.orderDone .lower v) s = .next (busWrite 0x4004 v s) ∧
      exec (.orderDone .upper v) s = .next (busWrite 0x4006 v s) ∧
      exec (.changeSummary .lower v) s = .next (busWrite 0x4008 v s) ∧
      exec (.changeSummary .upper v) s = .next (busWrite 0x400A v s) ∧
      exec (.changeEnable .lower v) s = .next (busWrite 0x400C v s) ∧
      exec (.changeEnable .upper v) s = .next (busWrite 0x400E v s) ∧
      (v.getLsbD 2 = true → exec .portReset s = .next (finishStep (busWrite 0x4010 v s))) ∧
      (v.getLsbD 2 = false → Answers (.doneInterruptEnable (v.getLsbD 0)) s fun u =>
        exec (if v.getLsbD 1 = true then .freeze else .thaw) u = .next (busWrite 0x4010 v s)) ∧
      exec (.registerWriteOther (.portControlUpper v)) s = .next (busWrite 0x4012 v s) ∧
      exec (.registerWriteOther (.portStatus .lower v)) s = .next (busWrite 0x4014 v s) ∧
      exec (.registerWriteOther (.portStatus .upper v)) s = .next (busWrite 0x4016 v s))

/-- O18. PORT_RESET in any state: every slot is FREE, the pointer 31, the change registers, done enable, freeze and
collision count are cleared, ready is 0, and every one of the 69 records waits to be written with change bits to
follow; no bay has a power order and no queue entry, pending map, pending select, learn or transaction a slot,
and no query waits; every other field of the bays, the account, the paths, the sensors, the zones, the fans and
the lights, the memory, the pins and the counters stay. -/
def Obligations.PortResetReturnsTheExchange : Prop :=
  ∀ s, Answers .portReset s fun t =>
    (∀ n, t.slot n = { s.slot n with state := .free }) ∧ t.exp.pointer = 31 ∧
    t.exp.summary = 0 ∧ t.exp.enable = 0 ∧ t.exp.doneEnable = false ∧ t.exp.freezeBit = false ∧
    t.exp.freezeActive = false ∧ t.exp.freezeExpired = false ∧ t.exp.freezeTimer = none ∧ t.exp.collisions = 0 ∧
    t.exp.ready = false ∧ t.exp.counts = s.exp.counts ∧ t.exp.histPending = s.exp.histPending ∧
    (∃ w, t.exp.resetWrite = some w ∧ w.setBits = true ∧ ∀ r, r ∈ dirtyRecords w.left) ∧
    (∀ b, t.bay b = { s.bay b with powerOrder := none }) ∧
    t.bmon.debounce = s.bmon.debounce ∧ t.bmon.replug = s.bmon.replug ∧
    t.pseq = { s.pseq with
      urgent := s.pseq.urgent.map fun e => { e with slot := none }
      normal := s.pseq.normal.map fun e => { e with slot := none } } ∧
    t.sbe = { s.sbe with
      orderQ := s.sbe.orderQ.filter fun e => e.origin ≠ .query
      flight := s.sbe.flight.map fun x => { x with entry := { x.entry with slot := none } } } ∧
    t.thc = { s.thc with
      pendingMap := s.thc.pendingMap.map fun p => { p with slot := none }
      pendingSelect := s.thc.pendingSelect.map fun p => { p with slot := none } } ∧
    t.fanu.fans = s.fanu.fans ∧
    (∀ f, t.fanWork f = { s.fanWork f with learn := (s.fanWork f).learn.map fun l => { l with slot := none } }) ∧
    t.fanu.output = s.fanu.output ∧ t.fanu.d3 = s.fanu.d3 ∧ t.fanu.member = s.fanu.member ∧
    t.fanu.gateTimer = s.fanu.gateTimer ∧
    t.lgt = s.lgt ∧ t.mem = s.mem ∧ t.pins = s.pins ∧ t.clock = s.clock

/-- O19. The interrupt line is asserted in a state exactly while ORDER DONE holds a slot with done-interrupt enable
1, or a bit is set in both CHANGE SUMMARY and CHANGE ENABLE; after POWER_ON_RESET and after PORT_RESET the
registers that feed it are 0 and it is released. -/
def Obligations.InterruptLineFollowsItsTerms : Prop :=
  (∀ s, interruptLine s = true ↔
      (orderDoneReg s ≠ 0 ∧ s.exp.doneEnable = true) ∨
      ∃ i, i < 32 ∧ (changeSummaryReg s).getLsbD i = true ∧ (changeEnableReg s).getLsbD i = true) ∧
    ∀ c s, c = .powerOnReset ∨ c = .portReset → Answers c s fun t =>
      orderDoneReg t = 0 ∧ t.exp.doneEnable = false ∧ changeSummaryReg t = 0 ∧ changeEnableReg t = 0 ∧
        interruptLine t = false

/-- O20. With no freeze in force, MIRROR_RECORD_WRITE takes the next entry: the first of a reset's writing if one is
under way, else the oldest of the dirty set. The record's area then reads its owner's content followed by its
update count, advanced by one; its change bit is set if the entry carried a notice; with a bay record the
positions of its ring filled since its last write are written too and are then none; every other byte of memory,
the other update counts, the slots and every other block stay. An entry of the dirty set leaves it and, where it
was dirty at a thaw, those the thaw waits for; freeze active falls exactly where none is left and the freeze bit
is 0. An entry of a reset's writing leaves that writing and the dirty set stays; with the last one the writing
is over, ready is 1, and after a port reset change bits 0 to 27 are set together. With nothing to write, and
during a freeze, nothing changes. That a reset's writing has its own list is the model's reading
(notes/assumptions/10.md). -/
def Obligations.MirrorRecordIsWrittenWhole : Prop :=
  ∀ s, Settled s →
    (∀ e rest, freezeHolds s = false → s.exp.resetWrite = none → s.exp.dirty = e :: rest →
      Answers .mirrorRecordWrite s fun t =>
        t.mem.readBytes e.record.base ((encodeRecord s e.record).length + 1) =
          encodeRecord s e.record ++ [s.exp.counts[e.record.index] + 1] ∧
        t.exp.dirty = rest ∧
        t.exp.counts = s.exp.counts.set e.record.index (s.exp.counts[e.record.index] + 1) ∧
        t.exp.summary = (match e.record.changeBit with
          | none => s.exp.summary
          | some i => if e.notice = true then s.exp.summary ||| (1#32 <<< i.val) else s.exp.summary) ∧
        t.exp.thawLeft = s.exp.thawLeft.filter (fun r => r ≠ e.record) ∧
        (s.exp.freezeActive = true → (t.exp.freezeActive = false ↔ s.exp.freezeBit = false ∧ t.exp.thawLeft = [])) ∧
        t.exp.slots = s.exp.slots ∧ t.exp.ready = s.exp.ready ∧ EnclosureKept s t ∧ t.lgt = s.lgt) ∧
    (∀ e left bits, freezeHolds s = false → s.exp.resetWrite = some ⟨e :: left, bits⟩ →
      Answers .mirrorRecordWrite s fun t =>
        t.mem.readBytes e.record.base ((encodeRecord s e.record).length + 1) =
          encodeRecord s e.record ++ [s.exp.counts[e.record.index] + 1] ∧
        t.exp.dirty = s.exp.dirty ∧
        t.exp.counts = s.exp.counts.set e.record.index (s.exp.counts[e.record.index] + 1) ∧
        (let written := match e.record.changeBit with
          | none => s.exp.summary
          | some i => if e.notice = true then s.exp.summary ||| (1#32 <<< i.val) else s.exp.summary
        if left = [] then
          t.exp.resetWrite = none ∧ t.exp.ready = true ∧
          t.exp.summary = (if bits = true then written ||| 0x0FFFFFFF else written)
        else t.exp.resetWrite = some ⟨left, bits⟩ ∧ t.exp.ready = s.exp.ready ∧ t.exp.summary = written) ∧
        t.exp.slots = s.exp.slots ∧ EnclosureKept s t ∧ t.lgt = s.lgt) ∧
    (∀ e : DirtyEntry, freezeHolds s = false →
        (s.exp.resetWrite = none ∧ s.exp.dirty.head? = some e) ∨ (∃ w, s.exp.resetWrite = some w ∧ w.left.head? = some e) →
      Answers .mirrorRecordWrite s fun t =>
        (∀ (b : Bay) (p : Fin 8), e.record = .bay b → s.exp.histPending[b].getLsbD p.val = true →
          t.mem.readBytes (historyBase b p) 8 = encodeHist (s.bay b).ring[p]) ∧
        (∀ b : Bay, t.exp.histPending[b] = if e.record = .bay b then 0 else s.exp.histPending[b]) ∧
        ∀ a, ¬ (e.record.base ≤ a ∧ a < e.record.base + ((encodeRecord s e.record).length + 1)) →
          (∀ (b : Bay) (p : Fin 8), e.record = .bay b → s.exp.histPending[b].getLsbD p.val = true →
            ¬ (historyBase b p ≤ a ∧ a < historyBase b p + 8)) →
          t.mem.read a = s.mem.read a) ∧
    (s.exp.resetWrite = none → s.exp.dirty = [] → exec .mirrorRecordWrite s = .next s) ∧
    (freezeHolds s = true → exec .mirrorRecordWrite s = .next s)

/-- O21. While the freeze bit and freeze active are 1, every command but a host write to the exchange memory leaves
every byte of the mirror and history areas as it was. -/
def Obligations.FreezeHoldsTheMirror : Prop :=
  ∀ c s, Settled s → freezeHolds s = true → (∀ ws half bits, c = .orderPost ws half bits → ws = []) →
    Answers c s fun t => ∀ a, inMirror a → t.mem.read a = s.mem.read a

/-- O22. Every command but ORDER_POST and POWER_ON_RESET leaves every byte outside the mirror and history areas and
outside the result areas of POSTED and TAKEN slots: so a FREE or DONE slot's result stays. POWER_ON_RESET
changes bytes of the pattern and AUTO map areas only. -/
def Obligations.MemoryChangesOnlyInThePartsAreas : Prop :=
  ∀ s, Settled s →
    (∀ c, c ≠ .powerOnReset → (∀ ws half bits, c ≠ .orderPost ws half bits) → Answers c s fun t =>
      ∀ a, ¬ inMirror a →
        (∀ n, resultBase n ≤ a → a < resultBase n + 64 → (s.slot n).state = .free ∨ (s.slot n).state = .done) →
        t.mem.read a = s.mem.read a) ∧
    Answers .powerOnReset s fun t => ∀ a, ¬ inLightAreas a → t.mem.read a = s.mem.read a

/-- O23. Between steps: UPTIME_COUNTER_ADVANCE adds one to the uptime; TICK_COUNTER_ADVANCE adds one to the tick
counter and to the ticks counted since the last admission (held at most at 1001); REPLUG_WINDOW_EXPIRY stops the
bay's window; TACH_EDGE advances the fan's count, up to 4095; BOARD_SENSOR_READ_TIMER starts a read of every
fitted sensor and restarts the timer; DEFER_SPACING_END makes the transaction's next attempt. Nothing else
changes. BOARD_SENSOR_READ_END of a read in progress: with a reading the sensor's value is the reading clamped
to -160 to 511 q, its failure count 0 and its last success the uptime; with a failure its count rises by one, up
to 255, and the rest stays. The read is over. The other sensors, the zones and every other block stay. The count
of ticks since the last admission, and its end at 1001, is the model's own (notes/assumptions/3.md,
notes/assumptions/5.md). -/
def Obligations.CountersAndQuietEvents : Prop :=
  (∀ s, StepNoteEmpty s.exp →
      exec .uptimeCounterAdvance s = .next { s with clock := { s.clock with uptime := s.clock.uptime + 1 } } ∧
      exec .tickCounterAdvance s = .next { s with
        clock := { s.clock with tick := s.clock.tick + 1 }
        pseq := { s.pseq with account := { s.pseq.account with
          sinceAdmission := s.pseq.account.sinceAdmission.map fun k => min (k + 1) 1001 } } } ∧
      (∀ b : Bay, exec (.replugWindowExpiry b) s =
        .next { s with bmon := { s.bmon with replug := s.bmon.replug.set b none } }) ∧
      (∀ f, exec (.tachEdge f) s = .next { s with fanu := { s.fanu with
        work := s.fanu.work.set f { s.fanWork f with edges := min ((s.fanWork f).edges + 1) 4095 } } }) ∧
      exec .boardSensorReadTimer s = .next { s with thc := { s.thc with
        reading := Vector.ofFn fun n => s.thc.reading[n] || s.thc.fitted[n]
        readTimer := some 250 } } ∧
      ∀ x, s.sbe.flight = some x → x.phase = .spacing →
        exec .deferSpacingEnd s = .next { s with sbe := { s.sbe with flight := some { x with phase := .attempt } } }) ∧
  (∀ s (k : Fin 8) (reading : Option Int), StepNoteEmpty s.exp → s.thc.reading[k] = true → Answers (.boardSensorReadEnd k reading) s fun t =>
      t.thc = { s.thc with
        reading := s.thc.reading.set k false
        sensors := s.thc.sensors.set (24 + k.val) (match reading with
          | some q => ⟨some (max (-160) (min 511 q)), 0, some s.clock.uptime⟩
          | none => { s.thc.sensors[24 + k.val] with fails := min (s.thc.sensors[24 + k.val].fails + 1) 255 })
          (by omega) } ∧
      t.pins = s.pins ∧ t.bmon = s.bmon ∧ t.pseq = s.pseq ∧ t.sbe = s.sbe ∧ t.fanu = s.fanu ∧ t.lgt = s.lgt ∧
      t.clock = s.clock ∧ t.mem = s.mem)

/-- O24. Every command leaves: the input pins, but for PRESENCE_CHANGE and the power-good events; the counters, but
for their own advances and POWER_ON_RESET; each bay's policy, but for BAY_POLICY and POWER_ON_RESET; the
account's settings, but for BUDGET_SET and POWER_ON_RESET; the poll interval, but for SIDEBAND_QUERY and
POWER_ON_RESET; the working copy and bank, but for ZONE_PERIOD_START and POWER_ON_RESET; each fan's installed,
ppr, max units and threshold, but for FAN_CONFIG and POWER_ON_RESET; the pattern table and the AUTO map, but for
PATTERN_LOAD, AUTO_MAP and POWER_ON_RESET. -/
def Obligations.SettingsChangeByTheirOwnCommands : Prop :=
  ∀ c s, Answers c s fun t =>
    ((∀ b, c ≠ .presenceChange b ∧ c ≠ .powerGoodAsserted b ∧ c ≠ .powerGoodDeasserted b) → t.pins = s.pins) ∧
    (c ≠ .powerOnReset →
      (c ≠ .uptimeCounterAdvance → t.clock.uptime = s.clock.uptime) ∧
      (c ≠ .tickCounterAdvance → t.clock.tick = s.clock.tick) ∧
      (c ≠ .bayPolicy → ∀ b, (t.bay b).policy = (s.bay b).policy) ∧
      (c ≠ .budgetSet → t.account.settings = s.account.settings) ∧
      (c ≠ .sidebandQuery → t.sbe.interval = s.sbe.interval) ∧
      (c ≠ .zonePeriodStart → t.thc.working = s.thc.working ∧ t.thc.bank = s.thc.bank) ∧
      (c ≠ .fanConfig → ∀ f, (t.fan f).installed = (s.fan f).installed ∧ (t.fan f).ppr = (s.fan f).ppr ∧
        (t.fan f).maxUnits = (s.fan f).maxUnits ∧ (t.fan f).threshold = (s.fan f).threshold) ∧
      (c ≠ .patternLoad → t.lgt.patterns = s.lgt.patterns) ∧
      (c ≠ .autoMap → t.lgt.autoMap = s.lgt.autoMap))

/-! ### Bays and presence -/

/-- O25. PRESENCE_CHANGE in any state: the bay's presence input reads otherwise and no other does; the bay is in
SETTLING with its 250 ms debounce running, from ABSENT if it was EMPTY and from PRESENT otherwise, and a bay
already in SETTLING keeps its field; a bay that was RAMPING, SPINNING, ACTIVE or STOPPING has no charge and no
power order, its switch is off and its timers, ladder and stop are gone; a bay that was QUEUED has no power
order and no queue entry. Other bays stay, unless QUEUED and admitted. A bay cut so gains an OFF entry with
detail PRESENCE_LOST, and its power order's TAKEN slot completes REMOVED with the detail of its stop, the wait
counted to this moment where the switch was still on (notes/assumptions/17.md), or of its ladder; a QUEUED bay
gains a DEQUEUED entry with its class, and its entry's TAKEN slot completes REMOVED with the detail of an order
never admitted. From EMPTY, SETTLING, OFF and FAULT the ring and the slots stay. -/
def Obligations.PresenceChangePutsTheBayInSettling : Prop :=
  (∀ (b : Bay) s, Answers (.presenceChange b) s fun t =>
      (∀ d : Bay, t.pins.presence[d] = if d = b then s.pins.presence[d].toggled else s.pins.presence[d]) ∧
      t.bmon.debounce[b] = some 250 ∧ (∀ d : Bay, d ≠ b → t.bmon.debounce[d] = s.bmon.debounce[d]) ∧
      t.bmon.replug = s.bmon.replug ∧
      (t.bay b).state = .settling ∧
      (t.bay b).settlingFrom =
        (if (s.bay b).state = .settling then (s.bay b).settlingFrom
        else some (if (s.bay b).state = .empty then .absent else .present)) ∧
      ((s.bay b).state.starting = true ∨ (s.bay b).state = .active ∨ (s.bay b).state = .stopping →
        (t.bay b).charge = none ∧ (t.bay b).powerOrder = none ∧ t.path b = { Path.reset with slew := (s.path b).slew }) ∧
      ((s.bay b).state = .queued → (t.bay b).powerOrder = none ∧ b ∉ queuedBays t.pseq) ∧
      BayKept { s.bay b with powerOrder := (t.bay b).powerOrder } (t.bay b) ∧
      OthersKept (· = b) s t) ∧
  (∀ (b : Bay) s, Answers (.presenceChange b) s fun t =>
      let gains := fun ev : HistEvent =>
        (t.bay b).ring = (s.bay b).ring.set (s.bay b).head (some ⟨(s.bay b).nextSeq, ev, s.clock.uptime⟩) ∧
          (t.bay b).head = (s.bay b).head + 1 ∧ (t.bay b).nextSeq = (s.bay b).nextSeq + 1
      let cut := (s.bay b).state.starting = true ∨ (s.bay b).state = .active ∨ (s.bay b).state = .stopping
      (cut → gains (.off .presenceLost)) ∧
      (cut → s.mem.wf = true → ∀ n, (s.bay b).powerOrder = some n → (s.slot n).state = .taken →
        Completed t n .removed (s.slot n).tag s.clock.uptime (match (s.path b).stop with
          | some w => offDetail (some { w with
              wait := if (s.path b).switchOn = true then waitTicks w.take s.clock.tick else w.wait })
          | none => onDetail (s.path b).ladder)) ∧
      (∀ e, (s.bay b).state = .queued → entryOf s b = some e →
        gains (.dequeued e.cls) ∧
        (s.mem.wf = true → ∀ n, e.slot = some n → (s.slot n).state = .taken →
          Completed t n .removed (s.slot n).tag s.clock.uptime
            ([0xFF, e.cls.code] ++ le16 (waitTicks e.tick s.clock.tick) ++ [0, 0, 0, 0, 0]))) ∧
      ((s.bay b).state = .empty ∨ (s.bay b).state = .settling ∨ (s.bay b).state = .off ∨ (s.bay b).state = .fault →
        (t.bay b).ring = (s.bay b).ring ∧ t.exp.slots = s.exp.slots))

/-- O26. DEBOUNCE_EXPIRY of a running debounce with the presence input ABSENT stops the timer and leaves the bay
EMPTY. From PRESENT the drive's details are cleared, the 2 s replug window runs, and one REMOVED entry joins the
history ring; from ABSENT the replug window and the ring stay. The replug count and policy stay in both. Other
bays stay, unless QUEUED and admitted. DEBOUNCE_EXPIRY of a running debounce with the presence input PRESENT
stops the timer. With auto-on clear the bay is OFF with one INSERTED, REPLUGGED or GLITCH entry in its ring;
with auto-on set it is QUEUED, or already admitted. From ABSENT with the replug window running the replug count
rises by one, up to 255, and the window stops; otherwise the count stays. Identity, class and warning stay.
Other bays stay, unless QUEUED and admitted. For a bay in SETTLING: as it goes EMPTY the sideband drops its
queued entries of both classes, their TAKEN queries completing REMOVED, a transaction in flight for it ends, its
TAKEN query completing NO_DEVICE with the counts made so far, and with none then in flight the next entry
starts, of the order class first; as it enters OFF it asks for its identity: an ARRIVAL IDENT entry joins the
poll class, unless the bay has an entry there, and starts at once where nothing is in flight. -/
def Obligations.DebounceSettlesTheBay : Prop :=
  (∀ (b : Bay) s from', s.bmon.debounce[b].isSome = true → s.pins.presence[b] = .absent → (s.bay b).settlingFrom = some from' →
      Answers (.debounceExpiry b) s fun t =>
        t.bmon.debounce[b] = none ∧ (t.bay b).state = .empty ∧ (t.bay b).settlingFrom = none ∧
        (t.bay b).faultCause = none ∧ (t.bay b).replugCount = (s.bay b).replugCount ∧ (t.bay b).policy = (s.bay b).policy ∧
        (from' = .present →
          (t.bay b).identity = none ∧ (t.bay b).driveClass = .unknown ∧ (t.bay b).unrecognised = false ∧
          (t.bay b).healthWarn = false ∧ (t.bay b).lastGood = none ∧ t.bmon.replug[b] = some 2000 ∧
          (t.bay b).ring = (s.bay b).ring.set (s.bay b).head (some ⟨(s.bay b).nextSeq, .removed, s.clock.uptime⟩) ∧
          (t.bay b).head = (s.bay b).head + 1 ∧ (t.bay b).nextSeq = (s.bay b).nextSeq + 1) ∧
        (from' = .absent → t.bmon.replug[b] = s.bmon.replug[b] ∧ (t.bay b).ring = (s.bay b).ring ∧
          (t.bay b).identity = (s.bay b).identity) ∧
        OthersKept (· = b) s t) ∧
  (∀ (b : Bay) s from', s.bmon.debounce[b].isSome = true → s.pins.presence[b] = .present → (s.bay b).settlingFrom = some from' →
      Answers (.debounceExpiry b) s fun t =>
        let replugged := from' = .absent ∧ s.bmon.replug[b].isSome = true
        let count := if replugged then min ((s.bay b).replugCount + 1) 255 else (s.bay b).replugCount
        t.bmon.debounce[b] = none ∧ (t.bay b).settlingFrom = none ∧ (t.bay b).replugCount = count ∧
        (t.bmon.replug[b] = if replugged then none else s.bmon.replug[b]) ∧
        (t.bay b).identity = (s.bay b).identity ∧ (t.bay b).driveClass = (s.bay b).driveClass ∧
        (t.bay b).healthWarn = (s.bay b).healthWarn ∧ (t.bay b).policy = (s.bay b).policy ∧
        ((s.bay b).policy.autoOn = false →
          (t.bay b).state = .off ∧
          (t.bay b).ring = (s.bay b).ring.set (s.bay b).head (some ⟨(s.bay b).nextSeq,
            (if from' = .present then .glitch else if s.bmon.replug[b].isSome = true then .replugged count else .inserted),
            s.clock.uptime⟩)) ∧
        ((s.bay b).policy.autoOn = true → (t.bay b).state = .queued ∨ (t.bay b).state.starting = true) ∧
        OthersKept (· = b) s t) ∧
  (∀ (b : Bay) s from', s.bmon.debounce[b].isSome = true → s.pins.presence[b] = .absent → (s.bay b).settlingFrom = some from' →
      s.mem.wf = true → (s.bay b).state = .settling →
      let orders := s.sbe.orderQ.filter fun e => e.bay ≠ b
      let polls := s.sbe.pollQ.filter fun e => e.bay ≠ b
      Answers (.debounceExpiry b) s fun t =>
        (∀ x, s.sbe.flight = some x → x.entry.bay ≠ b → t.sbe = { s.sbe with orderQ := orders, pollQ := polls }) ∧
        ((∀ x, s.sbe.flight = some x → x.entry.bay = b) → t.sbe = { s.sbe with
          flight := nextTxn orders polls s.clock.tick
          orderQ := orders.tail
          pollQ := if orders = [] then polls.tail else polls }) ∧
        (∀ x n, s.sbe.flight = some x → x.entry.bay = b → x.entry.slot = some n → (s.slot n).state = .taken →
          Completed t n .noDevice (s.slot n).tag s.clock.uptime
            ([byte b.val, x.entry.item.code, byte x.defers, byte x.failed] ++ le16 x.queueWait)) ∧
        (∀ e ∈ s.sbe.orderQ, e.bay = b → ∀ n, e.slot = some n → (s.slot n).state = .taken →
          (∀ x, s.sbe.flight = some x → x.entry.slot ≠ some n) →
          (t.slot n).state = .done ∧ t.mem.readBytes (resultBase n) 1 = [Result.removed.code])) ∧
  (∀ (b : Bay) s from', s.bmon.debounce[b].isSome = true → s.pins.presence[b] = .present → (s.bay b).settlingFrom = some from' →
      (s.bay b).state = .settling → pollQueued s b = false →
      let polls := s.sbe.pollQ ++ [{ bay := b, item := .ident, origin := .arrival, slot := none, take := s.clock.tick }]
      Answers (.debounceExpiry b) s fun t =>
        (s.sbe.flight.isSome = true → t.sbe = { s.sbe with pollQ := polls }) ∧
        (s.sbe.flight = none → t.sbe = { s.sbe with
          flight := nextTxn s.sbe.orderQ polls s.clock.tick
          orderQ := s.sbe.orderQ.tail
          pollQ := if s.sbe.orderQ = [] then polls.tail else polls }))

/-- O27. The take of a BAY_POLICY: with a bay of 0 to 23 or 255, a start level of 0 to 3 and a mask other than 0,
each named bay has the order's five fields, the shed temperature clamped to 100, no other field of its record
changes, every other bay stays, and the order completes OK. Otherwise no bay record changes and it completes
BAD_ARG naming the first failing field: the bay, the start level, or the mask. The fields' bytes in the detail
are the model's reading (notes/assumptions/17.md). -/
def Obligations.PolicyOrderWritesThePolicies : Prop :=
  ∀ s n, Takes s .bayPolicy n →
    let named := argByte s n 0
    let p : Policy :=
      { autoOn := (argByte s n 1).getLsbD 0, shedTemp := min (argByte s n 2).toNat 100,
        startLevel := Fin.ofNat 4 (argByte s n 3).toNat, levelMask := (argByte s n 4).setWidth 4,
        useLearned := (argByte s n 1).getLsbD 1 }
    Answers .bayPolicy s fun t =>
      ((named.toNat < 24 ∨ named = 255) → (argByte s n 3).toNat < 4 → p.levelMask ≠ 0 →
        TakeCompleted s t n .ok [named, byte p.shedTemp] ∧
        ∀ b, t.bay b = if named = 255 ∨ b.val = named.toNat then { s.bay b with policy := p } else s.bay b) ∧
      (24 ≤ named.toNat → named ≠ 255 → TakeCompleted s t n .badArg [named, 0xFF, 0] ∧ t.bmon = s.bmon) ∧
      ((named.toNat < 24 ∨ named = 255) → 4 ≤ (argByte s n 3).toNat →
        TakeCompleted s t n .badArg [named, 0xFF, 1] ∧ t.bmon = s.bmon) ∧
      ((named.toNat < 24 ∨ named = 255) → (argByte s n 3).toNat < 4 → p.levelMask = 0 →
        TakeCompleted s t n .badArg [named, 0xFF, 2] ∧ t.bmon = s.bmon) ∧
      t.pins = s.pins ∧ t.pseq = s.pseq ∧ t.sbe = s.sbe ∧ t.thc = s.thc ∧ t.fanu = s.fanu ∧ t.lgt = s.lgt ∧ t.clock = s.clock

/-- O28. The take of a CLEAR_FAULT: of one bay in FAULT, the bay is OFF without a cause, its ring gains a CLEARED
entry, and the order completes OK; in EMPTY or SETTLING it completes BAY_EMPTY, in any other state ALREADY, and
the bays stay; with 255 every bay in FAULT is OFF, and the order completes OK with their number, or ALREADY when
there is none; any other bay completes BAD_ARG and the bays stay. A bay not in FAULT stays. The layout of the
detail is the model's reading (notes/assumptions/17.md). -/
def Obligations.ClearFaultTakesBaysToOff : Prop :=
  ∀ s n, Takes s .clearFault n →
    let named := argByte s n 0
    let count := (List.finRange 24).countP fun b => (s.bay b).state = .fault
    Answers .clearFault s fun t =>
      (∀ b : Bay, b.val = named.toNat → (s.bay b).state = .fault →
        TakeCompleted s t n .ok [byte b.val, 1, optByte ((s.bay b).faultCause.map FaultCause.code)]) ∧
      (∀ b : Bay, b.val = named.toNat → (s.bay b).state = .empty ∨ (s.bay b).state = .settling →
        TakeCompleted s t n .bayEmpty [byte b.val, 0]) ∧
      (∀ b : Bay, b.val = named.toNat →
        (s.bay b).state ≠ .fault → (s.bay b).state ≠ .empty → (s.bay b).state ≠ .settling →
        TakeCompleted s t n .already [byte b.val, 0]) ∧
      (named = 255 → TakeCompleted s t n (if count = 0 then .already else .ok) [255, byte count]) ∧
      (24 ≤ named.toNat → named ≠ 255 → TakeCompleted s t n .badArg [named]) ∧
      ∀ b, if (s.bay b).state = .fault ∧ (named = 255 ∨ b.val = named.toNat) then
          (t.bay b).state = .off ∧ (t.bay b).faultCause = none ∧ BayKept (s.bay b) (t.bay b) ∧
          (t.bay b).ring = (s.bay b).ring.set (s.bay b).head
            (some ⟨(s.bay b).nextSeq, .cleared (s.bay b).faultCause, s.clock.uptime⟩)
        else t.bay b = s.bay b

/-! ### Power -/

/-- O29. The room is C - max(F, E_fan) - D; the admission condition holds for a candidate exactly when its inrush
charge does not exceed the room; the budget record's room field holds the room, 0 when it is negative; while the
room is negative an evaluation admits no bay and every bay keeps its charge. -/
def Obligations.RoomIsWhatNobodyClaims : Prop :=
  (∀ a : Account, room a =
      (a.settings.capacity : Int) - (max a.settings.floor a.fanEstimate : Nat) - (a.drives : Int)) ∧
    (∀ s b, budgetFits s b = true ↔ ((pairNow s b).inrush : Int) ≤ room s.account) ∧
    (∀ s : State, ((encodeBudget s.pseq).drop 16).take 2 =
      le16 (if room s.account < 0 then 0 else (room s.account).toNat)) ∧
    ∀ s, room s.account < 0 → ∀ b, (evaluate s).bay b = s.bay b

/-- O30. The wanted level is the learned one if there is one and else the start level; the first level is the wanted
one if enabled; else the lowest enabled level with a higher number; else the highest enabled level with a lower
number. With a mask that enables a level the first level is enabled. An admission begins its first attempt at it
at once: the switch goes on with the slew select at that level. The two examples of the rule give 1 and 2. -/
def Obligations.FirstLevelIsTheNearestEnabled : Prop :=
  (∀ (mask : BitVec 4) (start : Level) (learned : Option Level),
      let wanted := learned.getD start
      let first := firstLevel mask start learned
      (enabled mask wanted = true → first = wanted) ∧
      (enabled mask wanted = false → ∀ n, wanted < n → enabled mask n = true →
        (∀ k, wanted < k → k < n → enabled mask k = false) → first = n) ∧
      (enabled mask wanted = false → (∀ k, wanted < k → enabled mask k = false) → ∀ n, n < wanted →
        enabled mask n = true → (∀ k, n < k → k < wanted → enabled mask k = false) → first = n) ∧
      (mask ≠ 0 → enabled mask first = true)) ∧
    (∀ r c e now, (Ladder.fresh r c e now).level =
      firstLevel r.policy.levelMask r.policy.startLevel (if r.policy.useLearned = true then r.lastGood else none)) ∧
    (∀ e s, (s.bay e.bay).state = .queued →
      ((admitEntry e s).path e.bay).switchOn = true ∧ ((admitEntry e s).path e.bay).slew =
        (Ladder.fresh (s.bay e.bay) s.account.settings e s.clock.tick).level) ∧
    firstLevel 0xF 1 none = 1 ∧ firstLevel 0xC 1 (some 0) = 2

/-- O31. After an admission evaluation either the queue is empty and the blocked reason is NONE, or the candidate
does not meet all three conditions and the blocked reason is the first that fails: STAGGER, CONCURRENCY or
BUDGET. -/
def Obligations.EvaluationEndsAtACandidateThatWaits : Prop :=
  ∀ s, let t := evaluate s
    (candidate t.pseq = none ∧ t.account.blocked = .none) ∨
    ∃ e, candidate t.pseq = some e ∧ fits t e.bay = false ∧
      t.account.blocked =
        (if t.account.staggerTimer ≠ none then .stagger
        else if t.account.settings.maxConcurrent ≤ t.account.starting then .concurrency else .budget)

/-- O32. STAGGER_EXPIRY of a running stagger: a QUEUED candidate that finds a free place and room leaves the queue,
holds the inrush charge of its class, and is RAMPING or SPINNING; with no candidate, or with one that does not
fit, the stagger has elapsed, no bay and no path changes, and the reason shown is NONE, CONCURRENCY or BUDGET.
Pins, sideband, fans and counters stay. -/
def Obligations.StaggerExpiryAdmitsTheCandidate : Prop :=
  ∀ s, s.account.staggerTimer.isSome = true → Answers .staggerExpiry s fun t =>
    (∀ e, candidate s.pseq = some e → (s.bay e.bay).state = .queued → placeFree s = true → budgetFits s e.bay = true →
      (t.bay e.bay).state.starting = true ∧ e.bay ∉ queuedBays t.pseq ∧
      (t.bay e.bay).charge = some ⟨s.account.settings.pair (chargeClass (s.bay e.bay).driveClass), .inrush⟩) ∧
    (candidate s.pseq = none → t.account.staggerTimer = none ∧ t.account.blocked = .none ∧ ∀ b, BaySame s t b) ∧
    (∀ e, candidate s.pseq = some e → placeFree s = false →
      t.account.staggerTimer = none ∧ t.account.blocked = .concurrency ∧ ∀ b, BaySame s t b) ∧
    (∀ e, candidate s.pseq = some e → placeFree s = true → budgetFits s e.bay = false →
      t.account.staggerTimer = none ∧ t.account.blocked = .budget ∧ ∀ b, BaySame s t b) ∧
    OthersKept (fun _ => False) s t ∧ t.pins = s.pins ∧ t.sbe = s.sbe ∧ t.fanu = s.fanu ∧ t.clock = s.clock

/-- O33. TRIP_ASSERTED or RAMP_WINDOW_END of a bay whose ramp window runs: the next level is the next slower enabled
one after a trip, the next faster after the window's end, the same where there is none. Below both limits the
switch goes off, the outcome is recorded, the ladder stands at the next level in COOL_OFF with its 100 ms timer,
and nothing else changes. At a limit a RAMPING bay is in FAULT with POWER_FAULT, without charge or order, its
path idle; its power order completes POWER_FAULT. Other bays stay, unless QUEUED and admitted. -/
def Obligations.FailedAttemptGoesToTheNextLevel : Prop :=
  ∀ s (b : Bay) l, StepNoteEmpty s.exp → (s.path b).rampTimer.isSome = true → (s.path b).ladder = some l →
    ∀ c o, (c = .tripAsserted b ∧ o = .trip) ∨ (c = .rampWindowEnd b ∧ o = .slow) →
      let next := match o with
        | .trip => (slower l.mask l.level).getD l.level
        | .slow => (faster l.mask l.level).getD l.level
        | .good => l.level
      (l.counts[next] < 3 → l.total < 6 →
        exec c s = .next { s with pseq := { s.pseq with paths := s.pseq.paths.set b { s.path b with
          switchOn := false, rampTimer := none, coolTimer := some 100,
          ladder := some { l with last := some o, phase := .coolOff, level := next } } } }) ∧
      ((3 ≤ l.counts[next] ∨ 6 ≤ l.total) → (s.bay b).state = .ramping → s.mem.wf = true →
        Answers c s fun t =>
          (t.bay b).state = .fault ∧ (t.bay b).faultCause = some .powerFault ∧ (t.bay b).charge = none ∧
          (t.bay b).powerOrder = none ∧ (t.bay b).lastGood = (s.bay b).lastGood ∧
          t.path b = { Path.reset with slew := (s.path b).slew } ∧
          (∀ n, (s.bay b).powerOrder = some n → (s.slot n).state = .taken →
            Completed t n .powerFault (s.slot n).tag s.clock.uptime
              (onDetail (some { l with last := some o, phase := .coolOff }))) ∧
          OthersKept (· = b) s t)

/-- O34. COOL_OFF_END of a running cool-off: the slew select takes the ladder's level, the switch goes on, the
level's and the total count rise by one and the level's ramp window runs (4, 8, 16 or 32 ms); with power-good
low nothing else changes. POWER_GOOD_ASSERTED in the ramp window of a RAMPING bay, or power-good already
asserted as the cool-off ends: the bay is SPINNING, its last good level is the attempt's, its spin window runs,
its switch stays on and its charge stays. POWER_GOOD_ASSERTED with no ramp window running changes the input
only. -/
def Obligations.AttemptBeginsAfterTheCoolOff : Prop :=
  ∀ s (b : Bay), StepNoteEmpty s.exp →
    (∀ l, (s.path b).ladder = some l → (s.path b).coolTimer.isSome = true → s.pins.powerGood[b] = false →
      exec (.coolOffEnd b) s = .next { s with pseq := { s.pseq with paths := s.pseq.paths.set b { s.path b with
        coolTimer := none, switchOn := true, slew := l.level, rampTimer := some (4 * 2 ^ l.level.val),
        ladder := some { l with phase := .attempt, begun := l.level, total := l.total + 1,
                                counts := l.counts.set l.level (l.counts[l.level] + 1) } } } }) ∧
    (∀ l c, (s.path b).ladder = some l → (s.bay b).state = .ramping →
      (c = .powerGoodAsserted b ∧ (s.path b).rampTimer.isSome = true) ∨
        (c = .coolOffEnd b ∧ (s.path b).coolTimer.isSome = true ∧ s.pins.powerGood[b] = true) →
      Answers c s fun t =>
        (t.bay b).state = .spinning ∧ (t.bay b).lastGood = some l.level ∧ (t.bay b).charge = (s.bay b).charge ∧
        (t.bay b).powerOrder = (s.bay b).powerOrder ∧
        (t.path b).rampTimer = none ∧ (t.path b).spinTimer = some (1000 * l.spinWindow) ∧
        (t.path b).switchOn = (if c = .coolOffEnd b then true else (s.path b).switchOn) ∧
        t.pins.powerGood[b] = true ∧ t.pins.presence = s.pins.presence ∧
        ∀ d, d ≠ b → BaySame s t d) ∧
    ((s.path b).rampTimer = none → exec (.powerGoodAsserted b) s =
      .next { s with pins := { s.pins with powerGood := s.pins.powerGood.set b true } })

/-- O35. SPIN_WINDOW_END of a SPINNING bay whose spin window runs: the bay is ACTIVE, its charge record keeps its
pair and holds STEADY, it has no power order, its ring gains an ACTIVE entry, its ladder and window are gone,
its switch stays; its BAY POWER ON completes OK with the detail of the ladder. Other bays stay, unless QUEUED
and admitted. HOLD_END of a bay in STOPPING/HOLD whose hold runs: the bay is OFF without a power order, its ring
stays, its path is idle; its BAY POWER OFF completes OK with the detail of the stop. Every other bay and path
stays. As a bay enters ACTIVE its poll count begins at 0, and unless it has a poll-class entry its first poll is
placed at once: the count goes to 1 and a TEMP entry joins the poll class, and starts where nothing is in
flight. -/
def Obligations.SpinWindowAndHoldEnd : Prop :=
  (∀ s (b : Bay), s.mem.wf = true → (s.path b).spinTimer.isSome = true → (s.bay b).state = .spinning →
      Answers (.spinWindowEnd b) s fun t =>
        (t.bay b).state = .active ∧
        (t.bay b).charge = (s.bay b).charge.map (fun c => { c with held := .steady }) ∧
        (t.bay b).powerOrder = none ∧ (t.bay b).lastGood = (s.bay b).lastGood ∧ (t.bay b).policy = (s.bay b).policy ∧
        (t.bay b).ring = (s.bay b).ring.set (s.bay b).head
          (some ⟨(s.bay b).nextSeq, .active (s.bay b).lastGood, s.clock.uptime⟩) ∧
        t.path b = { s.path b with spinTimer := none, ladder := none } ∧
        (∀ n, (s.bay b).powerOrder = some n → (s.slot n).state = .taken →
          Completed t n .ok (s.slot n).tag s.clock.uptime (onDetail (s.path b).ladder)) ∧
        OthersKept (· = b) s t) ∧
  (∀ s (b : Bay), s.mem.wf = true → (s.path b).holdTimer.isSome = true → (s.bay b).state = .stopping →
      (s.bay b).stopPhase = some .hold →
      Answers (.holdEnd b) s fun t =>
        (t.bay b).state = .off ∧ (t.bay b).stopPhase = none ∧ (t.bay b).powerOrder = none ∧
        (t.bay b).ring = (s.bay b).ring ∧ t.path b = { Path.reset with slew := (s.path b).slew } ∧
        (∀ n, (s.bay b).powerOrder = some n → (s.slot n).state = .taken →
          Completed t n .ok (s.slot n).tag s.clock.uptime (offDetail (s.path b).stop)) ∧
        ∀ d, d ≠ b → BaySame s t d) ∧
  (∀ s (b : Bay), (s.path b).spinTimer.isSome = true → (s.bay b).state = .spinning →
      let polls := s.sbe.pollQ ++ [{ bay := b, item := .temp, origin := .poll, slot := none, take := s.clock.tick }]
      Answers (.spinWindowEnd b) s fun t =>
        (pollQueued s b = true → t.sbe = { s.sbe with pollCount := s.sbe.pollCount.set b 0 }) ∧
        (pollQueued s b = false → s.sbe.flight.isSome = true →
          t.sbe = { s.sbe with pollCount := s.sbe.pollCount.set b 1, pollQ := polls }) ∧
        (pollQueued s b = false → s.sbe.flight = none → t.sbe = { s.sbe with
          pollCount := s.sbe.pollCount.set b 1
          flight := nextTxn s.sbe.orderQ polls s.clock.tick
          orderQ := s.sbe.orderQ.tail
          pollQ := if s.sbe.orderQ = [] then polls.tail else polls }))

/-- O36. TRIP_ASSERTED with no ramp window running, or POWER_GOOD_DEASSERTED: a bay in SPINNING or ACTIVE is in
FAULT with cause TRIP or POWER_LOST, without charge or power order, its path idle, and its power order completes
with the result of that name; a bay in STOPPING/STANDBY_WAIT with a stop has no charge and its switch is off, in
STOPPING/HOLD or, with a hold of 0, in OFF; a bay in any other state stays. The power-good input reads low after
its fall. Other bays stay, unless QUEUED and admitted. -/
def Obligations.RunningFaultCutsTheBay : Prop :=
  ∀ s (b : Bay), s.mem.wf = true →
    ∀ c k, (c = .tripAsserted b ∧ k = CutCause.trip ∧ (s.path b).rampTimer = none) ∨
        (c = .powerGoodDeasserted b ∧ k = CutCause.powerLost) →
    Answers c s fun t =>
      (t.pins.powerGood[b] = if k = .powerLost then false else s.pins.powerGood[b]) ∧
      t.pins.presence = s.pins.presence ∧
      ((s.bay b).state = .spinning ∨ (s.bay b).state = .active →
        (t.bay b).state = .fault ∧ (t.bay b).faultCause = some k.fault ∧ (t.bay b).charge = none ∧
        (t.bay b).powerOrder = none ∧ (t.bay b).lastGood = (s.bay b).lastGood ∧
        t.path b = { Path.reset with slew := (s.path b).slew } ∧
        ∀ n, (s.bay b).powerOrder = some n → (s.slot n).state = .taken →
          Completed t n k.result (s.slot n).tag s.clock.uptime (onDetail (s.path b).ladder)) ∧
      (∀ w, (s.bay b).state = .stopping → (s.bay b).stopPhase = some .standbyWait → (s.path b).stop = some w →
        (t.bay b).charge = none ∧ (t.path b).switchOn = false ∧
        (if w.hold = 0 then (t.bay b).state = .off
        else (t.bay b).state = .stopping ∧ (t.bay b).stopPhase = some .hold ∧
          (t.path b).holdTimer = some (1000 * w.hold))) ∧
      ((s.bay b).runs = false → (s.bay b).waits = false → ∀ d, BaySame s t d) ∧
      OthersKept (· = b) s t

/-- O37. SHED_REQUEST of a bay with a request waiting: the oldest request of the bay leaves those waiting; an ACTIVE
bay is in FAULT with cause THERMAL, without charge, its path idle, its ring with a SHED entry of the request's
temperature and then a FAULT entry; in any other state no bay and no path changes. Other bays stay, unless
QUEUED and admitted. -/
def Obligations.ShedTakesAnActiveBayToFault : Prop :=
  ∀ s (b : Bay) q, (s.pseq.sheds.find? fun r => r.bay = b) = some q →
    Answers (.shedRequest b) s fun t =>
      t.pseq.sheds = s.pseq.sheds.erase q ∧
      ((s.bay b).state = .active →
        (t.bay b).state = .fault ∧ (t.bay b).faultCause = some .thermal ∧ (t.bay b).charge = none ∧
        t.path b = { Path.reset with slew := (s.path b).slew } ∧
        (t.bay b).ring = ((s.bay b).ring.set (s.bay b).head
            (some ⟨(s.bay b).nextSeq, .shed q.temp, s.clock.uptime⟩)).set (((s.bay b).head + 1 : Fin 8) : Nat)
            (some ⟨(s.bay b).nextSeq + 1, .fault .thermal, s.clock.uptime⟩)) ∧
      ((s.bay b).state ≠ .active → ∀ d, BaySame s t d) ∧
      OthersKept (· = b) s t

/-- O38. The take of a BAY_POWER_ON naming a bay 0 to 23 and a class: in OFF the slot stays TAKEN, the bay holds it
as its power order and is QUEUED or already starting; in QUEUED, RAMPING, SPINNING and ACTIVE the order
completes ALREADY, in EMPTY and SETTLING BAY_EMPTY, in FAULT BAY_FAULT, in STOPPING BUSY, each without a detail
and with no bay changed. Any other bay or class completes BAD_ARG. Other bays stay, unless QUEUED and admitted. -/
def Obligations.PowerOnOrderIsAnsweredByTheBayState : Prop :=
  ∀ s n, Takes s .bayPowerOn n → Answers .bayPowerOn s fun t =>
    (∀ b : Bay, b.val = (argByte s n 0).toNat → (argByte s n 1).toNat ≤ 1 →
      match (s.bay b).state with
      | .off => (t.slot n).state = .taken ∧ (t.bay b).powerOrder = some n ∧
          ((t.bay b).state = .queued ∨ (t.bay b).state.starting = true) ∧ OthersKept (· = b) s t
      | .queued | .ramping | .spinning | .active => TakeCompleted s t n .already [] ∧ t.bmon = s.bmon ∧ t.pseq = s.pseq
      | .empty | .settling => TakeCompleted s t n .bayEmpty [] ∧ t.bmon = s.bmon ∧ t.pseq = s.pseq
      | .fault => TakeCompleted s t n .bayFault [] ∧ t.bmon = s.bmon ∧ t.pseq = s.pseq
      | .stopping => TakeCompleted s t n .busy [] ∧ t.bmon = s.bmon ∧ t.pseq = s.pseq) ∧
    ((24 ≤ (argByte s n 0).toNat ∨ 2 ≤ (argByte s n 1).toNat) →
      TakeCompleted s t n .badArg [] ∧ t.bmon = s.bmon ∧ t.pseq = s.pseq) ∧
    t.pins = s.pins ∧ t.fanu = s.fanu ∧ t.clock = s.clock

/-- O39. The take of a BAY_POWER_OFF naming a bay 0 to 23 and a mode, with h the hold used: in OFF, EMPTY, SETTLING
and FAULT it completes ALREADY and in STOPPING BUSY, with no bay changed; in QUEUED the bay is OFF with no order
and no entry and the order completes OK; in RAMPING and SPINNING, and in ACTIVE with IMMEDIATE, the charge is
gone and the switch off, and with h of 1 or more the bay is in STOPPING/HOLD for h s with the slot TAKEN as its
order, with h of 0 it is OFF; in ACTIVE with GRACEFUL and room in the order class the bay is in
STOPPING/STANDBY_WAIT with its charge and switch as they were and the slot TAKEN as its order, and with no room
it stops as if at once. Any other bay or mode completes BAD_ARG. The cases where an owner holds the slot being
taken, which no run reaches, are left out. That BAD_ARG writes no byte, with a hold to clamp too, is the model's
reading (notes/assumptions/17.md). -/
def Obligations.PowerOffOrderIsAnsweredByTheBayState : Prop :=
  ∀ s n, Takes s .bayPowerOff n → QueueMatches s →
    let hold := argByte s n 2
    let h := if hold = 255 then 2 else min hold.toNat 10
    let clamped := if 11 ≤ hold.toNat ∧ hold ≠ 255 then absent 5 ++ [10] else []
    Answers .bayPowerOff s fun t =>
    (∀ b : Bay, b.val = (argByte s n 0).toNat → (argByte s n 1).toNat ≤ 1 →
      (s.bay b).powerOrder ≠ some n → (∀ e, entryOf s b = some e → e.slot ≠ some n) →
      let stopped := (t.bay b).charge = none ∧ (t.path b).switchOn = false ∧
        (if h = 0 then (t.bay b).state = .off ∧ (t.bay b).powerOrder = none ∧ (t.slot n).state = .done
        else (t.bay b).state = .stopping ∧ (t.bay b).stopPhase = some .hold ∧ (t.bay b).powerOrder = some n ∧
          (t.path b).holdTimer = some (1000 * h) ∧ (t.slot n).state = .taken) ∧
        OthersKept (· = b) s t
      match (s.bay b).state with
      | .off | .empty | .settling | .fault =>
        TakeCompleted s t n .already clamped ∧ t.bmon = s.bmon ∧ t.pseq = s.pseq
      | .stopping => TakeCompleted s t n .busy clamped ∧ t.bmon = s.bmon ∧ t.pseq = s.pseq
      | .queued => TakeCompleted s t n .ok clamped ∧ (t.bay b).state = .off ∧ (t.bay b).powerOrder = none ∧
          b ∉ queuedBays t.pseq ∧ OthersKept (· = b) s t
      | .ramping | .spinning => stopped
      | .active => if argByte s n 1 = 1 then stopped else
          (s.sbe.orderQ.length < 8 →
            (t.bay b).state = .stopping ∧ (t.bay b).stopPhase = some .standbyWait ∧ (t.bay b).powerOrder = some n ∧
            (t.bay b).charge = (s.bay b).charge ∧ (t.path b).switchOn = (s.path b).switchOn ∧
            (t.slot n).state = .taken ∧ ∀ d, d ≠ b → BaySame s t d) ∧
          (8 ≤ s.sbe.orderQ.length → stopped)) ∧
    ((24 ≤ (argByte s n 0).toNat ∨ 2 ≤ (argByte s n 1).toNat) →
      TakeCompleted s t n .badArg [] ∧ t.bmon = s.bmon ∧ t.pseq = s.pseq) ∧
    t.pins = s.pins ∧ t.fanu = s.fanu ∧ t.clock = s.clock

/-- O40. The take of a BUDGET_SET, with the order's settings clamped as the spec states: where each test of the
sequence passes, the account's settings are the order's, E_fan stays, and the order completes OK with the
settings, and with D, E_fan and the room as they stand before the evaluation the acceptance starts (the model's
choice, notes/assumptions/19.md), which may admit queued bays; where a capacity above 4095, a floor above 4095
or above the capacity, a zero charge or a steady charge above its inrush stands in the order it completes
BAD_ARG with the first setting that fails, and where only the capacity less the floor lies below D, or max
concurrent below the starting count, BUDGET_IN_USE with that setting and the present D or starting count, and
the account and the bays stay. Pins, fans and counters stay. -/
def Obligations.BudgetSetReplacesTheSettingsOrNone : Prop :=
  ∀ s n, Takes s .budgetSet n →
    let v := fun i => (argByte s n i).toNat
    let c : Settings :=
      { capacity := arg16 s n 0, floor := arg16 s n 2, stagger := min (v 4) 100, maxConcurrent := max 1 (min (v 5) 24),
        rotating := ⟨v 6, v 7⟩, solid := ⟨v 8, v 9⟩, rotatingSpin := max 1 (min (v 10) 60),
        solidSpin := max 1 (min (v 11) 60) }
    let sound := c.capacity ≤ 4095 ∧ c.floor ≤ c.capacity ∧ c.rotating.inrush ≠ 0 ∧ c.rotating.steady ≠ 0 ∧
      c.solid.inrush ≠ 0 ∧ c.solid.steady ≠ 0 ∧ c.rotating.ordered ∧ c.solid.ordered
    let free := s.account.drives ≤ c.capacity - c.floor ∧ s.account.starting ≤ c.maxConcurrent
    let setting : Byte := if 4095 < c.capacity then 0 else if 4095 < c.floor ∨ c.capacity < c.floor then 1
      else if c.rotating.inrush = 0 then 4 else if c.rotating.steady = 0 then 5 else if c.solid.inrush = 0 then 6
      else if c.solid.steady = 0 then 7 else if c.rotating.inrush < c.rotating.steady then 5 else 7
    Answers .budgetSet s fun t =>
      (sound → free →
        t.account.settings = c ∧ t.account.fanEstimate = s.account.fanEstimate ∧
        TakeCompleted s t n .ok (encodeSettings c ++ le16 s.account.drives ++ le16 s.account.fanEstimate ++
          le16 (c.capacity - max c.floor s.account.fanEstimate - s.account.drives)) ∧
        OthersKept (fun _ => False) s t) ∧
      (¬ sound → TakeCompleted s t n .badArg (absent 18 ++ [setting, 0xFF]) ∧ t.pseq = s.pseq ∧ t.bmon = s.bmon) ∧
      (sound → ¬ free → TakeCompleted s t n .budgetInUse (absent 18 ++
          (if s.account.drives ≤ c.capacity - c.floor then [3, 0xFF] ++ le16 s.account.starting
          else [0, 0xFF] ++ le16 s.account.drives)) ∧ t.pseq = s.pseq ∧ t.bmon = s.bmon) ∧
      t.pins = s.pins ∧ t.fanu = s.fanu ∧ t.clock = s.clock ∧ t.sbe.interval = s.sbe.interval

/-! ### The sideband -/

/-- O41. POLL_TIMER_EXPIRY: the poll timer restarts with the interval; a bay not in ACTIVE gets no poll; while a
transaction is in flight, an ACTIVE bay with no poll-class entry has its poll count advanced modulo 8 and one
POLL entry queued, HEALTH where the count is now 0 and else TEMP, and an ACTIVE bay with an entry queued is
passed over; the order class and the transaction in flight stay then. Every other block stays. With nothing in
flight and nothing queued, every ACTIVE bay is polled so, in ascending order; the first poll is in flight at
once and the others wait behind it. -/
def Obligations.PollTimerPollsTheActiveBays : Prop :=
  (∀ s, StepNoteEmpty s.exp → Answers .pollTimerExpiry s fun t =>
      t.sbe.pollTimer = some (1000 * s.sbe.interval) ∧ t.sbe.interval = s.sbe.interval ∧
      (∀ b : Bay, (s.bay b).state ≠ .active → t.sbe.pollCount[b] = s.sbe.pollCount[b]) ∧
      (s.sbe.flight.isSome = true → t.sbe.flight = s.sbe.flight ∧ t.sbe.orderQ = s.sbe.orderQ ∧
        ∀ b : Bay, t.sbe.pollQ.filter (fun e => e.bay = b) =
            s.sbe.pollQ.filter (fun e => e.bay = b) ++
              (if (s.bay b).state = .active ∧ pollQueued s b = false then
                [{ bay := b, item := if s.sbe.pollCount[b] + 1 = 0 then .health else .temp, origin := .poll, slot := none,
                   take := s.clock.tick }]
              else []) ∧
          t.sbe.pollCount[b] =
            (if (s.bay b).state = .active ∧ pollQueued s b = false then s.sbe.pollCount[b] + 1 else s.sbe.pollCount[b])) ∧
      t.pins = s.pins ∧ t.bmon = s.bmon ∧ t.pseq = s.pseq ∧ t.thc = s.thc ∧ t.fanu = s.fanu ∧ t.lgt = s.lgt ∧
      t.clock = s.clock ∧ t.mem = s.mem) ∧
  (∀ s : State, StepNoteEmpty s.exp → s.sbe.flight = none → s.sbe.orderQ = [] → s.sbe.pollQ = [] →
      let poll : Bay → SbEntry := fun b => {
        bay := b, item := if s.sbe.pollCount[b] + 1 = 0 then .health else .temp, origin := .poll, slot := none,
        take := s.clock.tick }
      let polls := ((List.finRange 24).filter fun b => (s.bay b).state = .active).map poll
      Answers .pollTimerExpiry s fun t =>
        t.sbe.flight = nextTxn [] polls s.clock.tick ∧ t.sbe.orderQ = [] ∧ t.sbe.pollQ = polls.tail ∧
        ∀ b : Bay, t.sbe.pollCount[b] = if (s.bay b).state = .active then s.sbe.pollCount[b] + 1 else s.sbe.pollCount[b])

/-- O42. A length above 24 is BAD_CHECK whatever follows; else a wrong 8-bit sum of status, length, data and check
is BAD_CHECK; else a status other than READY and DEFER is BAD_CHECK; DEFER passes whatever its length and data;
READY is OK exactly where the length is the item's, and else BAD_CHECK. The judgement is made at the check byte:
bytes that end before it are not judged, and bytes after it do not count (section 4.1, R64). -/
def Obligations.ReplyIsJudgedByThreeTests : Prop :=
  ∀ item status len rest,
    (24 < len.toNat → judgeReply item (status :: len :: rest) = some .badCheck) ∧
    (len.toNat ≤ 24 → rest.length ≤ len.toNat → judgeReply item (status :: len :: rest) = none) ∧
    (len.toNat ≤ 24 → len.toNat + 1 ≤ rest.length →
      judgeReply item (status :: len :: rest) = some
        (if (status :: len :: rest.take (len.toNat + 1)).foldl (· + ·) 0 ≠ 0 then .badCheck
        else if status ≠ 0 ∧ status ≠ 1 then .badCheck
        else if status = 1 then .defer
        else if len.toNat = (match item with
          | .ident => 21
          | .temp => 2
          | .health => 1
          | .standby => 0) then .ok (rest.take len.toNat)
        else .badCheck))

/-- O43. Between steps, with a transaction in an attempt: a reply judged DEFER with the defer count below the item's
limit (20 for STANDBY, 7 otherwise) advances it and begins the spacing; a reply judged BAD_CHECK, or no reply,
with fewer than two failed attempts advances the failed count and the attempt begins again; nothing else
changes. In an attempt the pair carries its item's request code and the select line of its bay alone is
asserted; with no transaction in flight, and during a spacing, the pair is idle and no select line is asserted.
That the request byte stands on the pair for the whole of its attempt is the model's choice
(notes/assumptions/27.md). -/
def Obligations.AttemptThatDoesNotEndTheTransaction : Prop :=
  (∀ s x, StepNoteEmpty s.exp → s.sbe.flight = some x → x.phase = .attempt →
      (∀ bytes, judgeReply x.entry.item bytes = some .defer → x.defers < (if x.entry.item = .standby then 20 else 7) →
        exec (.sidebandReply bytes) s = .next { s with sbe := { s.sbe with
          flight := some { x with defers := x.defers + 1, phase := .spacing } } }) ∧
      ∀ c, x.failed < 2 →
        (c = .sidebandNoReply ∨ ∃ bytes, c = .sidebandReply bytes ∧ judgeReply x.entry.item bytes = some .badCheck) →
        exec c s = .next { s with sbe := { s.sbe with flight := some { x with failed := x.failed + 1 } } }) ∧
  (∀ s,
      (∀ x, s.sbe.flight = some x → x.phase = .attempt →
        requestByte s = some (match x.entry.item with
          | .ident => 0x01
          | .temp => 0x02
          | .health => 0x03
          | .standby => 0x04) ∧
        ∀ b, selectLine s b = decide (b = x.entry.bay)) ∧
      ((∀ x, s.sbe.flight = some x → x.phase = .spacing) → requestByte s = none ∧ ∀ b, selectLine s b = false))

/-- O44. With a transaction in an attempt: a reply judged OK, one judged DEFER at the item's limit, and a BAD_CHECK
or missing reply after two failures end it with OK, DEFERRED_OUT, BAD_CHECK or NO_REPLY. A QUERY's TAKEN slot
completes with that result, the counts and the data. A POLL HEALTH of a bay in ACTIVE with no poll-class entry
is followed by a TEMP entry. The next entry starts: the head of the order class, or else of the poll class; with
none queued nothing is in flight. An IDENT read with OK of a bay not in EMPTY or SETTLING stores identity and
class; a HEALTH read with OK stores the warning; without OK neither changes a bay. A POLL TEMP of an ACTIVE
bay's sensor stores the clamped value and the uptime with OK, and one more failure otherwise; a value at or
above four times a shed temperature other than 0 adds one to the hot count, and the second in a row makes a shed
request and begins the count again, as every other delivery does; for a bay THC does not hold ACTIVE it changes
nothing. A STANDBY's outcome ends the wait of a bay in STOPPING/STANDBY_WAIT: switch off, charge released,
STANDBY_ACK or STANDBY_FAILED and then OFF in the ring, and the hold with the outcome recorded, or OFF for a
hold of 0; in any other state it is discarded. Other bays stay, unless QUEUED and admitted. -/
def Obligations.TransactionEndDeliversItsResult : Prop :=
  ∀ s x, s.mem.wf = true → s.sbe.flight = some x → x.phase = .attempt →
    ∀ c r data failed,
      ((∃ bytes, c = .sidebandReply bytes ∧ judgeReply x.entry.item bytes = some (.ok data)) ∧
          r = .ok ∧ failed = x.failed) ∨
        ((∃ bytes, c = .sidebandReply bytes ∧ judgeReply x.entry.item bytes = some .defer) ∧
          deferLimit x.entry.item ≤ x.defers ∧ r = .deferredOut ∧ data = [] ∧ failed = x.failed) ∨
        ((∃ bytes, c = .sidebandReply bytes ∧ judgeReply x.entry.item bytes = some .badCheck) ∧
          2 ≤ x.failed ∧ r = .badCheck ∧ data = [] ∧ failed = x.failed + 1) ∨
        (c = .sidebandNoReply ∧ 2 ≤ x.failed ∧ r = .noReply ∧ data = [] ∧ failed = x.failed + 1) →
      let b := x.entry.bay
      let polls := s.sbe.pollQ ++
        (if x.entry.origin = .poll ∧ x.entry.item = .health ∧ (s.bay b).state = .active ∧ pollQueued s b = false then
          [{ bay := b, item := .temp, origin := .poll, slot := none, take := s.clock.tick }] else [])
      Answers c s fun t =>
        (∀ n, x.entry.slot = some n → (s.slot n).state = .taken →
          Completed t n r.result (s.slot n).tag s.clock.uptime
            ([byte b.val, x.entry.item.code, byte x.defers, byte failed] ++ le16 x.queueWait ++
              queryData x.entry.item r data)) ∧
        (t.sbe = { s.sbe with
            flight := nextTxn s.sbe.orderQ polls s.clock.tick
            orderQ := s.sbe.orderQ.tail
            pollQ := if s.sbe.orderQ = [] then polls.tail else polls }) ∧
        (∀ w, x.entry.item = .standby → (s.bay b).state = .stopping → (s.bay b).stopPhase = some .standbyWait →
          (s.path b).stop = some w →
          (t.bay b).charge = none ∧ (t.path b).switchOn = false ∧
          (t.bay b).ring = ((s.bay b).ring.set (s.bay b).head (some ⟨(s.bay b).nextSeq,
              (if r = .ok then .standbyAck else .standbyFailed false), s.clock.uptime⟩)).set
            (((s.bay b).head + 1 : Fin 8) : Nat) (some ⟨(s.bay b).nextSeq + 1, .off .graceful, s.clock.uptime⟩) ∧
          (if w.hold = 0 then (t.bay b).state = .off
          else (t.bay b).state = .stopping ∧ (t.bay b).stopPhase = some .hold ∧
            (t.path b).holdTimer = some (1000 * w.hold) ∧
            (t.path b).stop = some { w with
              standby := if r = .ok then .ack else .failed
              txn := some r
              cut := none
              wait := waitTicks w.take s.clock.tick })) ∧
        (x.entry.item = .standby → ((s.bay b).state ≠ .stopping ∨ (s.bay b).stopPhase ≠ some .standbyWait) →
          t.bmon = s.bmon ∧ t.pseq = s.pseq) ∧
        (x.entry.item = .ident ∨ x.entry.item = .health → r ≠ .ok → t.bmon = s.bmon ∧ t.pseq = s.pseq) ∧
        (x.entry.item = .ident → r = .ok → (s.bay b).state ≠ .empty → (s.bay b).state ≠ .settling →
          (t.bay b).identity = some (identityOf data) ∧
          (t.bay b).driveClass = (if data.getD 0 0 = 0 then .rotating else if data.getD 0 0 = 1 then .solid else .unknown) ∧
          (t.bay b).unrecognised = decide (data.getD 0 0 ≠ 0 ∧ data.getD 0 0 ≠ 1) ∧
          (t.bay b).charge = (s.bay b).charge ∧ (t.bay b).state = (s.bay b).state) ∧
        (x.entry.item = .health → r = .ok → (s.bay b).state ≠ .empty → (s.bay b).state ≠ .settling →
          (t.bay b).healthWarn = decide (data.getD 0 0 &&& 3#8 ≠ 0#8) ∧ (t.bay b).state = (s.bay b).state) ∧
        (x.entry.item = .temp → x.entry.origin = .poll → s.thc.facts[b].active = true →
          t.sensor (driveSensor b) = if r = .ok then ⟨some (clampTemp (tempOf data)), 0, some s.clock.uptime⟩
            else { s.sensor (driveSensor b) with fails := min ((s.sensor (driveSensor b)).fails + 1) 255 }) ∧
        (x.entry.item = .temp → x.entry.origin = .poll → s.thc.facts[b].active = true →
          let f := s.thc.facts[b]
          let atShed := r = .ok ∧ f.shedCopy ≠ 0 ∧ (4 * f.shedCopy : Int) ≤ clampTemp (tempOf data)
          (t.thc.facts[b]).hot = (if atShed ∧ f.hot + 1 ≠ 2 then f.hot + 1 else 0) ∧
          t.pseq.sheds = s.pseq.sheds ++ (if atShed ∧ f.hot + 1 = 2 then [⟨b, f.shedCopy⟩] else [])) ∧
        (x.entry.item = .temp → x.entry.origin = .poll → s.thc.facts[b].active = false → t.thc = s.thc ∧ t.pseq = s.pseq) ∧
        (x.entry.item = .temp → x.entry.origin = .query → t.bmon = s.bmon ∧ t.thc = s.thc) ∧
        OthersKept (· = b) s t

/-- O45. The take of a SIDEBAND_QUERY: with bay 255 the interval is the order's clamped to 1 to 60, the poll timer
restarts with it and the order completes OK; with another bay above 23, or an item other than IDENT, TEMP and
HEALTH, it completes BAD_ARG; for a bay in EMPTY or SETTLING BAY_EMPTY; with 8 entries in the order class
QUEUE_FULL; else the slot stays TAKEN and its entry is the last of the order class, or in flight where nothing
was. Bays, power, sensors, fans and lights stay. The place of the interval in the detail, and that an item code
no table lists is shown absent there, are the model's reading (notes/assumptions/17.md). -/
def Obligations.QueryOrderJoinsOrIsAnswered : Prop :=
  ∀ s n, Takes s .sidebandQuery n →
    let i := (argByte s n 2).toNat
    let code := (argByte s n 1).toNat
    let interval := if i = 0 then 1 else min i 60
    Answers .sidebandQuery s fun t =>
    (argByte s n 0 = 255 → t.sbe = { s.sbe with interval := interval, pollTimer := some (1000 * interval) } ∧
      TakeCompleted s t n .ok ([255, if 1 ≤ code ∧ code ≤ 4 then argByte s n 1 else 0xFF] ++ absent 30 ++ [byte interval])) ∧
    (argByte s n 0 ≠ 255 → 24 ≤ (argByte s n 0).toNat ∨ code = 0 ∨ 4 ≤ code →
      t.sbe = s.sbe ∧ TakeCompleted s t n .badArg []) ∧
    (∀ b : Bay, b.val = (argByte s n 0).toNat → 1 ≤ code → code ≤ 3 →
      ((s.bay b).state = .empty ∨ (s.bay b).state = .settling →
        t.sbe = s.sbe ∧ TakeCompleted s t n .bayEmpty []) ∧
      ((s.bay b).state ≠ .empty → (s.bay b).state ≠ .settling → 8 ≤ s.sbe.orderQ.length →
        t.sbe = s.sbe ∧ TakeCompleted s t n .queueFull []) ∧
      ((s.bay b).state ≠ .empty → (s.bay b).state ≠ .settling → s.sbe.orderQ.length < 8 →
        (t.slot n).state = .taken ∧ ∃ e : SbEntry,
          e.bay = b ∧ e.origin = .query ∧ e.slot = some n ∧ e.take = s.clock.tick ∧ e.item.code = argByte s n 1 ∧
          (s.sbe.flight.isSome = true → t.sbe = { s.sbe with orderQ := s.sbe.orderQ ++ [e] }) ∧
          (s.sbe.flight = none → s.sbe.orderQ = [] → t.sbe = { s.sbe with flight := some (beginTxn e s.clock.tick) }))) ∧
    t.pins = s.pins ∧ t.bmon = s.bmon ∧ t.pseq = s.pseq ∧ t.thc = s.thc ∧ t.fanu = s.fanu ∧ t.lgt = s.lgt ∧
    t.clock = s.clock

/-! ### Sensors and zones -/

/-- O46. After ZONE_PERIOD_START, for a zone out of failsafe under the working copy then in force: the stored excess
lies in -1 to 1023, is at least every member's contribution clamped to 1023, and is -1 or a member's
contribution clamped to 1023; so it is -1 where no member contributes or all contribute less than 0. A VALID
member contributes its value less 4 T0, a STALE one its stale margin more, a LOST one 1023, an ABSENT one
nothing. The sensors are read as they stand at the computation: a drive sensor as before the command, for
nothing earlier in the period changes one, and a board sensor as after it, with the fitted flags of a map put in
place. The state of a sensor (sections 5.2 and 5.3): a drive sensor of a bay not ACTIVE, and a board sensor not
fitted, is ABSENT; one with a value is VALID up to 2 failures (3 for a board sensor), STALE up to 9 (39) and
then LOST; one with none is ABSENT up to 2 (3) and then LOST. -/
def Obligations.ExcessIsTheLargestContribution : Prop :=
  (∀ s, Answers .zonePeriodStart s fun t =>
    ∀ (w : Vector CurveRec 4) (z : ZoneId), t.thc.working = some w → (t.zone z).failsafe = false →
      let seen := fun i : SensorId => if i.val < 24 then s.thc else t.thc
      let member := fun i : SensorId => (t.zone z).sensors.getLsbD i.val = true
      let part : SensorId → Option Int := fun i => match sensorState (seen i) i, ((seen i).sensors[i]).value with
        | .valid, some v => some (v - 4 * w[z].t0)
        | .stale, some v => some (v + w[z].staleMargin - 4 * w[z].t0)
        | .lost, _ => some 1023
        | _, _ => none
      let e := (t.zone z).excess
      e ≤ 1023 ∧ -1 ≤ e ∧
      (∀ i v, member i → part i = some v → min v 1023 ≤ e) ∧
      (e = -1 ∨ ∃ i v, member i ∧ part i = some v ∧ e = min v 1023)) ∧
  (∀ (x : Thc) (i : SensorId),
    (∀ b : Bay, b.val = i.val → sensorState x i =
      if x.facts[b].active = false then .absent
      else if (x.sensors[i]).value.isSome = true then
        if (x.sensors[i]).fails ≤ 2 then .valid else if (x.sensors[i]).fails ≤ 9 then .stale else .lost
      else if (x.sensors[i]).fails ≤ 2 then .absent else .lost) ∧
    (∀ k : Fin 8, 24 + k.val = i.val → sensorState x i =
      if x.fitted[k] = false then .absent
      else if (x.sensors[i]).value.isSome = true then
        if (x.sensors[i]).fails ≤ 3 then .valid else if (x.sensors[i]).fails ≤ 39 then .stale else .lost
      else if (x.sensors[i]).fails ≤ 3 then .absent else .lost))

/-- O47. After ZONE_PERIOD_START, for a zone out of failsafe under the working copy then in force: at excess -1 the
demand d1 is the floor and the clamped flag is clear; else, with the last segment whose start offset is at or
below the excess, the product of the offset in it and its slope is shifted with rounding (an exact half up), the
base is added, and d1 is the sum clamped to floor to ceiling, with the flag set exactly where the clamp changed
it. -/
def Obligations.SegmentAndLineGiveTheDemand : Prop :=
  ∀ s, Answers .zonePeriodStart s fun t =>
    ∀ (w : Vector CurveRec 4) (z : ZoneId), t.thc.working = some w → (t.zone z).failsafe = false →
      let e := (t.zone z).excess
      (e = -1 → (t.zone z).d1 = w[z].floor ∧ (t.zone z).clamped = false) ∧
      (∀ i : Fin 4, e ≠ -1 → (w[z].segs[i].offset : Int) ≤ e →
        (∀ k : Fin 4, i < k → e < (w[z].segs[k].offset : Int)) →
        let g := w[z].segs[i]
        let p := (e - g.offset) * g.slope
        let r := if g.shift = 0 then p else if (2 : Int) ^ (g.shift - 1) ≤ p % 2 ^ g.shift then p / 2 ^ g.shift + 1
          else p / 2 ^ g.shift
        ((t.zone z).d1 : Int) = max (w[z].floor : Int) (min (w[z].ceiling : Int) (g.base + r)) ∧
        (t.zone z).clamped = decide (((t.zone z).d1 : Int) ≠ g.base + r))

/-- O48. After ZONE_PERIOD_START, for a zone out of failsafe under the working copy then in force: d2 is d1 plus the
failed-fan count times the boost, at most 1023; d3 is the larger of d2 and the preload while the preload-active
flag, figured for a map put in place at this start, is set and else d2; the output is d3 limited to a rise and a
fall from the zone's previous output, whatever map, select or end of failsafe came with the period, so it lies
between the previous output and d3. -/
def Obligations.BoostPreloadAndSlewGiveTheOutput : Prop :=
  ∀ s, Answers .zonePeriodStart s fun t =>
    ∀ (w : Vector CurveRec 4) (z : ZoneId), t.thc.working = some w → (t.zone z).failsafe = false →
      let d1 := (t.zone z).d1
      let d2 := (t.zone z).d2
      let d3 := (t.zone z).d3
      let prev := (s.zone z).output
      let out := (t.zone z).output
      let failed : Nat := match s.thc.pendingMap with
        | none => (s.zone z).failedCount
        | some p => (List.finRange 8).countP fun f => s.thc.failedFans[f] && decide (p.fanZone[f] = z)
      let preload : Bool := match s.thc.pendingMap with
        | none => (s.zone z).preloadActive
        | some p => (List.finRange 24).any fun b => s.thc.facts[b].starting && p.sensors[z].getLsbD b.val
      d2 = min 1023 (d1 + failed * w[z].boost) ∧
      (failed = 0 → d1 ≤ 1023 → d2 = d1) ∧
      d3 = (if preload = true then max d2 w[z].preload else d2) ∧
      (w[z].rise + prev < d3 → out = prev + w[z].rise) ∧
      (d3 + w[z].fall < prev → out = prev - w[z].fall) ∧
      (d3 ≤ w[z].rise + prev → prev ≤ d3 + w[z].fall → out = d3) ∧
      min prev d3 ≤ out ∧ out ≤ max prev d3 ∧ out ≤ prev + w[z].rise ∧ prev ≤ out + w[z].fall

/-- O49. At ZONE_PERIOD_START: the period timer restarts; without a working copy and without a pending select every
zone has excess -1, d1, d2, d3 and output 1023 and the clamped flag clear; FANU then stores every zone's output
and d3 and every fan's zone; a pending map with a TAKEN slot is in force, its order OK and nothing pending; a
pending select is no longer pending. Every STOPPED or RUNNING fan runs at the larger of its zone's output and
its learned min, or stops at output 0; STALLED, FAILED and ABSENT fans keep their record; a learn in a zone
whose d3 is 896 or more ends with the learned min kept, and any other goes on. Other blocks: pins and counters
stay, and bays stay unless QUEUED and admitted. At ZONE_PERIOD_START with a select pending and no map: where the
named bank's four records, as they stand in the exchange memory, pass every test, they are the working copy, the
bank is the working bank, no zone is in failsafe, and the order's TAKEN slot completes OK with the bank and
whether failsafe ended; where one fails, the working copy and bank and every failsafe flag stay and the order
completes BAD_CURVE. The tests of a record are those of R110 in its order, and the first that fails names its
field and segment. The fans' charge estimate, the sum over the fans of max units times duty over 1024, each
rounded up, is then the account's E_fan; where it falls an admission evaluation is made, after which no
candidate fits, and where it does not no bay is admitted. -/
def Obligations.PeriodPutsOrdersInPlaceAndDrivesTheFans : Prop :=
  (∀ s, s.mem.wf = true → Answers .zonePeriodStart s fun t =>
      t.thc.periodTimer = some 1000 ∧
      (s.thc.working = none → s.thc.pendingSelect = none → ∀ z,
        (t.zone z).excess = -1 ∧ (t.zone z).d1 = 1023 ∧ (t.zone z).d2 = 1023 ∧ (t.zone z).d3 = 1023 ∧
        (t.zone z).output = 1023 ∧ (t.zone z).clamped = false) ∧
      (∀ z : ZoneId, t.fanu.output[z] = (t.zone z).output ∧ t.fanu.d3[z] = (t.zone z).d3) ∧
      t.fanu.member = t.thc.fanZone ∧ t.thc.pendingMap = none ∧ t.thc.pendingSelect = none ∧
      (s.thc.pendingMap = none → t.thc.fanZone = s.thc.fanZone ∧ t.thc.fitted = s.thc.fitted) ∧
      (∀ p, s.thc.pendingMap = some p →
        t.thc.fanZone = p.fanZone ∧ (∀ z, (t.zone z).sensors = p.sensors[z]) ∧
        (∀ k : Fin 8, t.thc.fitted[k] = p.fitted.getLsbD k.val) ∧
        ∀ n, p.slot = some n → (s.slot n).state = .taken → Completed t n .ok (s.slot n).tag s.clock.uptime []) ∧
      (∀ f, (s.fan f).state = .stopped ∨ (s.fan f).state = .running →
        (t.fan f).state = (if (t.zone t.thc.fanZone[f]).output = 0 then .stopped else .running) ∧
        (t.fan f).duty = (if (t.zone t.thc.fanZone[f]).output = 0 then 0
          else max (t.zone t.thc.fanZone[f]).output (s.fan f).learnedMin)) ∧
      (∀ f, (s.fan f).state = .stalled ∨ (s.fan f).state = .failed ∨ (s.fan f).state = .absent → t.fan f = s.fan f) ∧
      (∀ f l, (s.fan f).state = .learning → (s.fanWork f).learn = some l →
        (896 ≤ (t.zone t.thc.fanZone[f]).d3 → (t.fanWork f).learn = none ∧ (t.fan f).learnedMin = (s.fan f).learnedMin ∧
          (t.fan f).state = (if (t.zone t.thc.fanZone[f]).output = 0 then .stopped else .running)) ∧
        ((t.zone t.thc.fanZone[f]).d3 < 896 → t.fan f = s.fan f ∧ t.fanWork f = s.fanWork f)) ∧
      OthersKept (fun _ => False) s t ∧ t.pins = s.pins ∧ t.clock = s.clock) ∧
  (∀ s (p : PendingSelect), s.mem.wf = true → s.thc.pendingMap = none → s.thc.pendingSelect = some p →
      let w : Vector CurveRec 4 := Vector.ofFn fun z => readCurve s.mem p.bank z
      Answers .zonePeriodStart s fun t =>
        ((∀ z : ZoneId, curveFault w[z] = none) →
          t.thc.working = some w ∧ t.thc.bank = some p.bank ∧ (∀ z, (t.zone z).failsafe = false) ∧
          ∀ n, p.slot = some n → (s.slot n).state = .taken →
            Completed t n .ok (s.slot n).tag s.clock.uptime
              [p.bank.code, if ∃ z, (s.zone z).failsafe = true then 1 else 0]) ∧
        (∀ z : ZoneId, ∀ x, curveFault w[z] = some x → (∀ y : ZoneId, y < z → curveFault w[y] = none) →
          t.thc.working = s.thc.working ∧ t.thc.bank = s.thc.bank ∧
          (∀ y, (t.zone y).failsafe = (s.zone y).failsafe) ∧
          ∀ n, p.slot = some n → (s.slot n).state = .taken →
            Completed t n .badCurve (s.slot n).tag s.clock.uptime [p.bank.code, 0, byte z.val, x.field, x.segment])) ∧
  (∀ c : CurveRec,
      let o := fun i : Fin 4 => c.segs[i].offset
      let base := (List.finRange 4).find? fun i => decide (1023 < c.segs[i].base)
      let shift := (List.finRange 4).find? fun i => decide (15 < c.segs[i].shift)
      curveFault c =
        if o 0 ≠ 0 then some ⟨0, 0⟩ else if o 1 ≤ o 0 then some ⟨0, 1⟩ else if o 2 ≤ o 1 then some ⟨0, 2⟩
        else if o 3 ≤ o 2 then some ⟨0, 3⟩ else if 1023 < o 3 then some ⟨0, 3⟩
        else match base, shift with
          | some i, _ => some ⟨1, byte i.val⟩
          | none, some i => some ⟨2, byte i.val⟩
          | none, none =>
            if c.ceiling < c.floor then some ⟨3, 0xFF⟩ else if 1023 < c.ceiling then some ⟨4, 0xFF⟩
            else if 1023 < c.preload then some ⟨5, 0xFF⟩ else if 1023 < c.boost then some ⟨6, 0xFF⟩
            else if c.rise = 0 ∨ 1023 < c.rise then some ⟨7, 0xFF⟩ else if c.fall = 0 ∨ 1023 < c.fall then some ⟨8, 0xFF⟩
            else none) ∧
  (∀ s, Answers .zonePeriodStart s fun t =>
      t.account.fanEstimate = ((List.finRange 8).map fun f => ((t.fan f).maxUnits * (t.fan f).duty + 1023) / 1024).sum ∧
      (t.account.fanEstimate < s.account.fanEstimate → ∀ e, candidate t.pseq = some e → fits t e.bay = false) ∧
      (s.account.fanEstimate ≤ t.account.fanEstimate → ∀ b, BaySame s t b))

/-- O50. The take of a ZONE_MAP whose zone numbers are all at most 3, and of a CURVE_SELECT of bank A or B: the
order is pending with its slot TAKEN, and an older pending order's TAKEN slot, another than its own, completes
SUPERSEDED. A ZONE_MAP with a zone number above 3 completes BAD_ARG naming the first such fan, a CURVE_SELECT of
any other bank BAD_ARG, and the pending order stays. That SUPERSEDED has no detail is the model's reading
(notes/assumptions/17.md). The zones, the sensors, the working copy and every other block stay. -/
def Obligations.MapAndSelectBecomePending : Prop :=
  (∀ s n, Takes s .zoneMap n →
      let map : PendingMap :=
        { fanZone := Vector.ofFn fun f => Fin.ofNat 4 (argByte s n f.val).toNat
          sensors := Vector.ofFn fun z => BitVec.ofNat 32 (s.mem.read32 (argBase n + 8 + 4 * z.val))
          fitted := argByte s n 24
          slot := some n }
      Answers .zoneMap s fun t =>
      ((∀ f : FanId, (argByte s n f.val).toNat ≤ 3) →
        (∀ o p, s.thc.pendingMap = some p → p.slot = some o → o ≠ n → (s.slot o).state = .taken →
          Completed t o .superseded (s.slot o).tag s.clock.uptime []) ∧
        (pendingMapSlot s.thc ≠ some n → (t.slot n).state = .taken) ∧
        t.thc = { s.thc with pendingMap := some map }) ∧
      (∀ f : FanId, 3 < (argByte s n f.val).toNat → (∀ g, g < f → (argByte s n g.val).toNat ≤ 3) →
        TakeCompleted s t n .badArg [byte f.val] ∧ t.thc = s.thc) ∧
      t.pins = s.pins ∧ t.bmon = s.bmon ∧ t.pseq = s.pseq ∧ t.sbe = s.sbe ∧ t.fanu = s.fanu ∧ t.lgt = s.lgt ∧
      t.clock = s.clock) ∧
    ∀ s n, Takes s .curveSelect n → Answers .curveSelect s fun t =>
      ((argByte s n 0).toNat ≤ 1 →
        (∀ o p, s.thc.pendingSelect = some p → p.slot = some o → o ≠ n → (s.slot o).state = .taken →
          Completed t o .superseded (s.slot o).tag s.clock.uptime []) ∧
        (pendingSelectSlot s.thc ≠ some n → (t.slot n).state = .taken) ∧
        t.thc = { s.thc with pendingSelect := some ⟨if argByte s n 0 = 0 then .a else .b, some n⟩ }) ∧
      (2 ≤ (argByte s n 0).toNat → TakeCompleted s t n .badArg [] ∧ t.thc = s.thc) ∧
      t.pins = s.pins ∧ t.bmon = s.bmon ∧ t.pseq = s.pseq ∧ t.sbe = s.sbe ∧ t.fanu = s.fanu ∧ t.lgt = s.lgt ∧
      t.clock = s.clock

/-! ### Fans -/

/-- O51. TACH_GATE_EXPIRY: the gate timer restarts; each fan's last count is the edges counted, its saturated flag
is set exactly at 4095, its RPM is the count times 60 over its ppr, rounded down, and its count begins again at
0. Zone figures, pins and counters stay; bays stay unless QUEUED and admitted. At TACH_GATE_EXPIRY, with RPM the
gate's reading: a RUNNING fan at or above its learned min below its threshold has one low gate more, and at the
third it is STALLED at duty 1023 with no kicks; at or above the threshold its low gates are 0. A STALLED fan at
the second gate of a kick comes back to its zone's output where it turns, has one kick more below two, and else
is FAILED at duty 1023 with kick count 3 and in the failed set. A FAILED fan that turns for the fifth gate in a
row comes back with no kicks and leaves the failed set. A LEARNING fan: the first three gates at a level settle;
a later one is a reading, and two in a row that differ by no more than a sixteenth of the larger complete the
level. A level completed at or above the threshold leads to the next enabled level below, or, at the lowest,
ends the learn OK with its duty as learned min; one below it ends the learn OK with the level before as learned
min, or NO_SPIN, FAILED, where none was completed before; five readings with no agreement end it UNSTEADY with
the lowest level completed, if any. An end commits table, mask and full speed, returns the fan to its zone but
for NO_SPIN, and completes the order's TAKEN slot with its detail (no other learn holding the slot). An E_fan
that agreed with the fans' duties agrees with them after. -/
def Obligations.GateMeasuresAndJudgesEveryFan : Prop :=
  (∀ s, Answers .tachGateExpiry s fun t =>
      t.fanu.gateTimer = some 1000 ∧
      (∀ f, (t.fan f).lastCount = (s.fanWork f).edges ∧ (t.fan f).saturated = decide ((s.fanWork f).edges = 4095) ∧
        (t.fan f).rpm = (s.fanWork f).edges * 60 / (s.fan f).ppr ∧ (t.fanWork f).edges = 0) ∧
      (∀ z, (t.zone z).output = (s.zone z).output ∧ (t.zone z).d3 = (s.zone z).d3) ∧
      OthersKept (fun _ => False) s t ∧ t.pins = s.pins ∧ t.clock = s.clock) ∧
  (∀ s f, Answers .tachGateExpiry s fun t =>
      let rpm := (s.fanWork f).edges * 60 / (s.fan f).ppr
      let low := rpm < (s.fan f).threshold
      let out := s.fanu.output[s.fanu.member[f]]
      let back := (t.fan f).state = (if out = 0 then .stopped else .running) ∧
        (t.fan f).duty = (if out = 0 then 0 else max out (s.fan f).learnedMin)
      ((s.fan f).state = .running → (s.fan f).learnedMin ≤ (s.fan f).duty →
        (low → (s.fanWork f).lowGates < 2 → (t.fan f).state = .running ∧ (t.fan f).duty = (s.fan f).duty ∧
          (t.fanWork f).lowGates = (s.fanWork f).lowGates + 1) ∧
        (low → 2 ≤ (s.fanWork f).lowGates → (t.fan f).state = .stalled ∧ (t.fan f).duty = 1023 ∧ (t.fan f).kicks = 0 ∧
          (t.fanWork f).kickGates = 0) ∧
        (¬ low → (t.fan f).state = .running ∧ (t.fanWork f).lowGates = 0)) ∧
      ((s.fan f).state = .stalled → (s.fanWork f).kickGates = 0 → (t.fan f).state = .stalled ∧ (t.fanWork f).kickGates = 1) ∧
      ((s.fan f).state = .stalled → 1 ≤ (s.fanWork f).kickGates →
        (¬ low → back ∧ (t.fan f).kicks = (s.fan f).kicks) ∧
        (low → (s.fan f).kicks < 2 → (t.fan f).state = .stalled ∧ (t.fan f).kicks = (s.fan f).kicks + 1 ∧
          (t.fanWork f).kickGates = 0) ∧
        (low → 2 ≤ (s.fan f).kicks → (t.fan f).state = .failed ∧ (t.fan f).duty = 1023 ∧ (t.fan f).kicks = 3 ∧
          t.thc.failedFans[f] = true)) ∧
      ((s.fan f).state = .failed →
        (low → (t.fan f).state = .failed ∧ (t.fanWork f).goodGates = 0) ∧
        (¬ low → (s.fanWork f).goodGates < 4 → (t.fan f).state = .failed ∧
          (t.fanWork f).goodGates = (s.fanWork f).goodGates + 1) ∧
        (¬ low → 4 ≤ (s.fanWork f).goodGates → back ∧ (t.fan f).kicks = 0 ∧ t.thc.failedFans[f] = false)) ∧
      ((s.fan f).state = .stopped ∨ (s.fan f).state = .absent →
        (t.fan f).state = (s.fan f).state ∧ (t.fan f).duty = (s.fan f).duty)) ∧
  (∀ s f l, s.mem.wf = true → (s.fan f).state = .learning → (s.fanWork f).learn = some l →
      (∀ g y n, (s.fanWork g).learn = some y → y.slot = some n → l.slot = some n → g = f) →
      Answers .tachGateExpiry s fun t =>
        let rpm := (s.fanWork f).edges * 60 / (s.fan f).ppr
        let g := { l with gates := min (l.gates + 1) 65535 }
        let read := { g with readings := l.readings + 1, last := rpm }
        let agrees := 1 ≤ l.readings ∧ (l.last - rpm + (rpm - l.last)) * 16 ≤ max l.last rpm
        let done := { read with list := l.list ++ [(l.level, rpm)] }
        let stays := (t.fan f).state = .learning ∧ (t.fan f).duty = (s.fan f).duty ∧
          (t.fan f).learnedMin = (s.fan f).learnedMin ∧ (t.fan f).table = (s.fan f).table
        let ends := fun (y : Learn) (r : Result) (min' : Nat) =>
          let speed := match y.list.find? fun p => p.1 = 7 with
            | some p => some p.2
            | none => (s.fan f).fullSpeed
          (t.fanWork f).learn = none ∧ (t.fan f).learnedMin = min' ∧ (t.fan f).table = y.list ∧
          (t.fan f).learnMask = l.mask ∧ (t.fan f).fullSpeed = speed ∧
          ∀ n, l.slot = some n → (s.slot n).state = .taken → Completed t n r (s.slot n).tag s.clock.uptime
            ([byte f.val, l.mask, byte y.list.length, byte y.readings, byte l.level.val, 0xFF] ++ le16 l.minBefore ++
              le16 min' ++ (match speed with
                | none => absent 4
                | some v => le32 v) ++ le16 y.gates ++ y.list.flatMap fun p => byte p.1.val :: le16 (p.2 / 5))
        let out := s.fanu.output[s.fanu.member[f]]
        let back := (t.fan f).state = (if out = 0 then .stopped else .running) ∧
          (t.fan f).duty = (if out = 0 then 0 else max out (t.fan f).learnedMin) ∧ (out ≠ 0 → (t.fanWork f).lowGates = 0)
        let duty := fun n : Fin 8 => if n = 7 then 1023 else 128 * (n.val + 1)
        let below := (List.finRange 8).reverse.find? fun n => decide (n < l.level) && l.mask.getLsbD n.val
        if l.settled < 3 then stays ∧ (t.fanWork f).learn = some { g with settled := l.settled + 1 }
        else if agrees then
          if (s.fan f).threshold ≤ rpm then
            match below with
            | some n => (t.fan f).state = .learning ∧ (t.fan f).duty = duty n ∧
                (t.fan f).learnedMin = (s.fan f).learnedMin ∧
                (t.fanWork f).learn = some { done with level := n, settled := 0, readings := 0 }
            | none => ends done .ok (duty l.level) ∧ back
          else
            match l.list.getLast? with
            | some p => ends done .ok (duty p.1) ∧ back
            | none => ends done .noSpin (s.fan f).learnedMin ∧ (t.fan f).state = .failed ∧ (t.fan f).duty = 1023 ∧
                t.thc.failedFans[f] = true
        else if 5 ≤ l.readings + 1 then
          ends read .unsteady (match l.list.getLast? with
            | some p => duty p.1
            | none => (s.fan f).learnedMin) ∧ back
        else stays ∧ (t.fanWork f).learn = some read) ∧
  (∀ s, let units := fun x : State =>
        ((List.finRange 8).map fun f => ((x.fan f).maxUnits * (x.fan f).duty + 1023) / 1024).sum
      Answers .tachGateExpiry s fun t => s.account.fanEstimate = units s → t.account.fanEstimate = units t)

/-- O52. The take of a FAN_CONFIG of a fan 0 to 7 not in LEARNING with a ppr of 1 to 4: installed, ppr, max units
and threshold are the order's, the learned min too unless above 1023, and the order completes OK; with installed
clear the fan is ABSENT at duty 0; with installed set a RUNNING fan is RUNNING at no less than its learned min,
a STOPPED one STOPPED, and any other follows its zone's stored output with no kicks. A fan in LEARNING completes
BUSY, a ppr out of range or a fan above 7 BAD_ARG, and no fan changes. Other fans stay; bays stay unless QUEUED
and admitted. An accepted order delivers the fans' charge estimate: E_fan is then the sum over the fans of max
units times duty over 1024, each rounded up, and an admission evaluation follows where it falls. That BAD_ARG
writes the failing field alone, and BUSY nothing, is the model's reading (notes/assumptions/17.md). -/
def Obligations.FanConfigStoresItsValues : Prop :=
  (∀ s n, Takes s .fanConfig n →
      let ppr := (argByte s n 2).toNat
      let m := arg16 s n 6
      Answers .fanConfig s fun t =>
      (∀ f : FanId, f.val = (argByte s n 0).toNat → 1 ≤ ppr → ppr ≤ 4 → (s.fan f).state ≠ .learning →
        let learned := if 1023 < m then (s.fan f).learnedMin else m
        let on := (argByte s n 1).getLsbD 0
        let out := s.fanu.output[s.fanu.member[f]]
        (t.slot n).state = .done ∧ (t.mem.readBytes (resultBase n) 1) = [Result.ok.code] ∧
        (t.fan f).installed = on ∧ (t.fan f).ppr = ppr ∧ (t.fan f).maxUnits = (argByte s n 3).toNat ∧
        (t.fan f).threshold = arg16 s n 4 ∧ (t.fan f).learnedMin = learned ∧
        (on = false → (t.fan f).state = .absent ∧ (t.fan f).duty = 0) ∧
        (on = true → (s.fan f).state = .running →
          (t.fan f).state = .running ∧ (t.fan f).duty = max (s.fan f).duty learned ∧ (t.fanWork f).lowGates = 0) ∧
        (on = true → (s.fan f).state = .stopped → (t.fan f).state = .stopped ∧ (t.fan f).duty = (s.fan f).duty) ∧
        (on = true → (s.fan f).state = .absent ∨ (s.fan f).state = .stalled ∨ (s.fan f).state = .failed →
          (t.fan f).state = (if out = 0 then .stopped else .running) ∧
          (t.fan f).duty = (if out = 0 then 0 else max out learned) ∧ (t.fan f).kicks = 0)) ∧
      (∀ f : FanId, f.val = (argByte s n 0).toNat → 1 ≤ ppr → ppr ≤ 4 → (s.fan f).state = .learning →
        TakeCompleted s t n .busy [] ∧ t.fanu = s.fanu) ∧
      (∀ f : FanId, f.val = (argByte s n 0).toNat → ppr = 0 ∨ 5 ≤ ppr →
        TakeCompleted s t n .badArg (absent 10 ++ [1]) ∧ t.fanu = s.fanu) ∧
      (8 ≤ (argByte s n 0).toNat → TakeCompleted s t n .badArg (absent 10 ++ [0]) ∧ t.fanu = s.fanu) ∧
      (∀ f : FanId, f.val ≠ (argByte s n 0).toNat → t.fan f = s.fan f) ∧
      OthersKept (fun _ => False) s t ∧ t.pins = s.pins ∧ t.clock = s.clock) ∧
  (∀ s n, Takes s .fanConfig n → Answers .fanConfig s fun t =>
      ∀ f : FanId, f.val = (argByte s n 0).toNat → 1 ≤ (argByte s n 2).toNat → (argByte s n 2).toNat ≤ 4 →
        (s.fan f).state ≠ .learning →
        t.account.fanEstimate = ((List.finRange 8).map fun g => ((t.fan g).maxUnits * (t.fan g).duty + 1023) / 1024).sum ∧
        (t.account.fanEstimate < s.account.fanEstimate → ∀ e, candidate t.pseq = some e → fits t e.bay = false) ∧
        (s.account.fanEstimate ≤ t.account.fanEstimate → ∀ b, BaySame s t b))

/-- O53. The take of a FAN_LEARN: of a fan 0 to 7, installed, not in LEARNING, in a zone whose last d3 lies below
896, with a mask other than 0: the slot stays TAKEN and the fan is LEARNING at the duty of the mask's highest
level. A mask of 0, an ABSENT fan and a fan above 7 complete BAD_ARG, a fan in LEARNING BUSY, and a hot zone
ABORTED_HOT, and no fan changes. Other fans stay; bays stay unless QUEUED and admitted. The details of the
refusals, three bytes only for a fan above 7 and bytes 3 to 5 absent otherwise, are the model's reading
(notes/assumptions/17.md). -/
def Obligations.FanLearnStartsOrIsRefused : Prop :=
  ∀ s n, Takes s .fanLearn n →
    let mask := argByte s n 1
    Answers .fanLearn s fun t =>
    (∀ f : FanId, f.val = (argByte s n 0).toNat →
      let hot := 896 ≤ s.fanu.d3[s.fanu.member[f]]
      let st := (s.fan f).state
      let detail := [byte f.val, mask, 0] ++ absent 3 ++ le16 (s.fan f).learnedMin ++ le16 (s.fan f).learnedMin
      (∀ l : Fin 8, mask.getLsbD l.val = true → (∀ k : Fin 8, l < k → mask.getLsbD k.val = false) →
        st ≠ .absent → st ≠ .learning → ¬ hot →
        (t.slot n).state = .taken ∧ (t.fan f).state = .learning ∧
        (t.fan f).duty = (if l = 7 then 1023 else 128 * (l.val + 1)) ∧
        (t.fan f).learnedMin = (s.fan f).learnedMin ∧ (t.fan f).kicks = (if st = .stalled then 0 else (s.fan f).kicks) ∧
        ∃ x, (t.fanWork f).learn = some x ∧ x.slot = some n ∧ x.mask = mask ∧ x.level = l ∧ x.list = []) ∧
      (mask = 0 ∨ st = .absent → TakeCompleted s t n .badArg detail ∧ t.fanu = s.fanu) ∧
      (mask ≠ 0 → st = .learning → TakeCompleted s t n .busy detail ∧ t.fanu = s.fanu) ∧
      (mask ≠ 0 → st ≠ .absent → st ≠ .learning → hot → TakeCompleted s t n .abortedHot detail ∧ t.fanu = s.fanu)) ∧
    (8 ≤ (argByte s n 0).toNat → TakeCompleted s t n .badArg [argByte s n 0, mask, 0] ∧ t.fanu = s.fanu) ∧
    (∀ f : FanId, f.val ≠ (argByte s n 0).toNat → t.fan f = s.fan f) ∧
    OthersKept (fun _ => False) s t ∧ t.pins = s.pins ∧ t.clock = s.clock

/-! ### Lights -/

/-- O54. ACTIVITY_EDGE of a bay: a channel of the bay with an activity pattern, its gate OPEN and not in its last
opening is in DIP with gate count 0, its envelope in RELEASE or at rest at 0; with an off time of 0 its gate
stays OPEN with count 0 and ATTACK begins again from the present level; its openings stay. That no RELEASE comes
before that ATTACK for a release code of 0 either is the model's reading (notes/assumptions/32.md). Every other
channel, and every other block, stays. ATTACK begins so: the channel is in ATTACK, its level unmoved, unless the
attack code is 0 or the level is the peak's; then the level is the peak's and DECAY begins, unless the decay
code is 0 or peak and sustain agree; then the level is the sustain's, in SUSTAIN. -/
def Obligations.ActivityEdgeDipsTheGate : Prop :=
  (∀ s (b : Bay), StepNoteEmpty s.exp → Answers (.activityEdge b) s fun t =>
      (∀ c, chanBay c = b → ∀ p, (s.chan c).pattern = some p →
        s.lgt.patterns[p].activity = true → (s.chan c).gate = .opened →
        (s.lgt.patterns[p].repeats = 0 ∨ (s.chan c).openings < s.lgt.patterns[p].repeats) →
        (t.chan c).count = 0 ∧ (t.chan c).openings = (s.chan c).openings ∧ (t.chan c).pattern = some p ∧
        (s.lgt.patterns[p].offTime ≠ 0 → (t.chan c).gate = .dip ∧
          (if s.lgt.patterns[p].release = 0 ∨ (s.chan c).level = 0 then (t.chan c).level = 0 ∧ (t.chan c).phase = .rest
          else (t.chan c).level = (s.chan c).level ∧ (t.chan c).phase = .release)) ∧
        (s.lgt.patterns[p].offTime = 0 →
            t.chan c = beginAttack s.lgt.patterns[p] { s.chan c with gate := .opened, count := 0 })) ∧
      (∀ c, (chanBay c ≠ b ∨ (s.chan c).pattern = none ∨ (s.chan c).gate ≠ .opened ∨
          ∃ p, (s.chan c).pattern = some p ∧ (s.lgt.patterns[p].activity = false ∨
            (s.lgt.patterns[p].repeats ≠ 0 ∧ s.lgt.patterns[p].repeats ≤ (s.chan c).openings))) →
        t.chan c = s.chan c) ∧
      t.lgt.patterns = s.lgt.patterns ∧ t.lgt.autoMap = s.lgt.autoMap ∧ EnclosureKept s t ∧ t.mem = s.mem) ∧
  (∀ (p : Pattern) (ch : Channel), beginAttack p ch =
      if p.attack ≠ 0 ∧ ch.level ≠ p.peak * 257 then { ch with phase := .attack }
      else if p.decay ≠ 0 ∧ p.peak * 257 ≠ p.sustain * 257 then { ch with level := p.peak * 257, phase := .decay }
      else { ch with level := p.sustain * 257, phase := .sustain })

/-- O55. ENVELOPE_STEP: the step timer restarts; a dark channel stays; a channel with on time 0 and its gate OPEN
rises by its attack increment, stopping at peak times 257, falls by its decay increment, stopping at sustain
times 257, or holds, by its phase; a channel with on time 1 or more, out of any group, its gate OPEN and its on
time not over, counts one step and does the same; its layers, pattern and group stay. Patterns, AUTO map and
every other block stay. Out of any group, at the end of an on time the gate closes and RELEASE begins, or with
off time 0 opens anew; at the end of an off time it opens anew, with one opening more, up to 255, and ATTACK
begins from the present level; at the end of a dip it opens with the same openings. In its last opening the gate
stays closed, and at level 0 the pattern ends: under AUTO it begins a fresh cycle, under ORDER or LOCATE that
layer is emptied and the next one drives in a fresh cycle, or the channel is dark. A gate change that falls due
takes the step's place, so that a new phase takes its first step at the next expiry (the model's reading,
notes/assumptions/12.md). Where the lowest-numbered member of a group cycles and its gate opens at the end of
its off time, every other cycling member not in its last opening opens anew too. A fresh cycle, as LIGHT_SET
begins it: the level lowered to the new peak, the gate OPEN, openings 1, ATTACK. -/
def Obligations.EnvelopeStepMovesTheLevel : Prop :=
  (∀ s, StepNoteEmpty s.exp → Answers .envelopeStep s fun t =>
      t.lgt.stepTimer = some 4 ∧
      (∀ c, (s.chan c).pattern = none → t.chan c = s.chan c) ∧
      (∀ c i, (s.chan c).pattern = some i → (s.chan c).gate = .opened →
        let p := s.lgt.patterns[i]
        let ch := s.chan c
        (p.onTime = 0 ∨ (ch.group = 0 ∧ ch.count + 1 < 5 * p.onTime)) →
        (t.chan c).count = (if p.onTime = 0 then ch.count else ch.count + 1) ∧ (t.chan c).gate = .opened ∧
        (t.chan c).openings = ch.openings ∧ (t.chan c).layer = ch.layer ∧ (t.chan c).pattern = some i ∧
          (t.chan c).auto = ch.auto ∧ (t.chan c).order = ch.order ∧ (t.chan c).locate = ch.locate ∧ (t.chan c).group = ch.group ∧
        match ch.phase with
        | .attack => let up := ch.level + 65536 / 2 ^ (p.attack.val - 1)
            if up < p.peak * 257 then (t.chan c).level = up ∧ (t.chan c).phase = .attack
            else if p.decay ≠ 0 ∧ p.sustain ≠ p.peak then (t.chan c).level = p.peak * 257 ∧ (t.chan c).phase = .decay
            else (t.chan c).level = p.sustain * 257 ∧ (t.chan c).phase = .sustain
        | .decay => let down := 65536 / 2 ^ (p.decay.val - 1)
            if p.sustain * 257 + down < ch.level then (t.chan c).level = ch.level - down ∧ (t.chan c).phase = .decay
            else (t.chan c).level = p.sustain * 257 ∧ (t.chan c).phase = .sustain
        | .sustain => (t.chan c).level = ch.level ∧ (t.chan c).phase = .sustain
        | .release => let down := 65536 / 2 ^ (p.release.val - 1)
            if down < ch.level then (t.chan c).level = ch.level - down ∧ (t.chan c).phase = .release
            else (t.chan c).level = 0 ∧ (t.chan c).phase = .rest
        | .rest => (t.chan c).level = ch.level ∧ (t.chan c).phase = .rest) ∧
      t.lgt.patterns = s.lgt.patterns ∧ t.lgt.autoMap = s.lgt.autoMap ∧ EnclosureKept s t ∧ t.mem = s.mem) ∧
  (∀ s, Answers .envelopeStep s fun t =>
      ∀ c i, (s.chan c).pattern = some i → (s.chan c).group = 0 →
        let p := s.lgt.patterns[i]
        let ch := s.chan c
        let last := p.repeats ≠ 0 ∧ p.repeats ≤ ch.openings
        let shut := beginRelease p { ch with gate := .closed, count := 0 }
        let opens := beginAttack p { ch with gate := .opened, count := 0, openings := min (ch.openings + 1) 255 }
        let fresh := fun (k : PatId) (x : Channel) => beginAttack s.lgt.patterns[k]
          { x with level := min x.level (s.lgt.patterns[k].peak * 257), gate := .opened, count := 0, openings := 1 }
        let dark := fun x : Channel =>
          { x with level := 0, phase := .rest, gate := .closed, count := 0, openings := 0, layer := .auto, pattern := none }
        let ended := fun x : Channel => match ch.layer with
          | .auto => fresh i x
          | .order => match x.locate, x.auto with
            | some k, _ => fresh k { x with order := none, layer := .locate, pattern := some k }
            | none, some k => fresh k { x with order := none, layer := .auto, pattern := some k }
            | none, none => dark { x with order := none }
          | .locate => match x.order, x.auto with
            | some k, _ => fresh k { x with locate := none, locateTimer := none, deadline := none, layer := .order, pattern := some k }
            | none, some k => fresh k { x with locate := none, locateTimer := none, deadline := none, layer := .auto, pattern := some k }
            | none, none => dark { x with locate := none, locateTimer := none, deadline := none }
        driving ch = (ch.layer, ch.pattern) →
        (ch.gate = .opened → p.onTime ≠ 0 → 5 * p.onTime ≤ ch.count + 1 →
          t.chan c = if last then (if shut.level = 0 then ended shut else shut)
            else if p.offTime = 0 then opens else shut) ∧
        (ch.gate = .closed → last → let x := moveLevel p ch
          t.chan c = if x.level = 0 then ended x else x) ∧
        (ch.gate = .closed → ¬ last →
          t.chan c = if ch.count + 1 < 5 * p.offTime then moveLevel p { ch with count := ch.count + 1 } else opens) ∧
        (ch.gate = .dip → t.chan c = if ch.count + 1 < 5 * p.offTime then moveLevel p { ch with count := ch.count + 1 }
          else beginAttack p { ch with gate := .opened, count := 0 })) ∧
  (∀ s c i, (s.chan c).group ≠ 0 → (∀ d, (s.chan d).group = (s.chan c).group → c ≤ d) →
      (s.chan c).pattern = some i → 1 ≤ s.lgt.patterns[i].onTime → 1 ≤ s.lgt.patterns[i].offTime →
      s.lgt.patterns[i].activity = false → (s.chan c).gate = .closed →
      (s.lgt.patterns[i].repeats = 0 ∨ (s.chan c).openings < s.lgt.patterns[i].repeats) →
      5 * s.lgt.patterns[i].offTime ≤ (s.chan c).count + 1 → Answers .envelopeStep s fun t =>
        ∀ d k, (s.chan d).group = (s.chan c).group → (s.chan d).pattern = some k → 1 ≤ s.lgt.patterns[k].onTime →
          1 ≤ s.lgt.patterns[k].offTime → s.lgt.patterns[k].activity = false →
          (s.lgt.patterns[k].repeats = 0 ∨ (s.chan d).openings < s.lgt.patterns[k].repeats) →
          t.chan d = beginAttack s.lgt.patterns[k]
            { s.chan d with gate := .opened, count := 0, openings := min ((s.chan d).openings + 1) 255 }) ∧
  (∀ s n c i, Takes s .lightSet n → (argByte s n 0).toNat < 24 → (argByte s n 1).toNat < 2 →
      c.val = 2 * (argByte s n 0).toNat + (argByte s n 1).toNat → i.val = (argByte s n 2).toNat → (s.chan c).locate = none →
      Answers .lightSet s fun t => t.chan c = beginAttack s.lgt.patterns[i] { s.chan c with
        order := some i, layer := .order, pattern := some i
        level := min (s.chan c).level (s.lgt.patterns[i].peak * 257), gate := .opened, count := 0, openings := 1 }) ∧
  (∀ (p : Pattern) (ch : Channel),
      (beginRelease p ch = if p.release = 0 ∨ ch.level = 0 then { ch with level := 0, phase := .rest }
        else { ch with phase := .release }) ∧
      (ch.phase = .release → moveLevel p ch = if ch.level ≤ 65536 / 2 ^ (p.release.val - 1) then
          { ch with level := 0, phase := .rest }
        else { ch with level := ch.level - 65536 / 2 ^ (p.release.val - 1) }) ∧
      (ch.phase = .rest → moveLevel p ch = ch))

/-- O56. LOCATE_TIMER_EXPIRY of a running timer: the bay's ATTENTION channel has no LOCATE pattern, timer or
deadline, and is driven by its ORDER pattern if it has one and else by its AUTO pattern; its other layers and
group stay. Patterns, AUTO map and every other block stay. -/
def Obligations.LocateTimerEndsTheLocateLayer : Prop :=
  ∀ s (b : Bay), let c := attentionChan b
    StepNoteEmpty s.exp → (s.chan c).locateTimer.isSome = true → Answers (.locateTimerExpiry b) s fun t =>
      (t.chan c).locate = none ∧ (t.chan c).locateTimer = none ∧ (t.chan c).deadline = none ∧
      (t.chan c).order = (s.chan c).order ∧ (t.chan c).auto = (s.chan c).auto ∧ (t.chan c).group = (s.chan c).group ∧
      ((t.chan c).layer, (t.chan c).pattern) =
        (match (s.chan c).order with
        | some p => (Layer.order, some p)
        | none => (Layer.auto, (s.chan c).auto)) ∧
      t.lgt.patterns = s.lgt.patterns ∧ t.lgt.autoMap = s.lgt.autoMap ∧ EnclosureKept s t ∧ t.mem = s.mem

/-- O57. The take of a LIGHT_SET naming a bay 0 to 23 and STATUS or ATTENTION: with a pattern 0 to 15 the channel's
ORDER pattern is that one, the order completes OK, and where no LOCATE layer is set ORDER drives the channel in
a fresh cycle; with 255 the layer is empty and the order completes OK, or ALREADY where it was empty and nothing
changes. A bay, channel or pattern out of range completes BAD_ARG and the lights stay. The other channels'
layers and every other block stay. The take of a LIGHT_SYNC naming a channel 0 to 47 and a group 0 to 4: the
channel's group is that one, nothing else of any channel changes, and the order completes OK, or ALREADY where
the group is the same, with the previous group and the new group's leader. Another channel or group completes
BAD_ARG and the lights stay. Every other block stays. -/
def Obligations.LightSetAndLightSync : Prop :=
  (∀ s n, Takes s .lightSet n →
      let p := argByte s n 2
      Answers .lightSet s fun t =>
      (∀ c, (argByte s n 0).toNat < 24 → (argByte s n 1).toNat < 2 →
        c.val = 2 * (argByte s n 0).toNat + (argByte s n 1).toNat →
        (∀ i : PatId, i.val = p.toNat →
          TakeCompleted s t n .ok [] ∧ (t.chan c).order = some i ∧ (t.chan c).locate = (s.chan c).locate ∧
          ((s.chan c).locate = none → (t.chan c).layer = .order ∧ (t.chan c).pattern = some i ∧
            (t.chan c).gate = .opened ∧ (t.chan c).count = 0 ∧ (t.chan c).openings = 1)) ∧
        (p = 255 → (s.chan c).order.isSome = true → TakeCompleted s t n .ok [] ∧ (t.chan c).order = none) ∧
        (p = 255 → (s.chan c).order = none → TakeCompleted s t n .already [] ∧ t.lgt = s.lgt) ∧
        ∀ d, d ≠ c → (t.chan d).order = (s.chan d).order ∧ (t.chan d).locate = (s.chan d).locate ∧
          (t.chan d).auto = (s.chan d).auto ∧ (t.chan d).group = (s.chan d).group) ∧
      (24 ≤ (argByte s n 0).toNat ∨ 2 ≤ (argByte s n 1).toNat ∨ (16 ≤ p.toNat ∧ p ≠ 255) →
        TakeCompleted s t n .badArg [] ∧ t.lgt = s.lgt) ∧
      t.lgt.patterns = s.lgt.patterns ∧ t.lgt.autoMap = s.lgt.autoMap ∧ EnclosureKept s t) ∧
  (∀ s n, Takes s .lightSync n → Answers .lightSync s fun t =>
      (∀ (c : Chan) (g : Fin 5), c.val = (argByte s n 0).toNat → g.val = (argByte s n 1).toNat →
        t.lgt = { s.lgt with chans := s.lgt.chans.set c { s.chan c with group := g } } ∧
        TakeCompleted s t n (if (s.chan c).group = g then .already else .ok)
          [byte (s.chan c).group.val, optByte ((leader t.lgt g).map fun x => byte x.val)]) ∧
      (48 ≤ (argByte s n 0).toNat ∨ 5 ≤ (argByte s n 1).toNat → TakeCompleted s t n .badArg [] ∧ t.lgt = s.lgt) ∧
      EnclosureKept s t)

/-- O58. The take of a LOCATE naming a bay 0 to 23 or 255: with a pattern 0 to 15 the named bays' ATTENTION channels
show it on their LOCATE layer with the timer and deadline of the timeout, at most 255 s, none for 0, and the
order completes OK with the timeout used and the number of channels; with 255 their LOCATE layer is empty and
the order completes OK with the number of channels that had one, or ALREADY. A bay or pattern out of range
completes BAD_ARG and the lights stay. The other channels' LOCATE layers, the ORDER layers and every other block
stay. That a LOCATE that clears, OK or ALREADY, writes the timeout of its order in the detail, and BAD_ARG
nothing, is the model's reading (notes/assumptions/17.md). -/
def Obligations.LocateSetsOrClearsTheLocateLayer : Prop :=
  ∀ s n, Takes s .locate n →
    let named := argByte s n 0
    let p := argByte s n 1
    let timeout := min (arg16 s n 2) 255
    let chosen := fun b : Bay => named = 255 ∨ b.val = named.toNat
    let found := (List.finRange 24).countP fun b =>
      decide (named = 255 ∨ b.val = named.toNat) && (s.chan (attentionChan b)).locate.isSome
    Answers .locate s fun t =>
    ((named.toNat < 24 ∨ named = 255) → ∀ i : PatId, i.val = p.toNat →
      TakeCompleted s t n .ok (le16 timeout ++ [if named = 255 then 24 else 1]) ∧
      ∀ b, chosen b → let ch := t.chan (attentionChan b)
        ch.locate = some i ∧ ch.layer = .locate ∧ ch.pattern = some i ∧
        ch.locateTimer = (if timeout = 0 then none else some (1000 * timeout)) ∧
        ch.deadline = (if timeout = 0 then none else some (s.clock.uptime + BitVec.ofNat 32 timeout))) ∧
    ((named.toNat < 24 ∨ named = 255) → p = 255 →
      TakeCompleted s t n (if found = 0 then .already else .ok) (le16 timeout ++ [byte found]) ∧
      ∀ b, chosen b → (t.chan (attentionChan b)).locate = none) ∧
    ((24 ≤ named.toNat ∧ named ≠ 255) ∨ (16 ≤ p.toNat ∧ p ≠ 255) → TakeCompleted s t n .badArg [] ∧ t.lgt = s.lgt) ∧
    (∀ c, (t.chan c).order = (s.chan c).order ∧
      ((∀ b, chosen b → c ≠ attentionChan b) → (t.chan c).locate = (s.chan c).locate)) ∧
    t.lgt.patterns = s.lgt.patterns ∧ t.lgt.autoMap = s.lgt.autoMap ∧ EnclosureKept s t

/-- O59. The take of a PATTERN_LOAD with a first index of at most 15, a count of 1 or more and their sum at most 16:
where every record in the range has a peak, the pattern table holds them, sustains clamped to peaks, and the
order completes OK with the first, the count and the number clamped; where one has peak 0 it completes BAD_ARG
naming the first and the lights stay; as they do for a range out of bounds. The take of an AUTO_MAP: where every
byte of the area is 0 to 15 or 255 the map is the area's, each channel's AUTO pattern is its condition's, and
the order completes OK; else BAD_ARG naming the first and the lights stay. Orders, LOCATE layers and groups, and
every other block, stay. That BAD_ARG of a PATTERN_LOAD writes byte 3 alone for a zero peak, and nothing for its
range, is the model's reading (notes/assumptions/17.md). -/
def Obligations.PatternLoadAndAutoMapReadTheirAreas : Prop :=
  (∀ s n, Takes s .patternLoad n →
      let first := (argByte s n 0).toNat
      let count := (argByte s n 1).toNat
      let inRange := first ≤ 15 ∧ 1 ≤ count ∧ first + count ≤ 16
      let peakOf := fun i : PatId => s.mem.read (patternBase i + 2)
      let within := fun i : PatId => first ≤ i.val ∧ i.val < first + count
      Answers .patternLoad s fun t =>
        (inRange → (∀ i, within i → peakOf i ≠ 0) →
          (∀ i : PatId, within i → t.lgt.patterns[i] =
            { attack := Fin.ofNat 16 (s.mem.read (patternBase i)).toNat
              decay := Fin.ofNat 16 ((s.mem.read (patternBase i)).toNat / 16)
              release := Fin.ofNat 16 (s.mem.read (patternBase i + 1)).toNat
              peak := (peakOf i).toNat, sustain := min (s.mem.read (patternBase i + 3)).toNat (peakOf i).toNat
              onTime := (s.mem.read (patternBase i + 4)).toNat, offTime := (s.mem.read (patternBase i + 5)).toNat
              repeats := (s.mem.read (patternBase i + 6)).toNat
              activity := (s.mem.read (patternBase i + 1)).getLsbD 4 }) ∧
          (∀ i : PatId, ¬ within i → t.lgt.patterns[i] = s.lgt.patterns[i]) ∧
          TakeCompleted s t n .ok [byte first, byte count, byte ((List.finRange 16).countP fun i =>
            decide (first ≤ i.val ∧ i.val < first + count) &&
              decide ((peakOf i).toNat < (s.mem.read (patternBase i + 3)).toNat))]) ∧
        (inRange → ∀ i, within i → peakOf i = 0 → (∀ k, within k → k < i → peakOf k ≠ 0) →
          TakeCompleted s t n .badArg (absent 3 ++ [byte i.val]) ∧ t.lgt = s.lgt) ∧
        (¬ inRange → TakeCompleted s t n .badArg [] ∧ t.lgt = s.lgt) ∧
        (∀ c, (t.chan c).order = (s.chan c).order ∧ (t.chan c).locate = (s.chan c).locate ∧
          (t.chan c).pattern = (s.chan c).pattern ∧ (t.chan c).group = (s.chan c).group) ∧
        t.lgt.autoMap = s.lgt.autoMap ∧ EnclosureKept s t) ∧
    ∀ s n, Takes s .autoMap n →
      let area := fun k : Fin 16 => s.mem.read (0x1E00 + k.val)
      let good := fun k : Fin 16 => (area k).toNat < 16 ∨ area k = 255
      Answers .autoMap s fun t =>
        ((∀ k, good k) → TakeCompleted s t n .ok [] ∧
          (∀ (k : Fin 16) (i : Fin 8), k.val = 2 * i.val → patByte t.lgt.autoMap[i].status = area k) ∧
          (∀ (k : Fin 16) (i : Fin 8), k.val = 2 * i.val + 1 → patByte t.lgt.autoMap[i].attention = area k) ∧
          ∀ b, (t.chan (statusChan b)).auto = t.lgt.autoMap[(s.lgt.cond[b]).index].status ∧
            (t.chan (attentionChan b)).auto =
              (if s.lgt.cond[b] = .active ∧ s.lgt.warn[b] = true then t.lgt.autoMap[7].attention
              else t.lgt.autoMap[(s.lgt.cond[b]).index].attention)) ∧
        (∀ k, ¬ good k → (∀ j, j < k → good j) →
          TakeCompleted s t n .badArg [byte (k.val / 2), byte (k.val % 2)] ∧ t.lgt = s.lgt) ∧
        (∀ c, (t.chan c).order = (s.chan c).order ∧ (t.chan c).locate = (s.chan c).locate ∧
          (t.chan c).group = (s.chan c).group) ∧
        t.lgt.patterns = s.lgt.patterns ∧ EnclosureKept s t

/-! ### Bad kinds and aborts -/

/-- O60. The slot the dispatcher takes is the first POSTED one after its pointer, ascending and wrapping from 31 to
0. A take by the command of its kind moves the pointer to it, copies its kind and tag, and leaves it TAKEN or
DONE; the other slots that are not TAKEN stay. The take of a slot whose kind code names no order kind completes
BAD_KIND without a detail, and no block but EXP changes. The take of an ABORT: a target above 31 completes
BAD_ARG and a target that is not TAKEN TOO_LATE, with nothing else changed; its own slot, and a TAKEN slot of a
kind that no owner aborts, NOT_ABORTABLE; a TAKEN ZONE_MAP or CURVE_SELECT is cancelled, nothing of its kind is
pending, and the abort completes OK; a TAKEN SIDEBAND_QUERY still queued leaves the order class and is
cancelled, and the abort completes OK, while one in flight goes on and the abort completes TOO_LATE; a TAKEN
BAY_POWER_ON that is the power order of no QUEUED bay goes on and the abort completes TOO_LATE, and one of a
QUEUED bay takes that bay to OFF; a TAKEN FAN_LEARN ends with its fan no longer LEARNING. The detail gives
target, state found and, for a TAKEN one, kind and tag. That CANCELLED of a map or a select has no detail is the
model's reading (notes/assumptions/17.md). -/
def Obligations.BadKindAndAbort : Prop :=
  (∀ s n, nextPosted s = some n ↔ (s.slot n).state = .posted ∧
      ∀ m : SlotId, (s.slot m).state = .posted → (n - s.exp.pointer - 1).val ≤ (m - s.exp.pointer - 1).val) ∧
  (∀ s n k c, (k, c) ∈ ([
        (.bayPowerOn, .bayPowerOn), (.bayPowerOff, .bayPowerOff), (.bayPolicy, .bayPolicy), (.clearFault, .clearFault),
        (.budgetSet, .budgetSet), (.sidebandQuery, .sidebandQuery), (.zoneMap, .zoneMap), (.curveSelect, .curveSelect),
        (.fanConfig, .fanConfig), (.fanLearn, .fanLearn), (.lightSet, .lightSet), (.locate, .locate),
        (.lightSync, .lightSync), (.patternLoad, .patternLoad), (.autoMap, .autoMap), (.abort, .abort)] : List (Kind × Instr)) →
      Settled s → nextPosted s = some n → Kind.ofCode (s.mem.read (128 * n.val)) = some k → Answers c s fun t =>
        t.exp.pointer = n ∧ (t.slot n).kind = s.mem.read (128 * n.val) ∧
        (t.slot n).tag = BitVec.ofNat 16 ((s.mem.read (128 * n.val + 2)).toNat + 256 * (s.mem.read (128 * n.val + 3)).toNat) ∧
        ((t.slot n).state = .taken ∨ (t.slot n).state = .done) ∧
        ∀ m, m ≠ n → (s.slot m).state ≠ .taken → t.slot m = s.slot m) ∧
  (∀ s n, Settled s → takeBadKind s = some n → Answers .badKind s fun t =>
      TakeCompleted s t n .badKind [] ∧ t.exp.pointer = n ∧ EnclosureKept s t ∧ t.lgt = s.lgt) ∧
  (∀ s n, Takes s .abort n → QueueMatches s → Answers .abort s fun t =>
      (32 ≤ (argByte s n 0).toNat →
        TakeCompleted s t n .badArg [] ∧ EnclosureKept s t ∧ t.lgt = s.lgt) ∧
      (∀ m : SlotId, m.val = (argByte s n 0).toNat →
        let x := s.slot m
        let kind := Kind.ofCode x.kind
        let detail := [byte m.val, x.state.code, x.kind, 0xFF] ++ le16 x.tag.toNat
        (m = n → (t.slot n).state = .done ∧ t.mem.readBytes (resultBase n) 1 = [Result.notAbortable.code] ∧
          EnclosureKept s t ∧ t.lgt = s.lgt) ∧
        (m ≠ n → x.state ≠ .taken →
          TakeCompleted s t n .tooLate [byte m.val, x.state.code] ∧ t.slot m = x ∧ EnclosureKept s t ∧ t.lgt = s.lgt) ∧
        (m ≠ n → x.state = .taken →
          ((kind ≠ some .bayPowerOn ∧ kind ≠ some .sidebandQuery ∧ kind ≠ some .zoneMap ∧ kind ≠ some .curveSelect ∧
              kind ≠ some .fanLearn) →
            TakeCompleted s t n .notAbortable detail ∧ t.slot m = x ∧ EnclosureKept s t ∧ t.lgt = s.lgt) ∧
          (kind = some .zoneMap → TakeCompleted s t n .ok detail ∧
            Completed t m .cancelled x.tag s.clock.uptime [] ∧ t.thc = { s.thc with pendingMap := none }) ∧
          (kind = some .curveSelect → TakeCompleted s t n .ok detail ∧
            Completed t m .cancelled x.tag s.clock.uptime [] ∧ t.thc = { s.thc with pendingSelect := none }) ∧
          (kind = some .sidebandQuery → (∃ e ∈ s.sbe.orderQ, e.slot = some m) → TakeCompleted s t n .ok detail ∧
            (t.slot m).state = .done ∧ t.mem.readBytes (resultBase m) 1 = [Result.cancelled.code] ∧
            t.sbe = { s.sbe with orderQ := s.sbe.orderQ.filter fun e => e.slot ≠ some m }) ∧
          (kind = some .sidebandQuery → (∀ e ∈ s.sbe.orderQ, e.slot ≠ some m) →
            TakeCompleted s t n .tooLate detail ∧ t.slot m = x ∧ t.sbe = s.sbe) ∧
          (∀ b, kind = some .bayPowerOn → (s.bay b).state = .queued → (s.bay b).powerOrder = some m →
            (∀ d, (s.bay d).state = .queued → (s.bay d).powerOrder = some m → d = b) →
            (∀ e, entryOf s b = some e → e.slot = some m) →
            TakeCompleted s t n .ok detail ∧ (t.bay b).state = .off ∧ (t.bay b).powerOrder = none ∧
            b ∉ queuedBays t.pseq ∧ (t.slot m).state = .done ∧ OthersKept (· = b) s t) ∧
          (kind = some .bayPowerOn → (∀ b, (s.bay b).state = .queued → (s.bay b).powerOrder ≠ some m) →
            TakeCompleted s t n .tooLate detail ∧ t.slot m = x ∧ EnclosureKept s t) ∧
          (∀ f l, kind = some .fanLearn → (s.fanWork f).learn = some l → l.slot = some m →
            (∀ g y, (s.fanWork g).learn = some y → y.slot = some m → g = f) →
            TakeCompleted s t n .ok detail ∧ (t.slot m).state = .done ∧
            (t.fan f).state = (if s.fanu.output[s.fanu.member[f]] = 0 then .stopped else .running) ∧
            (t.fanWork f).learn = none ∧ (t.fan f).learnedMin = (s.fan f).learnedMin))) ∧
      t.pins = s.pins ∧ t.clock = s.clock)
end

