-- ==== Sys2Proof/Laws/Frames.lean ====
section
/-! SUPPORT. What each operation leaves alone: for every operation one lemma that names the parts of the state
it does not touch. -/

namespace Sys2Proof.Machine

/-- A fold of steps that keep a value keeps it. -/
theorem foldl_keeps {α β : Type} (g : State → β) (f : State → α → State) (h : ∀ s a, g (f s a) = g s) (l : List α)
    (s : State) : g (l.foldl f s) = g s := by
  induction l generalizing s with
  | nil => rfl
  | cons a rest ih => exact (ih (f s a)).trans (h s a)

/-! ### Marks, records, the account and completions (Machine/Ops.lean) -/

@[simp] theorem mark_keeps (r : MirrorRec) (n : Bool) (s : State) :
    (mark r n s).pins = s.pins ∧ (mark r n s).bmon = s.bmon ∧ (mark r n s).pseq = s.pseq ∧ (mark r n s).sbe = s.sbe
    ∧ (mark r n s).thc = s.thc ∧ (mark r n s).fanu = s.fanu ∧ (mark r n s).lgt = s.lgt ∧ (mark r n s).mem = s.mem ∧
    (mark r n s).clock = s.clock ∧ (mark r n s).free = s.free ∧ (mark r n s).pending = s.pending := by
  unfold mark
  try dsimp only
  simp

@[simp] theorem markIf_keeps (c : Bool) (r : MirrorRec) (n : Bool) (s : State) :
    (markIf c r n s).pins = s.pins ∧ (markIf c r n s).bmon = s.bmon ∧ (markIf c r n s).pseq = s.pseq ∧ (markIf c r n
    s).sbe = s.sbe ∧ (markIf c r n s).thc = s.thc ∧ (markIf c r n s).fanu = s.fanu ∧ (markIf c r n s).lgt = s.lgt ∧
    (markIf c r n s).mem = s.mem ∧ (markIf c r n s).clock = s.clock ∧ (markIf c r n s).free = s.free ∧ (markIf c r n
    s).pending = s.pending := by
  unfold markIf
  try dsimp only
  (repeat' split) <;> simp

@[simp] theorem useFree_keeps  (s : State) :
    (useFree  s).pins = s.pins ∧ (useFree  s).bmon = s.bmon ∧ (useFree  s).pseq = s.pseq ∧ (useFree  s).sbe = s.sbe
    ∧ (useFree  s).thc = s.thc ∧ (useFree  s).fanu = s.fanu ∧ (useFree  s).lgt = s.lgt ∧ (useFree  s).exp = s.exp ∧
    (useFree  s).mem = s.mem ∧ (useFree  s).clock = s.clock ∧ (useFree  s).pending = s.pending := by
  unfold useFree
  try dsimp only
  simp

@[simp] theorem updBay_keeps (b : Bay) (f : BayRec → BayRec) (s : State) :
    (updBay b f s).pins = s.pins ∧ (updBay b f s).pseq = s.pseq ∧ (updBay b f s).sbe = s.sbe ∧ (updBay b f s).thc =
    s.thc ∧ (updBay b f s).fanu = s.fanu ∧ (updBay b f s).lgt = s.lgt ∧ (updBay b f s).mem = s.mem ∧ (updBay b f
    s).clock = s.clock ∧ (updBay b f s).free = s.free ∧ (updBay b f s).pending = s.pending := by
  unfold updBay
  try dsimp only
  simp

@[simp] theorem pushHistory_keeps (b : Bay) (ev : HistEvent) (s : State) :
    (pushHistory b ev s).pins = s.pins ∧ (pushHistory b ev s).pseq = s.pseq ∧ (pushHistory b ev s).sbe = s.sbe ∧
    (pushHistory b ev s).thc = s.thc ∧ (pushHistory b ev s).fanu = s.fanu ∧ (pushHistory b ev s).lgt = s.lgt ∧
    (pushHistory b ev s).mem = s.mem ∧ (pushHistory b ev s).clock = s.clock ∧ (pushHistory b ev s).free = s.free ∧
    (pushHistory b ev s).pending = s.pending := by
  unfold pushHistory
  try dsimp only
  simp

@[simp] theorem setDebounce_keeps (b : Bay) (t : Timer) (s : State) :
    (setDebounce b t s).pins = s.pins ∧ (setDebounce b t s).pseq = s.pseq ∧ (setDebounce b t s).sbe = s.sbe ∧
    (setDebounce b t s).thc = s.thc ∧ (setDebounce b t s).fanu = s.fanu ∧ (setDebounce b t s).lgt = s.lgt ∧
    (setDebounce b t s).exp = s.exp ∧ (setDebounce b t s).mem = s.mem ∧ (setDebounce b t s).clock = s.clock ∧
    (setDebounce b t s).free = s.free ∧ (setDebounce b t s).pending = s.pending := by
  unfold setDebounce
  try dsimp only
  simp

@[simp] theorem setReplug_keeps (b : Bay) (t : Timer) (s : State) :
    (setReplug b t s).pins = s.pins ∧ (setReplug b t s).pseq = s.pseq ∧ (setReplug b t s).sbe = s.sbe ∧ (setReplug b
    t s).thc = s.thc ∧ (setReplug b t s).fanu = s.fanu ∧ (setReplug b t s).lgt = s.lgt ∧ (setReplug b t s).exp =
    s.exp ∧ (setReplug b t s).mem = s.mem ∧ (setReplug b t s).clock = s.clock ∧ (setReplug b t s).free = s.free ∧
    (setReplug b t s).pending = s.pending := by
  unfold setReplug
  try dsimp only
  simp

@[simp] theorem updPseq_keeps (f : Pseq → Pseq) (s : State) :
    (updPseq f s).pins = s.pins ∧ (updPseq f s).bmon = s.bmon ∧ (updPseq f s).sbe = s.sbe ∧ (updPseq f s).thc =
    s.thc ∧ (updPseq f s).fanu = s.fanu ∧ (updPseq f s).lgt = s.lgt ∧ (updPseq f s).mem = s.mem ∧ (updPseq f
    s).clock = s.clock ∧ (updPseq f s).free = s.free ∧ (updPseq f s).pending = s.pending := by
  unfold updPseq
  try dsimp only
  simp

@[simp] theorem updAccount_keeps (f : Account → Account) (s : State) :
    (updAccount f s).pins = s.pins ∧ (updAccount f s).bmon = s.bmon ∧ (updAccount f s).sbe = s.sbe ∧ (updAccount f
    s).thc = s.thc ∧ (updAccount f s).fanu = s.fanu ∧ (updAccount f s).lgt = s.lgt ∧ (updAccount f s).mem = s.mem ∧
    (updAccount f s).clock = s.clock ∧ (updAccount f s).free = s.free ∧ (updAccount f s).pending = s.pending := by
  unfold updAccount
  try dsimp only
  simp

@[simp] theorem updPath_keeps (b : Bay) (f : Path → Path) (s : State) :
    (updPath b f s).pins = s.pins ∧ (updPath b f s).bmon = s.bmon ∧ (updPath b f s).sbe = s.sbe ∧ (updPath b f
    s).thc = s.thc ∧ (updPath b f s).fanu = s.fanu ∧ (updPath b f s).lgt = s.lgt ∧ (updPath b f s).exp = s.exp ∧
    (updPath b f s).mem = s.mem ∧ (updPath b f s).clock = s.clock ∧ (updPath b f s).free = s.free ∧ (updPath b f
    s).pending = s.pending := by
  unfold updPath
  try dsimp only
  simp

@[simp] theorem complete_keeps (n : SlotId) (r : Result) (d : List Byte) (s : State) :
    (complete n r d s).pins = s.pins ∧ (complete n r d s).bmon = s.bmon ∧ (complete n r d s).pseq = s.pseq ∧
    (complete n r d s).sbe = s.sbe ∧ (complete n r d s).thc = s.thc ∧ (complete n r d s).fanu = s.fanu ∧ (complete n
    r d s).lgt = s.lgt ∧ (complete n r d s).clock = s.clock ∧ (complete n r d s).free = s.free ∧ (complete n r d
    s).pending = s.pending := by
  unfold complete
  try dsimp only
  (repeat' split) <;> simp

@[simp] theorem completeOpt_keeps (o : Option SlotId) (r : Result) (d : List Byte) (s : State) :
    (completeOpt o r d s).pins = s.pins ∧ (completeOpt o r d s).bmon = s.bmon ∧ (completeOpt o r d s).pseq = s.pseq
    ∧ (completeOpt o r d s).sbe = s.sbe ∧ (completeOpt o r d s).thc = s.thc ∧ (completeOpt o r d s).fanu = s.fanu ∧
    (completeOpt o r d s).lgt = s.lgt ∧ (completeOpt o r d s).clock = s.clock ∧ (completeOpt o r d s).free = s.free
    ∧ (completeOpt o r d s).pending = s.pending := by
  unfold completeOpt
  try dsimp only
  (repeat' split) <;> simp

@[simp] theorem takeSlot_keeps (n : SlotId) (s : State) :
    (takeSlot n s).pins = s.pins ∧ (takeSlot n s).bmon = s.bmon ∧ (takeSlot n s).pseq = s.pseq ∧ (takeSlot n s).sbe
    = s.sbe ∧ (takeSlot n s).thc = s.thc ∧ (takeSlot n s).fanu = s.fanu ∧ (takeSlot n s).lgt = s.lgt ∧ (takeSlot n
    s).mem = s.mem ∧ (takeSlot n s).clock = s.clock ∧ (takeSlot n s).free = s.free ∧ (takeSlot n s).pending =
    s.pending := by
  unfold takeSlot
  try dsimp only
  simp

/-! ### Sensors and the facts of a bay (Machine/Sensors.lean) -/

@[simp] theorem reportSensorState_keeps (i : SensorId) (c : Bool) (s : State) :
    (reportSensorState i c s).pins = s.pins ∧ (reportSensorState i c s).bmon = s.bmon ∧ (reportSensorState i c
    s).pseq = s.pseq ∧ (reportSensorState i c s).sbe = s.sbe ∧ (reportSensorState i c s).thc = s.thc ∧
    (reportSensorState i c s).fanu = s.fanu ∧ (reportSensorState i c s).lgt = s.lgt ∧ (reportSensorState i c s).mem
    = s.mem ∧ (reportSensorState i c s).clock = s.clock ∧ (reportSensorState i c s).free = s.free ∧
    (reportSensorState i c s).pending = s.pending := by
  unfold reportSensorState
  try dsimp only
  (repeat' split) <;> simp

@[simp] theorem setSensor_keeps (i : SensorId) (t : Thc) (s : State) :
    (setSensor i t s).pins = s.pins ∧ (setSensor i t s).bmon = s.bmon ∧ (setSensor i t s).pseq = s.pseq ∧ (setSensor
    i t s).sbe = s.sbe ∧ (setSensor i t s).fanu = s.fanu ∧ (setSensor i t s).lgt = s.lgt ∧ (setSensor i t s).mem =
    s.mem ∧ (setSensor i t s).clock = s.clock ∧ (setSensor i t s).free = s.free ∧ (setSensor i t s).pending =
    s.pending := by
  unfold setSensor
  try dsimp only
  simp

@[simp] theorem setActiveFact_keeps (b : Bay) (on : Bool) (s : State) :
    (setActiveFact b on s).pins = s.pins ∧ (setActiveFact b on s).bmon = s.bmon ∧ (setActiveFact b on s).pseq =
    s.pseq ∧ (setActiveFact b on s).sbe = s.sbe ∧ (setActiveFact b on s).fanu = s.fanu ∧ (setActiveFact b on s).lgt
    = s.lgt ∧ (setActiveFact b on s).mem = s.mem ∧ (setActiveFact b on s).clock = s.clock ∧ (setActiveFact b on
    s).free = s.free ∧ (setActiveFact b on s).pending = s.pending := by
  unfold setActiveFact
  try dsimp only
  (repeat' split) <;> simp

@[simp] theorem setStartingFact_keeps (b : Bay) (on : Bool) (s : State) :
    (setStartingFact b on s).pins = s.pins ∧ (setStartingFact b on s).bmon = s.bmon ∧ (setStartingFact b on s).pseq
    = s.pseq ∧ (setStartingFact b on s).sbe = s.sbe ∧ (setStartingFact b on s).fanu = s.fanu ∧ (setStartingFact b on
    s).lgt = s.lgt ∧ (setStartingFact b on s).mem = s.mem ∧ (setStartingFact b on s).clock = s.clock ∧
    (setStartingFact b on s).free = s.free ∧ (setStartingFact b on s).pending = s.pending := by
  unfold setStartingFact
  try dsimp only
  (repeat' split) <;> simp

@[simp] theorem markFailedCounts_keeps (z : Vector ZoneRec 4) (s : State) :
    (markFailedCounts z s).pins = s.pins ∧ (markFailedCounts z s).bmon = s.bmon ∧ (markFailedCounts z s).pseq =
    s.pseq ∧ (markFailedCounts z s).sbe = s.sbe ∧ (markFailedCounts z s).thc = s.thc ∧ (markFailedCounts z s).fanu =
    s.fanu ∧ (markFailedCounts z s).lgt = s.lgt ∧ (markFailedCounts z s).mem = s.mem ∧ (markFailedCounts z s).clock
    = s.clock ∧ (markFailedCounts z s).free = s.free ∧ (markFailedCounts z s).pending = s.pending := by
  have h := fun (α : Type) (f : State → α → State) h l s => foldl_keeps (fun s : State => (s.pins, s.bmon, s.pseq, s.sbe, s.thc, s.fanu, s.lgt, s.mem, s.clock, s.free, s.pending)) f h l s
  simp only [Prod.mk.injEq] at h
  unfold markFailedCounts
  try dsimp only
  simp [h]

@[simp] theorem deliverFailed_keeps (f : FanId) (x : Bool) (s : State) :
    (deliverFailed f x s).pins = s.pins ∧ (deliverFailed f x s).bmon = s.bmon ∧ (deliverFailed f x s).pseq = s.pseq
    ∧ (deliverFailed f x s).sbe = s.sbe ∧ (deliverFailed f x s).fanu = s.fanu ∧ (deliverFailed f x s).lgt = s.lgt ∧
    (deliverFailed f x s).mem = s.mem ∧ (deliverFailed f x s).clock = s.clock ∧ (deliverFailed f x s).free = s.free
    ∧ (deliverFailed f x s).pending = s.pending := by
  unfold deliverFailed
  try dsimp only
  simp

@[simp] theorem deliverTemp_keeps (b : Bay) (q : Option Int) (s : State) :
    (deliverTemp b q s).pins = s.pins ∧ (deliverTemp b q s).bmon = s.bmon ∧ (deliverTemp b q s).sbe = s.sbe ∧
    (deliverTemp b q s).fanu = s.fanu ∧ (deliverTemp b q s).lgt = s.lgt ∧ (deliverTemp b q s).mem = s.mem ∧
    (deliverTemp b q s).clock = s.clock ∧ (deliverTemp b q s).free = s.free ∧ (deliverTemp b q s).pending =
    s.pending := by
  unfold deliverTemp
  try dsimp only
  (repeat' split) <;> simp

@[simp] theorem startBoardReads_keeps  (s : State) :
    (startBoardReads  s).pins = s.pins ∧ (startBoardReads  s).bmon = s.bmon ∧ (startBoardReads  s).pseq = s.pseq ∧
    (startBoardReads  s).sbe = s.sbe ∧ (startBoardReads  s).fanu = s.fanu ∧ (startBoardReads  s).lgt = s.lgt ∧
    (startBoardReads  s).exp = s.exp ∧ (startBoardReads  s).mem = s.mem ∧ (startBoardReads  s).clock = s.clock ∧
    (startBoardReads  s).free = s.free ∧ (startBoardReads  s).pending = s.pending := by
  unfold startBoardReads
  try dsimp only
  simp

@[simp] theorem endBoardRead_keeps (n : Fin 8) (q : Option Int) (s : State) :
    (endBoardRead n q s).pins = s.pins ∧ (endBoardRead n q s).bmon = s.bmon ∧ (endBoardRead n q s).pseq = s.pseq ∧
    (endBoardRead n q s).sbe = s.sbe ∧ (endBoardRead n q s).fanu = s.fanu ∧ (endBoardRead n q s).lgt = s.lgt ∧
    (endBoardRead n q s).mem = s.mem ∧ (endBoardRead n q s).clock = s.clock ∧ (endBoardRead n q s).free = s.free ∧
    (endBoardRead n q s).pending = s.pending := by
  unfold endBoardRead
  try dsimp only
  (repeat' split) <;> simp

/-! ### The sideband queue (Machine/Sideband.lean) -/

@[simp] theorem startNext_keeps  (s : State) :
    (startNext  s).pins = s.pins ∧ (startNext  s).bmon = s.bmon ∧ (startNext  s).pseq = s.pseq ∧ (startNext  s).thc
    = s.thc ∧ (startNext  s).fanu = s.fanu ∧ (startNext  s).lgt = s.lgt ∧ (startNext  s).exp = s.exp ∧ (startNext
    s).mem = s.mem ∧ (startNext  s).clock = s.clock ∧ (startNext  s).free = s.free ∧ (startNext  s).pending =
    s.pending := by
  unfold startNext
  try dsimp only
  (repeat' split) <;> simp

@[simp] theorem joinOrder_keeps (e : SbEntry) (s : State) :
    (joinOrder e s).pins = s.pins ∧ (joinOrder e s).bmon = s.bmon ∧ (joinOrder e s).pseq = s.pseq ∧ (joinOrder e
    s).thc = s.thc ∧ (joinOrder e s).fanu = s.fanu ∧ (joinOrder e s).lgt = s.lgt ∧ (joinOrder e s).exp = s.exp ∧
    (joinOrder e s).mem = s.mem ∧ (joinOrder e s).clock = s.clock ∧ (joinOrder e s).free = s.free ∧ (joinOrder e
    s).pending = s.pending := by
  unfold joinOrder
  try dsimp only
  simp

@[simp] theorem joinPoll_keeps (e : SbEntry) (s : State) :
    (joinPoll e s).pins = s.pins ∧ (joinPoll e s).bmon = s.bmon ∧ (joinPoll e s).pseq = s.pseq ∧ (joinPoll e s).thc
    = s.thc ∧ (joinPoll e s).fanu = s.fanu ∧ (joinPoll e s).lgt = s.lgt ∧ (joinPoll e s).exp = s.exp ∧ (joinPoll e
    s).mem = s.mem ∧ (joinPoll e s).clock = s.clock ∧ (joinPoll e s).free = s.free ∧ (joinPoll e s).pending =
    s.pending := by
  unfold joinPoll
  try dsimp only
  simp

@[simp] theorem placePoll_keeps (b : Bay) (s : State) :
    (placePoll b s).pins = s.pins ∧ (placePoll b s).bmon = s.bmon ∧ (placePoll b s).pseq = s.pseq ∧ (placePoll b
    s).thc = s.thc ∧ (placePoll b s).fanu = s.fanu ∧ (placePoll b s).lgt = s.lgt ∧ (placePoll b s).exp = s.exp ∧
    (placePoll b s).mem = s.mem ∧ (placePoll b s).clock = s.clock ∧ (placePoll b s).free = s.free ∧ (placePoll b
    s).pending = s.pending := by
  unfold placePoll
  try dsimp only
  (repeat' split) <;> simp

@[simp] theorem visitBay_keeps (s : State) (b : Bay) :
    (visitBay s b).pins = s.pins ∧ (visitBay s b).bmon = s.bmon ∧ (visitBay s b).pseq = s.pseq ∧ (visitBay s b).thc
    = s.thc ∧ (visitBay s b).fanu = s.fanu ∧ (visitBay s b).lgt = s.lgt ∧ (visitBay s b).exp = s.exp ∧ (visitBay s
    b).mem = s.mem ∧ (visitBay s b).clock = s.clock ∧ (visitBay s b).free = s.free ∧ (visitBay s b).pending =
    s.pending := by
  unfold visitBay
  try dsimp only
  (repeat' split) <;> simp

@[simp] theorem pollVisit_keeps  (s : State) :
    (pollVisit  s).pins = s.pins ∧ (pollVisit  s).bmon = s.bmon ∧ (pollVisit  s).pseq = s.pseq ∧ (pollVisit  s).thc
    = s.thc ∧ (pollVisit  s).fanu = s.fanu ∧ (pollVisit  s).lgt = s.lgt ∧ (pollVisit  s).exp = s.exp ∧ (pollVisit
    s).mem = s.mem ∧ (pollVisit  s).clock = s.clock ∧ (pollVisit  s).free = s.free ∧ (pollVisit  s).pending =
    s.pending := by
  have h := fun (α : Type) (f : State → α → State) h l s => foldl_keeps (fun s : State => (s.pins, s.bmon, s.pseq, s.thc, s.fanu, s.lgt, s.exp, s.mem, s.clock, s.free, s.pending)) f h l s
  simp only [Prod.mk.injEq] at h
  unfold pollVisit
  try dsimp only
  simp [h]

@[simp] theorem pollEntered_keeps (b : Bay) (s : State) :
    (pollEntered b s).pins = s.pins ∧ (pollEntered b s).bmon = s.bmon ∧ (pollEntered b s).pseq = s.pseq ∧
    (pollEntered b s).thc = s.thc ∧ (pollEntered b s).fanu = s.fanu ∧ (pollEntered b s).lgt = s.lgt ∧ (pollEntered b
    s).exp = s.exp ∧ (pollEntered b s).mem = s.mem ∧ (pollEntered b s).clock = s.clock ∧ (pollEntered b s).free =
    s.free ∧ (pollEntered b s).pending = s.pending := by
  unfold pollEntered
  try dsimp only
  simp

@[simp] theorem pollLeft_keeps (b : Bay) (s : State) :
    (pollLeft b s).pins = s.pins ∧ (pollLeft b s).bmon = s.bmon ∧ (pollLeft b s).pseq = s.pseq ∧ (pollLeft b s).thc
    = s.thc ∧ (pollLeft b s).fanu = s.fanu ∧ (pollLeft b s).lgt = s.lgt ∧ (pollLeft b s).exp = s.exp ∧ (pollLeft b
    s).mem = s.mem ∧ (pollLeft b s).clock = s.clock ∧ (pollLeft b s).free = s.free ∧ (pollLeft b s).pending =
    s.pending := by
  unfold pollLeft
  try dsimp only
  simp

@[simp] theorem followUp_keeps (e : SbEntry) (s : State) :
    (followUp e s).pins = s.pins ∧ (followUp e s).bmon = s.bmon ∧ (followUp e s).pseq = s.pseq ∧ (followUp e s).thc
    = s.thc ∧ (followUp e s).fanu = s.fanu ∧ (followUp e s).lgt = s.lgt ∧ (followUp e s).exp = s.exp ∧ (followUp e
    s).mem = s.mem ∧ (followUp e s).clock = s.clock ∧ (followUp e s).free = s.free ∧ (followUp e s).pending =
    s.pending := by
  unfold followUp
  try dsimp only
  (repeat' split) <;> simp

@[simp] theorem requestIdent_keeps (b : Bay) (s : State) :
    (requestIdent b s).pins = s.pins ∧ (requestIdent b s).bmon = s.bmon ∧ (requestIdent b s).pseq = s.pseq ∧
    (requestIdent b s).thc = s.thc ∧ (requestIdent b s).fanu = s.fanu ∧ (requestIdent b s).lgt = s.lgt ∧
    (requestIdent b s).exp = s.exp ∧ (requestIdent b s).mem = s.mem ∧ (requestIdent b s).clock = s.clock ∧
    (requestIdent b s).free = s.free ∧ (requestIdent b s).pending = s.pending := by
  unfold requestIdent
  try dsimp only
  (repeat' split) <;> simp

@[simp] theorem dropQuery_keeps (r : Result) (e : SbEntry) (s : State) :
    (dropQuery r e s).pins = s.pins ∧ (dropQuery r e s).bmon = s.bmon ∧ (dropQuery r e s).pseq = s.pseq ∧ (dropQuery
    r e s).sbe = s.sbe ∧ (dropQuery r e s).thc = s.thc ∧ (dropQuery r e s).fanu = s.fanu ∧ (dropQuery r e s).lgt =
    s.lgt ∧ (dropQuery r e s).clock = s.clock ∧ (dropQuery r e s).free = s.free ∧ (dropQuery r e s).pending =
    s.pending := by
  unfold dropQuery
  try dsimp only
  simp

@[simp] theorem endFlightEmpty_keeps (b : Bay) (s : State) :
    (endFlightEmpty b s).pins = s.pins ∧ (endFlightEmpty b s).bmon = s.bmon ∧ (endFlightEmpty b s).pseq = s.pseq ∧
    (endFlightEmpty b s).thc = s.thc ∧ (endFlightEmpty b s).fanu = s.fanu ∧ (endFlightEmpty b s).lgt = s.lgt ∧
    (endFlightEmpty b s).clock = s.clock ∧ (endFlightEmpty b s).free = s.free ∧ (endFlightEmpty b s).pending =
    s.pending := by
  unfold endFlightEmpty
  try dsimp only
  (repeat' split) <;> simp

@[simp] theorem removeEntries_keeps (b : Bay) (s : State) :
    (removeEntries b s).pins = s.pins ∧ (removeEntries b s).bmon = s.bmon ∧ (removeEntries b s).pseq = s.pseq ∧
    (removeEntries b s).thc = s.thc ∧ (removeEntries b s).fanu = s.fanu ∧ (removeEntries b s).lgt = s.lgt ∧
    (removeEntries b s).clock = s.clock ∧ (removeEntries b s).free = s.free ∧ (removeEntries b s).pending =
    s.pending := by
  have h := fun (α : Type) (f : State → α → State) h l s => foldl_keeps (fun s : State => (s.pins, s.bmon, s.pseq, s.thc, s.fanu, s.lgt, s.clock, s.free, s.pending)) f h l s
  simp only [Prod.mk.injEq] at h
  unfold removeEntries
  try dsimp only
  simp [h]

@[simp] theorem purgeBay_keeps (b : Bay) (s : State) :
    (purgeBay b s).pins = s.pins ∧ (purgeBay b s).bmon = s.bmon ∧ (purgeBay b s).pseq = s.pseq ∧ (purgeBay b s).thc
    = s.thc ∧ (purgeBay b s).fanu = s.fanu ∧ (purgeBay b s).lgt = s.lgt ∧ (purgeBay b s).clock = s.clock ∧ (purgeBay
    b s).free = s.free ∧ (purgeBay b s).pending = s.pending := by
  unfold purgeBay
  try dsimp only
  simp

/-! ### The lights (Machine/Lights.lean) and the change of a bay (Machine/Bays.lean) -/

@[simp] theorem setLgt_keeps (l : Lgt) (s : State) :
    (setLgt l s).pins = s.pins ∧ (setLgt l s).bmon = s.bmon ∧ (setLgt l s).pseq = s.pseq ∧ (setLgt l s).sbe = s.sbe
    ∧ (setLgt l s).thc = s.thc ∧ (setLgt l s).fanu = s.fanu ∧ (setLgt l s).mem = s.mem ∧ (setLgt l s).clock =
    s.clock ∧ (setLgt l s).free = s.free ∧ (setLgt l s).pending = s.pending := by
  have h := fun (α : Type) (f : State → α → State) h l s => foldl_keeps (fun s : State => (s.pins, s.bmon, s.pseq, s.sbe, s.thc, s.fanu, s.mem, s.clock, s.free, s.pending)) f h l s
  simp only [Prod.mk.injEq] at h
  unfold setLgt
  try dsimp only
  simp [h]

@[simp] theorem handLights_keeps (b : Bay) (s : State) :
    (handLights b s).pins = s.pins ∧ (handLights b s).bmon = s.bmon ∧ (handLights b s).pseq = s.pseq ∧ (handLights b
    s).sbe = s.sbe ∧ (handLights b s).thc = s.thc ∧ (handLights b s).fanu = s.fanu ∧ (handLights b s).mem = s.mem ∧
    (handLights b s).clock = s.clock ∧ (handLights b s).free = s.free ∧ (handLights b s).pending = s.pending := by
  unfold handLights
  try dsimp only
  (repeat' split) <;> simp

@[simp] theorem handThermal_keeps (b : Bay) (s : State) :
    (handThermal b s).pins = s.pins ∧ (handThermal b s).bmon = s.bmon ∧ (handThermal b s).pseq = s.pseq ∧
    (handThermal b s).sbe = s.sbe ∧ (handThermal b s).fanu = s.fanu ∧ (handThermal b s).lgt = s.lgt ∧ (handThermal b
    s).mem = s.mem ∧ (handThermal b s).clock = s.clock ∧ (handThermal b s).free = s.free ∧ (handThermal b s).pending
    = s.pending := by
  unfold handThermal
  try dsimp only
  simp

@[simp] theorem handSideband_keeps (b : Bay) (x : BayState) (s : State) :
    (handSideband b x s).pins = s.pins ∧ (handSideband b x s).bmon = s.bmon ∧ (handSideband b x s).pseq = s.pseq ∧
    (handSideband b x s).thc = s.thc ∧ (handSideband b x s).fanu = s.fanu ∧ (handSideband b x s).lgt = s.lgt ∧
    (handSideband b x s).clock = s.clock ∧ (handSideband b x s).free = s.free ∧ (handSideband b x s).pending =
    s.pending := by
  unfold handSideband
  try dsimp only
  (repeat' split) <;> simp

@[simp] theorem turnBay_keeps (b : Bay) (j : Option QEntry) (f : BayRec → BayRec) (s : State) :
    (turnBay b j f s).pins = s.pins ∧ (turnBay b j f s).sbe = s.sbe ∧ (turnBay b j f s).thc = s.thc ∧ (turnBay b j f
    s).fanu = s.fanu ∧ (turnBay b j f s).lgt = s.lgt ∧ (turnBay b j f s).mem = s.mem ∧ (turnBay b j f s).clock =
    s.clock ∧ (turnBay b j f s).free = s.free ∧ (turnBay b j f s).pending = s.pending := by
  unfold turnBay
  try dsimp only
  simp

@[simp] theorem moveBayWith_keeps (j : Option QEntry) (b : Bay) (f : BayRec → BayRec) (s : State) :
    (moveBayWith j b f s).pins = s.pins ∧ (moveBayWith j b f s).fanu = s.fanu ∧ (moveBayWith j b f s).clock =
    s.clock ∧ (moveBayWith j b f s).free = s.free ∧ (moveBayWith j b f s).pending = s.pending := by
  unfold moveBayWith
  try dsimp only
  simp

@[simp] theorem moveBay_keeps (b : Bay) (f : BayRec → BayRec) (s : State) :
    (moveBay b f s).pins = s.pins ∧ (moveBay b f s).fanu = s.fanu ∧ (moveBay b f s).clock = s.clock ∧ (moveBay b f
    s).free = s.free ∧ (moveBay b f s).pending = s.pending := by
  unfold moveBay
  try dsimp only
  simp

@[simp] theorem deliverIdentity_keeps (b : Bay) (o : Option Identity) (s : State) :
    (deliverIdentity b o s).pins = s.pins ∧ (deliverIdentity b o s).fanu = s.fanu ∧ (deliverIdentity b o s).clock =
    s.clock ∧ (deliverIdentity b o s).free = s.free ∧ (deliverIdentity b o s).pending = s.pending := by
  unfold deliverIdentity
  try dsimp only
  (repeat' split) <;> simp

@[simp] theorem deliverHealth_keeps (b : Bay) (o : Option Byte) (s : State) :
    (deliverHealth b o s).pins = s.pins ∧ (deliverHealth b o s).fanu = s.fanu ∧ (deliverHealth b o s).clock =
    s.clock ∧ (deliverHealth b o s).free = s.free ∧ (deliverHealth b o s).pending = s.pending := by
  unfold deliverHealth
  try dsimp only
  (repeat' split) <;> simp

/-! ### The ladder, the queue and admission (Machine/Ladder.lean, Machine/Admission.lean) -/

@[simp] theorem report_keeps (b : Bay) (acts : BayRec → Bool) (f : BayRec → BayRec) (evs : List HistEvent) (s : State) :
    (report b acts f evs s).pins = s.pins ∧ (report b acts f evs s).fanu = s.fanu ∧ (report b acts f evs s).clock =
    s.clock ∧ (report b acts f evs s).free = s.free ∧ (report b acts f evs s).pending = s.pending := by
  have h := fun (α : Type) (f : State → α → State) h l s => foldl_keeps (fun s : State => (s.pins, s.fanu, s.clock, s.free, s.pending)) f h l s
  simp only [Prod.mk.injEq] at h
  unfold report
  try dsimp only
  (repeat' split) <;> simp [h]

@[simp] theorem attemptGood_keeps (b : Bay) (s : State) :
    (attemptGood b s).pins = s.pins ∧ (attemptGood b s).fanu = s.fanu ∧ (attemptGood b s).clock = s.clock ∧
    (attemptGood b s).free = s.free ∧ (attemptGood b s).pending = s.pending := by
  unfold attemptGood
  try dsimp only
  (repeat' split) <;> simp

@[simp] theorem attemptBegin_keeps (b : Bay) (s : State) :
    (attemptBegin b s).pins = s.pins ∧ (attemptBegin b s).fanu = s.fanu ∧ (attemptBegin b s).clock = s.clock ∧
    (attemptBegin b s).free = s.free ∧ (attemptBegin b s).pending = s.pending := by
  unfold attemptBegin
  try dsimp only
  (repeat' split) <;> simp

@[simp] theorem dropEntry_keeps (b : Bay) (s : State) :
    (dropEntry b s).pins = s.pins ∧ (dropEntry b s).bmon = s.bmon ∧ (dropEntry b s).sbe = s.sbe ∧ (dropEntry b
    s).thc = s.thc ∧ (dropEntry b s).fanu = s.fanu ∧ (dropEntry b s).lgt = s.lgt ∧ (dropEntry b s).mem = s.mem ∧
    (dropEntry b s).clock = s.clock ∧ (dropEntry b s).free = s.free ∧ (dropEntry b s).pending = s.pending := by
  unfold dropEntry
  try dsimp only
  simp

@[simp] theorem admit_keeps (e : QEntry) (s : State) :
    (admitEntry e s).pins = s.pins ∧ (admitEntry e s).fanu = s.fanu ∧ (admitEntry e s).clock = s.clock ∧ (admitEntry e s).free = s.free
    ∧ (admitEntry e s).pending = s.pending := by
  unfold admitEntry
  try dsimp only
  (repeat' split) <;> simp

@[simp] theorem admitWhileFits_keeps (k : Nat) (s : State) :
    (admitWhileFits k s).pins = s.pins ∧ (admitWhileFits k s).fanu = s.fanu ∧ (admitWhileFits k s).clock = s.clock ∧
    (admitWhileFits k s).free = s.free ∧ (admitWhileFits k s).pending = s.pending := by
  induction k generalizing s with
  | zero => simp [admitWhileFits]
  | succ k ih =>
    unfold admitWhileFits
    (repeat' split) <;> simp [ih]

@[simp] theorem updateBlocked_keeps  (s : State) :
    (updateBlocked  s).pins = s.pins ∧ (updateBlocked  s).bmon = s.bmon ∧ (updateBlocked  s).sbe = s.sbe ∧
    (updateBlocked  s).thc = s.thc ∧ (updateBlocked  s).fanu = s.fanu ∧ (updateBlocked  s).lgt = s.lgt ∧
    (updateBlocked  s).mem = s.mem ∧ (updateBlocked  s).clock = s.clock ∧ (updateBlocked  s).pending = s.pending := by
  unfold updateBlocked
  try dsimp only
  (repeat' split) <;> simp

@[simp] theorem evaluate_keeps  (s : State) :
    (evaluate  s).pins = s.pins ∧ (evaluate  s).fanu = s.fanu ∧ (evaluate  s).clock = s.clock ∧ (evaluate
    s).pending = s.pending := by
  unfold evaluate
  try dsimp only
  simp

@[simp] theorem deliverEstimate_keeps (n : Nat) (s : State) :
    (deliverEstimate n s).pins = s.pins ∧ (deliverEstimate n s).fanu = s.fanu ∧ (deliverEstimate n s).clock =
    s.clock ∧ (deliverEstimate n s).pending = s.pending := by
  unfold deliverEstimate
  try dsimp only
  (repeat' split) <;> simp

@[simp] theorem enqueue_keeps (b : Bay) (c : QClass) (o : Option SlotId) (s : State) :
    (enqueue b c o s).pins = s.pins ∧ (enqueue b c o s).fanu = s.fanu ∧ (enqueue b c o s).clock = s.clock ∧ (enqueue
    b c o s).pending = s.pending := by
  unfold enqueue
  try dsimp only
  (repeat' split) <;> simp

@[simp] theorem cancelQueued_keeps (b : Bay) (s : State) :
    (cancelQueued b s).pins = s.pins ∧ (cancelQueued b s).fanu = s.fanu ∧ (cancelQueued b s).clock = s.clock ∧
    (cancelQueued b s).free = s.free ∧ (cancelQueued b s).pending = s.pending := by
  unfold cancelQueued
  try dsimp only
  (repeat' split) <;> simp

@[simp] theorem lostQueued_keeps (b : Bay) (s : State) :
    (lostQueued b s).pins = s.pins ∧ (lostQueued b s).fanu = s.fanu ∧ (lostQueued b s).clock = s.clock ∧ (lostQueued
    b s).free = s.free ∧ (lostQueued b s).pending = s.pending := by
  unfold lostQueued
  try dsimp only
  (repeat' split) <;> simp

/-! ### The power path (Machine/Power.lean) -/

@[simp] theorem completePower_keeps (b : Bay) (r : Result) (d : List Byte) (s : State) :
    (completePower b r d s).pins = s.pins ∧ (completePower b r d s).bmon = s.bmon ∧ (completePower b r d s).pseq =
    s.pseq ∧ (completePower b r d s).sbe = s.sbe ∧ (completePower b r d s).thc = s.thc ∧ (completePower b r d
    s).fanu = s.fanu ∧ (completePower b r d s).lgt = s.lgt ∧ (completePower b r d s).clock = s.clock ∧
    (completePower b r d s).free = s.free ∧ (completePower b r d s).pending = s.pending := by
  unfold completePower
  try dsimp only
  simp

@[simp] theorem exhausted_keeps (b : Bay) (l : Ladder) (s : State) :
    (exhausted b l s).pins = s.pins ∧ (exhausted b l s).fanu = s.fanu ∧ (exhausted b l s).clock = s.clock ∧
    (exhausted b l s).pending = s.pending := by
  unfold exhausted
  try dsimp only
  simp

@[simp] theorem attemptFail_keeps (b : Bay) (o : AttemptOutcome) (s : State) :
    (attemptFail b o s).pins = s.pins ∧ (attemptFail b o s).fanu = s.fanu ∧ (attemptFail b o s).clock = s.clock ∧
    (attemptFail b o s).pending = s.pending := by
  unfold attemptFail
  try dsimp only
  (repeat' split) <;> simp

@[simp] theorem coolOffEnd_keeps (b : Bay) (s : State) :
    (coolOffEnd b s).pins = s.pins ∧ (coolOffEnd b s).fanu = s.fanu ∧ (coolOffEnd b s).clock = s.clock ∧ (coolOffEnd
    b s).free = s.free ∧ (coolOffEnd b s).pending = s.pending := by
  unfold coolOffEnd
  try dsimp only
  (repeat' split) <;> simp

@[simp] theorem spinEnd_keeps (b : Bay) (s : State) :
    (spinEnd b s).pins = s.pins ∧ (spinEnd b s).fanu = s.fanu ∧ (spinEnd b s).clock = s.clock ∧ (spinEnd b
    s).pending = s.pending := by
  unfold spinEnd
  try dsimp only
  (repeat' split) <;> simp

@[simp] theorem runningFault_keeps (b : Bay) (c : CutCause) (s : State) :
    (runningFault b c s).pins = s.pins ∧ (runningFault b c s).fanu = s.fanu ∧ (runningFault b c s).clock = s.clock ∧
    (runningFault b c s).pending = s.pending := by
  unfold runningFault
  try dsimp only
  simp

@[simp] theorem finishHold_keeps (b : Bay) (s : State) :
    (finishHold b s).pins = s.pins ∧ (finishHold b s).fanu = s.fanu ∧ (finishHold b s).clock = s.clock ∧ (finishHold
    b s).free = s.free ∧ (finishHold b s).pending = s.pending := by
  unfold finishHold
  try dsimp only
  simp

@[simp] theorem startHold_keeps (b : Bay) (n : Nat) (s : State) :
    (startHold b n s).pins = s.pins ∧ (startHold b n s).fanu = s.fanu ∧ (startHold b n s).clock = s.clock ∧
    (startHold b n s).free = s.free ∧ (startHold b n s).pending = s.pending := by
  unfold startHold
  try dsimp only
  (repeat' split) <;> simp

@[simp] theorem standbyEnd_keeps (b : Bay) (o : StandbyOutcome) (x : Option SbResult) (c : Option CutCause) (s : State) :
    (standbyEnd b o x c s).pins = s.pins ∧ (standbyEnd b o x c s).fanu = s.fanu ∧ (standbyEnd b o x c s).clock =
    s.clock ∧ (standbyEnd b o x c s).pending = s.pending := by
  unfold standbyEnd
  try dsimp only
  (repeat' split) <;> simp

@[simp] theorem deliverStandby_keeps (b : Bay) (r : SbResult) (s : State) :
    (deliverStandby b r s).pins = s.pins ∧ (deliverStandby b r s).fanu = s.fanu ∧ (deliverStandby b r s).clock =
    s.clock ∧ (deliverStandby b r s).pending = s.pending := by
  unfold deliverStandby
  try dsimp only
  (repeat' split) <;> simp

@[simp] theorem immediateStop_keeps (b : Bay) (n : SlotId) (h : Nat) (s : State) :
    (immediateStop b n h s).pins = s.pins ∧ (immediateStop b n h s).fanu = s.fanu ∧ (immediateStop b n h s).clock =
    s.clock ∧ (immediateStop b n h s).pending = s.pending := by
  unfold immediateStop
  try dsimp only
  simp

@[simp] theorem gracefulStop_keeps (b : Bay) (n : SlotId) (h : Nat) (s : State) :
    (gracefulStop b n h s).pins = s.pins ∧ (gracefulStop b n h s).fanu = s.fanu ∧ (gracefulStop b n h s).clock =
    s.clock ∧ (gracefulStop b n h s).pending = s.pending := by
  have h : ∀ s' s'' : State, requestStandby b s' = some s'' → s''.pins = s'.pins ∧ s''.fanu = s'.fanu ∧
      s''.clock = s'.clock ∧ s''.pending = s'.pending := by
    intro s' s'' h
    unfold requestStandby at h
    split at h
    · cases h; simp
    · cases h
  unfold gracefulStop
  dsimp only
  split
  · obtain ⟨h1, h2, h3, h4⟩ := h _ _ ‹_›
    simp [h1, h2, h3, h4]
  · simp

@[simp] theorem powerCut_keeps (b : Bay) (c : CutCause) (s : State) :
    (powerCut b c s).pins = s.pins ∧ (powerCut b c s).fanu = s.fanu ∧ (powerCut b c s).clock = s.clock ∧ (powerCut b
    c s).pending = s.pending := by
  unfold powerCut
  try dsimp only
  (repeat' split) <;> simp

@[simp] theorem shed_keeps (b : Bay) (n : Nat) (s : State) :
    (shed b n s).pins = s.pins ∧ (shed b n s).fanu = s.fanu ∧ (shed b n s).clock = s.clock ∧ (shed b n s).pending =
    s.pending := by
  unfold shed
  try dsimp only
  (repeat' split) <;> simp

@[simp] theorem earlyCut_keeps (b : Bay) (s : State) :
    (earlyCut b s).pins = s.pins ∧ (earlyCut b s).fanu = s.fanu ∧ (earlyCut b s).clock = s.clock ∧ (earlyCut b
    s).pending = s.pending := by
  unfold earlyCut
  dsimp only
  split <;> simp

/-! ### Zones and fans (Machine/Thermal.lean, Machine/Fans.lean) -/

@[simp] theorem computeZones_keeps  (s : State) :
    (computeZones  s).pins = s.pins ∧ (computeZones  s).bmon = s.bmon ∧ (computeZones  s).pseq = s.pseq ∧
    (computeZones  s).sbe = s.sbe ∧ (computeZones  s).fanu = s.fanu ∧ (computeZones  s).lgt = s.lgt ∧ (computeZones
    s).mem = s.mem ∧ (computeZones  s).clock = s.clock ∧ (computeZones  s).free = s.free ∧ (computeZones  s).pending
    = s.pending := by
  have h := fun (α : Type) (f : State → α → State) h l s => foldl_keeps (fun s : State => (s.pins, s.bmon, s.pseq, s.sbe, s.fanu, s.lgt, s.mem, s.clock, s.free, s.pending)) f h l s
  simp only [Prod.mk.injEq] at h
  unfold computeZones
  try dsimp only
  simp [h]

@[simp] theorem fitSensor_keeps (x : Byte) (s : State) (n : Fin 8) :
    (fitSensor x s n).pins = s.pins ∧ (fitSensor x s n).bmon = s.bmon ∧ (fitSensor x s n).pseq = s.pseq ∧ (fitSensor
    x s n).sbe = s.sbe ∧ (fitSensor x s n).fanu = s.fanu ∧ (fitSensor x s n).lgt = s.lgt ∧ (fitSensor x s n).mem =
    s.mem ∧ (fitSensor x s n).clock = s.clock ∧ (fitSensor x s n).free = s.free ∧ (fitSensor x s n).pending =
    s.pending := by
  unfold fitSensor
  try dsimp only
  simp

@[simp] theorem applyMap_keeps  (s : State) :
    (applyMap  s).pins = s.pins ∧ (applyMap  s).bmon = s.bmon ∧ (applyMap  s).pseq = s.pseq ∧ (applyMap  s).sbe =
    s.sbe ∧ (applyMap  s).fanu = s.fanu ∧ (applyMap  s).lgt = s.lgt ∧ (applyMap  s).clock = s.clock ∧ (applyMap
    s).free = s.free ∧ (applyMap  s).pending = s.pending := by
  have h := fun (α : Type) (f : State → α → State) h l s => foldl_keeps (fun s : State => (s.pins, s.bmon, s.pseq, s.sbe, s.fanu, s.lgt, s.clock, s.free, s.pending)) f h l s
  simp only [Prod.mk.injEq] at h
  unfold applyMap
  try dsimp only
  (repeat' split) <;> simp [h]

@[simp] theorem acceptSelect_keeps (p : PendingSelect) (w : Vector CurveRec 4) (s : State) :
    (acceptSelect p w s).pins = s.pins ∧ (acceptSelect p w s).bmon = s.bmon ∧ (acceptSelect p w s).pseq = s.pseq ∧
    (acceptSelect p w s).sbe = s.sbe ∧ (acceptSelect p w s).fanu = s.fanu ∧ (acceptSelect p w s).lgt = s.lgt ∧
    (acceptSelect p w s).clock = s.clock ∧ (acceptSelect p w s).free = s.free ∧ (acceptSelect p w s).pending =
    s.pending := by
  have h := fun (α : Type) (f : State → α → State) h l s => foldl_keeps (fun s : State => (s.pins, s.bmon, s.pseq, s.sbe, s.fanu, s.lgt, s.clock, s.free, s.pending)) f h l s
  simp only [Prod.mk.injEq] at h
  unfold acceptSelect
  try dsimp only
  simp [h]

@[simp] theorem applySelect_keeps  (s : State) :
    (applySelect  s).pins = s.pins ∧ (applySelect  s).bmon = s.bmon ∧ (applySelect  s).pseq = s.pseq ∧ (applySelect
    s).sbe = s.sbe ∧ (applySelect  s).fanu = s.fanu ∧ (applySelect  s).lgt = s.lgt ∧ (applySelect  s).clock =
    s.clock ∧ (applySelect  s).free = s.free ∧ (applySelect  s).pending = s.pending := by
  unfold applySelect
  try dsimp only
  (repeat' split) <;> simp

@[simp] theorem updFan_keeps (f : FanId) (g : FanRec → FanRec) (s : State) :
    (updFan f g s).pins = s.pins ∧ (updFan f g s).bmon = s.bmon ∧ (updFan f g s).pseq = s.pseq ∧ (updFan f g s).sbe
    = s.sbe ∧ (updFan f g s).thc = s.thc ∧ (updFan f g s).lgt = s.lgt ∧ (updFan f g s).mem = s.mem ∧ (updFan f g
    s).clock = s.clock ∧ (updFan f g s).free = s.free ∧ (updFan f g s).pending = s.pending := by
  unfold updFan
  try dsimp only
  simp

@[simp] theorem updWork_keeps (f : FanId) (g : FanWork → FanWork) (s : State) :
    (updWork f g s).pins = s.pins ∧ (updWork f g s).bmon = s.bmon ∧ (updWork f g s).pseq = s.pseq ∧ (updWork f g
    s).sbe = s.sbe ∧ (updWork f g s).thc = s.thc ∧ (updWork f g s).lgt = s.lgt ∧ (updWork f g s).exp = s.exp ∧
    (updWork f g s).mem = s.mem ∧ (updWork f g s).clock = s.clock ∧ (updWork f g s).free = s.free ∧ (updWork f g
    s).pending = s.pending := by
  unfold updWork
  try dsimp only
  simp

@[simp] theorem markFans_keeps  (s : State) :
    (markFans  s).pins = s.pins ∧ (markFans  s).bmon = s.bmon ∧ (markFans  s).pseq = s.pseq ∧ (markFans  s).sbe =
    s.sbe ∧ (markFans  s).thc = s.thc ∧ (markFans  s).fanu = s.fanu ∧ (markFans  s).lgt = s.lgt ∧ (markFans  s).mem
    = s.mem ∧ (markFans  s).clock = s.clock ∧ (markFans  s).free = s.free ∧ (markFans  s).pending = s.pending := by
  have h := fun (α : Type) (f : State → α → State) h l s => foldl_keeps (fun s : State => (s.pins, s.bmon, s.pseq, s.sbe, s.thc, s.fanu, s.lgt, s.mem, s.clock, s.free, s.pending)) f h l s
  simp only [Prod.mk.injEq] at h
  unfold markFans
  try dsimp only
  simp [h]

@[simp] theorem deliverFans_keeps  (s : State) :
    (deliverFans  s).pins = s.pins ∧ (deliverFans  s).fanu = s.fanu ∧ (deliverFans  s).clock = s.clock ∧
    (deliverFans  s).pending = s.pending := by
  unfold deliverFans
  try dsimp only
  simp

@[simp] theorem zoneControl_keeps (f : FanId) (s : State) :
    (zoneControl f s).pins = s.pins ∧ (zoneControl f s).bmon = s.bmon ∧ (zoneControl f s).pseq = s.pseq ∧
    (zoneControl f s).sbe = s.sbe ∧ (zoneControl f s).thc = s.thc ∧ (zoneControl f s).lgt = s.lgt ∧ (zoneControl f
    s).mem = s.mem ∧ (zoneControl f s).clock = s.clock ∧ (zoneControl f s).free = s.free ∧ (zoneControl f s).pending
    = s.pending := by
  unfold zoneControl
  try dsimp only
  (repeat' split) <;> simp

@[simp] theorem applyOutput_keeps (f : FanId) (s : State) :
    (applyOutput f s).pins = s.pins ∧ (applyOutput f s).bmon = s.bmon ∧ (applyOutput f s).pseq = s.pseq ∧
    (applyOutput f s).sbe = s.sbe ∧ (applyOutput f s).thc = s.thc ∧ (applyOutput f s).lgt = s.lgt ∧ (applyOutput f
    s).mem = s.mem ∧ (applyOutput f s).clock = s.clock ∧ (applyOutput f s).free = s.free ∧ (applyOutput f s).pending
    = s.pending := by
  unfold applyOutput
  try dsimp only
  (repeat' split) <;> simp

@[simp] theorem leftFailed_keeps (f : FanId) (x : FanState) (s : State) :
    (leftFailed f x s).pins = s.pins ∧ (leftFailed f x s).bmon = s.bmon ∧ (leftFailed f x s).pseq = s.pseq ∧
    (leftFailed f x s).sbe = s.sbe ∧ (leftFailed f x s).fanu = s.fanu ∧ (leftFailed f x s).lgt = s.lgt ∧ (leftFailed
    f x s).mem = s.mem ∧ (leftFailed f x s).clock = s.clock ∧ (leftFailed f x s).free = s.free ∧ (leftFailed f x
    s).pending = s.pending := by
  unfold leftFailed
  try dsimp only
  (repeat' split) <;> simp

@[simp] theorem enterFailed_keeps (f : FanId) (s : State) :
    (enterFailed f s).pins = s.pins ∧ (enterFailed f s).bmon = s.bmon ∧ (enterFailed f s).pseq = s.pseq ∧
    (enterFailed f s).sbe = s.sbe ∧ (enterFailed f s).lgt = s.lgt ∧ (enterFailed f s).mem = s.mem ∧ (enterFailed f
    s).clock = s.clock ∧ (enterFailed f s).free = s.free ∧ (enterFailed f s).pending = s.pending := by
  unfold enterFailed
  try dsimp only
  simp

@[simp] theorem endLearn_keeps (f : FanId) (l : Learn) (r : Result) (m : Nat) (s : State) :
    (endLearn f l r m s).pins = s.pins ∧ (endLearn f l r m s).clock = s.clock ∧ (endLearn f l r m s).pending =
    s.pending := by
  unfold endLearn
  try dsimp only
  simp

@[simp] theorem noSpin_keeps (f : FanId) (l : Learn) (s : State) :
    (noSpin f l s).pins = s.pins ∧ (noSpin f l s).clock = s.clock ∧ (noSpin f l s).pending = s.pending := by
  unfold noSpin
  try dsimp only
  simp

@[simp] theorem stopLearn_keeps (f : FanId) (l : Learn) (r : Result) (s : State) :
    (stopLearn f l r s).pins = s.pins ∧ (stopLearn f l r s).bmon = s.bmon ∧ (stopLearn f l r s).pseq = s.pseq ∧
    (stopLearn f l r s).sbe = s.sbe ∧ (stopLearn f l r s).thc = s.thc ∧ (stopLearn f l r s).lgt = s.lgt ∧ (stopLearn
    f l r s).clock = s.clock ∧ (stopLearn f l r s).free = s.free ∧ (stopLearn f l r s).pending = s.pending := by
  unfold stopLearn
  try dsimp only
  simp

@[simp] theorem visitLevel_keeps (f : FanId) (l : Learn) (n : Fin 8) (s : State) :
    (visitLevel f l n s).pins = s.pins ∧ (visitLevel f l n s).clock = s.clock ∧ (visitLevel f l n s).pending =
    s.pending := by
  unfold visitLevel
  try dsimp only
  simp

@[simp] theorem judgeLevel_keeps (f : FanId) (l : Learn) (rpm : Nat) (s : State) :
    (judgeLevel f l rpm s).pins = s.pins ∧ (judgeLevel f l rpm s).clock = s.clock ∧ (judgeLevel f l rpm s).pending =
    s.pending := by
  unfold judgeLevel
  try dsimp only
  (repeat' split) <;> simp

@[simp] theorem learnGate_keeps (f : FanId) (l : Learn) (s : State) :
    (learnGate f l s).pins = s.pins ∧ (learnGate f l s).clock = s.clock ∧ (learnGate f l s).pending = s.pending := by
  unfold learnGate
  try dsimp only
  (repeat' split) <;> simp

@[simp] theorem runningGate_keeps (f : FanId) (s : State) :
    (runningGate f s).pins = s.pins ∧ (runningGate f s).clock = s.clock ∧ (runningGate f s).pending = s.pending := by
  unfold runningGate
  try dsimp only
  (repeat' split) <;> simp

@[simp] theorem kickGate_keeps (f : FanId) (s : State) :
    (kickGate f s).pins = s.pins ∧ (kickGate f s).clock = s.clock ∧ (kickGate f s).pending = s.pending := by
  unfold kickGate
  try dsimp only
  (repeat' split) <;> simp

@[simp] theorem failedGate_keeps (f : FanId) (s : State) :
    (failedGate f s).pins = s.pins ∧ (failedGate f s).clock = s.clock ∧ (failedGate f s).pending = s.pending := by
  unfold failedGate
  try dsimp only
  (repeat' split) <;> simp

@[simp] theorem actGate_keeps (s : State) (f : FanId) :
    (actGate s f).pins = s.pins ∧ (actGate s f).clock = s.clock ∧ (actGate s f).pending = s.pending := by
  unfold actGate
  try dsimp only
  (repeat' split) <;> simp

@[simp] theorem storeReading_keeps (s : State) (f : FanId) :
    (storeReading s f).pins = s.pins ∧ (storeReading s f).bmon = s.bmon ∧ (storeReading s f).pseq = s.pseq ∧
    (storeReading s f).sbe = s.sbe ∧ (storeReading s f).thc = s.thc ∧ (storeReading s f).lgt = s.lgt ∧ (storeReading
    s f).mem = s.mem ∧ (storeReading s f).clock = s.clock ∧ (storeReading s f).free = s.free ∧ (storeReading s
    f).pending = s.pending := by
  unfold storeReading
  try dsimp only
  simp

@[simp] theorem gateExpiry_keeps  (s : State) :
    (gateExpiry  s).pins = s.pins ∧ (gateExpiry  s).clock = s.clock ∧ (gateExpiry  s).pending = s.pending := by
  have h := fun (α : Type) (f : State → α → State) h l s => foldl_keeps (fun s : State => (s.pins, s.clock, s.pending)) f h l s
  simp only [Prod.mk.injEq] at h
  unfold gateExpiry
  try dsimp only
  simp [h]

@[simp] theorem handFan_keeps (s : State) (f : FanId) :
    (handFan s f).pins = s.pins ∧ (handFan s f).bmon = s.bmon ∧ (handFan s f).pseq = s.pseq ∧ (handFan s f).sbe =
    s.sbe ∧ (handFan s f).thc = s.thc ∧ (handFan s f).lgt = s.lgt ∧ (handFan s f).clock = s.clock ∧ (handFan s
    f).free = s.free ∧ (handFan s f).pending = s.pending := by
  unfold handFan
  try dsimp only
  (repeat' split) <;> simp

@[simp] theorem handOutputs_keeps  (s : State) :
    (handOutputs  s).pins = s.pins ∧ (handOutputs  s).clock = s.clock ∧ (handOutputs  s).pending = s.pending := by
  have h := fun (α : Type) (f : State → α → State) h l s => foldl_keeps (fun s : State => (s.pins, s.clock, s.pending)) f h l s
  simp only [Prod.mk.injEq] at h
  unfold handOutputs
  try dsimp only
  simp [h]

@[simp] theorem zonePeriod_keeps  (s : State) :
    (zonePeriod  s).pins = s.pins ∧ (zonePeriod  s).clock = s.clock ∧ (zonePeriod  s).pending = s.pending := by
  unfold zonePeriod
  try dsimp only
  simp

/-! ### Transactions and presence (Machine/Transactions.lean, Machine/Presence.lean) -/

@[simp] theorem setFlight_keeps (t : Txn) (s : State) :
    (setFlight t s).pins = s.pins ∧ (setFlight t s).bmon = s.bmon ∧ (setFlight t s).pseq = s.pseq ∧ (setFlight t
    s).thc = s.thc ∧ (setFlight t s).fanu = s.fanu ∧ (setFlight t s).lgt = s.lgt ∧ (setFlight t s).exp = s.exp ∧
    (setFlight t s).mem = s.mem ∧ (setFlight t s).clock = s.clock ∧ (setFlight t s).free = s.free ∧ (setFlight t
    s).pending = s.pending := by
  unfold setFlight
  try dsimp only
  simp

@[simp] theorem togglePresence_keeps (b : Bay) (s : State) :
    (togglePresence b s).bmon = s.bmon ∧ (togglePresence b s).pseq = s.pseq ∧ (togglePresence b s).sbe = s.sbe ∧
    (togglePresence b s).thc = s.thc ∧ (togglePresence b s).fanu = s.fanu ∧ (togglePresence b s).lgt = s.lgt ∧
    (togglePresence b s).exp = s.exp ∧ (togglePresence b s).mem = s.mem ∧ (togglePresence b s).clock = s.clock ∧
    (togglePresence b s).free = s.free ∧ (togglePresence b s).pending = s.pending := by
  unfold togglePresence
  try dsimp only
  simp

@[simp] theorem deliverResult_keeps (e : SbEntry) (r : SbResult) (d : List Byte) (s : State) :
    (deliverResult e r d s).pins = s.pins ∧ (deliverResult e r d s).fanu = s.fanu ∧ (deliverResult e r d s).clock =
    s.clock ∧ (deliverResult e r d s).pending = s.pending := by
  unfold deliverResult
  try dsimp only
  (repeat' split) <;> simp

@[simp] theorem endTxn_keeps (t : Txn) (r : SbResult) (d : List Byte) (s : State) :
    (endTxn t r d s).pins = s.pins ∧ (endTxn t r d s).fanu = s.fanu ∧ (endTxn t r d s).clock = s.clock ∧ (endTxn t r
    d s).pending = s.pending := by
  unfold endTxn
  try dsimp only
  simp

@[simp] theorem attemptFailed_keeps (t : Txn) (r : SbResult) (s : State) :
    (attemptFailed t r s).pins = s.pins ∧ (attemptFailed t r s).fanu = s.fanu ∧ (attemptFailed t r s).clock =
    s.clock ∧ (attemptFailed t r s).pending = s.pending := by
  unfold attemptFailed
  try dsimp only
  (repeat' split) <;> simp

@[simp] theorem attemptDeferred_keeps (t : Txn) (s : State) :
    (attemptDeferred t s).pins = s.pins ∧ (attemptDeferred t s).fanu = s.fanu ∧ (attemptDeferred t s).clock =
    s.clock ∧ (attemptDeferred t s).pending = s.pending := by
  unfold attemptDeferred
  try dsimp only
  (repeat' split) <;> simp

@[simp] theorem replyArrived_keeps (l : List Byte) (s : State) :
    (replyArrived l s).pins = s.pins ∧ (replyArrived l s).fanu = s.fanu ∧ (replyArrived l s).clock = s.clock ∧
    (replyArrived l s).pending = s.pending := by
  unfold replyArrived
  try dsimp only
  (repeat' split) <;> simp

@[simp] theorem noReply_keeps  (s : State) :
    (noReply  s).pins = s.pins ∧ (noReply  s).fanu = s.fanu ∧ (noReply  s).clock = s.clock ∧ (noReply  s).pending =
    s.pending := by
  unfold noReply
  try dsimp only
  (repeat' split) <;> simp

@[simp] theorem spacingEnd_keeps  (s : State) :
    (spacingEnd  s).pins = s.pins ∧ (spacingEnd  s).bmon = s.bmon ∧ (spacingEnd  s).pseq = s.pseq ∧ (spacingEnd
    s).thc = s.thc ∧ (spacingEnd  s).fanu = s.fanu ∧ (spacingEnd  s).lgt = s.lgt ∧ (spacingEnd  s).exp = s.exp ∧
    (spacingEnd  s).mem = s.mem ∧ (spacingEnd  s).clock = s.clock ∧ (spacingEnd  s).free = s.free ∧ (spacingEnd
    s).pending = s.pending := by
  unfold spacingEnd
  try dsimp only
  (repeat' split) <;> simp

@[simp] theorem enterSettling_keeps (b : Bay) (s : State) :
    (enterSettling b s).pins = s.pins ∧ (enterSettling b s).fanu = s.fanu ∧ (enterSettling b s).clock = s.clock ∧
    (enterSettling b s).pending = s.pending := by
  unfold enterSettling
  try dsimp only
  (repeat' split) <;> simp

@[simp] theorem presenceChanged_keeps (b : Bay) (s : State) :
    (presenceChanged b s).fanu = s.fanu ∧ (presenceChanged b s).clock = s.clock ∧ (presenceChanged b s).pending =
    s.pending := by
  unfold presenceChanged
  try dsimp only
  simp

@[simp] theorem enterOff_keeps (b : Bay) (f : BayRec → BayRec) (ev : HistEvent) (s : State) :
    (enterOff b f ev s).pins = s.pins ∧ (enterOff b f ev s).fanu = s.fanu ∧ (enterOff b f ev s).clock = s.clock ∧
    (enterOff b f ev s).pending = s.pending := by
  unfold enterOff
  try dsimp only
  (repeat' split) <;> simp

@[simp] theorem removed_keeps (b : Bay) (s : State) :
    (removed b s).pins = s.pins ∧ (removed b s).fanu = s.fanu ∧ (removed b s).clock = s.clock ∧ (removed b s).free =
    s.free ∧ (removed b s).pending = s.pending := by
  unfold removed
  try dsimp only
  simp

@[simp] theorem arrived_keeps (b : Bay) (s : State) :
    (arrived b s).pins = s.pins ∧ (arrived b s).fanu = s.fanu ∧ (arrived b s).clock = s.clock ∧ (arrived b
    s).pending = s.pending := by
  unfold arrived
  try dsimp only
  (repeat' split) <;> simp

@[simp] theorem debounceEnd_keeps (b : Bay) (s : State) :
    (debounceEnd b s).pins = s.pins ∧ (debounceEnd b s).fanu = s.fanu ∧ (debounceEnd b s).clock = s.clock ∧
    (debounceEnd b s).pending = s.pending := by
  unfold debounceEnd
  try dsimp only
  (repeat' split) <;> simp

/-! ### Writing the mirror (Machine/Mirror.lean) -/

@[simp] theorem writeRecord_keeps (r : MirrorRec) (x : Bool) (s : State) :
    (writeRecord r x s).pins = s.pins ∧ (writeRecord r x s).bmon = s.bmon ∧ (writeRecord r x s).pseq = s.pseq ∧
    (writeRecord r x s).sbe = s.sbe ∧ (writeRecord r x s).thc = s.thc ∧ (writeRecord r x s).fanu = s.fanu ∧
    (writeRecord r x s).lgt = s.lgt ∧ (writeRecord r x s).clock = s.clock ∧ (writeRecord r x s).free = s.free ∧
    (writeRecord r x s).pending = s.pending := by
  unfold writeRecord
  try dsimp only
  simp

@[simp] theorem settleThaw_keeps  (s : State) :
    (settleThaw  s).pins = s.pins ∧ (settleThaw  s).bmon = s.bmon ∧ (settleThaw  s).pseq = s.pseq ∧ (settleThaw
    s).sbe = s.sbe ∧ (settleThaw  s).thc = s.thc ∧ (settleThaw  s).fanu = s.fanu ∧ (settleThaw  s).lgt = s.lgt ∧
    (settleThaw  s).mem = s.mem ∧ (settleThaw  s).clock = s.clock ∧ (settleThaw  s).free = s.free ∧ (settleThaw
    s).pending = s.pending := by
  unfold settleThaw
  try dsimp only
  (repeat' split) <;> simp

@[simp] theorem settleReset_keeps  (s : State) :
    (settleReset  s).pins = s.pins ∧ (settleReset  s).bmon = s.bmon ∧ (settleReset  s).pseq = s.pseq ∧ (settleReset
    s).sbe = s.sbe ∧ (settleReset  s).thc = s.thc ∧ (settleReset  s).fanu = s.fanu ∧ (settleReset  s).lgt = s.lgt ∧
    (settleReset  s).mem = s.mem ∧ (settleReset  s).clock = s.clock ∧ (settleReset  s).free = s.free ∧ (settleReset
    s).pending = s.pending := by
  unfold settleReset
  try dsimp only
  (repeat' split) <;> simp

@[simp] theorem writeNext_keeps  (s : State) :
    (writeNext  s).pins = s.pins ∧ (writeNext  s).bmon = s.bmon ∧ (writeNext  s).pseq = s.pseq ∧ (writeNext  s).sbe
    = s.sbe ∧ (writeNext  s).thc = s.thc ∧ (writeNext  s).fanu = s.fanu ∧ (writeNext  s).lgt = s.lgt ∧ (writeNext
    s).clock = s.clock ∧ (writeNext  s).free = s.free ∧ (writeNext  s).pending = s.pending := by
  unfold writeNext
  try dsimp only
  (repeat' split) <;> simp

@[simp] theorem writeStepRecord_keeps (s : State) (r : MirrorRec) :
    (writeStepRecord s r).pins = s.pins ∧ (writeStepRecord s r).bmon = s.bmon ∧ (writeStepRecord s r).pseq = s.pseq
    ∧ (writeStepRecord s r).sbe = s.sbe ∧ (writeStepRecord s r).thc = s.thc ∧ (writeStepRecord s r).fanu = s.fanu ∧
    (writeStepRecord s r).lgt = s.lgt ∧ (writeStepRecord s r).clock = s.clock ∧ (writeStepRecord s r).free = s.free
    ∧ (writeStepRecord s r).pending = s.pending := by
  unfold writeStepRecord
  try dsimp only
  (repeat' split) <;> simp

@[simp] theorem finishStep_keeps  (s : State) :
    (finishStep  s).pins = s.pins ∧ (finishStep  s).bmon = s.bmon ∧ (finishStep  s).pseq = s.pseq ∧ (finishStep
    s).sbe = s.sbe ∧ (finishStep  s).thc = s.thc ∧ (finishStep  s).fanu = s.fanu ∧ (finishStep  s).lgt = s.lgt ∧
    (finishStep  s).clock = s.clock ∧ (finishStep  s).free = s.free ∧ (finishStep  s).pending = s.pending := by
  have h := fun (α : Type) (f : State → α → State) h l s => foldl_keeps (fun s : State => (s.pins, s.bmon, s.pseq, s.sbe, s.thc, s.fanu, s.lgt, s.clock, s.free, s.pending)) f h l s
  simp only [Prod.mk.injEq] at h
  unfold finishStep
  try dsimp only
  (repeat' split) <;> simp [h]

@[simp] theorem mirrorWrite_keeps  (s : State) :
    (mirrorWrite  s).pins = s.pins ∧ (mirrorWrite  s).bmon = s.bmon ∧ (mirrorWrite  s).pseq = s.pseq ∧ (mirrorWrite
    s).sbe = s.sbe ∧ (mirrorWrite  s).thc = s.thc ∧ (mirrorWrite  s).fanu = s.fanu ∧ (mirrorWrite  s).lgt = s.lgt ∧
    (mirrorWrite  s).clock = s.clock ∧ (mirrorWrite  s).free = s.free ∧ (mirrorWrite  s).pending = s.pending := by
  unfold mirrorWrite
  try dsimp only
  (repeat' split) <;> simp

/-! ### The exchange port (Machine/Exchange.lean) -/

@[simp] theorem updExp_keeps (f : Exp → Exp) (s : State) :
    (updExp f s).pins = s.pins ∧ (updExp f s).bmon = s.bmon ∧ (updExp f s).pseq = s.pseq ∧ (updExp f s).sbe = s.sbe
    ∧ (updExp f s).thc = s.thc ∧ (updExp f s).fanu = s.fanu ∧ (updExp f s).lgt = s.lgt ∧ (updExp f s).mem = s.mem ∧
    (updExp f s).clock = s.clock ∧ (updExp f s).free = s.free ∧ (updExp f s).pending = s.pending := by
  unfold updExp
  try dsimp only
  simp

@[simp] theorem postWrite_keeps (h : RegHalf) (x : Half) (s : State) :
    (postWrite h x s).pins = s.pins ∧ (postWrite h x s).bmon = s.bmon ∧ (postWrite h x s).pseq = s.pseq ∧ (postWrite
    h x s).sbe = s.sbe ∧ (postWrite h x s).thc = s.thc ∧ (postWrite h x s).fanu = s.fanu ∧ (postWrite h x s).lgt =
    s.lgt ∧ (postWrite h x s).mem = s.mem ∧ (postWrite h x s).clock = s.clock ∧ (postWrite h x s).free = s.free ∧
    (postWrite h x s).pending = s.pending := by
  unfold postWrite
  try dsimp only
  (repeat' split) <;> simp

@[simp] theorem hostWrites_keeps (w : List HostWrite) (s : State) :
    (hostWrites w s).pins = s.pins ∧ (hostWrites w s).bmon = s.bmon ∧ (hostWrites w s).pseq = s.pseq ∧ (hostWrites w
    s).sbe = s.sbe ∧ (hostWrites w s).thc = s.thc ∧ (hostWrites w s).fanu = s.fanu ∧ (hostWrites w s).lgt = s.lgt ∧
    (hostWrites w s).exp = s.exp ∧ (hostWrites w s).clock = s.clock ∧ (hostWrites w s).free = s.free ∧ (hostWrites w
    s).pending = s.pending := by
  unfold hostWrites
  try dsimp only
  simp

@[simp] theorem doneWrite_keeps (h : RegHalf) (x : Half) (s : State) :
    (doneWrite h x s).pins = s.pins ∧ (doneWrite h x s).bmon = s.bmon ∧ (doneWrite h x s).pseq = s.pseq ∧ (doneWrite
    h x s).sbe = s.sbe ∧ (doneWrite h x s).thc = s.thc ∧ (doneWrite h x s).fanu = s.fanu ∧ (doneWrite h x s).lgt =
    s.lgt ∧ (doneWrite h x s).mem = s.mem ∧ (doneWrite h x s).clock = s.clock ∧ (doneWrite h x s).free = s.free ∧
    (doneWrite h x s).pending = s.pending := by
  unfold doneWrite
  try dsimp only
  simp

@[simp] theorem summaryWrite_keeps (h : RegHalf) (x : Half) (s : State) :
    (summaryWrite h x s).pins = s.pins ∧ (summaryWrite h x s).bmon = s.bmon ∧ (summaryWrite h x s).pseq = s.pseq ∧
    (summaryWrite h x s).sbe = s.sbe ∧ (summaryWrite h x s).thc = s.thc ∧ (summaryWrite h x s).fanu = s.fanu ∧
    (summaryWrite h x s).lgt = s.lgt ∧ (summaryWrite h x s).mem = s.mem ∧ (summaryWrite h x s).clock = s.clock ∧
    (summaryWrite h x s).free = s.free ∧ (summaryWrite h x s).pending = s.pending := by
  unfold summaryWrite
  try dsimp only
  simp

@[simp] theorem enableWrite_keeps (h : RegHalf) (x : Half) (s : State) :
    (enableWrite h x s).pins = s.pins ∧ (enableWrite h x s).bmon = s.bmon ∧ (enableWrite h x s).pseq = s.pseq ∧
    (enableWrite h x s).sbe = s.sbe ∧ (enableWrite h x s).thc = s.thc ∧ (enableWrite h x s).fanu = s.fanu ∧
    (enableWrite h x s).lgt = s.lgt ∧ (enableWrite h x s).mem = s.mem ∧ (enableWrite h x s).clock = s.clock ∧
    (enableWrite h x s).free = s.free ∧ (enableWrite h x s).pending = s.pending := by
  unfold enableWrite
  try dsimp only
  simp

@[simp] theorem freezeOn_keeps  (s : State) :
    (freezeOn  s).pins = s.pins ∧ (freezeOn  s).bmon = s.bmon ∧ (freezeOn  s).pseq = s.pseq ∧ (freezeOn  s).sbe =
    s.sbe ∧ (freezeOn  s).thc = s.thc ∧ (freezeOn  s).fanu = s.fanu ∧ (freezeOn  s).lgt = s.lgt ∧ (freezeOn  s).mem
    = s.mem ∧ (freezeOn  s).clock = s.clock ∧ (freezeOn  s).free = s.free ∧ (freezeOn  s).pending = s.pending := by
  unfold freezeOn
  try dsimp only
  (repeat' split) <;> simp

@[simp] theorem endFreeze_keeps  (s : State) :
    (endFreeze  s).pins = s.pins ∧ (endFreeze  s).bmon = s.bmon ∧ (endFreeze  s).pseq = s.pseq ∧ (endFreeze  s).sbe
    = s.sbe ∧ (endFreeze  s).thc = s.thc ∧ (endFreeze  s).fanu = s.fanu ∧ (endFreeze  s).lgt = s.lgt ∧ (endFreeze
    s).mem = s.mem ∧ (endFreeze  s).clock = s.clock ∧ (endFreeze  s).free = s.free ∧ (endFreeze  s).pending =
    s.pending := by
  unfold endFreeze
  try dsimp only
  simp

@[simp] theorem freezeOff_keeps  (s : State) :
    (freezeOff  s).pins = s.pins ∧ (freezeOff  s).bmon = s.bmon ∧ (freezeOff  s).pseq = s.pseq ∧ (freezeOff  s).sbe
    = s.sbe ∧ (freezeOff  s).thc = s.thc ∧ (freezeOff  s).fanu = s.fanu ∧ (freezeOff  s).lgt = s.lgt ∧ (freezeOff
    s).mem = s.mem ∧ (freezeOff  s).clock = s.clock ∧ (freezeOff  s).free = s.free ∧ (freezeOff  s).pending =
    s.pending := by
  unfold freezeOff
  try dsimp only
  (repeat' split) <;> simp

@[simp] theorem freezeExpiry_keeps  (s : State) :
    (freezeExpiry  s).pins = s.pins ∧ (freezeExpiry  s).bmon = s.bmon ∧ (freezeExpiry  s).pseq = s.pseq ∧
    (freezeExpiry  s).sbe = s.sbe ∧ (freezeExpiry  s).thc = s.thc ∧ (freezeExpiry  s).fanu = s.fanu ∧ (freezeExpiry
    s).lgt = s.lgt ∧ (freezeExpiry  s).mem = s.mem ∧ (freezeExpiry  s).clock = s.clock ∧ (freezeExpiry  s).free =
    s.free ∧ (freezeExpiry  s).pending = s.pending := by
  unfold freezeExpiry
  try dsimp only
  (repeat' split) <;> simp

@[simp] theorem clearPowerOrders_keeps  (s : State) :
    (clearPowerOrders  s).pins = s.pins ∧ (clearPowerOrders  s).pseq = s.pseq ∧ (clearPowerOrders  s).sbe = s.sbe ∧
    (clearPowerOrders  s).thc = s.thc ∧ (clearPowerOrders  s).fanu = s.fanu ∧ (clearPowerOrders  s).lgt = s.lgt ∧
    (clearPowerOrders  s).mem = s.mem ∧ (clearPowerOrders  s).clock = s.clock ∧ (clearPowerOrders  s).free = s.free
    ∧ (clearPowerOrders  s).pending = s.pending := by
  have h := fun (α : Type) (f : State → α → State) h l s => foldl_keeps (fun s : State => (s.pins, s.pseq, s.sbe, s.thc, s.fanu, s.lgt, s.mem, s.clock, s.free, s.pending)) f h l s
  simp only [Prod.mk.injEq] at h
  unfold clearPowerOrders
  try dsimp only
  simp [h]

@[simp] theorem dropSlots_keeps  (s : State) :
    (dropSlots  s).pins = s.pins ∧ (dropSlots  s).lgt = s.lgt ∧ (dropSlots  s).mem = s.mem ∧ (dropSlots  s).clock =
    s.clock ∧ (dropSlots  s).free = s.free ∧ (dropSlots  s).pending = s.pending := by
  unfold dropSlots
  try dsimp only
  simp

@[simp] theorem portResetAll_keeps  (s : State) :
    (portResetAll  s).pins = s.pins ∧ (portResetAll  s).lgt = s.lgt ∧ (portResetAll  s).mem = s.mem ∧ (portResetAll
    s).clock = s.clock ∧ (portResetAll  s).free = s.free ∧ (portResetAll  s).pending = s.pending := by
  unfold portResetAll
  try dsimp only
  simp

@[simp] theorem samplePresence_keeps (s : State) (b : Bay) :
    (samplePresence s b).pins = s.pins ∧ (samplePresence s b).fanu = s.fanu ∧ (samplePresence s b).clock = s.clock ∧
    (samplePresence s b).free = s.free ∧ (samplePresence s b).pending = s.pending := by
  unfold samplePresence
  try dsimp only
  (repeat' split) <;> simp

@[simp] theorem powerOn_keeps  (s : State) :
    (powerOn  s).pins = s.pins ∧ (powerOn  s).free = s.free ∧ (powerOn  s).pending = s.pending := by
  have h := fun (α : Type) (f : State → α → State) h l s => foldl_keeps (fun s : State => (s.pins, s.free, s.pending)) f h l s
  simp only [Prod.mk.injEq] at h
  unfold powerOn
  simp [h, State.poweredOn]

/-! ### The orders of BMON, PSEQ and SBE (Machine/Orders.lean) -/

@[simp] theorem powerOnBay_keeps (n : SlotId) (b : Bay) (c : QClass) (s : State) :
    (powerOnBay n b c s).pins = s.pins ∧ (powerOnBay n b c s).fanu = s.fanu ∧ (powerOnBay n b c s).clock = s.clock ∧
    (powerOnBay n b c s).pending = s.pending := by
  unfold powerOnBay
  try dsimp only
  (repeat' split) <;> simp

@[simp] theorem powerOnOrder_keeps (n : SlotId) (s : State) :
    (powerOnOrder n s).pins = s.pins ∧ (powerOnOrder n s).fanu = s.fanu ∧ (powerOnOrder n s).clock = s.clock ∧
    (powerOnOrder n s).pending = s.pending := by
  unfold powerOnOrder
  try dsimp only
  (repeat' split) <;> simp

@[simp] theorem powerOffBay_keeps (n : SlotId) (b : Bay) (m : OffMode) (h : Byte) (s : State) :
    (powerOffBay n b m h s).pins = s.pins ∧ (powerOffBay n b m h s).fanu = s.fanu ∧ (powerOffBay n b m h s).clock =
    s.clock ∧ (powerOffBay n b m h s).pending = s.pending := by
  unfold powerOffBay
  try dsimp only
  (repeat' split) <;> simp

@[simp] theorem powerOffOrder_keeps (n : SlotId) (s : State) :
    (powerOffOrder n s).pins = s.pins ∧ (powerOffOrder n s).fanu = s.fanu ∧ (powerOffOrder n s).clock = s.clock ∧
    (powerOffOrder n s).pending = s.pending := by
  unfold powerOffOrder
  try dsimp only
  (repeat' split) <;> simp

@[simp] theorem writePolicy_keeps (p : Policy) (s : State) (b : Bay) :
    (writePolicy p s b).pins = s.pins ∧ (writePolicy p s b).pseq = s.pseq ∧ (writePolicy p s b).sbe = s.sbe ∧
    (writePolicy p s b).thc = s.thc ∧ (writePolicy p s b).fanu = s.fanu ∧ (writePolicy p s b).lgt = s.lgt ∧
    (writePolicy p s b).mem = s.mem ∧ (writePolicy p s b).clock = s.clock ∧ (writePolicy p s b).free = s.free ∧
    (writePolicy p s b).pending = s.pending := by
  unfold writePolicy
  try dsimp only
  simp

@[simp] theorem policyOrder_keeps (n : SlotId) (s : State) :
    (policyOrder n s).pins = s.pins ∧ (policyOrder n s).pseq = s.pseq ∧ (policyOrder n s).sbe = s.sbe ∧ (policyOrder
    n s).thc = s.thc ∧ (policyOrder n s).fanu = s.fanu ∧ (policyOrder n s).lgt = s.lgt ∧ (policyOrder n s).clock =
    s.clock ∧ (policyOrder n s).free = s.free ∧ (policyOrder n s).pending = s.pending := by
  have h := fun (α : Type) (f : State → α → State) h l s => foldl_keeps (fun s : State => (s.pins, s.pseq, s.sbe, s.thc, s.fanu, s.lgt, s.clock, s.free, s.pending)) f h l s
  simp only [Prod.mk.injEq] at h
  unfold policyOrder
  try dsimp only
  (repeat' split) <;> simp [h]

@[simp] theorem clearBay_keeps (s : State) (b : Bay) :
    (clearBay s b).pins = s.pins ∧ (clearBay s b).fanu = s.fanu ∧ (clearBay s b).clock = s.clock ∧ (clearBay s
    b).free = s.free ∧ (clearBay s b).pending = s.pending := by
  unfold clearBay
  try dsimp only
  (repeat' split) <;> simp

@[simp] theorem clearOne_keeps (n : SlotId) (b : Bay) (s : State) :
    (clearOne n b s).pins = s.pins ∧ (clearOne n b s).fanu = s.fanu ∧ (clearOne n b s).clock = s.clock ∧ (clearOne n
    b s).free = s.free ∧ (clearOne n b s).pending = s.pending := by
  unfold clearOne
  try dsimp only
  (repeat' split) <;> simp

@[simp] theorem clearAll_keeps (n : SlotId) (s : State) :
    (clearAll n s).pins = s.pins ∧ (clearAll n s).fanu = s.fanu ∧ (clearAll n s).clock = s.clock ∧ (clearAll n
    s).free = s.free ∧ (clearAll n s).pending = s.pending := by
  have h := fun (α : Type) (f : State → α → State) h l s => foldl_keeps (fun s : State => (s.pins, s.fanu, s.clock, s.free, s.pending)) f h l s
  simp only [Prod.mk.injEq] at h
  unfold clearAll
  try dsimp only
  (repeat' split) <;> simp [h]

@[simp] theorem clearFaultOrder_keeps (n : SlotId) (s : State) :
    (clearFaultOrder n s).pins = s.pins ∧ (clearFaultOrder n s).fanu = s.fanu ∧ (clearFaultOrder n s).clock =
    s.clock ∧ (clearFaultOrder n s).free = s.free ∧ (clearFaultOrder n s).pending = s.pending := by
  unfold clearFaultOrder
  try dsimp only
  (repeat' split) <;> simp

@[simp] theorem budgetOrder_keeps (n : SlotId) (s : State) :
    (budgetOrder n s).pins = s.pins ∧ (budgetOrder n s).fanu = s.fanu ∧ (budgetOrder n s).clock = s.clock ∧
    (budgetOrder n s).pending = s.pending := by
  unfold budgetOrder
  try dsimp only
  (repeat' split) <;> simp

@[simp] theorem setInterval_keeps (n : SlotId) (s : State) :
    (setInterval n s).pins = s.pins ∧ (setInterval n s).bmon = s.bmon ∧ (setInterval n s).pseq = s.pseq ∧
    (setInterval n s).thc = s.thc ∧ (setInterval n s).fanu = s.fanu ∧ (setInterval n s).lgt = s.lgt ∧ (setInterval n
    s).clock = s.clock ∧ (setInterval n s).free = s.free ∧ (setInterval n s).pending = s.pending := by
  unfold setInterval
  try dsimp only
  simp

@[simp] theorem queryBay_keeps (n : SlotId) (b : Bay) (i : SbItem) (s : State) :
    (queryBay n b i s).pins = s.pins ∧ (queryBay n b i s).bmon = s.bmon ∧ (queryBay n b i s).pseq = s.pseq ∧
    (queryBay n b i s).thc = s.thc ∧ (queryBay n b i s).fanu = s.fanu ∧ (queryBay n b i s).lgt = s.lgt ∧ (queryBay n
    b i s).clock = s.clock ∧ (queryBay n b i s).free = s.free ∧ (queryBay n b i s).pending = s.pending := by
  unfold queryBay
  try dsimp only
  (repeat' split) <;> simp

@[simp] theorem queryOrder_keeps (n : SlotId) (s : State) :
    (queryOrder n s).pins = s.pins ∧ (queryOrder n s).bmon = s.bmon ∧ (queryOrder n s).pseq = s.pseq ∧ (queryOrder n
    s).thc = s.thc ∧ (queryOrder n s).fanu = s.fanu ∧ (queryOrder n s).lgt = s.lgt ∧ (queryOrder n s).clock =
    s.clock ∧ (queryOrder n s).free = s.free ∧ (queryOrder n s).pending = s.pending := by
  unfold queryOrder
  try dsimp only
  (repeat' split) <;> simp

/-! ### The orders of THC and FANU (Machine/CoolingOrders.lean) -/

@[simp] theorem mapOrder_keeps (n : SlotId) (s : State) :
    (mapOrder n s).pins = s.pins ∧ (mapOrder n s).bmon = s.bmon ∧ (mapOrder n s).pseq = s.pseq ∧ (mapOrder n s).sbe
    = s.sbe ∧ (mapOrder n s).fanu = s.fanu ∧ (mapOrder n s).lgt = s.lgt ∧ (mapOrder n s).clock = s.clock ∧ (mapOrder
    n s).free = s.free ∧ (mapOrder n s).pending = s.pending := by
  unfold mapOrder
  try dsimp only
  (repeat' split) <;> simp

@[simp] theorem selectOrder_keeps (n : SlotId) (s : State) :
    (selectOrder n s).pins = s.pins ∧ (selectOrder n s).bmon = s.bmon ∧ (selectOrder n s).pseq = s.pseq ∧
    (selectOrder n s).sbe = s.sbe ∧ (selectOrder n s).fanu = s.fanu ∧ (selectOrder n s).lgt = s.lgt ∧ (selectOrder n
    s).clock = s.clock ∧ (selectOrder n s).free = s.free ∧ (selectOrder n s).pending = s.pending := by
  unfold selectOrder
  try dsimp only
  (repeat' split) <;> simp

@[simp] theorem configuredState_keeps (f : FanId) (x : FanState) (s : State) :
    (configuredState f x s).pins = s.pins ∧ (configuredState f x s).bmon = s.bmon ∧ (configuredState f x s).pseq =
    s.pseq ∧ (configuredState f x s).sbe = s.sbe ∧ (configuredState f x s).lgt = s.lgt ∧ (configuredState f x s).mem
    = s.mem ∧ (configuredState f x s).clock = s.clock ∧ (configuredState f x s).free = s.free ∧ (configuredState f x
    s).pending = s.pending := by
  unfold configuredState
  try dsimp only
  (repeat' split) <;> simp

@[simp] theorem applyConfig_keeps (n : SlotId) (f : FanId) (s : State) :
    (applyConfig n f s).pins = s.pins ∧ (applyConfig n f s).clock = s.clock ∧ (applyConfig n f s).pending =
    s.pending := by
  unfold applyConfig
  try dsimp only
  simp

@[simp] theorem configOrder_keeps (n : SlotId) (s : State) :
    (configOrder n s).pins = s.pins ∧ (configOrder n s).clock = s.clock ∧ (configOrder n s).pending = s.pending := by
  unfold configOrder
  try dsimp only
  (repeat' split) <;> simp

@[simp] theorem startLearn_keeps (n : SlotId) (f : FanId) (m : Byte) (l : Fin 8) (s : State) :
    (startLearn n f m l s).pins = s.pins ∧ (startLearn n f m l s).clock = s.clock ∧ (startLearn n f m l s).pending =
    s.pending := by
  unfold startLearn
  try dsimp only
  (repeat' split) <;> simp

@[simp] theorem learnFan_keeps (n : SlotId) (f : FanId) (m : Byte) (s : State) :
    (learnFan n f m s).pins = s.pins ∧ (learnFan n f m s).clock = s.clock ∧ (learnFan n f m s).pending = s.pending := by
  unfold learnFan
  try dsimp only
  (repeat' split) <;> simp

@[simp] theorem learnOrder_keeps (n : SlotId) (s : State) :
    (learnOrder n s).pins = s.pins ∧ (learnOrder n s).clock = s.clock ∧ (learnOrder n s).pending = s.pending := by
  unfold learnOrder
  try dsimp only
  (repeat' split) <;> simp

/-! ### The orders of LGT, and ABORT (Machine/LightOrders.lean) -/

@[simp] theorem lightSet_keeps (n : SlotId) (c : Chan) (p : Option PatId) (s : State) :
    (lightSet n c p s).pins = s.pins ∧ (lightSet n c p s).bmon = s.bmon ∧ (lightSet n c p s).pseq = s.pseq ∧
    (lightSet n c p s).sbe = s.sbe ∧ (lightSet n c p s).thc = s.thc ∧ (lightSet n c p s).fanu = s.fanu ∧ (lightSet n
    c p s).clock = s.clock ∧ (lightSet n c p s).free = s.free ∧ (lightSet n c p s).pending = s.pending := by
  unfold lightSet
  try dsimp only
  (repeat' split) <;> simp

@[simp] theorem lightSetOrder_keeps (n : SlotId) (s : State) :
    (lightSetOrder n s).pins = s.pins ∧ (lightSetOrder n s).bmon = s.bmon ∧ (lightSetOrder n s).pseq = s.pseq ∧
    (lightSetOrder n s).sbe = s.sbe ∧ (lightSetOrder n s).thc = s.thc ∧ (lightSetOrder n s).fanu = s.fanu ∧
    (lightSetOrder n s).clock = s.clock ∧ (lightSetOrder n s).free = s.free ∧ (lightSetOrder n s).pending =
    s.pending := by
  unfold lightSetOrder
  try dsimp only
  (repeat' split) <;> simp

@[simp] theorem locate_keeps (n : SlotId) (l : List Bay) (p : Option PatId) (t : Nat) (s : State) :
    (locate n l p t s).pins = s.pins ∧ (locate n l p t s).bmon = s.bmon ∧ (locate n l p t s).pseq = s.pseq ∧ (locate
    n l p t s).sbe = s.sbe ∧ (locate n l p t s).thc = s.thc ∧ (locate n l p t s).fanu = s.fanu ∧ (locate n l p t
    s).clock = s.clock ∧ (locate n l p t s).free = s.free ∧ (locate n l p t s).pending = s.pending := by
  unfold locate
  try dsimp only
  (repeat' split) <;> simp

@[simp] theorem locateOrder_keeps (n : SlotId) (s : State) :
    (locateOrder n s).pins = s.pins ∧ (locateOrder n s).bmon = s.bmon ∧ (locateOrder n s).pseq = s.pseq ∧
    (locateOrder n s).sbe = s.sbe ∧ (locateOrder n s).thc = s.thc ∧ (locateOrder n s).fanu = s.fanu ∧ (locateOrder n
    s).clock = s.clock ∧ (locateOrder n s).free = s.free ∧ (locateOrder n s).pending = s.pending := by
  unfold locateOrder
  try dsimp only
  (repeat' split) <;> simp

@[simp] theorem locateExpiry_keeps (b : Bay) (s : State) :
    (locateExpiry b s).pins = s.pins ∧ (locateExpiry b s).bmon = s.bmon ∧ (locateExpiry b s).pseq = s.pseq ∧
    (locateExpiry b s).sbe = s.sbe ∧ (locateExpiry b s).thc = s.thc ∧ (locateExpiry b s).fanu = s.fanu ∧
    (locateExpiry b s).mem = s.mem ∧ (locateExpiry b s).clock = s.clock ∧ (locateExpiry b s).free = s.free ∧
    (locateExpiry b s).pending = s.pending := by
  unfold locateExpiry
  try dsimp only
  (repeat' split) <;> simp

@[simp] theorem activity_keeps (b : Bay) (s : State) :
    (activity b s).pins = s.pins ∧ (activity b s).bmon = s.bmon ∧ (activity b s).pseq = s.pseq ∧ (activity b s).sbe
    = s.sbe ∧ (activity b s).thc = s.thc ∧ (activity b s).fanu = s.fanu ∧ (activity b s).mem = s.mem ∧ (activity b
    s).clock = s.clock ∧ (activity b s).free = s.free ∧ (activity b s).pending = s.pending := by
  unfold activity
  try dsimp only
  simp

@[simp] theorem lightStep_keeps  (s : State) :
    (lightStep  s).pins = s.pins ∧ (lightStep  s).bmon = s.bmon ∧ (lightStep  s).pseq = s.pseq ∧ (lightStep  s).sbe
    = s.sbe ∧ (lightStep  s).thc = s.thc ∧ (lightStep  s).fanu = s.fanu ∧ (lightStep  s).mem = s.mem ∧ (lightStep
    s).clock = s.clock ∧ (lightStep  s).free = s.free ∧ (lightStep  s).pending = s.pending := by
  unfold lightStep
  try dsimp only
  simp

@[simp] theorem lightSync_keeps (n : SlotId) (c : Chan) (g : Fin 5) (s : State) :
    (lightSync n c g s).pins = s.pins ∧ (lightSync n c g s).bmon = s.bmon ∧ (lightSync n c g s).pseq = s.pseq ∧
    (lightSync n c g s).sbe = s.sbe ∧ (lightSync n c g s).thc = s.thc ∧ (lightSync n c g s).fanu = s.fanu ∧
    (lightSync n c g s).clock = s.clock ∧ (lightSync n c g s).free = s.free ∧ (lightSync n c g s).pending =
    s.pending := by
  unfold lightSync
  try dsimp only
  (repeat' split) <;> simp

@[simp] theorem lightSyncOrder_keeps (n : SlotId) (s : State) :
    (lightSyncOrder n s).pins = s.pins ∧ (lightSyncOrder n s).bmon = s.bmon ∧ (lightSyncOrder n s).pseq = s.pseq ∧
    (lightSyncOrder n s).sbe = s.sbe ∧ (lightSyncOrder n s).thc = s.thc ∧ (lightSyncOrder n s).fanu = s.fanu ∧
    (lightSyncOrder n s).clock = s.clock ∧ (lightSyncOrder n s).free = s.free ∧ (lightSyncOrder n s).pending =
    s.pending := by
  unfold lightSyncOrder
  try dsimp only
  (repeat' split) <;> simp

@[simp] theorem patternOrder_keeps (n : SlotId) (s : State) :
    (patternOrder n s).pins = s.pins ∧ (patternOrder n s).bmon = s.bmon ∧ (patternOrder n s).pseq = s.pseq ∧
    (patternOrder n s).sbe = s.sbe ∧ (patternOrder n s).thc = s.thc ∧ (patternOrder n s).fanu = s.fanu ∧
    (patternOrder n s).clock = s.clock ∧ (patternOrder n s).free = s.free ∧ (patternOrder n s).pending = s.pending := by
  unfold patternOrder
  try dsimp only
  (repeat' split) <;> simp

@[simp] theorem autoMapOrder_keeps (n : SlotId) (s : State) :
    (autoMapOrder n s).pins = s.pins ∧ (autoMapOrder n s).bmon = s.bmon ∧ (autoMapOrder n s).pseq = s.pseq ∧
    (autoMapOrder n s).sbe = s.sbe ∧ (autoMapOrder n s).thc = s.thc ∧ (autoMapOrder n s).fanu = s.fanu ∧
    (autoMapOrder n s).clock = s.clock ∧ (autoMapOrder n s).free = s.free ∧ (autoMapOrder n s).pending = s.pending := by
  unfold autoMapOrder
  try dsimp only
  (repeat' split) <;> simp

@[simp] theorem abortPowerOn_keeps (n t : SlotId) (x : Slot) (s : State) :
    (abortPowerOn n t x s).pins = s.pins ∧ (abortPowerOn n t x s).fanu = s.fanu ∧ (abortPowerOn n t x s).clock =
    s.clock ∧ (abortPowerOn n t x s).pending = s.pending := by
  unfold abortPowerOn
  try dsimp only
  (repeat' split) <;> simp

@[simp] theorem abortQuery_keeps (n t : SlotId) (x : Slot) (s : State) :
    (abortQuery n t x s).pins = s.pins ∧ (abortQuery n t x s).bmon = s.bmon ∧ (abortQuery n t x s).pseq = s.pseq ∧
    (abortQuery n t x s).thc = s.thc ∧ (abortQuery n t x s).fanu = s.fanu ∧ (abortQuery n t x s).lgt = s.lgt ∧
    (abortQuery n t x s).clock = s.clock ∧ (abortQuery n t x s).free = s.free ∧ (abortQuery n t x s).pending =
    s.pending := by
  unfold abortQuery
  try dsimp only
  (repeat' split) <;> simp

@[simp] theorem abortLearn_keeps (n t : SlotId) (x : Slot) (s : State) :
    (abortLearn n t x s).pins = s.pins ∧ (abortLearn n t x s).clock = s.clock ∧ (abortLearn n t x s).pending =
    s.pending := by
  unfold abortLearn
  try dsimp only
  (repeat' split) <;> simp

@[simp] theorem abortTaken_keeps (n t : SlotId) (x : Slot) (s : State) :
    (abortTaken n t x s).pins = s.pins ∧ (abortTaken n t x s).clock = s.clock ∧ (abortTaken n t x s).pending =
    s.pending := by
  unfold abortTaken
  try dsimp only
  (repeat' split) <;> simp

@[simp] theorem abortOrder_keeps (n : SlotId) (s : State) :
    (abortOrder n s).pins = s.pins ∧ (abortOrder n s).clock = s.clock ∧ (abortOrder n s).pending = s.pending := by
  unfold abortOrder
  try dsimp only
  (repeat' split) <;> simp

@[simp] theorem takeBad_keeps  (s : State) :
    (takeBad  s).pins = s.pins ∧ (takeBad  s).bmon = s.bmon ∧ (takeBad  s).pseq = s.pseq ∧ (takeBad  s).sbe = s.sbe
    ∧ (takeBad  s).thc = s.thc ∧ (takeBad  s).fanu = s.fanu ∧ (takeBad  s).lgt = s.lgt ∧ (takeBad  s).clock =
    s.clock ∧ (takeBad  s).free = s.free ∧ (takeBad  s).pending = s.pending := by
  unfold takeBad
  try dsimp only
  (repeat' split) <;> simp

/-! ### The events and the counters (Machine/Events.lean, Machine/Registers.lean) -/

@[simp] theorem setPowerGood_keeps (b : Bay) (x : Bool) (s : State) :
    (setPowerGood b x s).bmon = s.bmon ∧ (setPowerGood b x s).pseq = s.pseq ∧ (setPowerGood b x s).sbe = s.sbe ∧
    (setPowerGood b x s).thc = s.thc ∧ (setPowerGood b x s).fanu = s.fanu ∧ (setPowerGood b x s).lgt = s.lgt ∧
    (setPowerGood b x s).exp = s.exp ∧ (setPowerGood b x s).mem = s.mem ∧ (setPowerGood b x s).clock = s.clock ∧
    (setPowerGood b x s).free = s.free ∧ (setPowerGood b x s).pending = s.pending := by
  unfold setPowerGood
  try dsimp only
  simp

@[simp] theorem powerGoodRises_keeps (b : Bay) (s : State) :
    (powerGoodRises b s).fanu = s.fanu ∧ (powerGoodRises b s).clock = s.clock ∧ (powerGoodRises b s).free = s.free ∧
    (powerGoodRises b s).pending = s.pending := by
  unfold powerGoodRises
  try dsimp only
  (repeat' split) <;> simp

@[simp] theorem tripRises_keeps (b : Bay) (s : State) :
    (tripRises b s).pins = s.pins ∧ (tripRises b s).fanu = s.fanu ∧ (tripRises b s).clock = s.clock ∧ (tripRises b
    s).pending = s.pending := by
  unfold tripRises
  try dsimp only
  (repeat' split) <;> simp

@[simp] theorem powerGoodFalls_keeps (b : Bay) (s : State) :
    (powerGoodFalls b s).fanu = s.fanu ∧ (powerGoodFalls b s).clock = s.clock ∧ (powerGoodFalls b s).pending =
    s.pending := by
  unfold powerGoodFalls
  try dsimp only
  simp

@[simp] theorem rampEnd_keeps (b : Bay) (s : State) :
    (rampEnd b s).pins = s.pins ∧ (rampEnd b s).fanu = s.fanu ∧ (rampEnd b s).clock = s.clock ∧ (rampEnd b
    s).pending = s.pending := by
  unfold rampEnd
  try dsimp only
  (repeat' split) <;> simp

@[simp] theorem holdOver_keeps (b : Bay) (s : State) :
    (holdOver b s).pins = s.pins ∧ (holdOver b s).fanu = s.fanu ∧ (holdOver b s).clock = s.clock ∧ (holdOver b
    s).free = s.free ∧ (holdOver b s).pending = s.pending := by
  unfold holdOver
  try dsimp only
  (repeat' split) <;> simp

@[simp] theorem staggerOut_keeps  (s : State) :
    (staggerOut  s).pins = s.pins ∧ (staggerOut  s).fanu = s.fanu ∧ (staggerOut  s).clock = s.clock ∧ (staggerOut
    s).pending = s.pending := by
  unfold staggerOut
  try dsimp only
  (repeat' split) <;> simp

@[simp] theorem shedTaken_keeps (b : Bay) (s : State) :
    (shedTaken b s).pins = s.pins ∧ (shedTaken b s).fanu = s.fanu ∧ (shedTaken b s).clock = s.clock ∧ (shedTaken b
    s).pending = s.pending := by
  unfold shedTaken
  try dsimp only
  (repeat' split) <;> simp

@[simp] theorem tickOn_keeps  (s : State) :
    (tickOn  s).pins = s.pins ∧ (tickOn  s).bmon = s.bmon ∧ (tickOn  s).sbe = s.sbe ∧ (tickOn  s).thc = s.thc ∧
    (tickOn  s).fanu = s.fanu ∧ (tickOn  s).lgt = s.lgt ∧ (tickOn  s).mem = s.mem ∧ (tickOn  s).free = s.free ∧
    (tickOn  s).pending = s.pending := by
  unfold tickOn
  try dsimp only
  simp

end Sys2Proof.Machine
end

