-- ==== Sys2Proof/Laws/State.lean ====
section
/-! SUPPORT. What each base operation writes, one lemma per field, and what the readers see of it. -/

namespace Sys2Proof.Machine

/-- Reading a vector at a `Fin` index after one write. -/
theorem getFin_set {α : Type} {n : Nat} (v : Vector α n) (i j : Fin n) (x : α) :
    (v.set i x)[j] = if j = i then x else v[j] := by
  simp only [Fin.getElem_fin, Vector.getElem_set, Fin.ext_iff]
  by_cases h : i.val = j.val
  · simp [h]
  · simp [h, Ne.symm h]

/-- Reading a vector given by a function. -/
theorem getFin_ofFn {α : Type} {n : Nat} (f : Fin n → α) (j : Fin n) : (Vector.ofFn f)[j] = f j := by simp

/-- Reading a vector of equal entries. -/
theorem getFin_replicate {α : Type} {n : Nat} (x : α) (j : Fin n) : (Vector.replicate n x)[j] = x := by simp

/-- Two vectors that read alike are equal. -/
theorem vector_ext {α : Type} {n : Nat} {v w : Vector α n} (h : ∀ i : Fin n, v[i] = w[i]) : v = w := by
  ext i hi
  exact h ⟨i, hi⟩

/-! ### Marks -/

@[simp] theorem mark_exp (r : MirrorRec) (n : Bool) (s : State) :
    (mark r n s).exp = { s.exp with dirty := addMark r n s.exp.dirty, stepMarks := noteMark r s.exp.stepMarks } := rfl

theorem markIf_exp (c : Bool) (r : MirrorRec) (n : Bool) (s : State) :
    (markIf c r n s).exp = if c then (mark r n s).exp else s.exp := by unfold markIf; split <;> rfl

/-- A mark changes the dirty set and the note of the step, and nothing else of EXP. -/
theorem markIf_exp_fields (c : Bool) (r : MirrorRec) (n : Bool) (s : State) :
    ∃ d m, (markIf c r n s).exp = { s.exp with dirty := d, stepMarks := m } := by
  unfold markIf
  split
  · exact ⟨_, _, rfl⟩
  · exact ⟨_, _, rfl⟩

@[simp] theorem useFree_free (s : State) : (useFree s).free = s.free + 1 := rfl

/-! ### Bay records -/

@[simp] theorem updBay_bmon (b : Bay) (f : BayRec → BayRec) (s : State) :
    (updBay b f s).bmon = { s.bmon with bays := s.bmon.bays.set b (f (s.bay b)) } := by simp [updBay]

@[simp] theorem pushHistory_bmon (b : Bay) (ev : HistEvent) (s : State) :
    (pushHistory b ev s).bmon = { s.bmon with bays := s.bmon.bays.set b ((s.bay b).pushed ev s.clock.uptime) } := by
  simp [pushHistory, State.bay]

@[simp] theorem setDebounce_bmon (b : Bay) (t : Timer) (s : State) :
    (setDebounce b t s).bmon = { s.bmon with debounce := s.bmon.debounce.set b t } := rfl

@[simp] theorem setReplug_bmon (b : Bay) (t : Timer) (s : State) :
    (setReplug b t s).bmon = { s.bmon with replug := s.bmon.replug.set b t } := rfl

@[simp] theorem turnBay_bmon (b : Bay) (j : Option QEntry) (f : BayRec → BayRec) (s : State) :
    (turnBay b j f s).bmon = { s.bmon with bays := s.bmon.bays.set b (f (s.bay b)) } := by
  simp [turnBay, State.bay]

@[simp] theorem moveBayWith_bmon (j : Option QEntry) (b : Bay) (f : BayRec → BayRec) (s : State) :
    (moveBayWith j b f s).bmon = { s.bmon with bays := s.bmon.bays.set b (f (s.bay b)) } := by simp [moveBayWith]

@[simp] theorem moveBay_bmon (b : Bay) (f : BayRec → BayRec) (s : State) :
    (moveBay b f s).bmon = { s.bmon with bays := s.bmon.bays.set b (f (s.bay b)) } := by simp [moveBay]

/-! Reading a bay's record after each. -/

theorem bay_of_bmon {s t : State} (h : s.bmon = t.bmon) (b : Bay) : s.bay b = t.bay b := by simp [State.bay, h]

theorem bay_updBay (b b' : Bay) (f : BayRec → BayRec) (s : State) :
    (updBay b f s).bay b' = if b' = b then f (s.bay b) else s.bay b' := by
  simp only [State.bay, updBay_bmon, getFin_set]

theorem bay_pushHistory (b b' : Bay) (ev : HistEvent) (s : State) :
    (pushHistory b ev s).bay b' = if b' = b then (s.bay b).pushed ev s.clock.uptime else s.bay b' := by
  simp only [State.bay, pushHistory_bmon, getFin_set]

theorem bay_turnBay (b b' : Bay) (j : Option QEntry) (f : BayRec → BayRec) (s : State) :
    (turnBay b j f s).bay b' = if b' = b then f (s.bay b) else s.bay b' := by
  simp only [State.bay, turnBay_bmon, getFin_set]

theorem bay_moveBayWith (j : Option QEntry) (b b' : Bay) (f : BayRec → BayRec) (s : State) :
    (moveBayWith j b f s).bay b' = if b' = b then f (s.bay b) else s.bay b' := by
  simp only [State.bay, moveBayWith_bmon, getFin_set]

theorem bay_moveBay (b b' : Bay) (f : BayRec → BayRec) (s : State) :
    (moveBay b f s).bay b' = if b' = b then f (s.bay b) else s.bay b' := bay_moveBayWith none b b' f s

/-- The record a bay has after a list of history entries. -/
def BayRec.pushedAll (r : BayRec) (events : List HistEvent) (stamp : Word) : BayRec :=
  events.foldl (fun r ev => r.pushed ev stamp) r

theorem bay_pushes (b b' : Bay) (events : List HistEvent) (s : State) :
    (events.foldl (fun s ev => pushHistory b ev s) s).bay b'
      = if b' = b then (s.bay b).pushedAll events s.clock.uptime else s.bay b' := by
  induction events generalizing s with
  | nil => by_cases h : b' = b <;> simp [BayRec.pushedAll, h]
  | cons ev rest ih =>
    rw [List.foldl_cons, ih]
    by_cases h : b' = b <;> simp [BayRec.pushedAll, h, bay_pushHistory]

/-- BMON's record after a report: acted on where the record allows it, with its history (R2). -/
theorem bay_report (b b' : Bay) (acts : BayRec → Bool) (f : BayRec → BayRec) (events : List HistEvent) (s : State) :
    (report b acts f events s).bay b'
      = if b' = b ∧ acts (s.bay b) = true then (f (s.bay b)).pushedAll events s.clock.uptime else s.bay b' := by
  unfold report
  by_cases h : acts (s.bay b) = true
  · rw [if_pos h, bay_pushes, bay_moveBay]
    by_cases hb : b' = b <;> simp [h, hb, bay_moveBay]
  · simp [h]

/-! What a history entry leaves of a record. -/

@[simp] theorem BayRec.pushed_fields (r : BayRec) (ev : HistEvent) (w : Word) :
    (r.pushed ev w).state = r.state ∧ (r.pushed ev w).stopPhase = r.stopPhase ∧
    (r.pushed ev w).settlingFrom = r.settlingFrom ∧ (r.pushed ev w).faultCause = r.faultCause ∧
    (r.pushed ev w).replugCount = r.replugCount ∧ (r.pushed ev w).driveClass = r.driveClass ∧
    (r.pushed ev w).unrecognised = r.unrecognised ∧ (r.pushed ev w).identity = r.identity ∧
    (r.pushed ev w).healthWarn = r.healthWarn ∧ (r.pushed ev w).lastGood = r.lastGood ∧
    (r.pushed ev w).charge = r.charge ∧ (r.pushed ev w).policy = r.policy ∧ (r.pushed ev w).powerOrder = r.powerOrder ∧
    (r.pushed ev w).head = r.head + 1 ∧ (r.pushed ev w).nextSeq = r.nextSeq + 1 := by simp [BayRec.pushed]

@[simp] theorem BayRec.pushedAll_nil (r : BayRec) (w : Word) : r.pushedAll [] w = r := rfl

@[simp] theorem BayRec.pushedAll_cons (r : BayRec) (ev : HistEvent) (l : List HistEvent) (w : Word) :
    r.pushedAll (ev :: l) w = (r.pushed ev w).pushedAll l w := rfl

/-- History entries leave every field of a record but the ring, its head and the next number. -/
@[simp] theorem BayRec.pushedAll_fields (r : BayRec) (l : List HistEvent) (w : Word) :
    (r.pushedAll l w).state = r.state ∧ (r.pushedAll l w).stopPhase = r.stopPhase ∧
    (r.pushedAll l w).settlingFrom = r.settlingFrom ∧ (r.pushedAll l w).faultCause = r.faultCause ∧
    (r.pushedAll l w).replugCount = r.replugCount ∧ (r.pushedAll l w).driveClass = r.driveClass ∧
    (r.pushedAll l w).unrecognised = r.unrecognised ∧ (r.pushedAll l w).identity = r.identity ∧
    (r.pushedAll l w).healthWarn = r.healthWarn ∧ (r.pushedAll l w).lastGood = r.lastGood ∧
    (r.pushedAll l w).charge = r.charge ∧ (r.pushedAll l w).policy = r.policy ∧
    (r.pushedAll l w).powerOrder = r.powerOrder := by
  induction l generalizing r with
  | nil => simp
  | cons ev rest ih =>
    have := ih (r.pushed ev w)
    simpa using this

/-! ### PSEQ -/

@[simp] theorem updPseq_pseq (f : Pseq → Pseq) (s : State) : (updPseq f s).pseq = f s.pseq := by simp [updPseq]

@[simp] theorem updAccount_pseq (f : Account → Account) (s : State) :
    (updAccount f s).pseq = { s.pseq with account := f s.pseq.account } := by simp [updAccount]

@[simp] theorem updPath_pseq (b : Bay) (f : Path → Path) (s : State) :
    (updPath b f s).pseq = { s.pseq with paths := s.pseq.paths.set b (f (s.path b)) } := rfl

@[simp] theorem dropEntry_pseq (b : Bay) (s : State) :
    (dropEntry b s).pseq = { s.pseq with
      urgent := s.pseq.urgent.filter (fun e => e.bay ≠ b), normal := s.pseq.normal.filter (fun e => e.bay ≠ b) } := by
  simp [dropEntry]

@[simp] theorem turnBay_pseq (b : Bay) (j : Option QEntry) (f : BayRec → BayRec) (s : State) :
    (turnBay b j f s).pseq = s.pseq.follow b j (s.bay b) (f (s.bay b)) := by simp [turnBay]

@[simp] theorem moveBayWith_pseq (j : Option QEntry) (b : Bay) (f : BayRec → BayRec) (s : State) :
    (moveBayWith j b f s).pseq = s.pseq.follow b j (s.bay b) (f (s.bay b)) := by simp [moveBayWith]

@[simp] theorem moveBay_pseq (b : Bay) (f : BayRec → BayRec) (s : State) :
    (moveBay b f s).pseq = s.pseq.follow b none (s.bay b) (f (s.bay b)) := by simp [moveBay]

@[simp] theorem Pseq.follow_paths (p : Pseq) (b : Bay) (j : Option QEntry) (r r' : BayRec) :
    (p.follow b j r r').paths = p.paths ∧ (p.follow b j r r').sheds = p.sheds ∧
    (p.follow b j r r').account.settings = p.account.settings ∧
    (p.follow b j r r').account.fanEstimate = p.account.fanEstimate ∧
    (p.follow b j r r').account.staggerTimer = p.account.staggerTimer ∧
    (p.follow b j r r').account.sinceAdmission = p.account.sinceAdmission ∧
    (p.follow b j r r').account.blocked = p.account.blocked := by simp [Pseq.follow, Account.follow]

theorem path_updPath (b b' : Bay) (f : Path → Path) (s : State) :
    (updPath b f s).path b' = if b' = b then f (s.path b) else s.path b' := by
  simp only [State.path, updPath_pseq, getFin_set]

/-- The power paths after a report are those before it. -/
theorem report_paths (b : Bay) (acts : BayRec → Bool) (f : BayRec → BayRec) (events : List HistEvent) (s : State) :
    (report b acts f events s).pseq.paths = s.pseq.paths := by
  have h := fun s : State => foldl_keeps (fun s => s.pseq.paths) (fun s ev => pushHistory b ev s) (by simp) events s
  unfold report
  split <;> simp [h]

/-! ### SBE, THC, FANU, LGT -/

@[simp] theorem setFlight_sbe (t : Txn) (s : State) : (setFlight t s).sbe = { s.sbe with flight := some t } := rfl

@[simp] theorem pollLeft_sbe (b : Bay) (s : State) : (pollLeft b s).sbe =
    { s.sbe with pollQ := s.sbe.pollQ.filter fun e => !(decide (e.bay = b) && decide (e.origin = .poll)) } := rfl

@[simp] theorem setSensor_thc (i : SensorId) (t : Thc) (s : State) : (setSensor i t s).thc = t := by simp [setSensor]

@[simp] theorem startBoardReads_thc (s : State) : (startBoardReads s).thc = { s.thc with
    reading := Vector.ofFn fun n => s.thc.reading[n] || s.thc.fitted[n], readTimer := some boardReadMs } := rfl

@[simp] theorem updFan_fanu (f : FanId) (g : FanRec → FanRec) (s : State) :
    (updFan f g s).fanu = { s.fanu with fans := s.fanu.fans.set f (g (s.fan f)) } := by simp [updFan]

@[simp] theorem updWork_fanu (f : FanId) (g : FanWork → FanWork) (s : State) :
    (updWork f g s).fanu = { s.fanu with work := s.fanu.work.set f (g (s.fanWork f)) } := rfl

theorem fan_updFan (f f' : FanId) (g : FanRec → FanRec) (s : State) :
    (updFan f g s).fan f' = if f' = f then g (s.fan f) else s.fan f' := by simp only [State.fan, updFan_fanu, getFin_set]

theorem fanWork_updWork (f f' : FanId) (g : FanWork → FanWork) (s : State) :
    (updWork f g s).fanWork f' = if f' = f then g (s.fanWork f) else s.fanWork f' := by
  simp only [State.fanWork, updWork_fanu, getFin_set]

@[simp] theorem setLgt_lgt (l : Lgt) (s : State) : (setLgt l s).lgt = l := by
  unfold setLgt
  exact foldl_keeps (fun s => s.lgt) _ (by simp) _ _

/-! ### EXP, the pins and the counters -/

@[simp] theorem takeSlot_exp (n : SlotId) (s : State) : (takeSlot n s).exp = { s.exp with
    pointer := n
    slots := s.exp.slots.set n { state := .taken, kind := orderKind s n, tag := orderTag s n } } := rfl

theorem slot_takeSlot (n m : SlotId) (s : State) :
    (takeSlot n s).slot m = if m = n then ⟨.taken, orderKind s n, orderTag s n⟩ else s.slot m := by
  simp only [State.slot, takeSlot_exp, getFin_set]

@[simp] theorem updExp_exp (f : Exp → Exp) (s : State) : (updExp f s).exp = f s.exp := rfl

@[simp] theorem hostWrites_mem (w : List HostWrite) (s : State) :
    (hostWrites w s).mem = w.foldl Memory.hostWrite s.mem := rfl

@[simp] theorem setPowerGood_pins (b : Bay) (on : Bool) (s : State) :
    (setPowerGood b on s).pins = { s.pins with powerGood := s.pins.powerGood.set b on } := rfl

@[simp] theorem togglePresence_pins (b : Bay) (s : State) : (togglePresence b s).pins =
    { s.pins with presence := s.pins.presence.set b s.pins.presence[b].toggled } := rfl

@[simp] theorem tickOn_clock (s : State) : (tickOn s).clock = { s.clock with tick := s.clock.tick + 1 } := by
  simp [tickOn]

end Sys2Proof.Machine
end

