-- ==== Sys2Proof/Laws/Changes.lean ====
section
/-! SUPPORT. Once and for all, what the body of a command can do: a chain of the changes listed in `Changes`.  An
invariant is proved once for each kind of change, not once for each operation. -/

namespace Sys2Proof.Machine

/-- What a change of bay `b`'s record to `r'` keeps to: the record keeps its shape (R1), only a bay that joins the
queue becomes QUEUED (R30), and a charge is taken by an admission that fits and otherwise only lowered or
released (R26, R35, R36). -/
structure Turn (s : State) (b : Bay) (join : Option QEntry) (r' : BayRec) : Prop where
  shape : BayShape (s.bay b) → BayShape r'
  stays : join = none → r'.state = .queued → (s.bay b).state = .queued
  joins : ∀ e, join = some e → e.bay = b ∧ (s.bay b).state ≠ .queued ∧ r'.state = .queued
  money : ((r'.charge = (s.bay b).charge ∨ r'.charge = none ∨ r'.charge = lowered (s.bay b).charge)
      ∧ (r'.state.starting = true → (s.bay b).state.starting = true))
    ∨ (placeFree s = true ∧ budgetFits s b = true ∧ r'.charge = some ⟨pairNow s b, .inrush⟩)

/-- A change of a record that touches neither its state nor its charge. -/
structure Quiet (r r' : BayRec) : Prop where
  shape : BayShape r → BayShape r'
  state : r'.state = r.state
  charge : r'.charge = r.charge

/-- A change of PSEQ that touches neither D, the starting count, the settings nor who waits in the queue. -/
structure PseqQuiet (p p' : Pseq) : Prop where
  drives : p'.account.drives = p.account.drives
  starting : p'.account.starting = p.account.starting
  settings : p'.account.settings = p.account.settings
  urgent : p'.urgent.map QEntry.slotless = p.urgent.map QEntry.slotless
  normal : p'.normal.map QEntry.slotless = p.normal.map QEntry.slotless

/-- The states a command's body can reach from `s`. -/
inductive Changes (s : State) : State → Prop
  | refl : Changes s s
  | mark {t : State} (r : MirrorRec) (n : Bool) : Changes s t → Changes s (mark r n t)
  | histPending {t : State} (v : Vector Byte 24) : Changes s t →
      Changes s { t with exp := { t.exp with histPending := v } }
  | complete {t : State} (n : SlotId) (r : Result) (d : List Byte) : Changes s t → Changes s (complete n r d t)
  | takeSlot {t : State} (n : SlotId) : Changes s t → (t.slot n).state = .posted → Changes s (takeSlot n t)
  | record {t : State} (b : Bay) (r' : BayRec) : Changes s t → Quiet (t.bay b) r' →
      Changes s { t with bmon := { t.bmon with bays := t.bmon.bays.set b r' } }
  | timers {t : State} (d r : Vector Timer 24) : Changes s t →
      Changes s { t with bmon := { t.bmon with debounce := d, replug := r } }
  | turn {t : State} (b : Bay) (j : Option QEntry) (f : BayRec → BayRec) : Changes s t → Turn t b j (f (t.bay b)) →
      Changes s (turnBay b j f t)
  | pseq {t : State} (p : Pseq) : Changes s t → PseqQuiet t.pseq p → Changes s { t with pseq := p }
  | drop {t : State} (b : Bay) : Changes s t → (t.bay b).state ≠ .queued → Changes s (dropEntry b t)
  | settings {t : State} (c : Settings) (k : Nat) : Changes s t → budgetRefusal c t.account = none →
      Changes s { t with pseq := { t.pseq with account := t.pseq.account.accepted c k } }
  | sbe {t : State} (x : Sbe) : Changes s t → (SbeBounded t.sbe → SbeBounded x) → Changes s { t with sbe := x }
  | thc {t : State} (x : Thc) : Changes s t → (ThcInRange t.thc → ThcInRange x) → Changes s { t with thc := x }
  | fanu {t : State} (x : Fanu) : Changes s t → (ThcInRange t.thc → FanuInRange t.fanu → FanuInRange x) →
      Changes s { t with fanu := x }
  | lgt {t : State} (x : Lgt) : Changes s t → (LgtSound t.lgt → LgtSound x) → Changes s { t with lgt := x }
  | pins {t : State} (x : Pins) : Changes s t → Changes s { t with pins := x }
  | clock {t : State} (x : Clock) : Changes s t → Changes s { t with clock := x }
  | free {t : State} (x : Nat) : Changes s t → Changes s { t with free := x }

theorem Changes.foldl {α : Type} {s : State} {f : State → α → State}
    (h : ∀ t a, Changes s t → Changes s (f t a)) (l : List α) {t : State} (ht : Changes s t) :
    Changes s (l.foldl f t) := by
  induction l generalizing t with
  | nil => exact ht
  | cons a rest ih => exact ih (h t a ht)

variable {s t : State}

/-! ### The base operations -/

theorem Changes.markIf (c : Bool) (r : MirrorRec) (n : Bool) (h : Changes s t) : Changes s (markIf c r n t) := by
  unfold Machine.markIf
  split
  · exact h.mark r n
  · exact h

theorem Changes.useFree (h : Changes s t) : Changes s (useFree t) := h.free _

theorem Changes.updBay (b : Bay) (f : BayRec → BayRec) (h : Changes s t) (hq : Quiet (t.bay b) (f (t.bay b))) :
    Changes s (updBay b f t) := (h.record b _ hq).markIf _ _ _

theorem Quiet.pushed (r : BayRec) (ev : HistEvent) (w : Word) : Quiet r (r.pushed ev w) := by
  refine ⟨fun h => ?_, rfl, rfl⟩
  obtain ⟨h1, h2, h3, h4, h5, h6, h7, h8, h9⟩ := h
  exact ⟨h1, h2, h3, h4, h5, h6, h7, h8, h9⟩

theorem Changes.pushHistory (b : Bay) (ev : HistEvent) (h : Changes s t) : Changes s (pushHistory b ev t) := by
  unfold Machine.pushHistory
  exact Changes.updBay b _ (h.histPending _) (Quiet.pushed _ _ _)

theorem Changes.pushes (b : Bay) (l : List HistEvent) (h : Changes s t) :
    Changes s (l.foldl (fun s ev => Machine.pushHistory b ev s) t) :=
  h.foldl (fun _ _ h => h.pushHistory _ _) l

theorem Changes.setDebounce (b : Bay) (x : Timer) (h : Changes s t) : Changes s (setDebounce b x t) := h.timers _ _

theorem Changes.setReplug (b : Bay) (x : Timer) (h : Changes s t) : Changes s (setReplug b x t) := h.timers _ _

theorem Changes.updPseq (f : Pseq → Pseq) (h : Changes s t) (hq : PseqQuiet t.pseq (f t.pseq)) :
    Changes s (updPseq f t) := (h.pseq _ hq).markIf _ _ _

theorem Changes.updAccount (f : Account → Account) (h : Changes s t) (h1 : (f t.account).drives = t.account.drives)
    (h2 : (f t.account).starting = t.account.starting) (h3 : (f t.account).settings = t.account.settings) :
    Changes s (updAccount f t) := h.updPseq _ ⟨h1, h2, h3, rfl, rfl⟩

theorem Changes.updPath (b : Bay) (f : Path → Path) (h : Changes s t) : Changes s (updPath b f t) :=
  h.pseq _ ⟨rfl, rfl, rfl, rfl, rfl⟩

theorem Changes.completeOpt (o : Option SlotId) (r : Result) (d : List Byte) (h : Changes s t) :
    Changes s (completeOpt o r d t) := by
  cases o with
  | none => exact h
  | some n => exact h.complete n r d

/-! ### The sideband queue -/

theorem SbeBounded.beginTxn {b : Sbe} (h : SbeBounded b) (e : SbEntry) (now : Word) :
    SbeBounded { b with flight := some (beginTxn e now) } := by
  refine ⟨h.orderRoom, h.pollOnce, h.interval, fun t ht => ?_⟩
  cases ht
  simp [Machine.beginTxn]

theorem Changes.startNext (h : Changes s t) : Changes s (startNext t) := by
  unfold Machine.startNext
  split
  · exact h
  · split
    · rename_i e rest hq
      refine h.sbe _ fun hb => ?_
      have := hb.orderRoom
      rw [hq] at this
      exact SbeBounded.beginTxn (b := { t.sbe with orderQ := rest })
        ⟨by simp at this ⊢; omega, hb.pollOnce, hb.interval, hb.counts⟩ e _
    · split
      · rename_i e rest hq
        refine h.sbe _ fun hb => ?_
        have := hb.pollOnce
        rw [hq] at this
        exact SbeBounded.beginTxn (b := { t.sbe with pollQ := rest })
          ⟨hb.orderRoom, (List.nodup_cons.mp this).2, hb.interval, hb.counts⟩ e _
      · exact h

theorem Changes.joinOrder (e : SbEntry) (h : Changes s t) (hr : orderRoom t = true) : Changes s (joinOrder e t) := by
  refine Changes.startNext (h.sbe _ fun hb => ?_)
  refine ⟨?_, hb.pollOnce, hb.interval, hb.counts⟩
  simp only [Machine.orderRoom, decide_eq_true_eq] at hr
  simp; omega

theorem SbeBounded.pollJoined {b : Sbe} (hb : SbeBounded b) (e : SbEntry) (hr : (b.pollQ.any fun x => x.bay = e.bay) = false) :
    SbeBounded { b with pollQ := b.pollQ ++ [e] } := by
  refine ⟨hb.orderRoom, ?_, hb.interval, hb.counts⟩
  have : e.bay ∉ b.pollQ.map SbEntry.bay := by
    intro hm
    obtain ⟨x, hx, hxe⟩ := List.mem_map.mp hm
    simp only [List.any_eq_false, decide_eq_true_eq] at hr
    exact hr x hx hxe
  simpa [List.nodup_append, hb.pollOnce] using fun x hx hxe => this (List.mem_map.mpr ⟨x, hx, hxe⟩)

theorem Changes.joinPoll (e : SbEntry) (h : Changes s t) (hr : pollQueued t e.bay = false) : Changes s (joinPoll e t) :=
  Changes.startNext (h.sbe _ fun hb => hb.pollJoined e hr)

theorem Changes.placePoll (b : Bay) (h : Changes s t) : Changes s (placePoll b t) := by
  unfold Machine.placePoll
  split
  · exact h
  · rename_i hq
    refine Changes.joinPoll _ (h.sbe _ fun hb => ⟨hb.orderRoom, hb.pollOnce, hb.interval, hb.counts⟩) ?_
    exact Bool.eq_false_iff.mpr hq

theorem Changes.pollVisit (h : Changes s t) : Changes s (pollVisit t) := by
  refine Changes.foldl (fun t b h => ?_) _ (h.sbe _ fun hb => ⟨hb.orderRoom, hb.pollOnce, hb.interval, hb.counts⟩)
  unfold visitBay
  split
  · exact h.placePoll b
  · exact h

theorem Changes.pollEntered (b : Bay) (h : Changes s t) : Changes s (pollEntered b t) :=
  Changes.placePoll b (h.sbe _ fun hb => ⟨hb.orderRoom, hb.pollOnce, hb.interval, hb.counts⟩)

theorem Changes.pollLeft (b : Bay) (h : Changes s t) : Changes s (pollLeft b t) :=
  h.sbe _ fun hb => ⟨hb.orderRoom, (List.Sublist.map _ List.filter_sublist).nodup hb.pollOnce, hb.interval, hb.counts⟩

theorem Changes.followUp (e : SbEntry) (h : Changes s t) : Changes s (followUp e t) := by
  unfold Machine.followUp
  split
  · rename_i hc
    exact h.sbe _ fun hb => hb.pollJoined _ hc.2.2.2
  · exact h

theorem Changes.requestIdent (b : Bay) (h : Changes s t) : Changes s (requestIdent b t) := by
  unfold Machine.requestIdent
  split
  · exact h
  · rename_i hq
    exact h.joinPoll _ (Bool.eq_false_iff.mpr hq)

theorem SbeBounded.idle {b : Sbe} (hb : SbeBounded b) : SbeBounded { b with flight := none } :=
  ⟨hb.orderRoom, hb.pollOnce, hb.interval, fun _ h => by cases h⟩

theorem Changes.purgeBay (b : Bay) (h : Changes s t) : Changes s (purgeBay b t) := by
  refine Changes.startNext ?_
  have h1 : Changes s (endFlightEmpty b t) := by
    unfold endFlightEmpty
    split
    · exact h
    · split
      · exact (h.sbe _ fun hb => hb.idle).completeOpt _ _ _
      · exact h
  refine Changes.foldl (fun t e h => h.completeOpt _ _ _) _ (h1.sbe _ fun hb => ?_)
  exact ⟨le_trans (List.length_filter_le _ _) hb.orderRoom,
    (List.Sublist.map _ List.filter_sublist).nodup hb.pollOnce, hb.interval, hb.counts⟩

end Sys2Proof.Machine
end

