-- ==== Sys2Proof/Laws/LightRange.lean ====
section
/-! SUPPORT. That every operation of the Light Engine keeps its channels and patterns sound. -/

namespace Sys2Proof.Machine

variable {p : Pattern} {ch ch' : Channel} {l : Lgt} {w : Vector Pattern 16} {c : Chan}

theorem levelOf_mono {m n : Nat} (h : m ≤ n) : levelOf m ≤ levelOf n := by unfold levelOf; omega

theorem levelOf_range {n : Nat} (h : n ≤ 255) : levelOf n ≤ 65535 := by unfold levelOf; omega

/-! ### What the envelope leaves of a channel -/

/-- Two records of a channel with the same layers, drive and LOCATE timer. -/
structure SameDrive (ch ch' : Channel) : Prop where
  auto : ch'.auto = ch.auto
  order : ch'.order = ch.order
  locate : ch'.locate = ch.locate
  layer : ch'.layer = ch.layer
  pattern : ch'.pattern = ch.pattern
  timer : ch'.locateTimer = ch.locateTimer
  deadline : ch'.deadline = ch.deadline

theorem SameDrive.trans {ch'' : Channel} (h : SameDrive ch ch') (h' : SameDrive ch' ch'') : SameDrive ch ch'' :=
  ⟨h'.auto.trans h.auto, h'.order.trans h.order, h'.locate.trans h.locate, h'.layer.trans h.layer,
    h'.pattern.trans h.pattern, h'.timer.trans h.timer, h'.deadline.trans h.deadline⟩

theorem SameDrive.driving (h : SameDrive ch ch') : driving ch' = driving ch := by
  simp [Machine.driving, h.auto, h.order, h.locate]

/-- An envelope's change of a channel that stays at or below the peak of its pattern. -/
structure Moves (p : Pattern) (ch ch' : Channel) : Prop where
  drive : SameDrive ch ch'
  level : ch.level ≤ levelOf p.peak → ch'.level ≤ levelOf p.peak
  openings : ch.openings ≤ 255 → ch'.openings ≤ 255

theorem Moves.trans {ch'' : Channel} (h : Moves p ch ch') (h' : Moves p ch' ch'') : Moves p ch ch'' :=
  ⟨h.drive.trans h'.drive, fun x => h'.level (h.level x), fun x => h'.openings (h.openings x)⟩

/-- A change of the gate and its count alone. -/
theorem Moves.gate (g : Gate) (n : Nat) : Moves p ch { ch with gate := g, count := n } :=
  ⟨⟨rfl, rfl, rfl, rfl, rfl, rfl, rfl⟩, id, id⟩

theorem Moves.beginDecay (hp : PatternInRange p) : Moves p ch (beginDecay p ch) := by
  unfold Machine.beginDecay
  split
  · exact ⟨⟨rfl, rfl, rfl, rfl, rfl, rfl, rfl⟩, fun _ => levelOf_mono hp.sustain, id⟩
  · exact ⟨⟨rfl, rfl, rfl, rfl, rfl, rfl, rfl⟩, id, id⟩

theorem Moves.atPeak : Moves p ch { ch with level := levelOf p.peak } :=
  ⟨⟨rfl, rfl, rfl, rfl, rfl, rfl, rfl⟩, fun _ => Nat.le_refl _, id⟩

theorem Moves.beginAttack (hp : PatternInRange p) : Moves p ch (beginAttack p ch) := by
  unfold Machine.beginAttack
  split
  · exact Moves.atPeak.trans (Moves.beginDecay hp)
  · exact ⟨⟨rfl, rfl, rfl, rfl, rfl, rfl, rfl⟩, id, id⟩

theorem Moves.beginRelease : Moves p ch (beginRelease p ch) := by
  unfold Machine.beginRelease
  split
  · exact ⟨⟨rfl, rfl, rfl, rfl, rfl, rfl, rfl⟩, fun _ => Nat.zero_le _, id⟩
  · exact ⟨⟨rfl, rfl, rfl, rfl, rfl, rfl, rfl⟩, id, id⟩

theorem Moves.moveLevel (hp : PatternInRange p) : Moves p ch (moveLevel p ch) := by
  unfold Machine.moveLevel
  split
  · split
    · exact Moves.atPeak.trans (Moves.beginDecay hp)
    · exact ⟨⟨rfl, rfl, rfl, rfl, rfl, rfl, rfl⟩, fun _ => by dsimp only; omega, id⟩
  · split
    · exact ⟨⟨rfl, rfl, rfl, rfl, rfl, rfl, rfl⟩, fun _ => levelOf_mono hp.sustain, id⟩
    · exact ⟨⟨rfl, rfl, rfl, rfl, rfl, rfl, rfl⟩, fun _ => by dsimp only; omega, id⟩
  · split
    · exact ⟨⟨rfl, rfl, rfl, rfl, rfl, rfl, rfl⟩, fun _ => Nat.zero_le _, id⟩
    · exact ⟨⟨rfl, rfl, rfl, rfl, rfl, rfl, rfl⟩, fun _ => by dsimp only; omega, id⟩
  · exact ⟨⟨rfl, rfl, rfl, rfl, rfl, rfl, rfl⟩, id, id⟩
  · exact ⟨⟨rfl, rfl, rfl, rfl, rfl, rfl, rfl⟩, id, id⟩

theorem Moves.newOpening (hp : PatternInRange p) : Moves p ch (newOpening p ch) :=
  Moves.trans (ch' := { ch with gate := .opened, count := 0, openings := min (ch.openings + 1) 255 })
    ⟨⟨rfl, rfl, rfl, rfl, rfl, rfl, rfl⟩, id, fun _ => Nat.min_le_right _ _⟩ (Moves.beginAttack hp)

/-- A channel whose drive is right, whatever its level. -/
structure ChanDriven (c : Chan) (ch : Channel) : Prop where
  drives : driving ch = (ch.layer, ch.pattern)
  openings : ch.openings ≤ 255
  status : isAttention c = false → ch.locate = none
  located : ch.locate = none → ch.locateTimer = none ∧ ch.deadline = none

theorem ChanSound.driven (h : ChanSound w c ch) : ChanDriven c ch := ⟨h.drives, h.openings, h.status, h.located⟩

theorem ChanDriven.sound (h : ChanDriven c ch) (h1 : ch.pattern = none → ch.level = 0)
    (h2 : ∀ p, ch.pattern = some p → ch.level ≤ levelOf w[p].peak) : ChanSound w c ch :=
  ⟨h.drives, h1, h2, h.openings, h.status, h.located⟩

theorem ChanDriven.moves (h : ChanDriven c ch) (hm : Moves p ch ch') : ChanDriven c ch' := by
  obtain ⟨d, _, ho⟩ := hm
  refine ⟨?_, ho h.openings, fun hs => ?_, fun hl => ?_⟩
  · rw [d.driving, h.drives, d.layer, d.pattern]
  · rw [d.locate]; exact h.status hs
  · rw [d.timer, d.deadline]; exact h.located (d.locate ▸ hl)

theorem ChanSound.moves (h : ChanSound w c ch) {i : PatId} (hi : ch.pattern = some i) (hm : Moves w[i] ch ch') :
    ChanSound w c ch' := by
  have hd := h.driven.moves hm
  obtain ⟨d, hl, _⟩ := hm
  refine hd.sound (fun hn => ?_) fun p hp => ?_
  · rw [d.pattern, hi] at hn; cases hn
  · rw [d.pattern, hi] at hp
    cases hp
    exact hl (h.peak i hi)

/-! ### One channel changed -/

/-- LGT sound but for what drives or lights channel `c`. -/
structure LgtBut (c : Chan) (l : Lgt) : Prop where
  patterns : ∀ p : PatId, PatternInRange l.patterns[p]
  others : ∀ d : Chan, d ≠ c → ChanSound l.patterns d l.chans[d]

theorem LgtSound.but (h : LgtSound l) (c : Chan) : LgtBut c l := ⟨h.patterns, fun d _ => h.chans d⟩

theorem LgtBut.setChan (h : LgtBut c l) (ch : Channel) : LgtBut c (l.setChan c ch) := by
  refine ⟨h.patterns, fun d hd => ?_⟩
  simp only [Lgt.setChan, getFin_set, if_neg hd]
  exact h.others d hd

theorem LgtBut.sound (h : LgtBut c l) (hc : ChanSound l.patterns c l.chans[c]) : LgtSound l := by
  refine ⟨h.patterns, fun d => ?_⟩
  by_cases hd : d = c
  · subst hd; exact hc
  · exact h.others d hd

theorem setChan_self (l : Lgt) (c : Chan) (ch : Channel) : (l.setChan c ch).chans[c] = ch := by
  simp only [Lgt.setChan, getFin_set, if_true]

theorem LgtBut.set (h : LgtBut c l) (hc : ChanSound l.patterns c ch) : LgtSound (l.setChan c ch) :=
  (h.setChan ch).sound (by rw [setChan_self]; exact hc)

theorem LgtSound.set (h : LgtSound l) (c : Chan) (hc : ChanSound l.patterns c ch) : LgtSound (l.setChan c ch) :=
  (h.but c).set hc

theorem LgtSound.foldl {α : Type} {f : Lgt → α → Lgt} (hf : ∀ l a, LgtSound l → LgtSound (f l a)) (as : List α)
    (h : LgtSound l) : LgtSound (as.foldl f l) := by
  induction as generalizing l with
  | nil => exact h
  | cons a rest ih => exact ih (hf l a h)

/-! ### Sync restarts: every channel they touch opens anew -/

/-- `l'` is `l` with some channels moved by envelopes of their own driving patterns. -/
structure Restarts (l l' : Lgt) : Prop where
  patterns : l'.patterns = l.patterns
  chans : ∀ d : Chan, l'.chans[d] = l.chans[d]
    ∨ ∃ i, l.chans[d].pattern = some i ∧ Moves l.patterns[i] l.chans[d] l'.chans[d]

theorem Restarts.refl (l : Lgt) : Restarts l l := ⟨rfl, fun _ => Or.inl rfl⟩

theorem Restarts.trans {l' l'' : Lgt} (h : Restarts l l') (h' : Restarts l' l'') : Restarts l l'' := by
  refine ⟨h'.patterns.trans h.patterns, fun d => ?_⟩
  rcases h'.chans d with e' | ⟨i', hi', m'⟩
  · rw [e']; exact h.chans d
  · rcases h.chans d with e | ⟨i, hi, m⟩
    · rw [e, h.patterns] at m'
      rw [e] at hi'
      exact Or.inr ⟨i', hi', m'⟩
    · have : i' = i := by
        rw [m.drive.pattern, hi] at hi'
        cases hi'
        rfl
      subst this
      rw [h.patterns] at m'
      exact Or.inr ⟨i', hi, m.trans m'⟩

theorem Restarts.one (hp : ∀ p : PatId, PatternInRange l.patterns[p]) (c : Chan) : Restarts l (syncRestart l c) := by
  unfold syncRestart
  split
  · exact Restarts.refl l
  · rename_i i hi
    refine ⟨rfl, fun d => ?_⟩
    by_cases hd : d = c
    · subst hd
      refine Or.inr ⟨i, hi, ?_⟩
      rw [setChan_self]
      exact Moves.newOpening (hp i)
    · refine Or.inl ?_
      simp only [Lgt.setChan, getFin_set, if_neg hd]

theorem Restarts.gateOpened (hp : ∀ p : PatId, PatternInRange l.patterns[p]) (c : Chan) :
    Restarts l (gateOpened l c).1 := by
  have h : ∀ (ds : List Chan) (m : Lgt), (∀ p : PatId, PatternInRange m.patterns[p]) →
      Restarts m (ds.foldl syncRestart m) := by
    intro ds
    induction ds with
    | nil => exact fun m _ => Restarts.refl m
    | cons d rest ih =>
      intro m hm
      have h1 := Restarts.one hm d
      exact h1.trans (ih _ (by rw [h1.patterns]; exact hm))
  exact h _ l hp

theorem LgtSound.restarts {l' : Lgt} (h : LgtSound l) (hr : Restarts l l') : LgtSound l' := by
  refine ⟨by rw [hr.patterns]; exact h.patterns, fun d => ?_⟩
  rw [hr.patterns]
  rcases hr.chans d with e | ⟨i, hi, m⟩
  · rw [e]; exact h.chans d
  · exact (h.chans d).moves hi m

theorem LgtSound.gateOpened (h : LgtSound l) (c : Chan) : LgtSound (gateOpened l c).1 :=
  h.restarts (Restarts.gateOpened h.patterns c)

/-! ### Driving -/

/-- The channel a fresh cycle begins with. -/
theorem ChanDriven.fresh (h : ChanDriven c ch) {i : PatId} (hi : ch.pattern = some i) (hp : PatternInRange w[i]) :
    ChanSound w c (beginAttack w[i]
      { ch with level := min ch.level (levelOf w[i].peak), gate := .opened, count := 0, openings := 1 }) := by
  have h0 : ChanDriven c { ch with level := min ch.level (levelOf w[i].peak), gate := .opened, count := 0, openings := 1 } :=
    ⟨h.drives, by simp, h.status, h.located⟩
  refine ChanSound.moves (h0.sound (fun hn => ?_) fun p hpp => ?_) hi (Moves.beginAttack hp)
  · rw [show ch.pattern = none from hn] at hi; cases hi
  · have : p = i := by
      have := (show ch.pattern = some p from hpp).symm.trans hi
      cases this; rfl
    subst this
    exact Nat.min_le_right _ _

theorem LgtBut.freshCycle (h : LgtBut c l) (hc : ChanDriven c l.chans[c]) (hn : l.chans[c].pattern = none → l.chans[c].level = 0) :
    LgtSound (freshCycle l c).1 := by
  unfold Machine.freshCycle
  split
  · rename_i hp
    exact h.sound (hc.sound hn fun p hpp => by rw [hp] at hpp; cases hpp)
  · rename_i i hi
    exact LgtSound.gateOpened (h.set (hc.fresh hi (h.patterns i))) c

theorem LgtSound.freshCycle (h : LgtSound l) (c : Chan) : LgtSound (freshCycle l c).1 :=
  (h.but c).freshCycle (h.chans c).driven (h.chans c).dark

/-- A channel whose layers may have changed. -/
structure ChanPlaced (c : Chan) (ch : Channel) : Prop where
  openings : ch.openings ≤ 255
  status : isAttention c = false → ch.locate = none
  located : ch.locate = none → ch.locateTimer = none ∧ ch.deadline = none

theorem driving_placed (ch : Channel) (x : Layer) (y : Option PatId) :
    driving { ch with layer := x, pattern := y } = driving ch := rfl

theorem LgtBut.startDriving (h : LgtBut c l) (hc : ChanPlaced c l.chans[c]) : LgtSound (startDriving l c).1 := by
  unfold Machine.startDriving
  dsimp only
  split
  · rename_i hn
    refine h.set ?_
    refine ⟨?_, fun _ => rfl, fun p hp => ?_, Nat.zero_le _, hc.status, hc.located⟩
    · change driving l.chans[c] = ((driving l.chans[c]).1, (driving l.chans[c]).2)
      rfl
    · change (driving l.chans[c]).2 = some p at hp
      rw [hn] at hp
      cases hp
  · rename_i i hi
    refine (h.setChan _).freshCycle ?_ fun hn => ?_
    · rw [setChan_self]
      exact ⟨rfl, hc.openings, hc.status, hc.located⟩
    · rw [setChan_self] at hn
      change (driving l.chans[c]).2 = none at hn
      rw [hi] at hn
      cases hn

theorem LgtBut.chooseDriving (h : LgtBut c l) (hc : ChanPlaced c l.chans[c])
    (h1 : l.chans[c].pattern = none → l.chans[c].level = 0)
    (h2 : ∀ p, l.chans[c].pattern = some p → l.chans[c].level ≤ levelOf l.patterns[p].peak) :
    LgtSound (chooseDriving l c).1 := by
  unfold Machine.chooseDriving
  split
  · rename_i hd
    exact h.sound ⟨hd, h1, h2, hc.openings, hc.status, hc.located⟩
  · exact h.startDriving hc

/-- A channel of a sound LGT takes new layers, and the driving layer is chosen again. -/
theorem LgtSound.rechoose (h : LgtSound l) (c : Chan) (ch : Channel) (h1 : ch.pattern = l.chans[c].pattern)
    (h2 : ch.level = l.chans[c].level) (h3 : ChanPlaced c ch) : LgtSound (chooseDriving (l.setChan c ch) c).1 := by
  refine LgtBut.chooseDriving ((h.but c).setChan ch) ?_ ?_ ?_
  · rw [setChan_self]; exact h3
  · rw [setChan_self, h1, h2]; exact (h.chans c).dark
  · rw [setChan_self, h1, h2]; exact (h.chans c).peak

theorem LgtSound.placed (h : LgtSound l) (c : Chan) : ChanPlaced c l.chans[c] :=
  ⟨(h.chans c).openings, (h.chans c).status, (h.chans c).located⟩

theorem LgtSound.refreshAuto (h : LgtSound l) (c : Chan) : LgtSound (refreshAuto l c) := by
  unfold Machine.refreshAuto
  have := h.placed c
  exact h.rechoose c _ rfl rfl ⟨this.openings, this.status, this.located⟩

theorem LgtSound.of_same {l' : Lgt} (h : LgtSound l) (h1 : l'.patterns = l.patterns) (h2 : l'.chans = l.chans) :
    LgtSound l' := ⟨by rw [h1]; exact h.patterns, by rw [h1, h2]; exact h.chans⟩

theorem LgtSound.handOver (h : LgtSound l) (b : Bay) (x : Condition) (y : Bool) : LgtSound (l.handOver b x y) := by
  unfold Lgt.handOver
  refine LgtSound.refreshAuto (LgtSound.refreshAuto ?_ _) _
  exact h.of_same rfl rfl

theorem LgtSound.setAutoMap (h : LgtSound l) (m : Vector AutoEntry 8) : LgtSound (l.setAutoMap m) := by
  unfold Lgt.setAutoMap
  refine LgtSound.foldl (fun _ c h => h.refreshAuto c) _ ?_
  exact h.of_same rfl rfl

theorem LgtSound.setOrder (h : LgtSound l) (c : Chan) (i : PatId) : LgtSound (l.setOrder c i) := by
  have hp := h.placed c
  unfold Lgt.setOrder
  dsimp only
  split
  · refine LgtBut.startDriving ((h.but c).setChan _) ?_
    rw [setChan_self]
    exact ⟨hp.openings, hp.status, hp.located⟩
  · exact h.rechoose c _ rfl rfl ⟨hp.openings, hp.status, hp.located⟩

theorem LgtSound.emptyOrder (h : LgtSound l) (c : Chan) : LgtSound (emptyOrder l c).1 := by
  unfold Machine.emptyOrder
  have hp := h.placed c
  exact h.rechoose c _ rfl rfl ⟨hp.openings, hp.status, hp.located⟩

theorem LgtSound.setLocate (h : LgtSound l) (c : Chan) (hc : isAttention c = true) (i : PatId) (x : Timer)
    (d : Option Word) : LgtSound (l.setLocate c i x d) := by
  unfold Lgt.setLocate
  refine LgtBut.startDriving ((h.but c).setChan _) ?_
  rw [setChan_self]
  exact ⟨(h.placed c).openings, fun hs => (by rw [hc] at hs; cases hs), fun hl => (by cases hl)⟩

theorem LgtSound.emptyLocate (h : LgtSound l) (c : Chan) : LgtSound (emptyLocate l c).1 := by
  unfold Machine.emptyLocate
  exact h.rechoose c _ rfl rfl ⟨(h.placed c).openings, fun _ => rfl, fun _ => ⟨rfl, rfl⟩⟩

theorem LgtSound.patternEnd (h : LgtSound l) (c : Chan) : LgtSound (patternEnd l c).1 := by
  unfold Machine.patternEnd
  split
  · exact h.freshCycle c
  · exact h.emptyOrder c
  · exact h.emptyLocate c

/-! ### The gate and the envelope step -/

theorem LgtSound.closedLast (h : LgtSound l) (c : Chan) (hc : ChanSound l.patterns c ch) :
    LgtSound (closedLast l c ch).1 := by
  unfold Machine.closedLast
  split
  · exact LgtSound.patternEnd (h.set c hc) c
  · exact h.set c hc

theorem LgtSound.stepChannel (h : LgtSound l) (c : Chan) {i : PatId} (hi : l.chans[c].pattern = some i) :
    LgtSound (stepChannel l c l.patterns[i]).1 := by
  have hp := h.patterns i
  have hm : ∀ {ch' : Channel}, Moves l.patterns[i] l.chans[c] ch' → ChanSound l.patterns c ch' :=
    fun m => (h.chans c).moves hi m
  unfold Machine.stepChannel
  dsimp only
  split
  · split
    · exact h.set c (hm (Moves.moveLevel hp))
    · split
      · exact h.set c (hm (Moves.trans (Moves.gate _ _) (Moves.moveLevel hp)))
      · split
        · exact h.closedLast c (hm (Moves.trans (Moves.gate _ _) Moves.beginRelease))
        · split
          · exact LgtSound.gateOpened (h.set c (hm (Moves.newOpening hp))) c
          · exact h.set c (hm (Moves.trans (Moves.gate _ _) Moves.beginRelease))
  · split
    · exact h.closedLast c (hm (Moves.moveLevel hp))
    · split
      · exact h.set c (hm (Moves.trans (Moves.gate _ _) (Moves.moveLevel hp)))
      · exact LgtSound.gateOpened (h.set c (hm (Moves.newOpening hp))) c
  · split
    · exact h.set c (hm (Moves.trans (Moves.gate _ _) (Moves.moveLevel hp)))
    · exact h.set c (hm (Moves.trans (Moves.gate _ _) (Moves.beginAttack hp)))

theorem LgtSound.envelopeStep (h : LgtSound l) : LgtSound l.envelopeStep := by
  have h2 : ∀ (cs : List Chan) (acc : Lgt × List Chan), LgtSound acc.1 → LgtSound (cs.foldl stepOne acc).1 := by
    intro cs
    induction cs with
    | nil => exact fun _ h => h
    | cons c rest ih =>
      intro acc ha
      refine ih _ ?_
      unfold stepOne
      split
      · exact ha
      · split
        · exact ha
        · rename_i i hi
          exact ha.stepChannel c hi
  exact h2 _ _ h

theorem LgtSound.activityDip (h : LgtSound l) (c : Chan) : LgtSound (activityDip l c) := by
  unfold Machine.activityDip
  dsimp only
  split
  · exact h
  · rename_i i hi
    split
    · split
      · exact h.set c ((h.chans c).moves hi (Moves.trans (Moves.gate _ _) (Moves.beginAttack (h.patterns i))))
      · exact h.set c ((h.chans c).moves hi (Moves.trans (Moves.gate _ _) Moves.beginRelease))
    · exact h

theorem LgtSound.setGroup (h : LgtSound l) (c : Chan) (g : Fin 5) : LgtSound (l.setGroup c g) := by
  have hc := h.chans c
  exact h.set c ⟨hc.drives, hc.dark, hc.peak, hc.openings, hc.status, hc.located⟩

theorem LgtSound.timed (h : LgtSound l) (x : Timer) : LgtSound { l with stepTimer := x } := ⟨h.patterns, h.chans⟩

/-! ### A pattern load -/

/-- Midway through the restarts of a load: every channel is driven as it should be, and one that drives a pattern
outside the load, or is not among those still to restart, is sound. -/
structure Loading (first count : Nat) (todo : List Chan) (l : Lgt) : Prop where
  patterns : ∀ p : PatId, PatternInRange l.patterns[p]
  driven : ∀ d : Chan, ChanDriven d l.chans[d]
  sound : ∀ d : Chan, (d ∉ todo ∨ ∀ i, l.chans[d].pattern = some i → ¬ (first ≤ i.val ∧ i.val < first + count)) →
    ChanSound l.patterns d l.chans[d]

theorem Loading.restarts {first count : Nat} {todo : List Chan} {l' : Lgt} (h : Loading first count todo l)
    (hr : Restarts l l') : Loading first count todo l' := by
  refine ⟨by rw [hr.patterns]; exact h.patterns, fun d => ?_, fun d hd => ?_⟩
  · rcases hr.chans d with e | ⟨i, hi, m⟩
    · rw [e]; exact h.driven d
    · exact (h.driven d).moves m
  · rw [hr.patterns]
    rcases hr.chans d with e | ⟨i, hi, m⟩
    · rw [e] at hd ⊢; exact h.sound d hd
    · rw [m.drive.pattern] at hd
      exact (h.sound d hd).moves hi m

theorem Loading.step {first count : Nat} {rest : List Chan} (h : Loading first count (c :: rest) l) :
    Loading first count rest (restartLoaded first count l c) := by
  have keep : (∀ i, l.chans[c].pattern = some i → ¬ (first ≤ i.val ∧ i.val < first + count)) →
      Loading first count rest l := by
    intro hc
    refine ⟨h.patterns, h.driven, fun d hd => ?_⟩
    by_cases hdc : d = c
    · subst hdc
      exact h.sound d (Or.inr hc)
    · exact h.sound d (hd.imp (fun hn => by simp [hdc, hn]) id)
  unfold restartLoaded
  split
  · rename_i hn
    exact keep fun i hi => by rw [hn] at hi; cases hi
  · rename_i i hi
    split
    · unfold freshCycle
      rw [hi]
      dsimp only
      have hs := (h.driven c).fresh hi (h.patterns i)
      refine Loading.restarts ?_ (Restarts.gateOpened ?_ c)
      swap
      · exact h.patterns
      refine ⟨h.patterns, fun d => ?_, fun d hd => ?_⟩
      · by_cases hdc : d = c
        · subst hdc; rw [setChan_self]; exact hs.driven
        · simp only [Lgt.setChan, getFin_set, if_neg hdc]; exact h.driven d
      · by_cases hdc : d = c
        · subst hdc; rw [setChan_self]; exact hs
        · simp only [Lgt.setChan, getFin_set, if_neg hdc] at hd ⊢
          exact h.sound d (hd.imp (fun hn => by simp [hdc, hn]) id)
    · rename_i hout
      exact keep fun j hj => by rw [hi] at hj; cases hj; exact hout

theorem LgtSound.loadPatterns (h : LgtSound l) (first count : Nat) (w : Vector Pattern 16)
    (hw : ∀ i : PatId, PatternInRange w[i])
    (hsame : ∀ i : PatId, ¬ (first ≤ i.val ∧ i.val < first + count) → w[i] = l.patterns[i]) :
    LgtSound (l.loadPatterns first count w) := by
  have hf : ∀ (cs : List Chan) (m : Lgt), Loading first count cs m →
      Loading first count [] (cs.foldl (restartLoaded first count) m) := by
    intro cs
    induction cs with
    | nil => exact fun _ h => h
    | cons c rest ih => exact fun m hm => ih _ hm.step
  have h0 : Loading first count (List.finRange 48) { l with patterns := w } := by
    refine ⟨hw, fun d => (h.chans d).driven, fun d hd => ?_⟩
    have hc := h.chans d
    refine hc.driven.sound hc.dark fun p hp => ?_
    rcases hd with hd | hd
    · exact absurd (List.mem_finRange d) hd
    · rw [hsame p (hd p hp)]
      exact hc.peak p hp
  have h1 := hf _ _ h0
  exact ⟨h1.patterns, fun c => h1.sound c (Or.inl (by simp))⟩

end Sys2Proof.Machine
end

