-- ==== Sys2Proof/Laws/PowerChanges.lean ====
section
/-! SUPPORT. That the operations on bays, on the admission queue and on the power path are chains of `Changes`. -/

namespace Sys2Proof.Machine

variable {s t : State}

/-! ### Sensors, zones and lights as a bay's change reaches them -/

theorem clampTemp_range (q : Int) : -160 ≤ clampTemp q ∧ clampTemp q ≤ 511 := by
  unfold clampTemp
  omega

theorem Changes.setSensor (i : SensorId) (x : Thc) (h : Changes s t) (hx : ThcInRange t.thc → ThcInRange x) :
    Changes s (setSensor i x t) := by
  unfold Machine.setSensor reportSensorState
  dsimp only
  split
  · exact ((h.thc x hx).markIf _ _ _).markIf _ _ _
  · exact (h.thc x hx).markIf _ _ _

/-- A sensor record whose value and failure count lie in range. -/
structure SensorInRange (r : SensorRec) : Prop where
  value : ∀ v, r.value = some v → -160 ≤ v ∧ v ≤ 511
  fails : r.fails ≤ 255

theorem ThcInRange.sensor {x : Thc} (h : ThcInRange x) (i : SensorId) : SensorInRange x.sensors[i] :=
  ⟨h.value i, h.fails i⟩

theorem SensorInRange.emptied {r : SensorRec} : SensorInRange r.emptied := by
  constructor <;> simp [SensorRec.emptied]

theorem SensorInRange.read {r : SensorRec} (h : SensorInRange r) (q : Option Int) (u : Word) :
    SensorInRange (r.read q u) := by
  unfold SensorRec.read
  split
  · exact ⟨fun v hv => by cases hv; exact clampTemp_range _, by simp⟩
  · exact ⟨h.value, by simp⟩

theorem ThcInRange.setSensor {x : Thc} (h : ThcInRange x) (i : SensorId) {r : SensorRec} (hr : SensorInRange r) :
    ThcInRange { x with sensors := x.sensors.set i r } := by
  refine ⟨fun j v => ?_, fun j => ?_, h.zones, h.working⟩
  · dsimp only
    rw [getFin_set]
    split
    · exact hr.value v
    · exact h.value j v
  · dsimp only
    rw [getFin_set]
    split
    · exact hr.fails
    · exact h.fails j

theorem ThcInRange.of_same {x y : Thc} (h : ThcInRange x) (h1 : y.sensors = x.sensors)
    (h2 : ∀ z : ZoneId, ZoneInRange x.zones[z] → ZoneInRange y.zones[z]) (h3 : y.working = x.working) : ThcInRange y :=
  ⟨by rw [h1]; exact h.value, by rw [h1]; exact h.fails, fun z => h2 z (h.zones z), by rw [h3]; exact h.working⟩

theorem Changes.handThermal (b : Bay) (h : Changes s t) : Changes s (handThermal b t) := by
  have h1 : Changes s (setActiveFact b (decide ((t.bay b).state = .active)) t) := by
    unfold setActiveFact
    split
    · exact h
    · split
      · exact h.setSensor _ _ fun hx => hx.of_same rfl (fun _ hz => hz) rfl
      · exact h.setSensor _ _ fun hx => (hx.setSensor (driveSensor b) SensorInRange.emptied).of_same rfl (fun _ hz => hz) rfl
  unfold Machine.handThermal setStartingFact
  split
  · exact h1
  · refine h1.thc _ fun hx => hx.of_same rfl (fun z hz => ?_) rfl
    simp only [Thc.refreshPreload, getFin_ofFn]
    exact ⟨hz.excess, hz.d1, hz.d2, hz.d3, hz.output⟩

theorem Changes.setLgt (l : Lgt) (h : Changes s t) (hl : LgtSound t.lgt → LgtSound l) : Changes s (setLgt l t) :=
  Changes.foldl (fun _ _ h => h.markIf _ _ _) _ (h.lgt l hl)

/-! ### The change of a bay -/

theorem Changes.handSideband (b : Bay) (x : BayState) (h : Changes s t) : Changes s (handSideband b x t) := by
  unfold Machine.handSideband
  dsimp only
  split
  · exact h.pollEntered b
  · split
    · exact h.pollLeft b
    · split
      · exact h.purgeBay b
      · exact h

theorem Changes.handLights (b : Bay) (h : Changes s t) : Changes s (handLights b t) := by
  unfold Machine.handLights
  split
  · exact h
  · split
    · exact h.setLgt _ fun hl => hl.handOver _ _ _
    · exact h

theorem Changes.moveBayWith (j : Option QEntry) (b : Bay) (f : BayRec → BayRec) (h : Changes s t)
    (ht : Turn t b j (f (t.bay b))) : Changes s (moveBayWith j b f t) :=
  (((h.turn b j f ht).handThermal b).handLights b).handSideband b _

theorem Changes.moveBay (b : Bay) (f : BayRec → BayRec) (h : Changes s t) (ht : Turn t b none (f (t.bay b))) :
    Changes s (moveBay b f t) := h.moveBayWith none b f ht

theorem Changes.report (b : Bay) (acts : BayRec → Bool) (f : BayRec → BayRec) (l : List HistEvent) (h : Changes s t)
    (ht : acts (t.bay b) = true → Turn t b none (f (t.bay b))) : Changes s (report b acts f l t) := by
  unfold Machine.report
  split
  · rename_i ha
    exact Changes.pushes b l (h.moveBay b f (ht ha))
  · exact h

/-! ### The record as the rules set it: each keeps to what a bay's change may do -/

/-- A record change that leaves state and charge. -/
theorem Turn.plain {b : Bay} {r' : BayRec} (h1 : r'.state = (t.bay b).state) (h2 : r'.charge = (t.bay b).charge)
    (h3 : BayShape (t.bay b) → BayShape r') : Turn t b none r' := by
  refine ⟨h3, fun _ h => h1 ▸ h, ?_, Or.inl ⟨Or.inl h2, fun h => h1 ▸ h⟩⟩
  intro _ h; cases h

theorem Turn.identified (b : Bay) (i : Identity) : Turn t b none ((t.bay b).identified i) :=
  Turn.plain rfl rfl fun ⟨h1, h2, h3, h4, h5, h6, h7, h8, h9⟩ => ⟨h1, h2, h3, h4, h5, h6, h7, h8, h9⟩

theorem Turn.health (b : Bay) (w : Bool) : Turn t b none { t.bay b with healthWarn := w } :=
  Turn.plain rfl rfl fun ⟨h1, h2, h3, h4, h5, h6, h7, h8, h9⟩ => ⟨h1, h2, h3, h4, h5, h6, h7, h8, h9⟩

/-- A record entering a state that is neither QUEUED nor starting, its charge kept or released. -/
theorem Turn.calm {b : Bay} {r' : BayRec} (h1 : r'.charge = (t.bay b).charge ∨ r'.charge = none)
    (h2 : r'.state.starting = false) (h3 : r'.state ≠ .queued) (h4 : BayShape (t.bay b) → BayShape r') :
    Turn t b none r' := by
  refine ⟨h4, fun _ h => absurd h h3, ?_, Or.inl ⟨?_, fun h => by simp [h2] at h⟩⟩
  · intro _ h; cases h
  · tauto

theorem Turn.faulted (b : Bay) (c : FaultCause) : Turn t b none ((t.bay b).faulted c) := by
  refine Turn.calm (Or.inr rfl) rfl (by simp [BayRec.faulted]) fun h => ?_
  constructor <;> first | exact h.mask | simp [BayRec.faulted, chargeFits, h.replugs, h.shed]

theorem Turn.hold (b : Bay) (o : Option SlotId) : Turn t b none { (t.bay b).held' with powerOrder := o } := by
  refine Turn.calm (Or.inr rfl) rfl (by simp [BayRec.held', BayRec.enter]) fun h => ?_
  constructor <;>
    first | exact h.mask | simp [BayRec.held', BayRec.enter, chargeFits, BayState.ordered, h.replugs, h.shed]

/-- The bay enters OFF or EMPTY from a state that holds no charge. -/
theorem Turn.rest (b : Bay) (st : BayState) (hst : st = .off ∨ st = .empty) {r' : BayRec} (hs : r'.state = st)
    (h1 : r'.stopPhase = none) (h2 : r'.settlingFrom = none) (h3 : r'.faultCause = none)
    (hc : r'.charge = (t.bay b).charge) (ho : BayShape (t.bay b) → r'.powerOrder = none)
    (hp : r'.policy = (t.bay b).policy) (hr : r'.replugCount ≤ 255 ∨ r'.replugCount = (t.bay b).replugCount)
    (hn : BayShape (t.bay b) → (t.bay b).charge = none) : Turn t b none r' := by
  have hst' : (st = .off ∧ r'.state = .off) ∨ (st = .empty ∧ r'.state = .empty) := by
    rcases hst with h | h <;> subst h <;> simp [hs]
  refine Turn.calm (Or.inl hc) ?_ ?_ fun h => ?_
  · rcases hst' with ⟨_, h⟩ | ⟨_, h⟩ <;> rw [h] <;> rfl
  · rcases hst' with ⟨_, h⟩ | ⟨_, h⟩ <;> rw [h] <;> simp
  · have hr' : r'.replugCount ≤ 255 := by
      rcases hr with h' | h'
      · exact h'
      · rw [h']; exact h.replugs
    constructor
    · rcases hst' with ⟨_, h⟩ | ⟨_, h⟩ <;> simp [h, h1]
    · rcases hst' with ⟨_, h⟩ | ⟨_, h⟩ <;> simp [h, h2]
    · rcases hst' with ⟨_, h⟩ | ⟨_, h⟩ <;> simp [h]
    · simp [h3]
    · rcases hst' with ⟨_, h'⟩ | ⟨_, h'⟩ <;> simp [chargeFits, h', hc, hn h]
    · simp [ho h]
    · exact hr'
    · rw [hp]; exact h.mask
    · rw [hp]; exact h.shed

/-- What the shape of a record says of its charge and its power order, state by state. -/
theorem BayShape.noCharge {r : BayRec} (h : BayShape r) (hs : r.state ≠ .ramping) (hs2 : r.state ≠ .spinning)
    (hs3 : r.state ≠ .active) (hs4 : r.stopPhase ≠ some .standbyWait) : r.charge = none := by
  have hc := h.charge
  unfold chargeFits at hc
  cases hst : r.state <;> simp_all

theorem BayShape.noOrder {r : BayRec} (h : BayShape r) (hs : r.state.ordered = false) : r.powerOrder = none := by
  have ho := h.order
  cases hp : r.powerOrder <;> simp_all

theorem BayShape.noPhase {r : BayRec} (h : BayShape r) (hs : r.state ≠ .stopping) : r.stopPhase = none := by
  have ho := h.phase
  cases hp : r.stopPhase <;> simp_all

/-- The bay enters SETTLING, its charge released and its power order gone. -/
theorem Turn.settles (b : Bay) : Turn t b none { (t.bay b).settling with charge := none, powerOrder := none } := by
  refine Turn.calm (Or.inr rfl) rfl (by simp [BayRec.settling]) fun h => ?_
  constructor <;> first | exact h.mask | simp [BayRec.settling, chargeFits, h.replugs, h.shed]

/-- The bay enters SETTLING from a state that holds no charge. -/
theorem Turn.settlesCalm (b : Bay) (o : Option SlotId) (ho : BayShape (t.bay b) → o = none)
    (hn : BayShape (t.bay b) → (t.bay b).charge = none) :
    Turn t b none { (t.bay b).settling with powerOrder := o } := by
  refine Turn.calm (Or.inl rfl) rfl (by simp [BayRec.settling]) fun h => ?_
  constructor <;> first | exact h.mask | simp [BayRec.settling, chargeFits, h.replugs, h.shed, hn h, ho h]

/-! ### The ladder and admission -/

theorem Changes.attemptGood (b : Bay) (h : Changes s t) : Changes s (attemptGood b t) := by
  unfold Machine.attemptGood
  split
  · exact h
  · refine Changes.updPath b _ (Changes.report b _ _ _ (h.updPath b _) fun ha => ?_)
    simp only [decide_eq_true_eq] at ha
    refine ⟨fun hs => ?_, ?_, ?_, Or.inl ⟨Or.inl rfl, ?_⟩⟩
    · have hc := hs.charge
      simp only [chargeFits, ha] at hc
      constructor <;>
        first | exact hs.mask | simp [BayRec.enter, chargeFits, BayState.ordered, hs.replugs, hs.shed, hc]
    · simp [BayRec.enter]
    · intro _ h; cases h
    · intro _; rw [ha]; rfl

theorem Changes.attemptBegin (b : Bay) (h : Changes s t) : Changes s (attemptBegin b t) := by
  unfold Machine.attemptBegin
  split
  · exact h
  · dsimp only
    split
    · exact Changes.attemptGood b (h.updPath b _)
    · exact h.updPath b _

theorem Changes.admitEntry (e : QEntry) (h : Changes s t) (hf : fits t e.bay = true) : Changes s (admitEntry e t) := by
  unfold Machine.admitEntry
  split
  · rename_i hq
    refine Changes.attemptBegin e.bay (Changes.updPath e.bay _ (Changes.report e.bay _ _ _
      (h.updAccount _ rfl rfl rfl) fun _ => ?_))
    simp only [fits, Bool.and_eq_true] at hf
    have hb : (Machine.updAccount (fun a => { a with staggerTimer := staggerStart a.settings.stagger, sinceAdmission := some 0 }) t).bay e.bay = t.bay e.bay :=
      bay_of_bmon (by simp) _
    refine ⟨?_, ?_, ?_, Or.inr ⟨?_, ?_, ?_⟩⟩
    · rw [hb]
      intro hs
      constructor <;>
        first | exact hs.mask | simp [BayRec.enter, chargeFits, BayState.ordered, hs.replugs, hs.shed]
    · simp [BayRec.enter]
    · intro _ h; cases h
    · have := of_decide_eq_true hf.1.2
      exact decide_eq_true (by simpa [State.account] using this)
    · have := of_decide_eq_true hf.2
      exact decide_eq_true (by simpa [pairNow, State.account, State.bay] using this)
    · simp [pairNow, State.account, State.bay]
  · rename_i hq
    exact h.drop _ hq

theorem Changes.admitWhileFits (n : Nat) (h : Changes s t) : Changes s (admitWhileFits n t) := by
  induction n generalizing t with
  | zero => exact h
  | succ n ih =>
    unfold Machine.admitWhileFits
    split
    · exact h
    · split
      · rename_i hf
        exact ih (h.admitEntry _ hf)
      · exact h

theorem Changes.updateBlocked (h : Changes s t) : Changes s (updateBlocked t) := by
  unfold Machine.updateBlocked
  dsimp only
  split
  · exact (h.updAccount _ rfl rfl rfl).useFree
  · exact h.updAccount _ rfl rfl rfl

theorem Changes.evaluate (h : Changes s t) : Changes s (evaluate t) := (h.admitWhileFits _).updateBlocked

theorem Changes.deliverEstimate (n : Nat) (h : Changes s t) : Changes s (deliverEstimate n t) := by
  have h1 := h.updAccount (fun a => { a with fanEstimate := n }) rfl rfl rfl
  unfold Machine.deliverEstimate
  dsimp only
  split
  · exact h1.evaluate
  · split
    · exact h1.updateBlocked
    · exact h1

theorem Changes.enqueue (b : Bay) (c : QClass) (o : Option SlotId) (h : Changes s t) : Changes s (enqueue b c o t) := by
  unfold Machine.enqueue
  split
  · rename_i hq
    refine Changes.evaluate (Changes.pushHistory b _ (Changes.moveBayWith _ b _ h ?_))
    refine ⟨fun hs => ?_, fun h => (by cases h), ?_, Or.inl ⟨Or.inl rfl, by simp [BayRec.enter, BayState.starting]⟩⟩
    · have hc := hs.charge
      simp only [chargeFits, hq] at hc
      constructor <;>
        first | exact hs.mask | simp [BayRec.enter, chargeFits, BayState.ordered, hs.replugs, hs.shed, hc]
    · rintro e he
      cases he
      simp [hq, BayRec.enter]
  · exact h

theorem Changes.cancelQueued (b : Bay) (h : Changes s t) : Changes s (cancelQueued b t) := by
  unfold Machine.cancelQueued
  split
  · exact h
  · refine Changes.report b _ _ _ (h.completeOpt _ _ _) fun ha => ?_
    simp only [decide_eq_true_eq] at ha
    refine Turn.rest b .off (Or.inl rfl) rfl rfl rfl rfl rfl (fun _ => rfl) rfl (Or.inr rfl) fun hs => ?_
    exact hs.noCharge (by simp [ha]) (by simp [ha]) (by simp [ha]) (by simp [hs.noPhase (by simp [ha])])

theorem Changes.lostQueued (b : Bay) (h : Changes s t) (hq : (t.bay b).state = .queued) :
    Changes s (lostQueued b t) := by
  have h1 : Changes s (Machine.moveBay b (fun r => { r.settling with powerOrder := none }) t) := by
    refine h.moveBay b _ (Turn.settlesCalm b none (fun _ => rfl) fun hs => ?_)
    exact hs.noCharge (by simp [hq]) (by simp [hq]) (by simp [hq]) (by simp [hs.noPhase (by simp [hq])])
  unfold Machine.lostQueued
  dsimp only
  split
  · exact h1
  · exact Changes.pushHistory b _ (h1.completeOpt _ _ _)

/-! ### The power path -/

theorem Changes.exhausted (b : Bay) (l : Ladder) (h : Changes s t) : Changes s (exhausted b l t) :=
  Changes.evaluate (Changes.updPath b _ (Changes.report b _ _ _ (h.completeOpt _ _ _) fun _ => Turn.faulted b _))

theorem Changes.attemptFail (b : Bay) (o : AttemptOutcome) (h : Changes s t) : Changes s (attemptFail b o t) := by
  unfold Machine.attemptFail
  split
  · exact h
  · dsimp only
    split
    · exact Changes.exhausted b _ (h.updPath b _)
    · exact h.updPath b _

theorem Changes.coolOffEnd (b : Bay) (h : Changes s t) : Changes s (coolOffEnd b t) := by
  unfold Machine.coolOffEnd
  split
  · exact Changes.attemptBegin b (h.updPath b _)
  · exact h

theorem Changes.spinEnd (b : Bay) (h : Changes s t) : Changes s (spinEnd b t) := by
  unfold Machine.spinEnd
  split
  · refine Changes.evaluate (Changes.updPath b _ (Changes.report b _ _ _ (h.completeOpt _ _ _) fun ha => ?_))
    simp only [decide_eq_true_eq] at ha
    refine ⟨fun hs => ?_, ?_, ?_, Or.inl ⟨Or.inr (Or.inr rfl), ?_⟩⟩
    · have hc := hs.charge
      simp only [chargeFits, ha] at hc
      constructor <;> first
        | exact hs.mask
        | exact hs.replugs
        | exact hs.shed
        | simp only [chargeFits, BayRec.enter, lowered, Option.map_map]
          cases hr : (Machine.completePower b .ok (onDetail (t.path b).ladder) t |>.bay b).charge <;> simp_all
    · simp [BayRec.enter]
    · intro _ h; cases h
    · simp [BayRec.enter, BayState.starting]
  · exact h

theorem Changes.runningFault (b : Bay) (c : CutCause) (h : Changes s t) : Changes s (runningFault b c t) :=
  Changes.evaluate (Changes.updPath b _ (Changes.report b _ _ _ (h.completeOpt _ _ _) fun _ => Turn.faulted b _))

theorem Changes.finishHold (b : Bay) (h : Changes s t) : Changes s (finishHold b t) := by
  refine Changes.updPath b _ (Changes.report b _ _ _ (h.completeOpt _ _ _) fun ha => ?_)
  simp only [BayRec.holds, decide_eq_true_eq] at ha
  refine Turn.rest b .off (Or.inl rfl) rfl rfl rfl rfl rfl (fun _ => rfl) rfl (Or.inr rfl) fun hs => ?_
  exact hs.noCharge (by simp [ha.1]) (by simp [ha.1]) (by simp [ha.1]) (by simp [ha.2])

theorem Changes.startHold (b : Bay) (n : Nat) (h : Changes s t) : Changes s (startHold b n t) := by
  unfold Machine.startHold
  split
  · exact h.finishHold b
  · exact h.updPath b _

theorem Changes.standbyEnd (b : Bay) (o : StandbyOutcome) (x : Option SbResult) (c : Option CutCause)
    (h : Changes s t) : Changes s (standbyEnd b o x c t) := by
  unfold Machine.standbyEnd
  split
  · exact h
  · exact Changes.evaluate (Changes.startHold b _ (Changes.report b _ _ _ (h.updPath b _) fun _ =>
      Turn.hold b _))

theorem Changes.deliverStandby (b : Bay) (r : SbResult) (h : Changes s t) : Changes s (deliverStandby b r t) := by
  unfold Machine.deliverStandby
  split
  · exact h.standbyEnd b _ _ _
  · exact h

theorem Changes.immediateStop (b : Bay) (n : SlotId) (k : Nat) (h : Changes s t) :
    Changes s (immediateStop b n k t) :=
  Changes.evaluate (Changes.startHold b _ (Changes.report b _ _ _ (Changes.updPath b _ (h.completeOpt _ _ _))
    fun _ => Turn.hold b _))

theorem Changes.gracefulStop (b : Bay) (n : SlotId) (k : Nat) (h : Changes s t) : Changes s (gracefulStop b n k t) := by
  have h1 : ∀ p : Stop, Changes s (Machine.report b (fun r => decide (r.state = .active))
      (fun r => { r.enter .stopping with stopPhase := some .standbyWait, powerOrder := some n }) []
      (Machine.updPath b (fun q => { q with stop := some p }) t)) := by
    intro p
    refine Changes.report b _ _ _ (h.updPath b _) fun ha => ?_
    simp only [decide_eq_true_eq] at ha
    refine ⟨fun hs => ?_, ?_, ?_, Or.inl ⟨Or.inl rfl, ?_⟩⟩
    · have hc := hs.charge
      simp only [chargeFits, ha] at hc
      constructor <;>
        first | exact hs.mask | simp [BayRec.enter, chargeFits, BayState.ordered, hs.replugs, hs.shed, hc]
    · simp [BayRec.enter]
    · intro _ h; cases h
    · simp [BayRec.enter, BayState.starting]
  unfold Machine.gracefulStop
  dsimp only
  split
  · rename_i hr
    unfold requestStandby at hr
    split at hr
    · rename_i hroom
      cases hr
      exact Changes.joinOrder _ (h1 _) hroom
    · cases hr
  · exact (h1 _).standbyEnd b _ _ _

theorem Changes.powerCut (b : Bay) (c : CutCause) (h : Changes s t) : Changes s (powerCut b c t) := by
  unfold Machine.powerCut
  split
  · exact h.runningFault b c
  · split
    · exact h.standbyEnd b _ _ _
    · exact h

theorem Changes.shed (b : Bay) (n : Nat) (h : Changes s t) : Changes s (shed b n t) := by
  unfold Machine.shed
  split
  · exact Changes.evaluate (Changes.updPath b _ (Changes.report b _ _ _ h fun _ => Turn.faulted b _))
  · exact h

theorem Changes.earlyCut (b : Bay) (h : Changes s t) : Changes s (earlyCut b t) := by
  unfold Machine.earlyCut
  dsimp only
  split
  · exact Changes.evaluate
      (Changes.updPath b _ (Changes.report b _ _ _ (h.completeOpt _ _ _) fun _ => Turn.settles b))
  · exact Changes.updPath b _ (Changes.report b _ _ _ (h.completeOpt _ _ _) fun _ => Turn.settles b)

end Sys2Proof.Machine
end

