-- ==== Sys2Proof/Laws/CoolingChanges.lean ====
section
/-! SUPPORT. That the operations on sensors, zones and fans are chains of `Changes`, and that they keep the cooling side
in its ranges. -/

namespace Sys2Proof.Machine

variable {s t : State}

/-! ### Sensors and failed fans -/

theorem Changes.markFailedCounts (z : Vector ZoneRec 4) (h : Changes s t) : Changes s (markFailedCounts z t) :=
  Changes.foldl (fun _ _ h => h.markIf _ _ _) _ h

theorem ThcInRange.refreshFailed {x : Thc} (h : ThcInRange x) : ThcInRange x.refreshFailed :=
  h.of_same rfl (fun z hz => by
    simp only [Thc.refreshFailed, getFin_ofFn]
    exact ⟨hz.excess, hz.d1, hz.d2, hz.d3, hz.output⟩) rfl

theorem ThcInRange.refreshPreload {x : Thc} (h : ThcInRange x) : ThcInRange x.refreshPreload :=
  h.of_same rfl (fun z hz => by
    simp only [Thc.refreshPreload, getFin_ofFn]
    exact ⟨hz.excess, hz.d1, hz.d2, hz.d3, hz.output⟩) rfl

theorem Changes.deliverFailed (f : FanId) (x : Bool) (h : Changes s t) : Changes s (deliverFailed f x t) := by
  unfold Machine.deliverFailed
  refine Changes.markFailedCounts _ (h.thc _ fun hx => ThcInRange.refreshFailed ?_)
  exact hx.of_same rfl (fun _ hz => hz) rfl

theorem Changes.deliverTemp (b : Bay) (q : Option Int) (h : Changes s t) : Changes s (deliverTemp b q t) := by
  unfold Machine.deliverTemp
  dsimp only
  split
  · refine Changes.setSensor _ _ (h.pseq _ ⟨rfl, rfl, rfl, rfl, rfl⟩) fun hx => ?_
    exact (hx.setSensor (driveSensor b) ((hx.sensor _).read q _)).of_same rfl (fun _ hz => hz) rfl
  · exact h

theorem Changes.startBoardReads (h : Changes s t) : Changes s (startBoardReads t) :=
  h.thc _ fun hx => hx.of_same rfl (fun _ hz => hz) rfl

theorem Changes.endBoardRead (n : Fin 8) (q : Option Int) (h : Changes s t) : Changes s (endBoardRead n q t) := by
  unfold Machine.endBoardRead
  dsimp only
  split
  · refine h.setSensor _ _ fun hx => ?_
    exact (hx.setSensor (boardSensor n) ((hx.sensor _).read q _)).of_same rfl (fun _ hz => hz) rfl
  · exact h

/-! ### The zone period -/

/-- What R110 leaves of a curve record's figures. -/
structure CurveSound (c : CurveRec) : Prop where
  floor : c.floor ≤ c.ceiling
  ceiling : c.ceiling ≤ fullDuty
  preload : c.preload ≤ fullDuty

theorem curve_sound {c : CurveRec} (h : curveFault c = none) : CurveSound c := by
  simp only [curveFault, Option.map_eq_none_iff, List.find?_eq_none] at h
  have h' : ∀ p ∈ curveTests c, p.1 = true := fun p hp => by simpa using h p hp
  unfold curveTests at h'
  refine ⟨?_, ?_, ?_⟩
  · simpa using h' (decide (c.floor ≤ c.ceiling), ⟨3, 0xFF⟩) (by simp)
  · simpa using h' (decide (c.ceiling ≤ fullDuty), ⟨4, 0xFF⟩) (by simp)
  · simpa using h' (decide (c.preload ≤ fullDuty), ⟨5, 0xFF⟩) (by simp)

theorem demandOne_le {c : CurveRec} (h : CurveSound c) (e : Int) : demandOne c e ≤ fullDuty := by
  have := h.floor
  have := h.ceiling
  unfold demandOne
  split
  · omega
  · omega

theorem slew_le {c : CurveRec} {prev d : Nat} (h1 : prev ≤ fullDuty) (h2 : d ≤ fullDuty) : slew c prev d ≤ fullDuty := by
  unfold slew
  split
  · omega
  · split
    · omega
    · exact h2

theorem excessOf_range (x : Thc) (c : CurveRec) (z : ZoneId) : -1 ≤ excessOf x c z ∧ excessOf x c z ≤ 1023 := by
  have h : ∀ (l : List Int) (a : Int), -1 ≤ a → -1 ≤ l.foldl max a := by
    intro l
    induction l with
    | nil => exact fun _ h => h
    | cons b rest ih => exact fun a h => ih _ (le_trans h (le_max_left _ _))
  unfold excessOf
  refine ⟨le_min (by norm_num) (h _ _ (le_refl _)), min_le_left _ _⟩

theorem ZoneInRange.compute {x : Thc} {c : CurveRec} (z : ZoneId) (h : ZoneInRange x.zones[z]) (hc : CurveSound c) :
    ZoneInRange (computeZone x c z) := by
  have hd3 : (if x.zones[z].preloadActive then
      max (min fullDuty (demandOne c (excessOf x c z) + x.zones[z].failedCount * c.boost)) c.preload
      else min fullDuty (demandOne c (excessOf x c z) + x.zones[z].failedCount * c.boost)) ≤ fullDuty := by
    have := hc.preload
    split <;> omega
  exact ⟨excessOf_range _ _ _, demandOne_le hc _, Nat.min_le_left _ _, hd3, slew_le h.output hd3⟩

theorem ZoneInRange.hold (z : ZoneRec) : ZoneInRange (holdZone z) :=
  ⟨by simp [holdZone], Nat.le_refl _, Nat.le_refl _, Nat.le_refl _, Nat.le_refl _⟩

theorem Changes.computeZones (h : Changes s t) : Changes s (computeZones t) := by
  refine Changes.foldl (fun _ _ h => h.mark _ _) _ (h.thc _ fun hx => ⟨hx.value, hx.fails, fun z => ?_, hx.working⟩)
  dsimp only
  rw [getFin_ofFn]
  unfold periodZone
  split
  · exact ZoneInRange.hold _
  · rename_i w hw
    split
    · exact ZoneInRange.hold _
    · exact (hx.zones z).compute z (curve_sound (hx.working w hw z))

theorem Changes.applyMap (h : Changes s t) : Changes s (applyMap t) := by
  unfold Machine.applyMap
  split
  · exact h
  · rename_i p _
    have h1 : Changes s { t with thc := t.thc.mapped p } := h.thc _ fun hx => hx.of_same rfl (fun z hz => by
      simp only [Thc.mapped, getFin_ofFn]
      exact ⟨hz.excess, hz.d1, hz.d2, hz.d3, hz.output⟩) rfl
    have h2 : Changes s ((List.finRange 8).foldl (fitSensor p.fitted) { t with thc := t.thc.mapped p }) := by
      refine Changes.foldl (fun u n h => ?_) _ h1
      refine Changes.setSensor _ _ (h.markIf _ _ _) fun hx => ?_
      simp only [markIf_keeps] at hx
      unfold Thc.fit
      split
      · exact hx
      · exact (hx.setSensor (boardSensor n) SensorInRange.emptied).of_same rfl (fun _ hz => hz) rfl
    exact Changes.completeOpt _ _ _ (Changes.markFailedCounts _
      (h2.thc _ fun hx => hx.refreshFailed.refreshPreload))

theorem Changes.applySelect (h : Changes s t) : Changes s (applySelect t) := by
  unfold Machine.applySelect
  split
  · exact h
  · rename_i p _
    have h1 : Changes s { t with thc := { t.thc with pendingSelect := none } } :=
      h.thc _ fun hx => hx.of_same rfl (fun _ hz => hz) rfl
    dsimp only
    split
    · rename_i hb
      unfold acceptSelect
      refine Changes.completeOpt _ _ _ (Changes.foldl (fun _ _ h => h.markIf _ _ _) _ (h1.thc _ fun hx => ?_))
      refine ⟨hx.value, hx.fails, fun z => ?_, fun w hw z => ?_⟩
      · have hz := hx.zones z
        simp only [Thc.selected, getFin_ofFn]
        exact ⟨hz.excess, hz.d1, hz.d2, hz.d3, hz.output⟩
      · simp only [Thc.selected, Option.some.injEq] at hw
        subst hw
        simp only [bankFault, List.findSome?_eq_none_iff, Option.map_eq_none_iff] at hb
        exact hb z (List.mem_finRange z)
    · exact h1.completeOpt _ _ _

/-! ### Fans -/

theorem FanuInRange.setFan {u : Fanu} (h : FanuInRange u) (f : FanId) {r : FanRec} (hr : FanInRange r) :
    FanuInRange { u with fans := u.fans.set f r } := by
  refine ⟨fun g => ?_, h.output, h.d3⟩
  dsimp only
  rw [getFin_set]
  split
  · exact hr
  · exact h.fans g

theorem Changes.updFan (f : FanId) (g : FanRec → FanRec) (h : Changes s t)
    (hg : ThcInRange t.thc → FanuInRange t.fanu → FanInRange (g (t.fan f))) : Changes s (updFan f g t) :=
  (h.fanu _ fun ht hu => hu.setFan f (hg ht hu)).markIf _ _ _

theorem Changes.updWork (f : FanId) (g : FanWork → FanWork) (h : Changes s t) : Changes s (updWork f g t) :=
  h.fanu _ fun _ hu => ⟨hu.fans, hu.output, hu.d3⟩

theorem Changes.markFans (h : Changes s t) : Changes s (markFans t) := Changes.foldl (fun _ _ h => h.mark _ _) _ h

theorem Changes.deliverFans (h : Changes s t) : Changes s (deliverFans t) := h.deliverEstimate _

theorem FanInRange.driven {r : FanRec} (h : FanInRange r) {n : Nat} (hn : n ≤ fullDuty) : FanInRange (r.driven n) := by
  have := h.learnedMin
  unfold FanRec.driven
  split
  · exact ⟨fun _ => rfl, fun h => (by rcases h with h | h <;> cases h), Nat.zero_le _, h.learnedMin, h.kicks, h.ppr⟩
  · exact ⟨fun h => (by rcases h with h | h <;> cases h), fun h => (by rcases h with h | h <;> cases h),
      Nat.max_le.mpr ⟨hn, h.learnedMin⟩, h.learnedMin, h.kicks, h.ppr⟩

theorem Changes.driveFan (f : FanId) (h : Changes s t) :
    Changes s (Machine.updFan f (fun r => r.driven (zoneOutput t f)) t) :=
  h.updFan f _ fun _ hu => (hu.fans f).driven (hu.output _)

theorem Changes.zoneControl (f : FanId) (h : Changes s t) : Changes s (zoneControl f t) :=
  Changes.updWork f _ (h.driveFan f)

theorem Changes.applyOutput (f : FanId) (h : Changes s t) : Changes s (applyOutput f t) := by
  unfold Machine.applyOutput
  split
  · exact h.zoneControl f
  · exact h.driveFan f
  all_goals exact h

theorem Changes.leftFailed (f : FanId) (x : FanState) (h : Changes s t) : Changes s (leftFailed f x t) := by
  unfold Machine.leftFailed
  split
  · exact h.deliverFailed f _
  · exact h

theorem Changes.enterFailed (f : FanId) (h : Changes s t) : Changes s (enterFailed f t) := by
  refine Changes.deliverFailed f true (Changes.updWork f _ (h.updFan f _ fun _ hu => ?_))
  have := hu.fans f
  exact ⟨fun h => (by rcases h with h | h <;> cases h), fun _ => rfl, Nat.le_refl _, this.learnedMin, this.kicks, this.ppr⟩

theorem levelDuty_le (n : Fin 8) : levelDuty n ≤ fullDuty := by unfold levelDuty fullDuty; split <;> omega

theorem FanInRange.committed {r : FanRec} (h : FanInRange r) (l : Learn) {m : Nat} (hm : m ≤ fullDuty) :
    FanInRange (r.committed l m) := ⟨h.rest, h.full, h.duty, hm, h.kicks, h.ppr⟩

theorem Changes.endLearn (f : FanId) (l : Learn) (r : Result) (m : Nat) (h : Changes s t)
    (hm : FanuInRange t.fanu → m ≤ fullDuty) : Changes s (endLearn f l r m t) := by
  refine Changes.deliverFans (Changes.completeOpt _ _ _ (Changes.zoneControl f
    (Changes.updFan f _ (h.updWork f _) fun _ hu => ?_)))
  exact (hu.fans f).committed l (hm ⟨hu.fans, hu.output, hu.d3⟩)

theorem Changes.noSpin (f : FanId) (l : Learn) (h : Changes s t) : Changes s (noSpin f l t) :=
  Changes.deliverFans (Changes.completeOpt _ _ _ (Changes.enterFailed f
    (Changes.updFan f _ (h.updWork f _) fun _ hu => (hu.fans f).committed l (hu.fans f).learnedMin)))

theorem Changes.stopLearn (f : FanId) (l : Learn) (r : Result) (h : Changes s t) : Changes s (stopLearn f l r t) :=
  Changes.completeOpt _ _ _ (Changes.zoneControl f (h.updWork f _))

theorem Changes.visitLevel (f : FanId) (l : Learn) (n : Fin 8) (h : Changes s t) : Changes s (visitLevel f l n t) := by
  refine Changes.deliverFans (Changes.updFan f _ (h.updWork f _) fun _ hu => ?_)
  have := hu.fans f
  exact ⟨fun h => (by rcases h with h | h <;> cases h), fun h => (by rcases h with h | h <;> cases h),
    levelDuty_le n, this.learnedMin, this.kicks, this.ppr⟩

theorem Changes.judgeLevel (f : FanId) (l : Learn) (rpm : Nat) (h : Changes s t) : Changes s (judgeLevel f l rpm t) := by
  unfold Machine.judgeLevel
  split
  · split
    · exact h.visitLevel f l _
    · exact h.endLearn f l _ _ fun _ => levelDuty_le _
  · split
    · exact h.noSpin f l
    · exact h.endLearn f l _ _ fun _ => levelDuty_le _

theorem Changes.learnGate (f : FanId) (l : Learn) (h : Changes s t) : Changes s (learnGate f l t) := by
  unfold Machine.learnGate
  dsimp only
  split
  · exact h.updWork f _
  · split
    · exact h.judgeLevel f _ _
    · split
      · refine h.endLearn f _ _ _ fun hu => ?_
        unfold unsteadyMin
        cases hl : l.list.getLast? with
        | none => exact (hu.fans f).learnedMin
        | some p => simpa [hl] using levelDuty_le p.1
      · exact h.updWork f _

theorem Changes.runningGate (f : FanId) (h : Changes s t) : Changes s (runningGate f t) := by
  unfold Machine.runningGate
  dsimp only
  split
  · split
    · split
      · refine Changes.deliverFans (Changes.updWork f _ (h.updFan f _ fun _ hu => ?_))
        have := hu.fans f
        exact ⟨fun h => (by rcases h with h | h <;> cases h), fun _ => rfl, Nat.le_refl _, this.learnedMin,
          Nat.zero_le _, this.ppr⟩
      · exact h.updWork f _
    · exact h.updWork f _
  · exact h

theorem Changes.kickGate (f : FanId) (h : Changes s t) : Changes s (kickGate f t) := by
  unfold Machine.kickGate
  dsimp only
  split
  · exact h.updWork f _
  · split
    · exact Changes.deliverFans (Changes.zoneControl f (h.updWork f _))
    · split
      · rename_i hk
        refine Changes.deliverFans (Changes.updWork f _ (Changes.updFan f _ (h.updWork f _) fun _ hu => ?_))
        have := hu.fans f
        refine ⟨this.rest, this.full, this.duty, this.learnedMin, ?_, this.ppr⟩
        have : (t.fan f).kicks < 2 := hk
        have h2 : (Machine.updWork f (fun w => { w with kickGates := (t.fanWork f).kickGates + 1 }) t).fan f = t.fan f := rfl
        dsimp only
        rw [h2]
        omega
      · refine Changes.deliverFans (Changes.enterFailed f (Changes.updFan f _ (h.updWork f _) fun _ hu => ?_))
        have := hu.fans f
        exact ⟨this.rest, this.full, this.duty, this.learnedMin, Nat.le_refl _, this.ppr⟩

theorem FanInRange.noKicks {r : FanRec} (h : FanInRange r) : FanInRange { r with kicks := 0 } :=
  ⟨h.rest, h.full, h.duty, h.learnedMin, Nat.zero_le _, h.ppr⟩

theorem Changes.failedGate (f : FanId) (h : Changes s t) : Changes s (failedGate f t) := by
  unfold Machine.failedGate
  dsimp only
  split
  · split
    · exact Changes.deliverFans (Changes.deliverFailed f _ (Changes.updFan f _
        (Changes.zoneControl f (h.updWork f _)) fun _ hu => (hu.fans f).noKicks))
    · exact h.updWork f _
  · exact h.updWork f _

theorem Changes.actGate (f : FanId) (h : Changes s t) : Changes s (actGate t f) := by
  unfold Machine.actGate
  split
  · exact h.runningGate f
  · exact h.kickGate f
  · exact h.failedGate f
  · split
    · exact h
    · exact h.learnGate f _
  all_goals exact h

theorem Changes.gateExpiry (h : Changes s t) : Changes s (gateExpiry t) := by
  refine Changes.markFans (Changes.foldl (fun u f h => h.actGate f) _ (Changes.foldl (fun u f h => ?_) _
    (h.fanu _ fun _ hu => ⟨hu.fans, hu.output, hu.d3⟩)))
  refine Changes.updWork f _ (h.updFan f _ fun _ hu => ?_)
  have := hu.fans f
  exact ⟨this.rest, this.full, this.duty, this.learnedMin, this.kicks, this.ppr⟩

theorem Changes.tachEdge (f : FanId) (h : Changes s t) : Changes s (tachEdge f t) := h.updWork f _

theorem Changes.handFan (f : FanId) (h : Changes s t) : Changes s (handFan t f) := by
  unfold Machine.handFan
  split
  · split
    · exact h.stopLearn f _ _
    · exact h
  · exact h.applyOutput f

theorem Changes.handOutputs (h : Changes s t) : Changes s (handOutputs t) := by
  refine Changes.markFans (Changes.deliverFans (Changes.foldl (fun u f h => h.handFan f) _
    (h.fanu _ fun ht hu => ⟨hu.fans, fun z => ?_, fun z => ?_⟩)))
  · dsimp only; rw [getFin_ofFn]; exact (ht.zones z).output
  · dsimp only; rw [getFin_ofFn]; exact (ht.zones z).d3

theorem Changes.zonePeriod (h : Changes s t) : Changes s (zonePeriod t) :=
  Changes.handOutputs (Changes.computeZones (Changes.applySelect (Changes.applyMap
    (h.thc _ fun hx => hx.of_same rfl (fun _ hz => hz) rfl))))

end Sys2Proof.Machine
end

