-- ==== Sys2Proof/Laws/CommandChanges.lean ====
section
/-! SUPPORT. That the body of every command of the part, but for EXP's own register writes, the writing of the mirror
and power-on reset, is a chain of `Changes`; and the one form every meaning has. -/

namespace Sys2Proof.Machine

variable {s t : State}

/-! ### Transactions -/

theorem Changes.deliverIdentity (b : Bay) (o : Option Identity) (h : Changes s t) :
    Changes s (deliverIdentity b o t) := by
  unfold Machine.deliverIdentity
  split
  · exact h
  · split
    · exact h.moveBay b _ (Turn.identified b _)
    · exact h

theorem Changes.deliverHealth (b : Bay) (o : Option Byte) (h : Changes s t) : Changes s (deliverHealth b o t) := by
  unfold Machine.deliverHealth
  split
  · exact h
  · split
    · exact h.moveBay b _ (Turn.health b _)
    · exact h

theorem Changes.deliverResult (e : SbEntry) (r : SbResult) (d : List Byte) (h : Changes s t) :
    Changes s (deliverResult e r d t) := by
  unfold Machine.deliverResult
  dsimp only
  split
  · split
    · exact h.deliverTemp _ _
    · exact h
  · exact h.deliverIdentity _ _
  · exact h.deliverHealth _ _
  · exact h.deliverStandby _ _

theorem Changes.endTxn (x : Txn) (r : SbResult) (d : List Byte) (h : Changes s t) : Changes s (endTxn x r d t) :=
  Changes.startNext (Changes.followUp _ (Changes.deliverResult _ _ _
    (Changes.completeOpt _ _ _ (h.sbe _ fun hb => hb.idle))))

/-- The transaction in flight goes on with counts below its limits. -/
theorem Changes.setFlight (x : Txn) (h : Changes s t)
    (hx : SbeBounded t.sbe → x.failed ≤ 2 ∧ x.defers ≤ deferLimit x.entry.item) : Changes s (setFlight x t) :=
  h.sbe _ fun hb => ⟨hb.orderRoom, hb.pollOnce, hb.interval, fun y hy => by cases hy; exact hx hb⟩

theorem attemptOf_flight {x : Txn} (h : attemptOf t = some x) : t.sbe.flight = some x := by
  unfold attemptOf at h
  split at h
  · split at h
    · cases h; assumption
    · cases h
  · cases h

theorem Changes.attemptFailed (x : Txn) (r : SbResult) (h : Changes s t) (hx : t.sbe.flight = some x) :
    Changes s (attemptFailed x r t) := by
  unfold Machine.attemptFailed
  dsimp only
  split
  · exact h.endTxn _ _ _
  · refine h.setFlight _ fun hb => ⟨?_, (hb.counts x hx).2⟩
    dsimp only; omega

theorem Changes.attemptDeferred (x : Txn) (h : Changes s t) (hx : t.sbe.flight = some x) :
    Changes s (attemptDeferred x t) := by
  unfold Machine.attemptDeferred
  split
  · exact h.setFlight _ fun hb => ⟨(hb.counts x hx).1, by dsimp only; omega⟩
  · exact h.endTxn _ _ _

theorem Changes.replyArrived (l : List Byte) (h : Changes s t) : Changes s (replyArrived l t) := by
  unfold Machine.replyArrived
  split
  · exact h
  · rename_i x hx
    split
    · exact h
    · exact h.endTxn _ _ _
    · exact h.attemptDeferred x (attemptOf_flight hx)
    · exact h.attemptFailed x _ (attemptOf_flight hx)

theorem Changes.noReply (h : Changes s t) : Changes s (noReply t) := by
  unfold Machine.noReply
  split
  · exact h
  · rename_i x hx
    exact h.attemptFailed x _ (attemptOf_flight hx)

theorem Changes.spacingEnd (h : Changes s t) : Changes s (spacingEnd t) := by
  unfold Machine.spacingEnd
  split
  · exact h
  · rename_i x hx
    split
    · exact h.setFlight _ fun hb => hb.counts x hx
    · exact h

/-! ### Presence -/

theorem Changes.enterSettling (b : Bay) (h : Changes s t) : Changes s (enterSettling b t) := by
  have calm : ∀ st : BayState, (t.bay b).state = st → st.ordered = false → st ≠ .active →
      Changes s (Machine.moveBay b BayRec.settling t) := by
    intro st hst ho ha
    have hst' : (t.bay b).state.ordered = false := hst ▸ ho
    refine h.moveBay b _ (Turn.settlesCalm b (t.bay b).powerOrder (fun hs => hs.noOrder hst') fun hs => ?_)
    refine hs.noCharge ?_ ?_ ?_ ?_
    · rintro hr; rw [hr] at hst'; cases hst'
    · rintro hr; rw [hr] at hst'; cases hst'
    · rw [hst]; exact ha
    · rw [hs.noPhase (by intro hr; rw [hr] at hst'; cases hst')]; simp
  unfold Machine.enterSettling
  split
  · exact h
  · exact h.earlyCut b
  · exact h.earlyCut b
  · exact h.earlyCut b
  · exact h.earlyCut b
  · rename_i hq
    exact Changes.evaluate (h.lostQueued b hq)
  all_goals
    rename_i hq
    exact calm _ hq rfl (by simp)

theorem Changes.presenceChanged (b : Bay) (h : Changes s t) : Changes s (presenceChanged b t) :=
  Changes.setDebounce b _ (Changes.enterSettling b (h.pins _))

/-- The shape of a record that settles: it holds no charge and no power order. -/
theorem BayShape.settled {r : BayRec} (h : BayShape r) (hs : r.settlingFrom.isSome = true) :
    r.charge = none ∧ r.powerOrder = none := by
  have hst : r.state = .settling := by simpa [hs] using h.settles
  refine ⟨h.noCharge ?_ ?_ ?_ ?_, h.noOrder ?_⟩
  · simp [hst]
  · simp [hst]
  · simp [hst]
  · simp [h.noPhase (by simp [hst])]
  · simp [hst, BayState.ordered]

theorem Changes.enterOff (b : Bay) (f : BayRec → BayRec) (ev : HistEvent) (h : Changes s t)
    (ht : Turn t b none (f ((t.bay b).enter .off))) : Changes s (enterOff b f ev t) := by
  have h1 := Changes.requestIdent b (Changes.pushHistory b ev (h.moveBay b (fun r => f (r.enter .off)) ht))
  unfold Machine.enterOff
  dsimp only
  split
  · exact h1.enqueue b _ _
  · exact h1

theorem Turn.settledOff (b : Bay) (hs : (t.bay b).settlingFrom.isSome = true) (n : Nat)
    (hn : n ≤ 255 ∨ n = (t.bay b).replugCount) :
    Turn t b none { (t.bay b).enter .off with replugCount := n } :=
  Turn.rest b .off (Or.inl rfl) rfl rfl rfl rfl rfl (fun h => (h.settled hs).2) rfl hn fun h => (h.settled hs).1

theorem Changes.debounceEnd (b : Bay) (h : Changes s t) : Changes s (debounceEnd b t) := by
  unfold Machine.debounceEnd
  split
  · have h1 := h.setDebounce b none
    dsimp only
    split
    · rename_i hp hf
      have hs : (t.bay b).settlingFrom.isSome = true := by simp [hf]
      refine Changes.setReplug b _ (Changes.pushHistory b _ (h1.moveBay b _ ?_))
      exact Turn.rest b .empty (Or.inr rfl) rfl rfl rfl rfl rfl (fun h => (h.settled hs).2) rfl (Or.inr rfl)
        fun h => (h.settled hs).1
    · rename_i hp hf
      have hs : (t.bay b).settlingFrom.isSome = true := by simp [hf]
      exact h1.moveBay b _ (Turn.rest b .empty (Or.inr rfl) rfl rfl rfl rfl rfl (fun h => (h.settled hs).2) rfl
        (Or.inr rfl) fun h => (h.settled hs).1)
    · rename_i hp hf
      have hs : (t.bay b).settlingFrom.isSome = true := by simp [hf]
      unfold arrived
      dsimp only
      split
      · exact Changes.enterOff b _ _ (h1.setReplug b none)
          (Turn.settledOff (t := Machine.setReplug b none (Machine.setDebounce b none t)) b hs _
            (Or.inl (Nat.min_le_right _ _)))
      · exact Changes.enterOff b id _ h1 (Turn.settledOff (t := Machine.setDebounce b none t) b hs _ (Or.inr rfl))
    · rename_i hp hf
      have hs : (t.bay b).settlingFrom.isSome = true := by simp [hf]
      exact Changes.enterOff b id _ h1 (Turn.settledOff (t := Machine.setDebounce b none t) b hs _ (Or.inr rfl))
    · exact h1
  · exact h

/-! ### Events -/

theorem Changes.powerGoodRises (b : Bay) (h : Changes s t) : Changes s (powerGoodRises b t) := by
  unfold Machine.powerGoodRises
  dsimp only
  split
  · exact Changes.attemptGood b (h.pins _)
  · exact h.pins _

theorem Changes.tripRises (b : Bay) (h : Changes s t) : Changes s (tripRises b t) := by
  unfold Machine.tripRises
  split
  · exact h.attemptFail b _
  · exact h.powerCut b _

theorem Changes.powerGoodFalls (b : Bay) (h : Changes s t) : Changes s (powerGoodFalls b t) :=
  Changes.powerCut b _ (h.pins _)

theorem Changes.rampEnd (b : Bay) (h : Changes s t) : Changes s (rampEnd b t) := by
  unfold Machine.rampEnd
  split
  · exact h.attemptFail b _
  · exact h

theorem Changes.holdOver (b : Bay) (h : Changes s t) : Changes s (holdOver b t) := by
  unfold Machine.holdOver
  split
  · exact h.finishHold b
  · exact h

theorem Changes.staggerOut (h : Changes s t) : Changes s (staggerOut t) := by
  unfold Machine.staggerOut
  split
  · exact Changes.evaluate (h.updAccount _ rfl rfl rfl)
  · exact h

theorem Changes.shedTaken (b : Bay) (h : Changes s t) : Changes s (shedTaken b t) := by
  unfold Machine.shedTaken
  dsimp only
  split
  · exact h.pseq _ ⟨rfl, rfl, rfl, rfl, rfl⟩
  · exact Changes.shed b _ (h.pseq _ ⟨rfl, rfl, rfl, rfl, rfl⟩)

theorem Changes.tickOn (h : Changes s t) : Changes s (tickOn t) :=
  Changes.updAccount _ (h.clock _) rfl rfl rfl

/-! ### Orders -/

/-- The dispatcher takes POSTED slots only (R155). -/
theorem nextPosted_posted {n : SlotId} (h : nextPosted t = some n) : (t.slot n).state = .posted := by
  simpa using List.find?_some h

theorem takeKind_next {k : Kind} {n : SlotId} (h : takeKind k t = some n) :
    nextPosted t = some n ∧ Kind.ofCode (orderKind t n) = some k := by
  unfold takeKind at h
  split at h
  · cases h
  · rename_i m hm
    split at h
    · rename_i hk
      cases h
      exact ⟨hm, hk⟩
    · cases h

theorem takeBadKind_next {n : SlotId} (h : takeBadKind t = some n) :
    nextPosted t = some n ∧ Kind.ofCode (orderKind t n) = none := by
  unfold takeBadKind at h
  split at h
  · cases h
  · rename_i m hm
    split at h
    · rename_i hk
      cases h
      exact ⟨hm, hk⟩
    · cases h

theorem Changes.take (k : Kind) (act : SlotId → State → State)
    (ha : ∀ n {u : State}, Changes s u → Changes s (act n u)) (h : Changes s t) : Changes s (take k act t) := by
  unfold Machine.take
  split
  · exact h
  · rename_i hk
    exact ha _ (h.takeSlot _ (nextPosted_posted (takeKind_next hk).1))

theorem Changes.takeBad (h : Changes s t) : Changes s (takeBad t) := by
  unfold Machine.takeBad
  split
  · exact h
  · rename_i hk
    exact (h.takeSlot _ (nextPosted_posted (takeBadKind_next hk).1)).complete _ _ _

theorem Changes.powerOnOrder (n : SlotId) (h : Changes s t) : Changes s (powerOnOrder n t) := by
  unfold Machine.powerOnOrder powerOnBay
  split
  · split
    · exact h.enqueue _ _ _
    all_goals exact h.complete _ _ _
  · exact h.complete _ _ _

theorem Changes.powerOffOrder (n : SlotId) (h : Changes s t) : Changes s (powerOffOrder n t) := by
  unfold Machine.powerOffOrder powerOffBay
  split
  · split
    · exact h.complete _ _ _
    · exact h.complete _ _ _
    · exact h.complete _ _ _
    · exact h.complete _ _ _
    · exact Changes.evaluate ((h.cancelQueued _).complete _ _ _)
    · exact h.immediateStop _ _ _
    · exact h.immediateStop _ _ _
    · split
      · exact h.immediateStop _ _ _
      · exact h.gracefulStop _ _ _
    · exact h.complete _ _ _
  · exact h.complete _ _ _

theorem Changes.policyOrder (n : SlotId) (h : Changes s t) : Changes s (policyOrder n t) := by
  unfold Machine.policyOrder
  dsimp only
  split
  · exact h.complete _ _ _
  · split
    · exact h.complete _ _ _
    · split
      · exact h.complete _ _ _
      · rename_i hm
        refine Changes.complete _ _ _ (Changes.foldl (fun u b hu => (hu.updBay b _ ?_).mark _ _) _ h)
        refine ⟨fun hs => ?_, rfl, rfl⟩
        obtain ⟨h1, h2, h3, h4, h5, h6, h7, h8, h9⟩ := hs
        exact ⟨h1, h2, h3, h4, h5, h6, h7, hm, by simp [policyOf]⟩

theorem Changes.clearBay (b : Bay) (h : Changes s t) : Changes s (clearBay t b) := by
  unfold Machine.clearBay
  split
  · rename_i hf
    refine Changes.pushHistory b _ (h.moveBay b _ ?_)
    refine Turn.rest b .off (Or.inl rfl) rfl rfl rfl rfl rfl (fun hs => hs.noOrder (by simp [hf, BayState.ordered])) rfl
      (Or.inr rfl) fun hs => ?_
    exact hs.noCharge (by simp [hf]) (by simp [hf]) (by simp [hf]) (by simp [hs.noPhase (by simp [hf])])
  · exact h

theorem Changes.clearFaultOrder (n : SlotId) (h : Changes s t) : Changes s (clearFaultOrder n t) := by
  unfold Machine.clearFaultOrder clearAll clearOne
  dsimp only
  split
  · exact Changes.complete _ _ _ (Changes.foldl (fun _ _ h => h.clearBay _) _ h)
  · split
    · split
      · exact (h.clearBay _).complete _ _ _
      all_goals exact h.complete _ _ _
    · exact h.complete _ _ _

theorem Changes.budgetOrder (n : SlotId) (h : Changes s t) : Changes s (budgetOrder n t) := by
  unfold Machine.budgetOrder
  dsimp only
  split
  · exact h.complete _ _ _
  · rename_i hr
    refine Changes.evaluate (Changes.complete _ _ _ (Changes.mark _ _ (Changes.useFree ?_)))
    exact (h.settings _ _ hr).markIf _ _ _

theorem Changes.queryOrder (n : SlotId) (h : Changes s t) : Changes s (queryOrder n t) := by
  unfold Machine.queryOrder setInterval queryBay
  split
  · refine Changes.complete _ _ _ (h.sbe _ fun hb => ⟨hb.orderRoom, hb.pollOnce, ?_, hb.counts⟩)
    dsimp only; omega
  · split
    · split
      · exact h.complete _ _ _
      · exact h.complete _ _ _
      all_goals
        split
        · rename_i hr
          exact h.joinOrder _ hr
        · exact h.complete _ _ _
    · exact h.complete _ _ _

theorem Changes.mapOrder (n : SlotId) (h : Changes s t) : Changes s (mapOrder n t) := by
  unfold Machine.mapOrder
  split
  · exact h.complete _ _ _
  · exact Changes.completeOpt _ _ _ (h.thc _ fun hx => hx.of_same rfl (fun _ hz => hz) rfl)

theorem Changes.selectOrder (n : SlotId) (h : Changes s t) : Changes s (selectOrder n t) := by
  unfold Machine.selectOrder
  split
  · exact h.complete _ _ _
  · exact Changes.completeOpt _ _ _ (h.thc _ fun hx => hx.of_same rfl (fun _ hz => hz) rfl)

theorem Changes.configOrder (n : SlotId) (h : Changes s t) : Changes s (configOrder n t) := by
  unfold Machine.configOrder
  split
  · exact h.complete _ _ _
  · rename_i f _
    split
    · rename_i hp
      split
      · exact h.complete _ _ _
      · unfold applyConfig
        dsimp only
        refine Changes.deliverFans (Changes.complete _ _ _ ?_)
        have h1 : Changes s (Machine.mark (.fan f) false (Machine.updFan f (configured t n) t)) := by
          refine Changes.mark _ _ (h.updFan f _ fun _ hu => ?_)
          have := hu.fans f
          refine ⟨this.rest, this.full, this.duty, ?_, this.kicks, hp⟩
          dsimp only [configured]
          split
          · exact this.learnedMin
          · omega
        have hst : ((Machine.mark (.fan f) false (Machine.updFan f (configured t n) t)).fan f).state = (t.fan f).state := by
          rw [show (Machine.mark (.fan f) false (Machine.updFan f (configured t n) t)).fan f
            = (Machine.updFan f (configured t n) t).fan f from rfl, fan_updFan, if_pos rfl]
          rfl
        unfold configuredState
        split
        · split
          · rename_i hrun
            refine Changes.updWork f _ (h1.updFan f _ fun _ hu => ?_)
            have := hu.fans f
            have h1 := this.duty
            have h2 := this.learnedMin
            rw [hrun] at hst
            refine ⟨?_, ?_, Nat.max_le.mpr ⟨h1, h2⟩, h2, this.kicks, this.ppr⟩
            · dsimp only; rw [hst]; simp
            · dsimp only; rw [hst]; simp
          · exact h1.updWork f _
          all_goals
            exact Changes.leftFailed f _ (Changes.updFan f _ (h1.zoneControl f) fun _ hu => (hu.fans f).noKicks)
        · refine Changes.leftFailed f _ (h1.updFan f _ fun _ hu => ?_)
          have := hu.fans f
          exact ⟨fun _ => rfl, fun h => (by rcases h with h | h <;> cases h), Nat.zero_le _, this.learnedMin,
            this.kicks, this.ppr⟩
    · exact h.complete _ _ _

theorem Changes.learnOrder (n : SlotId) (h : Changes s t) : Changes s (learnOrder n t) := by
  unfold Machine.learnOrder learnFan startLearn
  dsimp only
  split
  · exact h.complete _ _ _
  · rename_i f _
    split
    · exact h.complete _ _ _
    · split
      · exact h.complete _ _ _
      · split
        · exact h.complete _ _ _
        · split
          · exact h.complete _ _ _
          · refine Changes.visitLevel f _ _ (Changes.leftFailed f _ (h.updFan f _ fun _ hu => ?_))
            have := hu.fans f
            refine ⟨fun h => (by rcases h with h | h <;> cases h), fun h => (by rcases h with h | h <;> cases h),
              this.duty, this.learnedMin, ?_, this.ppr⟩
            dsimp only
            split
            · exact Nat.zero_le _
            · exact this.kicks

theorem Changes.lightSetOrder (n : SlotId) (h : Changes s t) : Changes s (lightSetOrder n t) := by
  unfold Machine.lightSetOrder Machine.lightSet
  split
  · split
    · exact (h.setLgt _ fun hl => hl.setOrder _ _).complete _ _ _
    · split
      · exact (h.setLgt _ fun hl => hl.emptyOrder _).complete _ _ _
      · exact h.complete _ _ _
  · exact h.complete _ _ _

theorem attention_isAttention (b : Bay) : isAttention (attentionChan b) = true := by
  simp [isAttention, attentionChan]

theorem Changes.locateOrder (n : SlotId) (h : Changes s t) : Changes s (locateOrder n t) := by
  unfold Machine.locateOrder Machine.locate
  split
  · split
    · exact (h.setLgt _ fun hl => LgtSound.foldl (fun _ b h => h.setLocate _ (attention_isAttention b) _ _ _) _ hl).complete _ _ _
    · exact (h.setLgt _ fun hl => LgtSound.foldl (fun _ _ h => h.emptyLocate _) _ hl).complete _ _ _
  · exact h.complete _ _ _

theorem Changes.locateExpiry (b : Bay) (h : Changes s t) : Changes s (locateExpiry b t) := by
  unfold Machine.locateExpiry
  split
  · exact h.setLgt _ fun hl => hl.emptyLocate _
  · exact h

theorem Changes.activity (b : Bay) (h : Changes s t) : Changes s (activity b t) :=
  h.setLgt _ fun hl => (hl.activityDip _).activityDip _

theorem Changes.lightStep (h : Changes s t) : Changes s (lightStep t) :=
  h.setLgt _ fun hl => hl.envelopeStep.timed _

theorem Changes.lightSyncOrder (n : SlotId) (h : Changes s t) : Changes s (lightSyncOrder n t) := by
  unfold Machine.lightSyncOrder Machine.lightSync
  split
  · exact (h.setLgt _ fun hl => hl.setGroup _ _).complete _ _ _
  · exact h.complete _ _ _

theorem PatternInRange.read (m : Memory) (i : PatId) : PatternInRange (readPattern m i) := by
  constructor
  · have := (m.read (patternBase i + 2)).isLt
    dsimp only [readPattern]
    omega
  · exact Nat.min_le_right _ _

theorem Changes.patternOrder (n : SlotId) (h : Changes s t) : Changes s (patternOrder n t) := by
  unfold Machine.patternOrder
  dsimp only
  split
  · split
    · exact h.complete _ _ _
    · refine Changes.complete _ _ _ (h.setLgt _ fun hl => hl.loadPatterns _ _ _ (fun i => ?_) fun i hi => ?_)
      · rw [loadedTable, getFin_ofFn]
        split
        · exact PatternInRange.read _ _
        · exact hl.patterns i
      · rw [loadedTable, getFin_ofFn, if_neg hi]
  · exact h.complete _ _ _

theorem Changes.autoMapOrder (n : SlotId) (h : Changes s t) : Changes s (autoMapOrder n t) := by
  unfold Machine.autoMapOrder
  split
  · exact h.complete _ _ _
  · exact (h.setLgt _ fun hl => hl.setAutoMap _).complete _ _ _

theorem Changes.abortTaken (n m : SlotId) (x : Slot) (h : Changes s t) : Changes s (abortTaken n m x t) := by
  unfold Machine.abortTaken
  split
  · unfold abortPowerOn
    split
    · exact Changes.evaluate ((h.cancelQueued _).complete _ _ _)
    · exact h.complete _ _ _
  · unfold abortQuery
    split
    · refine Changes.complete _ _ _ (Changes.completeOpt _ _ _ (h.sbe _ fun hb => ?_))
      exact ⟨le_trans (List.length_filter_le _ _) hb.orderRoom, hb.pollOnce, hb.interval, hb.counts⟩
    · exact h.complete _ _ _
  · refine Changes.complete _ _ _ (Changes.complete _ _ _ (h.thc _ fun hx => ?_))
    exact hx.of_same rfl (fun _ hz => hz) rfl
  · refine Changes.complete _ _ _ (Changes.complete _ _ _ (h.thc _ fun hx => ?_))
    exact hx.of_same rfl (fun _ hz => hz) rfl
  · unfold abortLearn
    split
    · exact Changes.deliverFans ((h.stopLearn _ _ _).complete _ _ _)
    · exact h.complete _ _ _
  · exact h.complete _ _ _

theorem Changes.abortOrder (n : SlotId) (h : Changes s t) : Changes s (abortOrder n t) := by
  unfold Machine.abortOrder
  split
  · dsimp only
    split
    · exact h.abortTaken _ _ _
    · exact h.complete _ _ _
  · exact h.complete _ _ _

/-! ### Port reset: the owners' part -/

theorem ThcInRange.slotless {x : Thc} (h : ThcInRange x) : ThcInRange x.slotless := h.of_same rfl (fun _ hz => hz) rfl

theorem PseqQuiet.slotless (p : Pseq) : PseqQuiet p p.slotless := by
  refine ⟨rfl, rfl, rfl, ?_, ?_⟩ <;> simp [Pseq.slotless, List.map_map, Function.comp_def, QEntry.slotless]

theorem SbeBounded.slotless {b : Sbe} (hb : SbeBounded b) : SbeBounded b.slotless := by
  refine ⟨le_trans (List.length_filter_le _ _) hb.orderRoom, hb.pollOnce, hb.interval, fun x hx => ?_⟩
  simp only [Sbe.slotless, Option.map_eq_some_iff] at hx
  obtain ⟨y, hy, rfl⟩ := hx
  exact hb.counts y hy

theorem FanuInRange.slotless {u : Fanu} (h : FanuInRange u) : FanuInRange u.slotless := ⟨h.fans, h.output, h.d3⟩

theorem Changes.dropSlots (h : Changes s t) : Changes s (dropSlots t) := by
  have h1 : Changes s (clearPowerOrders t) := by
    refine Changes.foldl (fun u b hu => hu.updBay b _ ⟨fun hs => ?_, rfl, rfl⟩) _ h
    obtain ⟨h1, h2, h3, h4, h5, h6, h7, h8, h9⟩ := hs
    exact ⟨h1, h2, h3, h4, h5, by simp, h7, h8, h9⟩
  unfold Machine.dropSlots
  dsimp only
  generalize clearPowerOrders t = u at h1 ⊢
  exact (((h1.pseq _ (PseqQuiet.slotless _)).sbe _ SbeBounded.slotless).thc _ ThcInRange.slotless).fanu _
    fun _ => FanuInRange.slotless

/-! ### The body of each command -/

/-- What a command does before the end of its step. -/
def body (c : Instr) (s : State) : State :=
  match c with
  | .powerOnReset => powerOn s
  | .presenceChange b => presenceChanged b s
  | .debounceExpiry b => debounceEnd b s
  | .replugWindowExpiry b => setReplug b none s
  | .activityEdge b => activity b s
  | .powerGoodAsserted b => powerGoodRises b s
  | .tripAsserted b => tripRises b s
  | .powerGoodDeasserted b => powerGoodFalls b s
  | .rampWindowEnd b => rampEnd b s
  | .coolOffEnd b => coolOffEnd b s
  | .spinWindowEnd b => spinEnd b s
  | .holdEnd b => holdOver b s
  | .staggerExpiry => staggerOut s
  | .shedRequest b => shedTaken b s
  | .pollTimerExpiry => pollVisit s
  | .sidebandReply l => replyArrived l s
  | .sidebandNoReply => noReply s
  | .deferSpacingEnd => spacingEnd s
  | .boardSensorReadTimer => startBoardReads s
  | .boardSensorReadEnd n q => endBoardRead n q s
  | .zonePeriodStart => zonePeriod s
  | .tachGateExpiry => gateExpiry s
  | .envelopeStep => lightStep s
  | .locateTimerExpiry b => locateExpiry b s
  | .mirrorRecordWrite => mirrorWrite s
  | .orderPost w h x => postWrite h x (hostWrites w s)
  | .orderDone h x => doneWrite h x s
  | .changeSummary h x => summaryWrite h x s
  | .changeEnable h x => enableWrite h x s
  | .doneInterruptEnable on => updExp (fun e => { e with doneEnable := on }) s
  | .freeze => freezeOn s
  | .thaw => freezeOff s
  | .autoThaw => freezeExpiry s
  | .portReset => portResetAll s
  | .registerWriteOther w => otherWrite w s
  | .badKind => takeBad s
  | .bayPowerOn => take .bayPowerOn powerOnOrder s
  | .bayPowerOff => take .bayPowerOff powerOffOrder s
  | .bayPolicy => take .bayPolicy policyOrder s
  | .clearFault => take .clearFault clearFaultOrder s
  | .budgetSet => take .budgetSet budgetOrder s
  | .sidebandQuery => take .sidebandQuery queryOrder s
  | .zoneMap => take .zoneMap mapOrder s
  | .curveSelect => take .curveSelect selectOrder s
  | .fanConfig => take .fanConfig configOrder s
  | .fanLearn => take .fanLearn learnOrder s
  | .lightSet => take .lightSet lightSetOrder s
  | .locate => take .locate locateOrder s
  | .lightSync => take .lightSync lightSyncOrder s
  | .patternLoad => take .patternLoad patternOrder s
  | .autoMap => take .autoMap autoMapOrder s
  | .abort => take .abort abortOrder s
  | .tachEdge f => tachEdge f s
  | .uptimeCounterAdvance => { s with clock := { s.clock with uptime := s.clock.uptime + 1 } }
  | .tickCounterAdvance => tickOn s

/-- Every command goes on to a next state: its body, then the end of the step. -/
theorem exec_eq (c : Instr) (s : State) : exec c s = .next (finishStep (body c s)) := by cases c <;> rfl

/-- The commands whose body is EXP's own or the power-on reset: it writes registers, memory or the whole state. -/
def portOwn : Instr → Bool
  | .powerOnReset | .mirrorRecordWrite | .orderPost _ _ _ | .orderDone _ _ | .changeSummary _ _ | .changeEnable _ _
  | .doneInterruptEnable _ | .freeze | .thaw | .autoThaw | .portReset | .registerWriteOther _ => true
  | _ => false

/-- The body of every other command is a chain of changes. -/
theorem body_changes (c : Instr) (s : State) (h : portOwn c = false) : Changes s (body c s) := by
  have r : Changes s s := .refl
  cases c
  all_goals try exact absurd (show true = false from h) nofun
  case presenceChange b => exact r.presenceChanged b
  case debounceExpiry b => exact r.debounceEnd b
  case replugWindowExpiry b => exact r.setReplug b none
  case activityEdge b => exact r.activity b
  case powerGoodAsserted b => exact r.powerGoodRises b
  case tripAsserted b => exact r.tripRises b
  case powerGoodDeasserted b => exact r.powerGoodFalls b
  case rampWindowEnd b => exact r.rampEnd b
  case coolOffEnd b => exact r.coolOffEnd b
  case spinWindowEnd b => exact r.spinEnd b
  case holdEnd b => exact r.holdOver b
  case staggerExpiry => exact r.staggerOut
  case shedRequest b => exact r.shedTaken b
  case pollTimerExpiry => exact r.pollVisit
  case sidebandReply l => exact r.replyArrived l
  case sidebandNoReply => exact r.noReply
  case deferSpacingEnd => exact r.spacingEnd
  case boardSensorReadTimer => exact r.startBoardReads
  case boardSensorReadEnd n q => exact r.endBoardRead n q
  case zonePeriodStart => exact r.zonePeriod
  case tachGateExpiry => exact r.gateExpiry
  case envelopeStep => exact r.lightStep
  case locateTimerExpiry b => exact r.locateExpiry b
  case badKind => exact r.takeBad
  case bayPowerOn => exact Changes.take _ _ (fun n _ h => h.powerOnOrder n) r
  case bayPowerOff => exact Changes.take _ _ (fun n _ h => h.powerOffOrder n) r
  case bayPolicy => exact Changes.take _ _ (fun n _ h => h.policyOrder n) r
  case clearFault => exact Changes.take _ _ (fun n _ h => h.clearFaultOrder n) r
  case budgetSet => exact Changes.take _ _ (fun n _ h => h.budgetOrder n) r
  case sidebandQuery => exact Changes.take _ _ (fun n _ h => h.queryOrder n) r
  case zoneMap => exact Changes.take _ _ (fun n _ h => h.mapOrder n) r
  case curveSelect => exact Changes.take _ _ (fun n _ h => h.selectOrder n) r
  case fanConfig => exact Changes.take _ _ (fun n _ h => h.configOrder n) r
  case fanLearn => exact Changes.take _ _ (fun n _ h => h.learnOrder n) r
  case lightSet => exact Changes.take _ _ (fun n _ h => h.lightSetOrder n) r
  case locate => exact Changes.take _ _ (fun n _ h => h.locateOrder n) r
  case lightSync => exact Changes.take _ _ (fun n _ h => h.lightSyncOrder n) r
  case patternLoad => exact Changes.take _ _ (fun n _ h => h.patternOrder n) r
  case autoMap => exact Changes.take _ _ (fun n _ h => h.autoMapOrder n) r
  case abort => exact Changes.take _ _ (fun n _ h => h.abortOrder n) r
  case tachEdge f => exact r.tachEdge f
  case uptimeCounterAdvance => exact r.clock _
  case tickCounterAdvance => exact r.tickOn

end Sys2Proof.Machine
end

