-- ==== Sys2Proof/Laws/Memory.lean ====
section
/-! SUPPORT. What the accesses to the exchange memory do: every write keeps the canonical form, a read after a
write gives the byte written or the byte before. -/

namespace Sys2Proof.Machine

theorem Memory.risingFrom_mono {lo lo' : Nat} {m : Memory} (h : lo' ≤ lo) (hm : m.risingFrom lo = true) :
    m.risingFrom lo' = true := by
  cases m with
  | nil => rfl
  | cons c rest =>
    obtain ⟨k, v⟩ := c
    simp only [Memory.risingFrom, Bool.and_eq_true, decide_eq_true_eq] at hm ⊢
    exact ⟨⟨⟨by omega, hm.1.1.2⟩, hm.1.2⟩, hm.2⟩

theorem Memory.read_below {lo : Nat} {m : Memory} (hm : m.risingFrom lo = true) {x : Nat} (h : x < lo) :
    m.read x = Memory.unwritten := by
  induction m generalizing lo with
  | nil => rfl
  | cons c rest ih =>
    obtain ⟨k, v⟩ := c
    simp only [Memory.risingFrom, Bool.and_eq_true, decide_eq_true_eq] at hm
    have hk : k ≠ x := by omega
    simp only [Memory.read, hk, if_false]
    exact ih hm.2 (by omega)

theorem Memory.write_rising {lo a : Nat} {m : Memory} {b : Byte} (hm : m.risingFrom lo = true) (hlo : lo ≤ a)
    (ha : a < Memory.size) : (m.write a b).risingFrom lo = true := by
  induction m generalizing lo with
  | nil =>
    unfold Memory.write
    split
    · rfl
    · simp [Memory.risingFrom, *]
  | cons c rest ih =>
    obtain ⟨k, v⟩ := c
    have hm' := hm
    simp only [Memory.risingFrom, Bool.and_eq_true, decide_eq_true_eq] at hm
    unfold Memory.write
    split
    · split
      · exact hm'
      · simp only [Memory.risingFrom, Bool.and_eq_true, decide_eq_true_eq]
        exact ⟨⟨⟨hlo, ha⟩, by assumption⟩, ⟨⟨by omega, hm.1.1.2⟩, hm.1.2⟩, hm.2⟩
    · split
      · split
        · exact Memory.risingFrom_mono (by omega) hm.2
        · simp only [Memory.risingFrom, Bool.and_eq_true, decide_eq_true_eq]
          refine ⟨⟨⟨hlo, ha⟩, by assumption⟩, ?_⟩
          have : k = a := by omega
          exact this ▸ hm.2
      · simp only [Memory.risingFrom, Bool.and_eq_true, decide_eq_true_eq]
        exact ⟨hm.1, ih hm.2 (by omega)⟩

/-- A write keeps the canonical form. -/
theorem Memory.wf_write {m : Memory} (hm : m.wf = true) {a : Nat} (ha : a < Memory.size) (b : Byte) :
    (m.write a b).wf = true := Memory.write_rising hm (Nat.zero_le a) ha

theorem Memory.read_write_rising {lo a : Nat} {m : Memory} {b : Byte} (hm : m.risingFrom lo = true) (x : Nat) :
    (m.write a b).read x = if x = a then b else m.read x := by
  induction m generalizing lo with
  | nil =>
    unfold Memory.write
    by_cases hb : b = Memory.unwritten <;> by_cases hx : x = a <;> simp [Memory.read, hb, hx, eq_comm]
    intro h; exact absurd h.symm hx
  | cons c rest ih =>
    obtain ⟨k, v⟩ := c
    simp only [Memory.risingFrom, Bool.and_eq_true, decide_eq_true_eq] at hm
    unfold Memory.write
    by_cases h1 : a < k
    · by_cases hb : b = Memory.unwritten
      · simp only [h1, hb, if_true]
        by_cases hx : x = a
        · subst hx
          have hk : k ≠ x := by omega
          simp [Memory.read, hk, Memory.read_below hm.2 (show x < k + 1 by omega)]
        · simp [hx]
      · simp only [h1, hb, if_true, if_false]
        by_cases hx : x = a
        · simp [Memory.read, hx]
        · have : a ≠ x := fun h => hx h.symm
          simp [Memory.read, hx, this]
    · by_cases h2 : a = k
      · subst h2
        simp only [h1, if_false, if_true]
        by_cases hb : b = Memory.unwritten
        · simp only [hb, if_true]
          by_cases hx : x = a
          · subst hx; simp [Memory.read_below hm.2 (show x < x + 1 by omega)]
          · have : a ≠ x := fun h => hx h.symm
            simp [Memory.read, hx, this]
        · simp only [hb, if_false]
          by_cases hx : x = a
          · simp [Memory.read, hx]
          · have : a ≠ x := fun h => hx h.symm
            simp [Memory.read, hx, this]
      · simp only [h1, h2, if_false]
        by_cases hk : k = x
        · subst hk
          have : ¬ k = a := fun h => h2 h.symm
          simp [Memory.read, this]
        · simp only [Memory.read, hk, if_false]
          exact ih hm.2

/-- A read after a write of one byte. -/
theorem Memory.read_write {m : Memory} (hm : m.wf = true) (a : Nat) (b : Byte) (x : Nat) :
    (m.write a b).read x = if x = a then b else m.read x := Memory.read_write_rising hm x

/-- Writing bytes inside the memory keeps the canonical form. -/
theorem Memory.wf_writeBytes {l : List Byte} {m : Memory} {a : Nat} (hm : m.wf = true) (ha : a + l.length ≤ Memory.size) :
    (m.writeBytes a l).wf = true := by
  induction l generalizing m a with
  | nil => exact hm
  | cons b rest ih =>
    simp only [List.length_cons] at ha
    exact ih (Memory.wf_write hm (by omega) b) (by omega)

/-- A read after a write of bytes: the byte written there, or the byte before. -/
theorem Memory.read_writeBytes {l : List Byte} {m : Memory} {a : Nat} (hm : m.wf = true) (ha : a + l.length ≤ Memory.size)
    (x : Nat) : (m.writeBytes a l).read x = if a ≤ x then (l[x - a]?).getD (m.read x) else m.read x := by
  induction l generalizing m a with
  | nil => simp [Memory.writeBytes]
  | cons b rest ih =>
    simp only [List.length_cons] at ha
    simp only [Memory.writeBytes]
    rw [ih (Memory.wf_write hm (by omega) b) (by omega), Memory.read_write hm]
    by_cases h1 : a ≤ x
    · by_cases h2 : a = x
      · subst h2
        have : ¬ a + 1 ≤ a := by omega
        simp [this]
      · have h3 : a + 1 ≤ x := by omega
        have h4 : x - a = (x - (a + 1)) + 1 := by omega
        have h5 : ¬ x = a := fun h => h2 h.symm
        simp [h1, h3, h4, h5]
    · have h3 : ¬ a + 1 ≤ x := by omega
      have h5 : ¬ x = a := by omega
      simp [h1, h3, h5]

/-- Outside the bytes written every byte reads as before. -/
theorem Memory.read_writeBytes_outside {l : List Byte} {m : Memory} {a : Nat} (hm : m.wf = true)
    (ha : a + l.length ≤ Memory.size) {x : Nat} (hx : x < a ∨ a + l.length ≤ x) : (m.writeBytes a l).read x = m.read x := by
  rw [Memory.read_writeBytes hm ha]
  split
  · rw [List.getElem?_eq_none (by omega)]; rfl
  · rfl

/-- Inside the bytes written each byte reads as written. -/
theorem Memory.read_writeBytes_inside {l : List Byte} {m : Memory} {a : Nat} (hm : m.wf = true)
    (ha : a + l.length ≤ Memory.size) {i : Nat} (hi : i < l.length) : (m.writeBytes a l).read (a + i) = l[i] := by
  rw [Memory.read_writeBytes hm ha]
  simp [hi]

/-- Reading back the bytes just written. -/
theorem Memory.readBytes_writeBytes {l : List Byte} {m : Memory} {a : Nat} (hm : m.wf = true)
    (ha : a + l.length ≤ Memory.size) : (m.writeBytes a l).readBytes a l.length = l := by
  induction l generalizing m a with
  | nil => rfl
  | cons b rest ih =>
    simp only [List.length_cons] at ha
    have hw := Memory.wf_write hm (show a < Memory.size by omega) b
    simp only [Memory.writeBytes, List.length_cons, Memory.readBytes]
    rw [ih hw (by omega), Memory.read_writeBytes_outside hw (by omega) (by omega), Memory.read_write hm]
    simp

/-- Reads that agree byte by byte agree as a block. -/
theorem Memory.readBytes_congr {m m' : Memory} {a n : Nat} (h : ∀ x, a ≤ x → x < a + n → m'.read x = m.read x) :
    m'.readBytes a n = m.readBytes a n := by
  induction n generalizing a with
  | zero => rfl
  | succ n ih =>
    simp only [Memory.readBytes]
    rw [h a (by omega) (by omega), ih fun x hx hx' => h x (by omega) (by omega)]

/-- A host write keeps the canonical form. -/
theorem Memory.wf_hostWrite {m : Memory} (hm : m.wf = true) (w : HostWrite) : (m.hostWrite w).wf = true :=
  Memory.wf_writeBytes hm (by have := w.word.isLt; simp [le16, Memory.size]; omega)

end Sys2Proof.Machine
end

