-- ==== Sys2Proof/Laws/Mirror.lean ====
section
/-! SUPPORT. What the writing of the mirror does: the length of every record, the bytes it touches, and what it leaves
of EXP. -/

namespace Sys2Proof.Machine

/-! ### Lengths -/

@[simp] theorem le16_length (n : Nat) : (le16 n).length = 2 := rfl
@[simp] theorem le32_length (n : Nat) : (le32 n).length = 4 := rfl
@[simp] theorem le16s_length (i : Int) : (le16s i).length = 2 := rfl
@[simp] theorem absent_length (n : Nat) : (absent n).length = n := by simp [absent]

@[simp] theorem optWord_length (o : Option Word) : (optWord o).length = 4 := by cases o <;> simp [optWord]

@[simp] theorem encodeIdentity_length (o : Option Identity) : (encodeIdentity o).length = 21 := by
  cases o <;> simp [encodeIdentity]

@[simp] theorem encodeHist_length (o : Option HistEntry) : (encodeHist o).length = 8 := by
  cases o <;> simp [encodeHist]

@[simp] theorem encodeSettings_length (c : Settings) : (encodeSettings c).length = 12 := by simp [encodeSettings]

@[simp] theorem encodeBay_length (s : State) (b : Bay) : (encodeBay s b).length = 63 := by simp [encodeBay]

@[simp] theorem encodeTable_length (t : List (Fin 8 × Nat)) : (encodeTable t).length = 16 := by
  have h : ((t.map fun p => le16 (p.2 / 5)) ++ List.replicate (8 - t.length) (absent 2)).flatten.length
      = 2 * t.length + (8 - t.length) * 2 := by
    simp [List.length_flatten, List.map_map, Function.comp_def]
    omega
  unfold encodeTable
  rw [List.length_take, h]
  omega

@[simp] theorem encodeFan_length (r : FanRec) : (encodeFan r).length = 31 := by simp [encodeFan]

@[simp] theorem encodeZone_length (t : Thc) (z : ZoneId) : (encodeZone t z).length = 63 := by simp [encodeZone]

@[simp] theorem encodeSensor_length (t : Thc) (i : SensorId) : (encodeSensor t i).length = 7 := by
  simp [encodeSensor]

@[simp] theorem encodeBudget_length (p : Pseq) : (encodeBudget p).length = 255 := by
  unfold encodeBudget
  dsimp only
  simp only [List.length_append, encodeSettings_length, le16_length, List.length_cons, List.length_nil,
    List.length_replicate, List.length_take, absent_length]
  omega

/-- The size of a mirror record in bytes, its update count included (section 10.6). -/
def MirrorRec.size : MirrorRec → Nat
  | .bay _ => 64
  | .fan _ => 32
  | .zone _ => 64
  | .sensor _ => 8
  | .budget => 256

/-- A record's bytes and its update count fill it. -/
theorem encodeRecord_length (s : State) (r : MirrorRec) : (encodeRecord s r).length + 1 = r.size := by
  cases r <;> simp [encodeRecord, MirrorRec.size]

/-- The 69 records lie in the mirror area (R168). -/
theorem MirrorRec.base_range (r : MirrorRec) : 0x1000 ≤ r.base ∧ r.base + r.size ≤ 0x1A00 := by
  cases r with
  | bay b => have := b.isLt; simp only [MirrorRec.base, MirrorRec.size]; omega
  | fan f => have := f.isLt; simp only [MirrorRec.base, MirrorRec.size]; omega
  | zone z => have := z.isLt; simp only [MirrorRec.base, MirrorRec.size]; omega
  | sensor i => have := i.isLt; simp only [MirrorRec.base, MirrorRec.size]; omega
  | budget => simp [MirrorRec.base, MirrorRec.size]

/-- A bay's history positions lie in the history area (R168). -/
theorem historyBase_range (b : Bay) (p : Fin 8) : 0x2000 ≤ historyBase b p ∧ historyBase b p + 8 ≤ 0x2600 := by
  have := b.isLt
  have := p.isLt
  unfold historyBase
  omega

/-- A result area of 64 bytes lies in its slot (section 10.3). -/
theorem resultArea_length (r : Result) (tag : Half) (u : Word) (d : List Byte) : (resultArea r tag u d).length = 64 := by
  simp [resultArea]

theorem resultBase_range (n : SlotId) : 0x40 ≤ resultBase n ∧ resultBase n + 64 ≤ 0x1000 := by
  have := n.isLt
  unfold resultBase slotBase
  omega

/-! ### Where the writes land -/

/-- `m'` is a memory whose canonical form holds and which differs from `m` only where `p` holds. -/
structure WrittenIn (p : Nat → Prop) (m m' : Memory) : Prop where
  wf : m'.wf = true
  same : ∀ a, ¬ p a → m'.read a = m.read a

theorem WrittenIn.rfl {p : Nat → Prop} {m : Memory} (h : m.wf = true) : WrittenIn p m m := ⟨h, fun _ _ => Eq.refl _⟩

theorem WrittenIn.trans {p : Nat → Prop} {m m' m'' : Memory} (h : WrittenIn p m m') (h' : WrittenIn p m' m'') :
    WrittenIn p m m'' := ⟨h'.wf, fun a ha => (h'.same a ha).trans (h.same a ha)⟩

theorem WrittenIn.mono {p q : Nat → Prop} {m m' : Memory} (h : WrittenIn p m m') (hpq : ∀ a, p a → q a) :
    WrittenIn q m m' := ⟨h.wf, fun a ha => h.same a fun hp => ha (hpq a hp)⟩

theorem WrittenIn.writeBytes {p : Nat → Prop} {m : Memory} (h : m.wf = true) {a : Nat} {l : List Byte}
    (ha : a + l.length ≤ Memory.size) (hp : ∀ x, a ≤ x → x < a + l.length → p x) :
    WrittenIn p m (m.writeBytes a l) := by
  refine ⟨Memory.wf_writeBytes h ha, fun x hx => Memory.read_writeBytes_outside h ha ?_⟩
  by_contra hc
  exact hx (hp x (by omega) (by omega))

theorem WrittenIn.foldl {α : Type} {p : Nat → Prop} {f : Memory → α → Memory} (l : List α) {m : Memory}
    (h : m.wf = true) (hf : ∀ m a, m.wf = true → WrittenIn p m (f m a)) : WrittenIn p m (l.foldl f m) := by
  induction l generalizing m with
  | nil => exact WrittenIn.rfl h
  | cons a rest ih => exact (hf m a h).trans (ih (hf m a h).wf)

/-- Writing a record touches the mirror and the history only. -/
theorem writeRecord_written (r : MirrorRec) (n : Bool) (s : State) (h : s.mem.wf = true) :
    WrittenIn inMirror s.mem (writeRecord r n s).mem := by
  have h1 : WrittenIn inMirror s.mem (writeRecordHistory r s s.mem) := by
    unfold writeRecordHistory
    split
    · rename_i b
      refine WrittenIn.foldl _ h fun m p hm => ?_
      split
      · have := historyBase_range b p
        refine WrittenIn.writeBytes hm (by simp [Memory.size]; omega) fun x h1 h2 => ?_
        simp at h2
        exact Or.inr (by omega)
      · exact WrittenIn.rfl hm
    all_goals exact WrittenIn.rfl h
  have hb := r.base_range
  have hl := encodeRecord_length s r
  refine h1.trans (WrittenIn.writeBytes h1.wf (by simp [Memory.size]; omega) fun x h1 h2 => ?_)
  simp at h2
  exact Or.inl (by omega)

@[simp] theorem settleThaw_mem (s : State) : (settleThaw s).mem = s.mem := by simp

/-- The next record written touches the mirror and the history only. -/
theorem writeNext_written (s : State) (h : s.mem.wf = true) : WrittenIn inMirror s.mem (writeNext s).mem := by
  unfold writeNext
  split
  · rename_i e left b _
    rw [(settleReset_keeps _).2.2.2.2.2.2.2.1, (settleThaw_keeps _).2.2.2.2.2.2.2.1]
    exact writeRecord_written e.record e.notice { s with exp := { s.exp with resetWrite := some ⟨left, b⟩ } } h
  · simp only [settleReset_keeps]
    exact WrittenIn.rfl h
  · split
    · exact WrittenIn.rfl h
    · rename_i e rest _
      rw [(settleThaw_keeps _).2.2.2.2.2.2.2.1]
      exact writeRecord_written e.record e.notice { s with exp := { s.exp with dirty := rest } } h

theorem writeStepRecord_written (s : State) (r : MirrorRec) (h : s.mem.wf = true) :
    WrittenIn inMirror s.mem (writeStepRecord s r).mem := by
  unfold writeStepRecord
  split
  · exact WrittenIn.rfl h
  · rename_i e _
    rw [(settleThaw_keeps _).2.2.2.2.2.2.2.1]
    exact writeRecord_written r e.notice
      { s with exp := { s.exp with dirty := s.exp.dirty.filter (fun e => e.record ≠ r) } } h

/-- The end of a step touches the mirror and the history only. -/
theorem finishStep_written (s : State) (h : s.mem.wf = true) : WrittenIn inMirror s.mem (finishStep s).mem := by
  have hf : ∀ (l : List MirrorRec) (t : State), t.mem.wf = true →
      WrittenIn inMirror t.mem (l.foldl writeStepRecord t).mem := by
    intro l
    induction l with
    | nil => exact fun t ht => WrittenIn.rfl ht
    | cons r rest ih =>
      intro t ht
      have h1 := writeStepRecord_written t r ht
      exact h1.trans (ih _ h1.wf)
  unfold finishStep
  dsimp only
  split
  · exact hf _ s h
  · exact WrittenIn.rfl h

/-- Where no order completed in the step, or a freeze holds, the end of a step touches no memory. -/
theorem finishStep_mem (s : State) (h : s.exp.stepDone = false ∨ freezeHolds s = true) : (finishStep s).mem = s.mem := by
  unfold finishStep
  dsimp only
  split
  · rename_i hc
    rcases h with h | h <;> simp [h] at hc
  · rfl

/-- The end of a step empties the model's note of it. -/
theorem finishStep_note (s : State) : StepNoteEmpty (finishStep s).exp := ⟨rfl, rfl⟩

/-- A completion touches the result areas only. -/
theorem complete_written (n : SlotId) (r : Result) (d : List Byte) (s : State) (h : s.mem.wf = true) :
    WrittenIn inResults s.mem (complete n r d s).mem := by
  unfold complete
  split
  · have := resultBase_range n
    refine WrittenIn.writeBytes h (by rw [resultArea_length]; simp [Memory.size]; omega) fun x h1 h2 => ?_
    rw [resultArea_length] at h2
    exact ⟨n, h1, h2⟩
  · exact WrittenIn.rfl h

/-- The defaults of R150 touch the pattern area and the AUTO map area only. -/
theorem writeLightDefaults_written (m : Memory) (h : m.wf = true) : WrittenIn inLightAreas m (writeLightDefaults m) := by
  have hp : ∀ p : Pattern, (encodePattern p).length = 32 := fun p => by simp [encodePattern]
  have ha : (encodeAutoMap AutoEntry.defaults).length = 16 := by decide
  have h1 := WrittenIn.foldl (p := inLightAreas)
    (f := fun m (i : PatId) => m.writeBytes (patternBase i) (encodePattern Pattern.defaults[i])) (List.finRange 16) h
    fun m i hm => by
      have := i.isLt
      refine WrittenIn.writeBytes hm (by rw [hp]; simp [Memory.size, patternBase]; omega) fun x h1 h2 => ?_
      rw [hp] at h2
      unfold patternBase at h1 h2
      exact ⟨by omega, by omega⟩
  refine h1.trans (WrittenIn.writeBytes h1.wf (by rw [ha]; simp [Memory.size, autoMapBase]) fun x h2 h3 => ?_)
  rw [ha] at h3
  unfold autoMapBase at h2 h3
  exact ⟨by omega, by omega⟩

end Sys2Proof.Machine
end

