-- ==== Sys2Proof/Laws/Port.lean ====
section
/-! SUPPORT. That each of EXP's own operations keeps EXP sound. -/

namespace Sys2Proof.Machine

/-! ### The dirty set -/

/-- A mark adds its record at the end unless it waits already. -/
theorem addMark_records (r : MirrorRec) (n : Bool) (l : List DirtyEntry) :
    dirtyRecords (addMark r n l) = if r ∈ dirtyRecords l then dirtyRecords l else dirtyRecords l ++ [r] := by
  induction l with
  | nil => simp [addMark, dirtyRecords]
  | cons e rest ih =>
    unfold addMark
    by_cases h : e.record = r
    · simp [h, dirtyRecords]
    · have h' : ¬ r = e.record := fun x => h x.symm
      rw [if_neg h]
      simp only [dirtyRecords, List.map_cons, List.mem_cons, h', false_or] at ih ⊢
      rw [ih]
      by_cases hr : r ∈ rest.map DirtyEntry.record <;> simp [hr]

theorem addMark_nodup (r : MirrorRec) (n : Bool) {l : List DirtyEntry} (h : (dirtyRecords l).Nodup) :
    (dirtyRecords (addMark r n l)).Nodup := by
  rw [addMark_records]
  split
  · exact h
  · rename_i hr
    simpa [List.nodup_append, h] using fun a ha (hc : a = r) => hr (hc ▸ ha)

theorem mem_addMark (r r' : MirrorRec) (n : Bool) (l : List DirtyEntry) :
    r' ∈ dirtyRecords (addMark r n l) ↔ r' = r ∨ r' ∈ dirtyRecords l := by
  rw [addMark_records]
  split
  · rename_i h
    constructor
    · exact Or.inr
    · rintro (rfl | h')
      · exact h
      · exact h'
  · simp [or_comm]

/-! ### EXP without its freeze's end and its reset's end -/

/-- The part of `ExpSound` that holds at every moment of a step. -/
structure ExpCore (e : Exp) : Prop where
  dirtyOnce : (dirtyRecords e.dirty).Nodup
  resetOnce : ∀ w, e.resetWrite = some w → (dirtyRecords w.left).Nodup
  summary : e.summary &&& ~~~changeBits = 0
  enable : e.enable &&& ~~~changeBits = 0
  collisions : e.collisions ≤ 255
  frozen : e.freezeBit = true → e.freezeActive = true
  timed : e.freezeTimer.isSome = e.freezeBit
  thawWaits : ∀ r ∈ e.thawLeft, r ∈ dirtyRecords e.dirty

theorem ExpSound.core {e : Exp} (h : ExpSound e) : ExpCore e :=
  ⟨h.dirtyOnce, h.resetOnce, h.summary, h.enable, h.collisions, h.frozen, h.timed, h.thawWaits⟩

theorem ExpCore.sound {e : Exp} (h : ExpCore e) (h1 : e.ready = e.resetWrite.isNone)
    (h2 : ∀ w, e.resetWrite = some w → w.left ≠ [])
    (h3 : e.freezeActive = true → e.freezeBit = false → e.thawLeft ≠ []) : ExpSound e :=
  ⟨h.dirtyOnce, h.resetOnce, h1, h2, h.summary, h.enable, h.collisions, h.frozen, h.timed, h3, h.thawWaits⟩

/-- Two states of EXP that differ only in what `ExpSound` does not speak of. -/
structure ExpSame (e e' : Exp) : Prop where
  dirty : e'.dirty = e.dirty
  resetWrite : e'.resetWrite = e.resetWrite
  ready : e'.ready = e.ready
  summary : e'.summary = e.summary
  enable : e'.enable = e.enable
  collisions : e'.collisions = e.collisions
  freezeBit : e'.freezeBit = e.freezeBit
  freezeActive : e'.freezeActive = e.freezeActive
  freezeTimer : e'.freezeTimer = e.freezeTimer
  thawLeft : e'.thawLeft = e.thawLeft

theorem ExpSound.same {e e' : Exp} (h : ExpSound e) (hs : ExpSame e e') : ExpSound e' := by
  obtain ⟨s1, s2, s3, s4, s5, s6, s7, s8, s9, s10⟩ := hs
  obtain ⟨h1, h2, h3, h4, h5, h6, h7, h8, h9, h10, h11⟩ := h
  constructor
  · rw [s1]; exact h1
  · rw [s2]; exact h2
  · rw [s2, s3]; exact h3
  · rw [s2]; exact h4
  · rw [s4]; exact h5
  · rw [s5]; exact h6
  · rw [s6]; exact h7
  · rw [s7, s8]; exact h8
  · rw [s7, s9]; exact h9
  · rw [s7, s8, s10]; exact h10
  · rw [s1, s10]; exact h11

theorem ExpSound.mark {s : State} (h : ExpSound s.exp) (r : MirrorRec) (n : Bool) : ExpSound (mark r n s).exp := by
  obtain ⟨h1, h2, h3, h4, h5, h6, h7, h8, h9, h10, h11⟩ := h
  exact ⟨addMark_nodup _ _ h1, h2, h3, h4, h5, h6, h7, h8, h9, h10, fun r' hr => (mem_addMark _ _ _ _).mpr (Or.inr (h11 r' hr))⟩

theorem ExpSound.markIf {s : State} (h : ExpSound s.exp) (c : Bool) (r : MirrorRec) (n : Bool) :
    ExpSound (Machine.markIf c r n s).exp := by
  unfold Machine.markIf
  split
  · exact h.mark r n
  · exact h

theorem ExpSound.complete {s : State} (h : ExpSound s.exp) (n : SlotId) (r : Result) (d : List Byte) :
    ExpSound (Machine.complete n r d s).exp := by
  unfold Machine.complete
  split
  · exact h.same ⟨rfl, rfl, rfl, rfl, rfl, rfl, rfl, rfl, rfl, rfl⟩
  · exact h

/-! ### Register writes -/

theorem changeBits_and (x y : Word) (h : x &&& ~~~changeBits = 0) : (x &&& y) &&& ~~~changeBits = 0 := by
  rw [BitVec.and_assoc, BitVec.and_comm y, ← BitVec.and_assoc, h]
  exact BitVec.zero_and

theorem changeBits_or (x y : Word) (h : x &&& ~~~changeBits = 0) (h' : y &&& ~~~changeBits = 0) :
    (x ||| y) &&& ~~~changeBits = 0 := by
  rw [BitVec.and_comm, BitVec.and_or_distrib_left, BitVec.and_comm, h, BitVec.and_comm, h']
  rfl

theorem changeBits_mask (x : Word) : (x &&& changeBits) &&& ~~~changeBits = 0 := by
  rw [BitVec.and_assoc, show changeBits &&& ~~~changeBits = 0#32 by decide]
  exact BitVec.and_zero

theorem ExpSound.postWrite {s : State} (h : ExpSound s.exp) (half : RegHalf) (bits : Half) :
    ExpSound (postWrite half bits s).exp := by
  have hf : ∀ (w : Word) (l : List SlotId) (e : Exp), ExpSound e → ExpSound (l.foldl (postBit w) e) := by
    intro w l
    induction l with
    | nil => exact fun _ h => h
    | cons n rest ih =>
      intro e he
      refine ih _ ?_
      unfold postBit
      split
      · split
        · exact he.same ⟨rfl, rfl, rfl, rfl, rfl, rfl, rfl, rfl, rfl, rfl⟩
        · obtain ⟨h1, h2, h3, h4, h5, h6, h7, h8, h9, h10, h11⟩ := he
          exact ⟨h1, h2, h3, h4, h5, h6, Nat.min_le_right _ _, h8, h9, h10, h11⟩
      · exact he
  unfold Machine.postWrite
  split
  · exact hf _ _ _ h
  · exact h

theorem ExpSound.doneWrite {s : State} (h : ExpSound s.exp) (half : RegHalf) (bits : Half) :
    ExpSound (doneWrite half bits s).exp := by
  have hf : ∀ (w : Word) (l : List SlotId) (e : Exp), ExpSound e → ExpSound (l.foldl (doneBit w) e) := by
    intro w l
    induction l with
    | nil => exact fun _ h => h
    | cons n rest ih =>
      intro e he
      refine ih _ ?_
      unfold doneBit
      split
      · exact he.same ⟨rfl, rfl, rfl, rfl, rfl, rfl, rfl, rfl, rfl, rfl⟩
      · exact he
  exact hf _ _ _ h

theorem ExpSound.summaryWrite {s : State} (h : ExpSound s.exp) (half : RegHalf) (bits : Half) :
    ExpSound (summaryWrite half bits s).exp := by
  obtain ⟨h1, h2, h3, h4, h5, h6, h7, h8, h9, h10, h11⟩ := h
  exact ⟨h1, h2, h3, h4, changeBits_and _ _ h5, h6, h7, h8, h9, h10, h11⟩

theorem ExpSound.enableWrite {s : State} (h : ExpSound s.exp) (half : RegHalf) (mask : Half) :
    ExpSound (enableWrite half mask s).exp := by
  obtain ⟨h1, h2, h3, h4, h5, h6, h7, h8, h9, h10, h11⟩ := h
  exact ⟨h1, h2, h3, h4, h5, changeBits_mask _, h7, h8, h9, h10, h11⟩

/-! ### The freeze -/

theorem ExpSound.freezeOn {s : State} (h : ExpSound s.exp) : ExpSound (freezeOn s).exp := by
  unfold Machine.freezeOn
  split
  · obtain ⟨h1, h2, h3, h4, h5, h6, h7, h8, h9, h10, h11⟩ := h
    exact ⟨h1, h2, h3, h4, h5, h6, h7, fun _ => rfl, rfl, fun _ h => by simp at h, h11⟩
  · exact h

theorem ExpCore.settleThaw {s : State} (h : ExpCore s.exp) : ExpCore (settleThaw s).exp := by
  unfold Machine.settleThaw
  split
  · rename_i hc
    simp only [Bool.and_eq_true, Bool.not_eq_true'] at hc
    obtain ⟨h1, h2, h3, h4, h5, h6, h7, h8⟩ := h
    exact ⟨h1, h2, h3, h4, h5, fun hb => (by rw [hc.1.2] at hb; cases hb), h7, h8⟩
  · exact h

theorem settleThaw_ready (s : State) :
    (settleThaw s).exp.ready = s.exp.ready ∧ (settleThaw s).exp.resetWrite = s.exp.resetWrite := by
  unfold settleThaw
  split <;> exact ⟨rfl, rfl⟩

theorem settleThaw_thawing (s : State) : (settleThaw s).exp.freezeActive = true →
    (settleThaw s).exp.freezeBit = false → (settleThaw s).exp.thawLeft ≠ [] := by
  unfold settleThaw
  split
  · intro h; simp at h
  · rename_i hc
    intro h1 h2 h3
    simp [h1, h2, h3] at hc

theorem ExpSound.endFreeze {s : State} (h : ExpSound s.exp) : ExpSound (endFreeze s).exp := by
  obtain ⟨h1, h2, h3, h4, h5, h6, h7, h8, h9, h10, h11⟩ := h
  unfold Machine.endFreeze
  refine (ExpCore.settleThaw ?_).sound ?_ ?_ (settleThaw_thawing _)
  · exact ⟨h1, h2, h5, h6, h7, fun h => (by cases h), rfl, fun r hr => hr⟩
  · rw [(settleThaw_ready _).1, (settleThaw_ready _).2]; exact h3
  · rw [(settleThaw_ready _).2]; exact h4

theorem ExpSound.freezeOff {s : State} (h : ExpSound s.exp) : ExpSound (freezeOff s).exp := by
  unfold Machine.freezeOff
  split
  · exact h.endFreeze
  · exact h

theorem ExpSound.freezeExpiry {s : State} (h : ExpSound s.exp) : ExpSound (freezeExpiry s).exp := by
  unfold Machine.freezeExpiry
  split
  · refine ExpSound.endFreeze ?_
    obtain ⟨h1, h2, h3, h4, h5, h6, h7, h8, h9, h10, h11⟩ := h
    exact ⟨h1, h2, h3, h4, changeBits_or _ _ h5 (by decide), h6, h7, h8, h9, h10, h11⟩
  · exact h

/-! ### A write of bits that are not used -/

theorem controlUnused_bit (v : Half) (i : Nat) (h : i < 3) : (v &&& controlUnused).getLsbD i = false := by
  have : ∀ k : Fin 3, controlUnused.getLsbD k.val = false := by decide
  rw [BitVec.getLsbD_and, this ⟨i, h⟩, Bool.and_false]

/-- A write of PORT CONTROL's unused bits disables the done term and thaws (R152). -/
theorem otherWrite_control (v : Half) (s : State) :
    otherWrite (.portControlUnused v) s = freezeOff (updExp (fun e => { e with doneEnable := false }) s) := by
  unfold otherWrite registerWrite portControlWrite
  dsimp only
  rw [controlUnused_bit v 0 (by omega), controlUnused_bit v 1 (by omega), controlUnused_bit v 2 (by omega)]
  rfl

/-- It changes EXP's state only. -/
theorem otherWrite_keeps (target : OtherWrite) (s : State) : otherWrite target s = { s with exp := (otherWrite target s).exp } := by
  cases target
  case portControlUnused v =>
    rw [otherWrite_control]
    unfold Machine.freezeOff Machine.endFreeze Machine.settleThaw updExp
    (repeat' split) <;> rfl
  all_goals rfl

theorem ExpSound.otherWrite {s : State} (h : ExpSound s.exp) (target : OtherWrite) :
    ExpSound (otherWrite target s).exp := by
  cases target
  case portStatus => exact h
  case portControlUpper => exact h
  case portControlUnused v =>
    rw [otherWrite_control]
    exact ExpSound.freezeOff (s := updExp _ s) (h.same ⟨rfl, rfl, rfl, rfl, rfl, rfl, rfl, rfl, rfl, rfl⟩)
  case changeSummaryUnused v => exact h.summaryWrite .upper _
  case changeEnableUnused v => exact h.enableWrite .upper _

/-! ### Writing the mirror -/

theorem summaryAfter_bits (r : MirrorRec) (n : Bool) {w : Word} (h : w &&& ~~~changeBits = 0) :
    summaryAfter r n w &&& ~~~changeBits = 0 := by
  have hb : ∀ i : Fin 29, (1#32 <<< i.val) &&& ~~~changeBits = 0 := by decide
  unfold summaryAfter
  split
  · exact h
  · split
    · exact changeBits_or _ _ h (hb _)
    · exact h

/-- Writing record `r`, where every other record of the thaw still waits. -/
theorem ExpCore.writeRecord {s : State} (r : MirrorRec) (n : Bool) (h1 : (dirtyRecords s.exp.dirty).Nodup)
    (h2 : ∀ w, s.exp.resetWrite = some w → (dirtyRecords w.left).Nodup) (h3 : s.exp.summary &&& ~~~changeBits = 0)
    (h4 : s.exp.enable &&& ~~~changeBits = 0) (h5 : s.exp.collisions ≤ 255)
    (h6 : s.exp.freezeBit = true → s.exp.freezeActive = true) (h7 : s.exp.freezeTimer.isSome = s.exp.freezeBit)
    (h8 : ∀ r' ∈ s.exp.thawLeft, r' ≠ r → r' ∈ dirtyRecords s.exp.dirty) : ExpCore (writeRecord r n s).exp := by
  refine ⟨h1, h2, summaryAfter_bits r n h3, h4, h5, h6, h7, fun r' hr => ?_⟩
  simp only [Machine.writeRecord, List.mem_filter, decide_eq_true_eq] at hr
  exact h8 r' hr.1 hr.2

theorem settleReset_sound {s : State} (h : ExpCore s.exp) (h1 : s.exp.ready = s.exp.resetWrite.isNone)
    (h3 : s.exp.freezeActive = true → s.exp.freezeBit = false → s.exp.thawLeft ≠ []) :
    ExpSound (settleReset s).exp := by
  unfold settleReset
  split
  · rename_i b hw
    obtain ⟨c1, c2, c3, c4, c5, c6, c7, c8⟩ := h
    refine ExpCore.sound ⟨c1, fun w h => (by cases h), ?_, c4, c5, c6, c7, c8⟩ rfl (fun w h => by cases h) h3
    dsimp only
    split
    · exact changeBits_or _ _ c3 (by decide)
    · exact c3
  · rename_i hw
    refine h.sound h1 (fun w hw' => ?_) h3
    rw [hw] at hw'
    cases hw'
    simp
  · rename_i hw
    refine h.sound h1 (fun w hw' => ?_) h3
    rw [hw] at hw'
    cases hw'

theorem ExpSound.writeNext {s : State} (h : ExpSound s.exp) : ExpSound (writeNext s).exp := by
  unfold Machine.writeNext
  split
  · rename_i e left b hw
    have hn := h.resetOnce _ hw
    simp only [dirtyRecords, List.map_cons, List.nodup_cons] at hn
    refine settleReset_sound (ExpCore.settleThaw (ExpCore.writeRecord _ _ ?_ ?_ ?_ ?_ ?_ ?_ ?_ ?_)) ?_
      (settleThaw_thawing _)
    · exact h.dirtyOnce
    · intro w hw'
      simp only [Option.some.injEq] at hw'
      subst hw'
      exact hn.2
    · exact h.summary
    · exact h.enable
    · exact h.collisions
    · exact h.frozen
    · exact h.timed
    · exact fun r' hr _ => h.thawWaits r' hr
    · rw [(settleThaw_ready _).1, (settleThaw_ready _).2]
      have := h.ready
      rw [hw] at this
      exact this
  · rename_i hw
    exact absurd rfl (h.resetLeft _ hw)
  · rename_i hw
    split
    · exact h
    · rename_i e rest hd
      have hn := h.dirtyOnce
      rw [hd] at hn
      simp only [dirtyRecords, List.map_cons, List.nodup_cons] at hn
      refine (ExpCore.settleThaw (ExpCore.writeRecord _ _ ?_ ?_ ?_ ?_ ?_ ?_ ?_ fun r' hr hne => ?_)).sound ?_ ?_
        (settleThaw_thawing _)
      · exact hn.2
      · exact h.resetOnce
      · exact h.summary
      · exact h.enable
      · exact h.collisions
      · exact h.frozen
      · exact h.timed
      · have := h.thawWaits r' hr
        rw [hd] at this
        simp only [dirtyRecords, List.map_cons, List.mem_cons] at this
        exact this.resolve_left hne
      · rw [(settleThaw_ready _).1, (settleThaw_ready _).2]; exact h.ready
      · rw [(settleThaw_ready _).2]; exact h.resetLeft

theorem ExpSound.writeStepRecord {s : State} (h : ExpSound s.exp) (r : MirrorRec) :
    ExpSound (writeStepRecord s r).exp := by
  unfold Machine.writeStepRecord
  split
  · exact h
  · refine (ExpCore.settleThaw (ExpCore.writeRecord _ _ ?_ ?_ ?_ ?_ ?_ ?_ ?_ fun r' hr hne => ?_)).sound ?_ ?_
      (settleThaw_thawing _)
    · exact (List.Sublist.map _ List.filter_sublist).nodup h.dirtyOnce
    · exact h.resetOnce
    · exact h.summary
    · exact h.enable
    · exact h.collisions
    · exact h.frozen
    · exact h.timed
    · obtain ⟨e, he, rfl⟩ := List.mem_map.mp (h.thawWaits r' hr)
      exact List.mem_map.mpr ⟨e, by simp [he, hne], rfl⟩
    · rw [(settleThaw_ready _).1, (settleThaw_ready _).2]; exact h.ready
    · rw [(settleThaw_ready _).2]; exact h.resetLeft

theorem ExpSound.finishStep {s : State} (h : ExpSound s.exp) : ExpSound (finishStep s).exp := by
  have hf : ∀ (l : List MirrorRec) (t : State), ExpSound t.exp → ExpSound (l.foldl Machine.writeStepRecord t).exp := by
    intro l
    induction l with
    | nil => exact fun _ h => h
    | cons r rest ih => exact fun t ht => ih _ (ht.writeStepRecord r)
  unfold Machine.finishStep
  dsimp only
  split
  · exact (hf _ s h).same ⟨rfl, rfl, rfl, rfl, rfl, rfl, rfl, rfl, rfl, rfl⟩
  · exact h.same ⟨rfl, rfl, rfl, rfl, rfl, rfl, rfl, rfl, rfl, rfl⟩

theorem ExpSound.mirrorWrite {s : State} (h : ExpSound s.exp) : ExpSound (mirrorWrite s).exp := by
  unfold Machine.mirrorWrite
  split
  · exact h
  · exact h.writeNext

/-! ### The two resets -/

theorem foldl_addMark_nodup {α : Type} (f : α → MirrorRec) (g : α → Bool) (as : List α) {l : List DirtyEntry}
    (h : (dirtyRecords l).Nodup) : (dirtyRecords (as.foldl (fun l a => addMark (f a) (g a) l) l)).Nodup := by
  induction as generalizing l with
  | nil => exact h
  | cons a rest ih => exact ih (addMark_nodup _ _ h)

theorem wholeMirror_nodup {e : Exp} (h : ExpSound e) : (dirtyRecords (wholeMirror e)).Nodup := by
  have h1 : (dirtyRecords (resetLeft e)).Nodup := by
    unfold resetLeft
    split
    · exact List.nodup_nil
    · rename_i w hw
      exact h.resetOnce w hw
  exact foldl_addMark_nodup id (fun _ => false) _ (foldl_addMark_nodup DirtyEntry.record DirtyEntry.notice _ h1)

theorem wholeMirror_nonempty (e : Exp) : wholeMirror e ≠ [] := by
  have hm : ∀ (as : List MirrorRec) (l : List DirtyEntry) (r : MirrorRec), (r ∈ as ∨ r ∈ dirtyRecords l) →
      r ∈ dirtyRecords (as.foldl (fun l r => addMark r false l) l) := by
    intro as
    induction as with
    | nil => exact fun l r h => h.resolve_left (by simp)
    | cons a rest ih =>
      intro l r h
      refine ih _ r ?_
      rw [mem_addMark]
      rcases h with h | h
      · rcases List.mem_cons.mp h with h | h
        · exact Or.inr (Or.inl h)
        · exact Or.inl h
      · exact Or.inr (Or.inr h)
  intro h
  have hb : MirrorRec.budget ∈ dirtyRecords (wholeMirror e) := by
    unfold wholeMirror
    exact hm allRecords _ .budget (Or.inl (by simp [allRecords]))
  rw [h] at hb
  exact absurd hb (by simp [dirtyRecords])

theorem ExpSound.portReset {e : Exp} (h : ExpSound e) : ExpSound e.portReset := by
  have h1 := wholeMirror_nodup h
  have h2 := wholeMirror_nonempty e
  unfold Exp.portReset
  generalize wholeMirror e = l at h1 h2 ⊢
  refine ⟨List.nodup_nil, fun w hw => ?_, rfl, fun w hw => ?_, BitVec.zero_and, BitVec.zero_and, Nat.zero_le _,
    fun h => (by cases h), rfl, fun h => (by cases h), fun r hr => by cases hr⟩
  · cases hw; exact h1
  · cases hw; exact h2

end Sys2Proof.Machine
end

