-- ==== Sys2Proof/Laws/Invariants.lean ====
section
/-! SUPPORT. What a chain of `Changes` keeps: the budget account, the queue, the bay records, the ranges of the
sideband, the cooling and the lights, EXP, and every byte of memory outside the result areas. -/

namespace Sys2Proof.Machine

variable {s t : State}

/-! ### Sums over the bays -/

theorem sum_set (f g : Bay → Nat) (b : Bay) (h : ∀ d, d ≠ b → g d = f d) (l : List Bay) (hn : l.Nodup) (hb : b ∈ l) :
    (l.map g).sum + f b = (l.map f).sum + g b := by
  induction l with
  | nil => cases hb
  | cons a rest ih =>
    simp only [List.map_cons, List.sum_cons, List.nodup_cons] at hn ⊢
    by_cases ha : a = b
    · subst ha
      have : rest.map g = rest.map f := List.map_congr_left fun d hd => h d fun hda => hn.1 (hda ▸ hd)
      rw [this]
      omega
    · have := ih hn.2 (by simpa [Ne.symm ha] using hb)
      rw [h a ha]
      omega

/-- One bay's share and the shares of the rest, before and after it changes. -/
theorem sum_bays (f g : Bay → Nat) (b : Bay) (h : ∀ d, d ≠ b → g d = f d) :
    ((List.finRange 24).map g).sum + f b = ((List.finRange 24).map f).sum + g b :=
  sum_set f g b h _ (List.nodup_finRange 24) (List.mem_finRange b)

theorem share_le_sum (f : Bay → Nat) (b : Bay) : f b ≤ ((List.finRange 24).map f).sum :=
  List.le_sum_of_mem (List.mem_map.mpr ⟨b, List.mem_finRange b, rfl⟩)

/-! ### The account -/

/-- Two states whose bays hold the same charges and start alike, with the same totals. -/
theorem AccountAgrees.same (h : AccountAgrees s) (h1 : ∀ b, (t.bay b).charge = (s.bay b).charge)
    (h2 : ∀ b, (t.bay b).state = (s.bay b).state) (h3 : t.account.drives = s.account.drives)
    (h4 : t.account.starting = s.account.starting) : AccountAgrees t := by
  refine ⟨?_, ?_⟩
  · rw [h3, h.drives]
    exact congrArg List.sum (List.map_congr_left fun b _ => by rw [h1])
  · rw [h4, h.starting]
    exact congrArg List.sum (List.map_congr_left fun b _ => by rw [h2])

theorem AccountAgrees.turn (h : AccountAgrees s) (b : Bay) (j : Option QEntry) (f : BayRec → BayRec) :
    AccountAgrees (turnBay b j f s) := by
  have hbay := fun d => bay_turnBay b d j f s
  have ha : (turnBay b j f s).account = s.account.follow (s.bay b) (f (s.bay b)) := by
    simp [State.account, Pseq.follow]
  constructor
  · have h1 := sum_bays (fun d => chargeUnits (s.bay d).charge) (fun d => chargeUnits ((turnBay b j f s).bay d).charge) b
      fun d hd => by rw [hbay, if_neg hd]
    have h2 := share_le_sum (fun d => chargeUnits (s.bay d).charge) b
    have h3 := h.drives
    simp only [heldUnits] at h3 ⊢
    rw [ha]
    simp only [Account.follow, hbay, if_true] at h1 ⊢
    omega
  · have h1 := sum_bays (fun d => bit (s.bay d).state.starting) (fun d => bit ((turnBay b j f s).bay d).state.starting) b
      fun d hd => by rw [hbay, if_neg hd]
    have h2 := share_le_sum (fun d => bit (s.bay d).state.starting) b
    have h3 := h.starting
    simp only [startingBays] at h3 ⊢
    rw [ha]
    simp only [Account.follow, hbay, if_true] at h1 ⊢
    omega

theorem lowered_units {c : Option ChargeRecord} (h : ∀ x, c = some x → x.pair.ordered) :
    chargeUnits (lowered c) ≤ chargeUnits c := by
  cases c with
  | none => exact Nat.le_refl _
  | some x =>
    have := h x rfl
    unfold ChargePair.ordered at this
    cases hx : x.held <;> simp [lowered, chargeUnits, hx, this]

theorem BudgetKept.turn (h : BudgetKept s) (b : Bay) (j : Option QEntry) (f : BayRec → BayRec)
    (ht : Turn s b j (f (s.bay b))) : BudgetKept (turnBay b j f s) := by
  have hbay := fun d => bay_turnBay b d j f s
  have ha : (turnBay b j f s).account = s.account.follow (s.bay b) (f (s.bay b)) := by
    simp [State.account, Pseq.follow]
  have hd := h.agrees.drives
  have hs := h.agrees.starting
  have hu := share_le_sum (fun d => chargeUnits (s.bay d).charge) b
  have hv := share_le_sum (fun d => bit (s.bay d).state.starting) b
  simp only [heldUnits] at hd
  simp only [startingBays] at hs
  have hw := h.within
  have hp := h.places
  refine ⟨h.agrees.turn b j f, ?_, ?_, ?_, ?_, fun d c hc => ?_⟩
  · rw [ha]
    simp only [Account.follow]
    rcases ht.money with ⟨hm, _⟩ | ⟨_, hf, hc⟩
    · have : chargeUnits (f (s.bay b)).charge ≤ chargeUnits (s.bay b).charge := by
        rcases hm with hm | hm | hm
        · rw [hm]
        · rw [hm]; exact Nat.zero_le _
        · rw [hm]; exact lowered_units fun x hx => h.charges b x hx
      omega
    · have := of_decide_eq_true hf
      rw [hc]
      simp only [chargeUnits]
      have hmax := le_max_left s.account.settings.floor s.account.fanEstimate
      omega
  · rw [ha]
    simp only [Account.follow]
    rcases ht.money with ⟨_, hm⟩ | ⟨hpl, _, _⟩
    · have : bit (f (s.bay b)).state.starting ≤ bit (s.bay b).state.starting := by
        cases h1 : (f (s.bay b)).state.starting
        · exact Nat.zero_le _
        · rw [hm h1]
      omega
    · have hpl := of_decide_eq_true hpl
      have : bit (f (s.bay b)).state.starting ≤ 1 := by
        cases (f (s.bay b)).state.starting <;> simp [bit]
      omega
  · rw [ha]; exact h.rotating
  · rw [ha]; exact h.solid
  · rw [hbay] at hc
    by_cases hdb : d = b
    · rw [if_pos hdb] at hc
      rcases ht.money with ⟨hm, _⟩ | ⟨_, _, hm⟩
      · rcases hm with hm | hm | hm
        · exact h.charges b c (hm ▸ hc)
        · rw [hm] at hc; cases hc
        · rw [hm] at hc
          simp only [lowered, Option.map_eq_some_iff] at hc
          obtain ⟨x, hx, rfl⟩ := hc
          exact h.charges b x hx
      · rw [hm] at hc
        cases hc
        simp only [pairNow, Settings.pair]
        split
        · exact h.rotating
        · exact h.solid
    · rw [if_neg hdb] at hc
      exact h.charges d c hc

/-- Two states with the same settings, totals and bay charges and states. -/
theorem BudgetKept.same (h : BudgetKept s) (h1 : ∀ b, (t.bay b).charge = (s.bay b).charge)
    (h2 : ∀ b, (t.bay b).state = (s.bay b).state) (h3 : t.account.drives = s.account.drives)
    (h4 : t.account.starting = s.account.starting) (h5 : t.account.settings = s.account.settings) : BudgetKept t := by
  refine ⟨h.agrees.same h1 h2 h3 h4, ?_, ?_, ?_, ?_, fun b c hc => ?_⟩
  · rw [h3, h5]; exact h.within
  · rw [h4, h5]; exact h.places
  · rw [h5]; exact h.rotating
  · rw [h5]; exact h.solid
  · exact h.charges b c (h1 b ▸ hc)

/-- The tests of R42 that a valid BUDGET SET passes. -/
theorem budget_accepted {c : Settings} {a : Account} (h : budgetRefusal c a = none) :
    c.floor ≤ c.capacity ∧ c.rotating.ordered ∧ c.solid.ordered ∧ a.drives ≤ c.capacity - c.floor
      ∧ a.starting ≤ c.maxConcurrent := by
  simp only [budgetRefusal, Option.map_eq_none_iff, List.find?_eq_none] at h
  have h' : ∀ p ∈ budgetTests c a, p.1 = true := fun p hp => by simpa using h p hp
  unfold budgetTests at h'
  refine ⟨?_, ?_, ?_, ?_, ?_⟩
  · exact of_decide_eq_true (h' (decide (c.floor ≤ c.capacity), ⟨.badArg, 1, none⟩) (by simp))
  · have hx := h' (decide (c.rotating.steady ≤ c.rotating.inrush), ⟨.badArg, 5, none⟩) (by simp)
    exact Nat.le_of_ble_eq_true (by simpa using hx)
  · have hx := h' (decide (c.solid.steady ≤ c.solid.inrush), ⟨.badArg, 7, none⟩) (by simp)
    exact Nat.le_of_ble_eq_true (by simpa using hx)
  · exact of_decide_eq_true (h' (decide (a.drives ≤ c.capacity - c.floor), ⟨.budgetInUse, 0, some a.drives⟩) (by simp))
  · exact of_decide_eq_true (h' (decide (a.starting ≤ c.maxConcurrent), ⟨.budgetInUse, 3, some a.starting⟩) (by simp))

theorem BudgetKept.accepted (h : BudgetKept s) (c : Settings) (k : Nat) (hr : budgetRefusal c s.account = none) :
    BudgetKept { s with pseq := { s.pseq with account := s.pseq.account.accepted c k } } := by
  obtain ⟨h1, h2, h3, h4, h5⟩ := budget_accepted hr
  have ha : AccountAgrees { s with pseq := { s.pseq with account := s.pseq.account.accepted c k } } :=
    h.agrees.same (fun _ => rfl) (fun _ => rfl) rfl rfl
  refine ⟨ha, ?_, h5, h2, h3, h.charges⟩
  change s.account.drives + c.floor ≤ c.capacity
  omega

theorem Quiet.bays {b : Bay} {r' : BayRec} (hq : Quiet (s.bay b) r') :
    (∀ d, (({ s with bmon := { s.bmon with bays := s.bmon.bays.set b r' } } : State).bay d).charge = (s.bay d).charge)
    ∧ (∀ d, (({ s with bmon := { s.bmon with bays := s.bmon.bays.set b r' } } : State).bay d).state = (s.bay d).state) := by
  constructor <;> intro d <;> simp only [State.bay, getFin_set] <;> split
  · rename_i h; subst h; exact hq.charge
  · rfl
  · rename_i h; subst h; exact hq.state
  · rfl

theorem bay_complete (n : SlotId) (r : Result) (d : List Byte) (b : Bay) : (complete n r d s).bay b = s.bay b :=
  bay_of_bmon (complete_keeps n r d s).2.1 b

theorem account_complete (n : SlotId) (r : Result) (d : List Byte) : (complete n r d s).account = s.account := by
  simp [State.account]

/-- A chain of changes keeps the budget. -/
theorem Changes.budget (h : Changes s t) (hs : BudgetKept s) : BudgetKept t := by
  induction h with
  | refl => exact hs
  | mark _ _ _ ih => exact ih.same (fun _ => rfl) (fun _ => rfl) rfl rfl rfl
  | histPending _ _ ih => exact ih.same (fun _ => rfl) (fun _ => rfl) rfl rfl rfl
  | complete n r d _ ih =>
    exact ih.same (fun b => by rw [bay_complete]) (fun b => by rw [bay_complete]) (by rw [account_complete])
      (by rw [account_complete]) (by rw [account_complete])
  | takeSlot _ _ _ ih => exact ih.same (fun _ => rfl) (fun _ => rfl) rfl rfl rfl
  | record b r' _ hq ih => exact ih.same hq.bays.1 hq.bays.2 rfl rfl rfl
  | timers _ _ _ ih => exact ih.same (fun _ => rfl) (fun _ => rfl) rfl rfl rfl
  | turn b j f _ ht ih => exact ih.turn b j f ht
  | pseq p _ hq ih => exact ih.same (fun _ => rfl) (fun _ => rfl) hq.drives hq.starting hq.settings
  | drop b _ _ ih =>
    exact ih.same (fun d => by rw [bay_of_bmon (dropEntry_keeps b _).2.1])
      (fun d => by rw [bay_of_bmon (dropEntry_keeps b _).2.1]) (by simp [State.account]) (by simp [State.account])
      (by simp [State.account])
  | settings c k _ hr ih => exact ih.accepted c k hr
  | sbe _ _ _ ih => exact ih.same (fun _ => rfl) (fun _ => rfl) rfl rfl rfl
  | thc _ _ _ ih => exact ih.same (fun _ => rfl) (fun _ => rfl) rfl rfl rfl
  | fanu _ _ _ ih => exact ih.same (fun _ => rfl) (fun _ => rfl) rfl rfl rfl
  | lgt _ _ _ ih => exact ih.same (fun _ => rfl) (fun _ => rfl) rfl rfl rfl
  | pins _ _ ih => exact ih.same (fun _ => rfl) (fun _ => rfl) rfl rfl rfl
  | clock _ _ ih => exact ih.same (fun _ => rfl) (fun _ => rfl) rfl rfl rfl
  | free _ _ ih => exact ih.same (fun _ => rfl) (fun _ => rfl) rfl rfl rfl

/-! ### The bay records -/

theorem BaysShaped.same (h : BaysShaped s) (hb : ∀ b, t.bay b = s.bay b) : BaysShaped t := fun b => by
  rw [hb]; exact h b

theorem BaysShaped.set (h : BaysShaped s) (b : Bay) {r : BayRec} (hr : BayShape r) (hb : ∀ d, t.bay d = if d = b then r else s.bay d) :
    BaysShaped t := fun d => by
  rw [hb]
  split
  · exact hr
  · exact h d

/-- A chain of changes keeps the shape of every bay record. -/
theorem Changes.shaped (h : Changes s t) (hs : BaysShaped s) : BaysShaped t := by
  induction h with
  | refl => exact hs
  | complete n r d _ ih => exact ih.same fun b => bay_complete n r d b
  | record b r' _ hq ih =>
    refine BaysShaped.set ih b (hq.shape (ih b)) fun d => ?_
    simp only [State.bay, getFin_set]
  | turn b j f _ ht ih => exact BaysShaped.set ih b (ht.shape (ih b)) fun d => bay_turnBay b d j f _
  | drop b _ _ ih => exact ih.same fun d => bay_of_bmon (dropEntry_keeps b _).2.1 d
  | mark _ _ _ ih | histPending _ _ ih | takeSlot _ _ _ ih | timers _ _ _ ih | pseq _ _ _ ih | settings _ _ _ _ ih
  | sbe _ _ _ ih | thc _ _ _ ih | fanu _ _ _ ih | lgt _ _ _ ih | pins _ _ ih | clock _ _ ih | free _ _ ih => exact ih

/-! ### The admission queue -/

theorem queuedBays_eq (p : Pseq) : queuedBays p = p.urgent.map QEntry.bay ++ p.normal.map QEntry.bay := by
  simp [queuedBays, queueView]

/-- Two queues whose entries have the same bays and classes. -/
theorem slotless_bays {q q' : List QEntry} (h : q'.map QEntry.slotless = q.map QEntry.slotless) :
    q'.map QEntry.bay = q.map QEntry.bay ∧ ∀ c, (∀ e ∈ q, e.cls = c) → ∀ e ∈ q', e.cls = c := by
  constructor
  · have := congrArg (List.map QEntry.bay) h
    simpa [List.map_map, Function.comp_def, QEntry.slotless] using this
  · intro c hc e he
    have : QEntry.slotless e ∈ q.map QEntry.slotless := h ▸ List.mem_map.mpr ⟨e, he, rfl⟩
    obtain ⟨x, hx, hxe⟩ := List.mem_map.mp this
    have := congrArg QEntry.cls hxe
    simp only [QEntry.slotless] at this
    rw [← this]
    exact hc x hx

theorem QueueMatches.same (h : QueueMatches s) (h1 : ∀ b, (t.bay b).state = (s.bay b).state)
    (h2 : t.pseq.urgent.map QEntry.slotless = s.pseq.urgent.map QEntry.slotless)
    (h3 : t.pseq.normal.map QEntry.slotless = s.pseq.normal.map QEntry.slotless) : QueueMatches t := by
  have hb : queuedBays t.pseq = queuedBays s.pseq := by
    rw [queuedBays_eq, queuedBays_eq, (slotless_bays h2).1, (slotless_bays h3).1]
  exact ⟨by rw [hb]; exact h.once, fun b => by rw [hb, h1]; exact h.queued b,
    (slotless_bays h2).2 _ h.urgent, (slotless_bays h3).2 _ h.normal⟩

theorem map_filter_bay (q : List QEntry) (b : Bay) :
    (q.filter fun e => e.bay ≠ b).map QEntry.bay = (q.map QEntry.bay).filter fun d => d ≠ b := by
  rw [List.filter_map]
  rfl

/-- The queue after entries of a bay leave it. -/
theorem filtered_bays (p : Pseq) (b : Bay) :
    queuedBays { p with urgent := p.urgent.filter (fun e => e.bay ≠ b), normal := p.normal.filter (fun e => e.bay ≠ b) }
      = (queuedBays p).filter fun d => d ≠ b := by
  simp only [queuedBays_eq, map_filter_bay, List.filter_append]

theorem QueueMatches.turn (h : QueueMatches s) (b : Bay) (j : Option QEntry) (f : BayRec → BayRec)
    (ht : Turn s b j (f (s.bay b))) : QueueMatches (turnBay b j f s) := by
  have hbay := fun d => bay_turnBay b d j f s
  have hst : ∀ d, ((turnBay b j f s).bay d).state = if d = b then (f (s.bay b)).state else (s.bay d).state := by
    intro d; rw [hbay]; split <;> rfl
  cases j with
  | none =>
    by_cases hq : (f (s.bay b)).state = .queued
    · refine h.same (fun d => ?_) ?_ ?_
      · rw [hst]
        split
        · rename_i hd; subst hd; rw [hq, ht.stays rfl hq]
        · rfl
      · simp [Pseq.follow, classAfter, hq]
      · simp [Pseq.follow, classAfter, hq]
    · have hb : queuedBays (turnBay b none f s).pseq = (queuedBays s.pseq).filter fun d => d ≠ b := by
        rw [← filtered_bays]
        simp [Pseq.follow, classAfter, hq, queuedBays, queueView]
      refine ⟨?_, fun d => ?_, fun e he => ?_, fun e he => ?_⟩
      · rw [hb]; exact h.once.filter _
      · rw [hb, hst, List.mem_filter, h.queued]
        by_cases hd : d = b
        · simp [hd, hq]
        · simp [hd]
      · simp only [turnBay_pseq, Pseq.follow, classAfter, if_neg hq, List.mem_filter] at he
        exact h.urgent e he.1
      · simp only [turnBay_pseq, Pseq.follow, classAfter, if_neg hq, List.mem_filter] at he
        exact h.normal e he.1
  | some e =>
    obtain ⟨he, hn, hq⟩ := ht.joins e rfl
    have hnot : b ∉ queuedBays s.pseq := fun hm => hn ((h.queued b).mp hm)
    have hperm : (queuedBays (turnBay b (some e) f s).pseq).Perm (b :: queuedBays s.pseq) := by
      have hp := turnBay_pseq b (some e) f s
      rw [hp, queuedBays_eq, queuedBays_eq]
      simp only [Pseq.follow, classAfter, hq, if_true]
      cases e.cls
      · simp only [if_true, reduceCtorEq, if_false, List.map_append, List.map_cons, List.map_nil, he, ← List.append_assoc]
        exact List.perm_append_comm
      · simp only [if_true, reduceCtorEq, if_false, List.map_append, List.map_cons, List.map_nil, he, List.append_assoc]
        exact List.perm_middle
    refine ⟨hperm.nodup_iff.mpr (List.nodup_cons.mpr ⟨hnot, h.once⟩), fun d => ?_, fun x hx => ?_, fun x hx => ?_⟩
    · rw [hperm.mem_iff, hst, List.mem_cons, h.queued]
      by_cases hd : d = b
      · simp [hd, hq]
      · simp [hd]
    · simp only [turnBay_pseq, Pseq.follow, classAfter, hq, if_true] at hx
      split at hx
      · rename_i hc
        rcases List.mem_append.mp hx with hx | hx
        · exact h.urgent x hx
        · rw [List.mem_singleton.mp hx]; exact hc
      · exact h.urgent x hx
    · simp only [turnBay_pseq, Pseq.follow, classAfter, hq, if_true] at hx
      split at hx
      · rename_i hc
        rcases List.mem_append.mp hx with hx | hx
        · exact h.normal x hx
        · rw [List.mem_singleton.mp hx]; exact hc
      · exact h.normal x hx

theorem QueueMatches.drop (h : QueueMatches s) (b : Bay) (hb : (s.bay b).state ≠ .queued) :
    QueueMatches (dropEntry b s) := by
  have hbay := fun d => bay_of_bmon (dropEntry_keeps b s).2.1 d
  have hbays : queuedBays (dropEntry b s).pseq = (queuedBays s.pseq).filter fun d => d ≠ b := by
    rw [dropEntry_pseq, filtered_bays]
  refine ⟨by rw [hbays]; exact h.once.filter _, fun d => ?_, fun e he => ?_, fun e he => ?_⟩
  · rw [hbays, hbay, List.mem_filter, h.queued]
    by_cases hd : d = b
    · subst hd; simp [hb]
    · simp [hd]
  · rw [dropEntry_pseq] at he
    exact h.urgent e (List.mem_filter.mp he).1
  · rw [dropEntry_pseq] at he
    exact h.normal e (List.mem_filter.mp he).1

/-- A chain of changes keeps the queue and the bays' states together. -/
theorem Changes.queue (h : Changes s t) (hs : QueueMatches s) : QueueMatches t := by
  induction h with
  | refl => exact hs
  | complete n r d _ ih =>
    exact ih.same (fun b => by rw [bay_complete]) (by rw [(complete_keeps n r d _).2.2.1])
      (by rw [(complete_keeps n r d _).2.2.1])
  | record b r' _ hq ih => exact ih.same hq.bays.2 rfl rfl
  | turn b j f _ ht ih => exact ih.turn b j f ht
  | pseq p _ hq ih => exact ih.same (fun _ => rfl) hq.urgent hq.normal
  | drop b _ hb ih => exact ih.drop b hb
  | mark _ _ _ ih | histPending _ _ ih | takeSlot _ _ _ ih | timers _ _ _ ih | settings _ _ _ _ ih
  | sbe _ _ _ ih | thc _ _ _ ih | fanu _ _ _ ih | lgt _ _ _ ih | pins _ _ ih | clock _ _ ih | free _ _ ih =>
    exact ih.same (fun _ => rfl) rfl rfl

/-! ### Sideband, cooling, lights -/

theorem Changes.sideband (h : Changes s t) (hs : SbeBounded s.sbe) : SbeBounded t.sbe := by
  induction h with
  | refl => exact hs
  | complete n r d _ ih => rw [(complete_keeps n r d _).2.2.2.1]; exact ih
  | turn b j f _ _ ih => rw [(turnBay_keeps b j f _).2.1]; exact ih
  | drop b _ _ ih => rw [(dropEntry_keeps b _).2.2.1]; exact ih
  | sbe _ _ hx ih => exact hx ih
  | mark _ _ _ ih | histPending _ _ ih | takeSlot _ _ _ ih | timers _ _ _ ih | settings _ _ _ _ ih | record _ _ _ _ ih
  | pseq _ _ _ ih | thc _ _ _ ih | fanu _ _ _ ih | lgt _ _ _ ih | pins _ _ ih | clock _ _ ih | free _ _ ih => exact ih

theorem Changes.cooling (h : Changes s t) (hs : CoolingInRange s) : CoolingInRange t := by
  induction h with
  | refl => exact hs
  | complete n r d _ ih => exact ⟨by simpa using ih.thc, by simpa using ih.fanu⟩
  | turn b j f _ _ ih => exact ⟨by simpa using ih.thc, by simpa using ih.fanu⟩
  | drop b _ _ ih => exact ⟨by simpa using ih.thc, by simpa using ih.fanu⟩
  | thc _ _ hx ih => exact ⟨hx ih.thc, ih.fanu⟩
  | fanu _ _ hx ih => exact ⟨ih.thc, hx ih.thc ih.fanu⟩
  | mark _ _ _ ih | histPending _ _ ih | takeSlot _ _ _ ih | timers _ _ _ ih | settings _ _ _ _ ih | record _ _ _ _ ih
  | pseq _ _ _ ih | sbe _ _ _ ih | lgt _ _ _ ih | pins _ _ ih | clock _ _ ih | free _ _ ih => exact ⟨ih.thc, ih.fanu⟩

theorem Changes.lights (h : Changes s t) (hs : LgtSound s.lgt) : LgtSound t.lgt := by
  induction h with
  | refl => exact hs
  | complete n r d _ ih => simpa using ih
  | turn b j f _ _ ih => simpa using ih
  | drop b _ _ ih => simpa using ih
  | lgt _ _ hx ih => exact hx ih
  | mark _ _ _ ih | histPending _ _ ih | takeSlot _ _ _ ih | timers _ _ _ ih | settings _ _ _ _ ih | record _ _ _ _ ih
  | pseq _ _ _ ih | sbe _ _ _ ih | thc _ _ _ ih | fanu _ _ _ ih | pins _ _ ih | clock _ _ ih | free _ _ ih => exact ih

/-! ### EXP, the memory and the command queue -/

theorem ExpSound.updPseq (h : ExpSound s.exp) (f : Pseq → Pseq) : ExpSound (updPseq f s).exp := by
  unfold Machine.updPseq
  refine ExpSound.markIf ?_ _ _ _
  exact h

theorem ExpSound.dropEntry (h : ExpSound s.exp) (b : Bay) : ExpSound (dropEntry b s).exp := h.updPseq _

theorem ExpSound.turnBay (h : ExpSound s.exp) (b : Bay) (j : Option QEntry) (f : BayRec → BayRec) :
    ExpSound (turnBay b j f s).exp := by
  unfold Machine.turnBay Machine.updBay
  refine ExpSound.markIf ?_ _ _ _
  exact h.updPseq _

theorem Changes.port (h : Changes s t) (hs : ExpSound s.exp) : ExpSound t.exp := by
  induction h with
  | refl => exact hs
  | mark r n _ ih => exact ih.mark r n
  | histPending _ _ ih => exact ih.same ⟨rfl, rfl, rfl, rfl, rfl, rfl, rfl, rfl, rfl, rfl⟩
  | complete n r d _ ih => exact ih.complete n r d
  | takeSlot n _ _ ih => exact ih.same ⟨rfl, rfl, rfl, rfl, rfl, rfl, rfl, rfl, rfl, rfl⟩
  | turn b j f _ _ ih => exact ih.turnBay b j f
  | drop b _ _ ih => exact ih.dropEntry b
  | timers _ _ _ ih | settings _ _ _ _ ih | record _ _ _ _ ih | lgt _ _ _ ih
  | pseq _ _ _ ih | sbe _ _ _ ih | thc _ _ _ ih | fanu _ _ _ ih | pins _ _ ih | clock _ _ ih | free _ _ ih => exact ih

/-- A chain of changes writes the result areas only. -/
theorem Changes.written (h : Changes s t) (hs : s.mem.wf = true) : WrittenIn inResults s.mem t.mem := by
  induction h with
  | refl => exact WrittenIn.rfl hs
  | complete n r d _ ih => exact ih.trans (complete_written n r d _ ih.wf)
  | turn b j f _ _ ih => simpa using ih
  | drop b _ _ ih => simpa using ih
  | mark _ _ _ ih | histPending _ _ ih | takeSlot _ _ _ ih | timers _ _ _ ih | settings _ _ _ _ ih | record _ _ _ _ ih
  | pseq _ _ _ ih | sbe _ _ _ ih | thc _ _ _ ih | fanu _ _ _ ih | lgt _ _ _ ih | pins _ _ ih | clock _ _ ih
  | free _ _ ih => exact ih

/-- A chain of changes leaves the command queue. -/
theorem Changes.pending (h : Changes s t) : t.pending = s.pending := by
  induction h with
  | refl => rfl
  | complete n r d _ ih => simpa using ih
  | turn b j f _ _ ih => simpa using ih
  | drop b _ _ ih => simpa using ih
  | mark _ _ _ ih | histPending _ _ ih | takeSlot _ _ _ ih | timers _ _ _ ih | settings _ _ _ _ ih | record _ _ _ _ ih
  | pseq _ _ _ ih | sbe _ _ _ ih | thc _ _ _ ih | fanu _ _ _ ih | lgt _ _ _ ih | pins _ _ ih | clock _ _ ih
  | free _ _ ih => exact ih

/-- What a chain of changes leaves of EXP: the registers, the freeze, the reset's writing and the update counts. -/
structure PortKept (e e' : Exp) : Prop where
  summary : e'.summary = e.summary
  enable : e'.enable = e.enable
  doneEnable : e'.doneEnable = e.doneEnable
  freezeBit : e'.freezeBit = e.freezeBit
  freezeActive : e'.freezeActive = e.freezeActive
  freezeExpired : e'.freezeExpired = e.freezeExpired
  freezeTimer : e'.freezeTimer = e.freezeTimer
  ready : e'.ready = e.ready
  collisions : e'.collisions = e.collisions
  resetWrite : e'.resetWrite = e.resetWrite
  thawLeft : e'.thawLeft = e.thawLeft
  counts : e'.counts = e.counts

theorem PortKept.refl (e : Exp) : PortKept e e := ⟨rfl, rfl, rfl, rfl, rfl, rfl, rfl, rfl, rfl, rfl, rfl, rfl⟩

theorem PortKept.trans {e e' e'' : Exp} (h : PortKept e e') (h' : PortKept e' e'') : PortKept e e'' :=
  ⟨h'.summary.trans h.summary, h'.enable.trans h.enable, h'.doneEnable.trans h.doneEnable,
    h'.freezeBit.trans h.freezeBit, h'.freezeActive.trans h.freezeActive, h'.freezeExpired.trans h.freezeExpired,
    h'.freezeTimer.trans h.freezeTimer, h'.ready.trans h.ready, h'.collisions.trans h.collisions,
    h'.resetWrite.trans h.resetWrite, h'.thawLeft.trans h.thawLeft, h'.counts.trans h.counts⟩

theorem PortKept.markIf (c : Bool) (r : MirrorRec) (n : Bool) : PortKept s.exp (markIf c r n s).exp := by
  unfold Machine.markIf
  split
  · exact ⟨rfl, rfl, rfl, rfl, rfl, rfl, rfl, rfl, rfl, rfl, rfl, rfl⟩
  · exact PortKept.refl _

theorem PortKept.updPseq (f : Pseq → Pseq) : PortKept s.exp (updPseq f s).exp :=
  PortKept.markIf (s := { s with pseq := f s.pseq }) _ _ _

theorem PortKept.dropEntry (b : Bay) : PortKept s.exp (dropEntry b s).exp := PortKept.updPseq _

theorem PortKept.turnBay (b : Bay) (j : Option QEntry) (f : BayRec → BayRec) :
    PortKept s.exp (turnBay b j f s).exp := by
  unfold Machine.turnBay Machine.updBay
  refine PortKept.trans ?_ (PortKept.markIf _ _ _)
  exact PortKept.updPseq _

theorem PortKept.complete (n : SlotId) (r : Result) (d : List Byte) : PortKept s.exp (complete n r d s).exp := by
  unfold Machine.complete
  split
  · exact ⟨rfl, rfl, rfl, rfl, rfl, rfl, rfl, rfl, rfl, rfl, rfl, rfl⟩
  · exact PortKept.refl _

theorem Changes.portKept (h : Changes s t) : PortKept s.exp t.exp := by
  induction h with
  | refl => exact PortKept.refl _
  | mark r n _ ih => exact ih.trans ⟨rfl, rfl, rfl, rfl, rfl, rfl, rfl, rfl, rfl, rfl, rfl, rfl⟩
  | histPending _ _ ih => exact ih.trans ⟨rfl, rfl, rfl, rfl, rfl, rfl, rfl, rfl, rfl, rfl, rfl, rfl⟩
  | complete n r d _ ih => exact ih.trans (PortKept.complete n r d)
  | takeSlot n _ _ ih => exact ih.trans ⟨rfl, rfl, rfl, rfl, rfl, rfl, rfl, rfl, rfl, rfl, rfl, rfl⟩
  | turn b j f _ _ ih => exact ih.trans (PortKept.turnBay b j f)
  | drop b _ _ ih => exact ih.trans (PortKept.dropEntry b)
  | timers _ _ _ ih | settings _ _ _ _ ih | record _ _ _ _ ih | lgt _ _ _ ih
  | pseq _ _ _ ih | sbe _ _ _ ih | thc _ _ _ ih | fanu _ _ _ ih | pins _ _ ih | clock _ _ ih | free _ _ ih => exact ih

end Sys2Proof.Machine
end

