-- ==== Sys2Proof/Laws/PerInstr.lean ====
section
/-! SUPPORT. Statements made of every command, one lemma per constructor. -/

namespace Sys2Proof.Laws.Unspelled

/-- No word spells the command: the table gives its row no bits. -/
def Statement (i : Instr) : Prop := ∀ nbits w, decodeTableWord nbits w ≠ some i

theorem powerOnReset : Statement .powerOnReset := by intro _ _ h; cases h
theorem presenceChange (bay : Bay) : Statement (.presenceChange bay) := by intro _ _ h; cases h
theorem debounceExpiry (bay : Bay) : Statement (.debounceExpiry bay) := by intro _ _ h; cases h
theorem replugWindowExpiry (bay : Bay) : Statement (.replugWindowExpiry bay) := by intro _ _ h; cases h
theorem activityEdge (bay : Bay) : Statement (.activityEdge bay) := by intro _ _ h; cases h
theorem powerGoodAsserted (bay : Bay) : Statement (.powerGoodAsserted bay) := by intro _ _ h; cases h
theorem tripAsserted (bay : Bay) : Statement (.tripAsserted bay) := by intro _ _ h; cases h
theorem powerGoodDeasserted (bay : Bay) : Statement (.powerGoodDeasserted bay) := by intro _ _ h; cases h
theorem rampWindowEnd (bay : Bay) : Statement (.rampWindowEnd bay) := by intro _ _ h; cases h
theorem coolOffEnd (bay : Bay) : Statement (.coolOffEnd bay) := by intro _ _ h; cases h
theorem spinWindowEnd (bay : Bay) : Statement (.spinWindowEnd bay) := by intro _ _ h; cases h
theorem holdEnd (bay : Bay) : Statement (.holdEnd bay) := by intro _ _ h; cases h
theorem staggerExpiry : Statement .staggerExpiry := by intro _ _ h; cases h
theorem shedRequest (bay : Bay) : Statement (.shedRequest bay) := by intro _ _ h; cases h
theorem pollTimerExpiry : Statement .pollTimerExpiry := by intro _ _ h; cases h
theorem sidebandReply (bytes : List Byte) : Statement (.sidebandReply bytes) := by intro _ _ h; cases h
theorem sidebandNoReply : Statement .sidebandNoReply := by intro _ _ h; cases h
theorem deferSpacingEnd : Statement .deferSpacingEnd := by intro _ _ h; cases h
theorem boardSensorReadTimer : Statement .boardSensorReadTimer := by intro _ _ h; cases h
theorem boardSensorReadEnd (sensor : Fin 8) (reading : Option Int) : Statement (.boardSensorReadEnd sensor reading) := by intro _ _ h; cases h
theorem zonePeriodStart : Statement .zonePeriodStart := by intro _ _ h; cases h
theorem tachGateExpiry : Statement .tachGateExpiry := by intro _ _ h; cases h
theorem envelopeStep : Statement .envelopeStep := by intro _ _ h; cases h
theorem locateTimerExpiry (bay : Bay) : Statement (.locateTimerExpiry bay) := by intro _ _ h; cases h
theorem mirrorRecordWrite : Statement .mirrorRecordWrite := by intro _ _ h; cases h
theorem orderPost (writes : List HostWrite) (half : RegHalf) (bits : Half) : Statement (.orderPost writes half bits) := by intro _ _ h; cases h
theorem orderDone (half : RegHalf) (bits : Half) : Statement (.orderDone half bits) := by intro _ _ h; cases h
theorem changeSummary (half : RegHalf) (bits : Half) : Statement (.changeSummary half bits) := by intro _ _ h; cases h
theorem changeEnable (half : RegHalf) (mask : Half) : Statement (.changeEnable half mask) := by intro _ _ h; cases h
theorem doneInterruptEnable (on : Bool) : Statement (.doneInterruptEnable on) := by intro _ _ h; cases h
theorem freeze : Statement .freeze := by intro _ _ h; cases h
theorem thaw : Statement .thaw := by intro _ _ h; cases h
theorem autoThaw : Statement .autoThaw := by intro _ _ h; cases h
theorem portReset : Statement .portReset := by intro _ _ h; cases h
theorem registerWriteOther (target : OtherWrite) : Statement (.registerWriteOther target) := by intro _ _ h; cases h
theorem badKind : Statement .badKind := by intro _ _ h; cases h
theorem bayPowerOn : Statement .bayPowerOn := by intro _ _ h; cases h
theorem bayPowerOff : Statement .bayPowerOff := by intro _ _ h; cases h
theorem bayPolicy : Statement .bayPolicy := by intro _ _ h; cases h
theorem clearFault : Statement .clearFault := by intro _ _ h; cases h
theorem budgetSet : Statement .budgetSet := by intro _ _ h; cases h
theorem sidebandQuery : Statement .sidebandQuery := by intro _ _ h; cases h
theorem zoneMap : Statement .zoneMap := by intro _ _ h; cases h
theorem curveSelect : Statement .curveSelect := by intro _ _ h; cases h
theorem fanConfig : Statement .fanConfig := by intro _ _ h; cases h
theorem fanLearn : Statement .fanLearn := by intro _ _ h; cases h
theorem lightSet : Statement .lightSet := by intro _ _ h; cases h
theorem locate : Statement .locate := by intro _ _ h; cases h
theorem lightSync : Statement .lightSync := by intro _ _ h; cases h
theorem patternLoad : Statement .patternLoad := by intro _ _ h; cases h
theorem autoMap : Statement .autoMap := by intro _ _ h; cases h
theorem abort : Statement .abort := by intro _ _ h; cases h
theorem tachEdge (fan : FanId) : Statement (.tachEdge fan) := by intro _ _ h; cases h
theorem uptimeCounterAdvance : Statement .uptimeCounterAdvance := by intro _ _ h; cases h
theorem tickCounterAdvance : Statement .tickCounterAdvance := by intro _ _ h; cases h

end Sys2Proof.Laws.Unspelled
end

