-- ==== Sys2Proof/Laws/Steps.lean ====
section
/-! SUPPORT. How an invariant of the part comes through one step: from the changes a command's body is made of, the
end of the step, and the few commands EXP owns. -/

namespace Sys2Proof.Machine

/-- An invariant is kept by a step if the queue of commands does not matter to it, each kind of change keeps it, the
end of a step keeps it, and EXP's own commands keep it. -/
theorem step_keeps {Inv : State → Prop} (hqueue : ∀ s p, Inv s → Inv { s with pending := p })
    (hchange : ∀ s t, Changes s t → Inv s → Inv t) (hend : ∀ s, Inv s → Inv (finishStep s))
    (hport : ∀ s c, portOwn c = true → Inv s → Inv (body c s)) :
    ∀ s t, Inv s → step s = .next t → Inv t := by
  intro s t hi h
  unfold step at h
  split at h
  · cases h; exact hi
  · rename_i c rest _
    rw [exec_eq] at h
    cases h
    apply hend
    cases hpo : portOwn c
    · exact hchange _ _ (body_changes c _ hpo) (hqueue _ _ hi)
    · exact hport _ _ hpo (hqueue _ _ hi)

/-- EXP's own commands but the two resets leave every other block. -/
theorem portOwn_keeps (c : Instr) (s : State) (h : portOwn c = true) (h1 : c ≠ .powerOnReset) (h2 : c ≠ .portReset) :
    (body c s).bmon = s.bmon ∧ (body c s).pseq = s.pseq ∧ (body c s).sbe = s.sbe ∧ (body c s).thc = s.thc ∧
      (body c s).fanu = s.fanu ∧ (body c s).lgt = s.lgt := by
  cases c <;> try exact absurd (show false = true from h) nofun
  all_goals first | exact absurd rfl h1 | exact absurd rfl h2 | skip
  case registerWriteOther w =>
    show (otherWrite w s).bmon = _ ∧ _
    rw [show body (.registerWriteOther w) s = otherWrite w s from rfl, otherWrite_keeps]
    exact ⟨rfl, rfl, rfl, rfl, rfl, rfl⟩
  all_goals simp [body, updExp, mirrorWrite, hostWrites]
  split <;> simp

theorem poweredOn_bay (p : Pins) (m : Memory) (f : Nat) (q : List Instr) (b : Bay) :
    (State.poweredOn p m f q).bay b = BayRec.reset := by
  simp [State.poweredOn, State.bay, Bmon.reset]

/-- After the blocks are at their reset values, a power-on reset only samples the presence inputs. -/
theorem powerOn_changes (s : State) : Changes (State.poweredOn s.pins s.mem s.free s.pending) (powerOn s) := by
  have key : ∀ (l : List Bay) t,
      Changes (State.poweredOn s.pins s.mem s.free s.pending) t →
      (∀ b, (t.bay b).charge = none ∧ (t.bay b).powerOrder = none) →
      Changes (State.poweredOn s.pins s.mem s.free s.pending) (l.foldl samplePresence t) := by
    intro l
    induction l with
    | nil => intro t h _; exact h
    | cons b l ih =>
      intro t h hb
      refine ih _ ?_ ?_
      · unfold samplePresence
        split
        · exact (h.moveBay b _ (Turn.settlesCalm b (t.bay b).powerOrder (fun _ => (hb b).2) fun _ => (hb b).1)).setDebounce b _
        · exact h
      · intro d
        unfold samplePresence
        split
        · have : ((setDebounce b (some debounceMs) (moveBay b BayRec.settling t)).bay d) = (moveBay b BayRec.settling t).bay d := rfl
          rw [this, bay_moveBay]
          split
          · exact ⟨(hb b).1, (hb b).2⟩
          · exact hb d
        · exact hb d
  refine key _ _ .refl fun b => ?_
  rw [poweredOn_bay]
  exact ⟨rfl, rfl⟩

/-- A port reset's part in the other blocks is a change like any other; what follows is EXP's own. -/
theorem portReset_changes (s : State) : Changes s (dropSlots s) := Changes.dropSlots .refl

/-- A state that agrees with another in its blocks but EXP has the same records, paths and account. -/
theorem bay_of_bmon_eq {s t : State} (h : t.bmon = s.bmon) (b : Bay) : t.bay b = s.bay b := by simp [State.bay, h]

theorem account_of_pseq_eq {s t : State} (h : t.pseq = s.pseq) : t.account = s.account := by simp [State.account, h]

end Sys2Proof.Machine
end

