-- ==== Sys2Proof/Tests/Slice0.lean ====
section
/-! SUPPORT. Small tests: ill-formed commands are refused by the well-formedness check; for each obligation with
hypotheses a state and operands that meet them, clause by clause; and what one step does on a small state. -/

namespace Sys2Proof.Tests

set_option Elab.async false

open Sys2Proof Sys2Proof.Machine

/-! ### Well-formed commands -/

theorem test_reply_whole : (Instr.sidebandReply [0, 2, 150, 0, 104]).wellFormed = true := by decide
theorem test_reply_too_long_ends_at_its_length : (Instr.sidebandReply [0, 25]).wellFormed = true := by decide
theorem test_reply_short_refused : (Instr.sidebandReply [0, 2, 150]).wellFormed = false := by decide
theorem test_reply_empty_refused : (Instr.sidebandReply []).wellFormed = false := by decide
theorem test_reply_after_long_length_refused : (Instr.sidebandReply [0, 25, 1]).wellFormed = false := by decide
theorem test_unused_control_bits : (Instr.registerWriteOther (.portControlUnused 0xFFF8)).wellFormed = true := by decide
theorem test_used_control_bit_refused : (Instr.registerWriteOther (.portControlUnused 0x0004)).wellFormed = false := by
  decide
theorem test_used_summary_bit_refused : (Instr.registerWriteOther (.changeSummaryUnused 0x1000)).wellFormed = false := by
  decide
theorem test_used_enable_bit_refused : (Instr.registerWriteOther (.changeEnableUnused 0x3000)).wellFormed = false := by
  decide
theorem test_no_word_spells_a_command : decodeTableWord 8 0 = none := rfl

/-! ### Small states -/

/-- The part with the reset's writing of the mirror over, and nothing in the exchange memory. -/
def base : State := { State.reset with mem := [], exp := { Exp.reset with ready := true, resetWrite := none, dirty := [] } }

/-- A slot posted with an order of a kind and its argument bytes, tag 0x1234. -/
def posted (n : SlotId) (k : Kind) (args : List Byte) (s : State) : State :=
  { s with
    mem := s.mem.writeBytes (slotBase n) ([k.code, 0, 0x34, 0x12] ++ args)
    exp := { s.exp with slots := s.exp.slots.set n ⟨.posted, 0, 0⟩ } }

/-- A slot taken by an order of a kind. -/
def taken (n : SlotId) (k : Kind) (s : State) : State :=
  { s with exp := { s.exp with slots := s.exp.slots.set n ⟨.taken, k.code, 0x1234⟩ } }

def withBay (b : Bay) (r : BayRec) (s : State) : State := { s with bmon := { s.bmon with bays := s.bmon.bays.set b r } }
def withPath (b : Bay) (p : Path) (s : State) : State := { s with pseq := { s.pseq with paths := s.pseq.paths.set b p } }
def withAccount (a : Account) (s : State) : State := { s with pseq := { s.pseq with account := a } }
def withFan (f : FanId) (r : FanRec) (w : FanWork) (s : State) : State :=
  { s with fanu := { s.fanu with fans := s.fanu.fans.set f r, work := s.fanu.work.set f w } }
def withChan (c : Chan) (ch : Channel) (s : State) : State := { s with lgt := { s.lgt with chans := s.lgt.chans.set c ch } }
def withFlight (t : Txn) (s : State) : State := { s with sbe := { s.sbe with flight := some t } }
def withPins (p : Presence) (s : State) : State := { s with pins := { s.pins with presence := s.pins.presence.set 3 p } }

/-- A record in a state, with the fields the state carries. -/
def inState (st : BayState) : BayRec :=
  { BayRec.reset with
    state := st
    stopPhase := if st = .stopping then some .hold else none
    settlingFrom := if st = .settling then some .absent else none
    faultCause := if st = .fault then some .trip else none }

/-- A ladder with an attempt under way. -/
def ladderAt (l : Level) (count total : Nat) : Ladder :=
  { phase := .attempt, level := l, begun := l, mask := 0xF, start := l, learned := none, counts := Vector.replicate 4 count,
    total, last := none, cls := .rotating, spinWindow := 10, queueWait := 0, queueClass := .normal }

/-- A graceful stop waiting for its standby outcome. -/
def stopOf (hold : Nat) : Stop :=
  { found := .active, mode := .graceful, standby := .none, txn := none, cut := none, hold, take := 0, wait := 0 }

/-- A transaction in an attempt. -/
def txnOf (item : SbItem) (origin : SbOrigin) (slot : Option SlotId) (failed defers : Nat) : Txn :=
  ⟨⟨3, item, origin, slot, 0⟩, failed, defers, .attempt, 0⟩

/-- A queue entry of bay 3. -/
def entry3 (slot : Option SlotId) : QEntry := ⟨3, .normal, 0, slot⟩

/-- Bay 3 in the admission queue, with a capacity, a floor, a stagger timer and a starting count. -/
def queued3 (capacity : Nat) (timer : Timer) (starting : Nat) (slot : Option SlotId) : State :=
  { withBay 3 { inState .queued with powerOrder := slot } base with
    pseq := { Pseq.reset with
      account := { Account.reset with
        settings := { Settings.reset with capacity }, staggerTimer := timer, starting, fanEstimate := 0 }
      normal := [entry3 slot] } }

/-- The state a command leaves; the state itself where it stops. -/
def after (c : Instr) (s : State) : State :=
  match exec c s with
  | .next t => t
  | .fault _ | .refused _ => s

/-- The first bytes of a slot's result area. -/
def resultOf (s : State) (n : SlotId) (k : Nat) : List Byte := s.mem.readBytes (resultBase n) k

/-- The same state with a freeze in force: its step ends without writing mirror records. -/
def still (s : State) : State := { s with exp := { s.exp with freezeBit := true, freezeActive := true } }

/-- Whether the hypothesis `Takes` holds, as a test. -/
def takesTest (s : State) (k : Kind) (n : SlotId) : Bool :=
  s.mem.wf && s.exp.stepMarks.isEmpty && !s.exp.stepDone && decide (takeKind k s = some n)

theorem takes_of_test {s : State} {k : Kind} {n : SlotId} (h : takesTest s k n = true) : Takes s k n := by
  simp only [takesTest, Bool.and_eq_true, List.isEmpty_iff, Bool.not_eq_true', decide_eq_true_eq] at h
  exact ⟨⟨h.1.1.1, h.1.1.2, h.1.2⟩, h.2⟩

def allStates : List BayState := [.empty, .settling, .off, .queued, .ramping, .spinning, .active, .stopping, .fault]

theorem base_settled : Settled base := ⟨rfl, rfl, rfl⟩

/-! ### The step and the exchange (O1 to O24) -/

theorem test_O1_premises : (∃ c rest, { base with pending := [.freeze, .thaw] }.pending = c :: rest) ∧ base.pending = [] :=
  ⟨⟨_, _, rfl⟩, rfl⟩

theorem test_O3_premises : StepNoteEmpty base.exp ∧
    (∀ b : Bay, base.bmon.debounce[b] = none ∧ (base.path b).rampTimer = none ∧ (base.path b).coolTimer = none ∧
      (base.path b).spinTimer = none ∧ (base.path b).holdTimer = none ∧ (base.chan (attentionChan b)).locateTimer = none ∧
      (base.pseq.sheds.find? fun q => q.bay = b) = none) ∧
    base.account.staggerTimer = none ∧ attemptOf base = none ∧ (∀ n : Fin 8, base.thc.reading[n] = false) ∧
    base.exp.freezeTimer = none ∧ takeBadKind base = none ∧ takeKind .bayPowerOn base = none ∧
    takeKind .bayPowerOn (posted 0 .abort [] base) = none ∧ takeBadKind (posted 31 .abort [] base) = none := by
  refine ⟨⟨rfl, rfl⟩, ?_⟩
  decide +kernel

theorem test_O3_deferSpacing : ∀ x, (withFlight (txnOf .temp .poll none 0 0) base).sbe.flight = some x → x.phase = .attempt := by
  intro x h; cases h; rfl

theorem test_O4_premises : (base.mem.write 0x3FFF 7).wf = true ∧
    ∃ t, step { base with mem := base.mem.write 0x3FFF 7, pending := [.freeze] } = .next t := ⟨by decide, _, rfl⟩

/-- Bay 3 ACTIVE, its charge the whole of the capacity. -/
def charged : State :=
  withAccount { Account.reset with
      settings := { Settings.reset with capacity := 8, maxConcurrent := 1 }, drives := 8 }
    (withBay 3 { inState .active with charge := some ⟨⟨20, 8⟩, .steady⟩ } base)

theorem charged_charges : ∀ b, (charged.bay b).charge = none ∨ (charged.bay b).charge = some ⟨⟨20, 8⟩, .steady⟩ := by
  decide +kernel

theorem test_O5_premises : BudgetKept charged ∧ ∃ t, step { charged with pending := [.tripAsserted 3] } = .next t := by
  refine ⟨⟨⟨?_, ?_⟩, ?_, ?_, ?_, ?_, ?_⟩, _, rfl⟩
  · decide +kernel
  · decide +kernel
  · decide +kernel
  · decide +kernel
  · show (8 : Nat) ≤ 20; decide
  · show (5 : Nat) ≤ 6; decide
  · intro b c h
    cases charged_charges b with
    | inl e => rw [e] at h; cases h
    | inr e => rw [e] at h; cases h; show (8 : Nat) ≤ 20; decide

theorem queued3_states (c : Nat) (t : Timer) (n : Nat) (o : Option SlotId) (b : Bay) :
    ((queued3 c t n o).bay b).state = if b = 3 then .queued else .empty := by
  fin_cases b <;> rfl

theorem queued3_matches (c : Nat) (t : Timer) (n : Nat) (o : Option SlotId) : QueueMatches (queued3 c t n o) := by
  refine ⟨?_, ?_, ?_, ?_⟩
  · show [(3 : Bay)].Nodup; decide
  · intro b
    rw [queued3_states]
    have : ∀ b : Bay, b ∈ [(3 : Bay)] ↔ (if b = 3 then BayState.queued else .empty) = .queued := by decide +kernel
    exact this b
  · intro e h; cases h
  · intro e h
    cases List.mem_singleton.1 h; rfl

theorem test_O6_premises : QueueMatches (queued3 0 none 0 none) ∧
    ∃ t, step { queued3 0 none 0 none with pending := [.staggerExpiry] } = .next t := ⟨queued3_matches _ _ _ _, _, rfl⟩

theorem reset_shape : BayShape BayRec.reset :=
  ⟨rfl, rfl, nofun, nofun, rfl, nofun, by decide, by decide, by decide⟩

theorem stopping_shape : BayShape { inState .stopping with replugCount := 255, policy := { Policy.reset with shedTemp := 100 } } :=
  ⟨rfl, rfl, nofun, nofun, rfl, nofun, by decide, by decide, by decide⟩

theorem test_O7_premises : BaysShaped base ∧ BayShape (inState .fault) ∧ ∃ t, step { base with pending := [.clearFault] } = .next t :=
  ⟨fun b => by have : base.bay b = BayRec.reset := by revert b; decide +kernel
               rw [this]; exact reset_shape,
   ⟨rfl, rfl, fun _ => rfl, fun _ => Or.inl rfl, rfl, nofun, by decide, by decide, by decide⟩, _, rfl⟩

/-- The sideband at its limits. -/
def fullSbe : Sbe :=
  { Sbe.reset with
    orderQ := List.replicate 8 ⟨3, .temp, .query, none, 0⟩, pollQ := [⟨3, .temp, .poll, none, 0⟩], interval := 60
    flight := some (txnOf .standby .standby none 2 20) }

theorem test_O8_premises : SbeBounded fullSbe ∧ ∃ t, step { base with sbe := fullSbe, pending := [.sidebandNoReply] } = .next t :=
  ⟨⟨by decide, by decide, by decide, fun t h => by cases h; decide⟩, _, rfl⟩

/-- Cooling with values at the ends of their ranges. -/
def cooled : State :=
  { base with thc := { Thc.reset with
      sensors := (Thc.reset.sensors.set 0 ⟨some (-160), 255, none⟩).set 31 ⟨some 511, 0, none⟩ } }

theorem test_O9_premises : CoolingInRange cooled ∧ ∃ t, step { cooled with pending := [.zonePeriodStart] } = .next t := by
  have hv : ∀ i : SensorId, cooled.thc.sensors[i].value = none ∨ cooled.thc.sensors[i].value = some (-160) ∨
      cooled.thc.sensors[i].value = some 511 := by decide +kernel
  have hz : ∀ z : ZoneId, cooled.thc.zones[z] = ZoneRec.reset := by decide +kernel
  have hf : ∀ f : FanId, cooled.fanu.fans[f] = FanRec.reset := by decide +kernel
  refine ⟨⟨⟨?_, ?_, ?_, nofun⟩, ⟨?_, ?_, ?_⟩⟩, _, rfl⟩
  · intro i v h
    rcases hv i with e | e | e <;> rw [e] at h <;> cases h <;> decide
  · decide +kernel
  · intro z; rw [hz z]; exact ⟨by decide, by decide, by decide, by decide, by decide⟩
  · intro f; rw [hf f]; exact ⟨fun h => by cases h <;> contradiction, fun _ => rfl, by decide, by decide, by decide, by decide⟩
  · decide +kernel
  · decide +kernel

/-- A channel that shows pattern 0 on its ORDER layer at full level. -/
def lit : Channel := { Channel.reset with order := some 0, layer := .order, pattern := some 0, level := 65535, phase := .sustain,
                                          gate := .opened, openings := 255 }

theorem dark_sound (w : Vector Pattern 16) (c : Chan) : ChanSound w c Channel.reset :=
  ⟨rfl, fun _ => rfl, nofun, by decide, fun _ => rfl, fun _ => ⟨rfl, rfl⟩⟩

theorem test_O10_premises : LgtSound (withChan 7 lit base).lgt ∧
    ∃ t, step { withChan 7 lit base with pending := [.envelopeStep] } = .next t := by
  refine ⟨⟨?_, ?_⟩, _, rfl⟩
  · have : ∀ p : PatId, (withChan 7 lit base).lgt.patterns[p].peak ≤ 255 ∧
        (withChan 7 lit base).lgt.patterns[p].sustain ≤ (withChan 7 lit base).lgt.patterns[p].peak := by decide +kernel
    exact fun p => ⟨(this p).1, (this p).2⟩
  · intro c
    have : ∀ c : Chan, (withChan 7 lit base).lgt.chans[c] = if c = 7 then lit else Channel.reset := by decide +kernel
    rw [this c]
    split
    · refine ⟨rfl, nofun, ?_, by decide, fun _ => rfl, fun _ => ⟨rfl, rfl⟩⟩
      intro p h; cases h
      show (65535 : Nat) ≤ levelOf Pattern.defaults[(0 : PatId)].peak
      decide +kernel
    · exact dark_sound _ _

/-- An exchange port with a freeze over and one record of the thaw to write. -/
def thawing : Exp :=
  { base.exp with dirty := [⟨.budget, true⟩], freezeActive := true, thawLeft := [.budget], summary := 0x1FFFFFFF, collisions := 255 }

theorem test_O11_premises : ExpSound thawing ∧ ∃ t, step { base with exp := thawing, pending := [.mirrorRecordWrite] } = .next t :=
  ⟨⟨by decide, nofun, rfl, nofun, by decide, by decide, by decide, nofun, rfl, fun _ _ => by decide, by decide⟩, _, rfl⟩

/-- Bytes in the exchange memory. -/
def bytesAt (a : Nat) (l : List Byte) : State := { base with mem := base.mem.writeBytes a l }

/-- Slot 0 DONE, slot 31 TAKEN. -/
def slots2 : State := taken 31 .bayPowerOn { base with exp := { base.exp with slots := base.exp.slots.set 0 ⟨.done, 1, 0⟩ } }

theorem test_O15_premises : StepNoteEmpty slots2.exp ∧ (slots2.slot 31).state = .taken ∧ (slots2.slot 0).state ≠ .taken ∧
    (∃ t, exec (.orderDone .lower 1) slots2 = .next t) ∧ orderDoneReg slots2 = 1 ∧
    orderDoneReg (after (.orderDone .lower 1) slots2) = 0 := by
  refine ⟨⟨rfl, rfl⟩, ?_, ?_, ⟨_, rfl⟩, ?_, ?_⟩ <;> decide +kernel

theorem test_O16_premises : StepNoteEmpty base.exp ∧ base.exp.ready = true ∧ State.reset.exp.ready = false ∧
    ((after (.orderPost [⟨0, 0x0001⟩] .upper 0x8000) base).slot 31).state = .posted ∧
    (after (.orderPost [] .lower 1) slots2).exp.collisions = 1 ∧
    (after (.orderPost [⟨0, 0x0201⟩] .lower 0) base).mem = [(0, 1), (1, 2)] := by
  refine ⟨⟨rfl, rfl⟩, rfl, rfl, ?_, ?_, ?_⟩ <;> decide +kernel

/-- A freeze in force with a record dirty. -/
def frozen : State :=
  { base with exp := { base.exp with freezeBit := true, freezeActive := true, freezeTimer := some 250, dirty := [⟨.budget, true⟩] } }

theorem test_O17_premises : StepNoteEmpty frozen.exp ∧ base.exp.ready = true ∧ base.exp.freezeBit = false ∧
    frozen.exp.freezeBit = true ∧ frozen.exp.freezeTimer.isSome = true ∧
    (after .freeze base).exp.freezeTimer = some 250 ∧ (after .thaw frozen).exp.freezeActive = true ∧
    (after .autoThaw frozen).exp.freezeExpired = true ∧ changeSummaryReg (after .autoThaw frozen) = 0x10000000 := by
  refine ⟨⟨rfl, rfl⟩, rfl, rfl, rfl, rfl, ?_, ?_, ?_, ?_⟩ <;> decide +kernel

theorem test_O17_bus : (4 : Half).getLsbD 2 = true ∧ (3 : Half).getLsbD 2 = false ∧ (3 : Half).getLsbD 1 = true ∧ (1 : Half).getLsbD 1 = false ∧
    busRead (bytesAt 0x3FFE [0x34, 0x12]) 0x3FFE = some 0x1234 ∧ busRead base 0x4000 = some 0 ∧ busRead base 0x4016 = some 1 ∧
    busRead base 0x4018 = none ∧ (busWrite 0x3FFE 0x1234 base).mem.readBytes 0x3FFE 2 = [0x34, 0x12] ∧
    (busWrite 0x4010 3 base).exp.freezeBit = true ∧ (busWrite 0x4010 4 base).exp.ready = false ∧
    busWrite 0x4018 0xFFFF base = base := by
  decide +kernel

theorem test_O17_summary : base.exp.summary &&& 0xE0000000 = 0 ∧ thawing.summary &&& 0xE0000000 = 0 ∧
    after (.registerWriteOther (.changeSummaryUnused 0xE000)) { base with exp := { base.exp with summary := 0x1FFFFFFF } } =
      { base with exp := { base.exp with summary := 0x1FFFFFFF } } := by
  decide +kernel

theorem test_unused_bits_are_a_write_of_the_half :
    (after (.registerWriteOther (.portControlUnused 0xFFF8)) frozen).exp.freezeBit = false ∧
    (after (.registerWriteOther (.portControlUnused 0)) (after (.doneInterruptEnable true) base)).exp.doneEnable = false ∧
    changeEnableReg (after (.registerWriteOther (.changeEnableUnused 0xE000)) (after (.changeEnable .upper 0x1FFF) base)) = 0 := by
  decide +kernel

theorem test_registers : changeSummaryReg (after (.changeSummary .upper 0x1000) { base with exp := thawing }) = 0x0FFFFFFF ∧
    changeEnableReg (after (.changeEnable .upper 0xFFFF) base) = 0x1FFF0000 ∧
    portControlReg (after (.doneInterruptEnable true) base) = 1 ∧
    after (.registerWriteOther (.portStatus .lower 0xFFFF)) base = base ∧ portStatusReg base = 0x00010001 := by
  decide +kernel

theorem test_O18_port_reset : (after .portReset slots2).exp.ready = false ∧ ((after .portReset slots2).slot 31).state = .free := by
  decide +kernel

theorem test_O19_interrupt : interruptLine (after (.doneInterruptEnable true) slots2) = true ∧ interruptLine slots2 = false ∧
    (Instr.portReset = .powerOnReset ∨ Instr.portReset = .portReset) := by
  refine ⟨?_, ?_, Or.inr rfl⟩ <;> decide +kernel

theorem test_O20_premises : Settled base ∧ base.exp.resetWrite = none ∧ base.exp.dirty = [] ∧ freezeHolds frozen = true ∧
    freezeHolds { base with exp := { base.exp with dirty := [⟨.fan 7, true⟩] } } = false ∧
    changeSummaryReg (after .mirrorRecordWrite { base with exp := { base.exp with dirty := [⟨.fan 7, true⟩] } }) = 0x01000000 := by
  refine ⟨base_settled, rfl, rfl, rfl, rfl, ?_⟩; decide +kernel

/-- A reset's writing with records left, and the bits to set at its end or not. -/
def resetting (left : List MirrorRec) (bits : Bool) : State :=
  { base with exp := { base.exp with ready := false, resetWrite := some ⟨left.map fun r => ⟨r, false⟩, bits⟩ } }

theorem test_O20_reset_writing : ∀ bits ∈ [false, true],
    freezeHolds (resetting [.fan 7] bits) = false ∧
    (after .mirrorRecordWrite (resetting [.fan 6, .fan 7] bits)).exp.ready = false ∧
    (after .mirrorRecordWrite (resetting [.fan 7] bits)).exp.ready = true ∧
    changeSummaryReg (after .mirrorRecordWrite (resetting [.fan 7] bits)) = if bits = true then 0x0FFFFFFF else 0 := by
  decide +kernel

theorem test_O20_resetting (bits : Bool) : Settled (resetting [.fan 6, .fan 7] bits) := ⟨rfl, rfl, rfl⟩

/-- Bay 3's record dirty, the last position of its ring filled since its last write. -/
def historied : State :=
  { withBay 3 { inState .off with ring := BayRec.reset.ring.set 7 (some ⟨9, .removed, 5⟩), nextSeq := 10 } base with
    exp := { base.exp with dirty := [⟨.bay 3, true⟩], histPending := base.exp.histPending.set 3 0x80 } }

theorem test_O20_history_and_thaw : Settled historied ∧ historied.exp.histPending[(3 : Bay)].getLsbD 7 = true ∧
    (after .mirrorRecordWrite historied).exp.histPending[(3 : Bay)] = 0 ∧
    (after .mirrorRecordWrite historied).mem.readBytes (historyBase 3 7) 8 = encodeHist (some ⟨9, .removed, 5⟩) ∧
    thawing.freezeActive = true ∧ thawing.freezeBit = false ∧
    (after .mirrorRecordWrite { base with exp := thawing }).exp.freezeActive = false := by
  refine ⟨⟨rfl, rfl, rfl⟩, ?_⟩
  decide +kernel

theorem test_O21_premises : Settled frozen ∧ freezeHolds frozen = true ∧
    (∀ ws half bits, Instr.orderPost [] .lower 1 = .orderPost ws half bits → ws = []) ∧
    (∀ ws half bits, Instr.mirrorRecordWrite = .orderPost ws half bits → ws = []) ∧ inMirror 0x1000 ∧ inMirror 0x25FF :=
  ⟨⟨rfl, rfl, rfl⟩, rfl, by intro ws h b e; cases e; rfl, nofun, Or.inl (by decide), Or.inr (by decide)⟩

theorem test_O22_premises : Settled base ∧ Instr.freeze ≠ .powerOnReset ∧
    (∀ ws half bits, Instr.freeze ≠ .orderPost ws half bits) ∧ ¬ inMirror 0x0FFF ∧ ¬ inMirror 0x1A00 ∧ ¬ inMirror 0x2600 ∧
    resultBase 0 = 0x40 ∧ (base.slot 0).state = .free ∧ ¬ inLightAreas 0x1BFF ∧ ¬ inLightAreas 0x1E10 := by
  refine ⟨base_settled, nofun, nofun, ?_, ?_, ?_, rfl, ?_, ?_, ?_⟩
  · unfold inMirror; decide
  · unfold inMirror; decide
  · unfold inMirror; decide
  · decide +kernel
  · unfold inLightAreas; decide
  · unfold inLightAreas; decide

/-- A transaction that waits out its spacing, and a board read in progress. -/
def quiet : State :=
  { withFlight { txnOf .temp .poll none 0 1 with phase := .spacing } base with
    thc := { Thc.reset with fitted := Vector.replicate 8 true, reading := Vector.replicate 8 true } }

theorem test_O23_premises : StepNoteEmpty quiet.exp ∧ (∃ x, quiet.sbe.flight = some x ∧ x.phase = .spacing) ∧
    (∀ k : Fin 8, quiet.thc.reading[k] = true) ∧
    ((after (.boardSensorReadEnd 7 (some (-161))) quiet).sensor 31).value = some (-160) ∧
    ((after (.boardSensorReadEnd 7 none) quiet).sensor 31).fails = 1 := by
  refine ⟨⟨rfl, rfl⟩, ⟨_, rfl, rfl⟩, ?_, ?_, ?_⟩ <;> decide +kernel

theorem test_counters : (after .uptimeCounterAdvance base).clock.uptime = 1 ∧ (after .tickCounterAdvance base).clock.tick = 1 ∧
    ((after (.tachEdge 7) base).fanWork 7).edges = 1 ∧ (after .deferSpacingEnd quiet).sbe.flight = some (txnOf .temp .poll none 0 1) ∧
    (after .boardSensorReadTimer base).thc.readTimer = some 250 := by
  decide +kernel

theorem test_O24_premises : (∀ b : Bay, Instr.freeze ≠ .presenceChange b ∧ Instr.freeze ≠ .powerGoodAsserted b ∧
    Instr.freeze ≠ .powerGoodDeasserted b) ∧ Instr.freeze ≠ .powerOnReset ∧ Instr.freeze ≠ .uptimeCounterAdvance ∧
    Instr.freeze ≠ .tickCounterAdvance ∧ Instr.freeze ≠ .bayPolicy ∧ Instr.freeze ≠ .budgetSet ∧
    Instr.freeze ≠ .sidebandQuery ∧ Instr.freeze ≠ .zonePeriodStart ∧ Instr.freeze ≠ .fanConfig ∧
    Instr.freeze ≠ .patternLoad ∧ Instr.freeze ≠ .autoMap := by
  decide

/-! ### Bays (O25 to O28) -/

theorem test_O25_premises : ∀ st ∈ allStates, ((withBay 3 (inState st) base).bay 3).state = st ∧
    ((after (.presenceChange 3) (withBay 3 (inState st) base)).bay 3).state = .settling := by
  decide +kernel

/-- Bay 3 in SETTLING from a reading, its debounce and perhaps its replug window running. -/
def settling3 (from' : Presence) (auto : Bool) (replug : Timer) : State :=
  { withBay 3 { inState .settling with settlingFrom := some from', policy := { Policy.reset with autoOn := auto }, replugCount := 254 } base with
    bmon := { (withBay 3 { inState .settling with settlingFrom := some from',
                                                  policy := { Policy.reset with autoOn := auto }, replugCount := 254 } base).bmon with
      debounce := Bmon.reset.debounce.set 3 (some 250), replug := Bmon.reset.replug.set 3 replug } }

theorem test_O26_premises : ∀ from' ∈ [Presence.absent, .present], ∀ auto ∈ [true, false], ∀ w ∈ [none, some 2000],
    let s := settling3 from' auto w
    s.bmon.debounce[(3 : Bay)].isSome = true ∧ s.pins.presence[(3 : Bay)] = .absent ∧ (s.bay 3).settlingFrom = some from' ∧
      (s.bay 3).policy.autoOn = auto ∧ s.bmon.replug[(3 : Bay)] = w ∧
      (withPins .present s).pins.presence[(3 : Bay)] = .present := by
  decide +kernel

theorem test_debounce_replugged :
    ((after (.debounceExpiry 3) (withPins .present (settling3 .absent false (some 2000)))).bay 3).replugCount = 255 ∧
    ((after (.debounceExpiry 3) (settling3 .present false none)).bay 3).state = .empty ∧
    (after (.replugWindowExpiry 3) (settling3 .present false (some 2000))).bmon.replug[(3 : Bay)] = none := by
  decide +kernel

/-- A BAY POLICY in slot 0. -/
def policyIn (bay start mask : Byte) : State := posted 0 .bayPolicy [bay, 3, 101, start, mask] base

theorem test_O27_premises : takesTest (policyIn 0 3 1) .bayPolicy 0 = true ∧
    takesTest (policyIn 23 4 1) .bayPolicy 0 = true ∧
    takesTest (policyIn 255 3 0xF0) .bayPolicy 0 = true ∧
    takesTest (policyIn 24 3 1) .bayPolicy 0 = true ∧
    takesTest (policyIn 254 0 1) .bayPolicy 0 = true ∧
    argByte (policyIn 23 3 1) 0 0 = 23 ∧ argByte (policyIn 23 3 1) 0 3 = 3 := by
  decide +kernel

theorem test_policy_stored : ((after .bayPolicy (policyIn 23 3 1)).bay 23).policy = ⟨true, 100, 3, 1, true⟩ ∧
    resultOf (after .bayPolicy (policyIn 24 3 1)) 0 4 = [8, 0, 0x34, 0x12] := by
  decide +kernel

/-- A CLEAR FAULT in slot 31, with bay 23 in a state. -/
def clearIn (bay : Byte) (st : BayState) : State := posted 31 .clearFault [bay] (withBay 23 (inState st) base)

theorem test_O28_premises : (∀ bay ∈ [(0 : Byte), 24, 254, 255], takesTest (clearIn bay .fault) .clearFault 31 = true) ∧
    ∀ st ∈ allStates, takesTest (clearIn 23 st) .clearFault 31 = true ∧ ((clearIn 23 st).bay 23).state = st := by
  decide +kernel

theorem test_clear_fault : ((after .clearFault (clearIn 23 .fault)).bay 23).state = .off ∧
    resultOf (after .clearFault (clearIn 255 .active)) 31 1 = [1] := by
  decide +kernel

/-! ### Power (O29 to O40) -/

theorem test_O29_premises : room base.account < 0 ∧ budgetFits (queued3 20 none 0 none) 3 = true ∧
    budgetFits (queued3 19 none 0 none) 3 = false := by
  decide +kernel

theorem test_O30_premises : enabled 0xF 1 = true ∧ (enabled 0x9 1 = false ∧ enabled 0x9 3 = true ∧ enabled 0x9 2 = false) ∧
    (enabled 0x1 1 = false ∧ enabled 0x1 0 = true ∧ enabled 0x1 2 = false ∧ enabled 0x1 3 = false) ∧ (0x8 : BitVec 4) ≠ 0 ∧
    ((queued3 20 none 0 none).bay (entry3 none).bay).state = .queued := by
  decide +kernel

theorem test_O32_premises : ∀ c ∈ [19, 20], ∀ k ∈ [3, 4], let s := queued3 c (some 2000) k none
    s.account.staggerTimer.isSome = true ∧ candidate s.pseq = some (entry3 none) ∧ (s.bay 3).state = .queued ∧
    placeFree s = decide (k = 3) ∧ budgetFits s 3 = decide (c = 20) := by
  decide +kernel

theorem test_O32_empty : let s := withAccount { Account.reset with staggerTimer := some 100 } base
    s.account.staggerTimer.isSome = true ∧ candidate s.pseq = none := by
  decide +kernel

theorem test_stagger_admits : ((after .staggerExpiry (queued3 20 (some 2000) 3 none)).bay 3).state = .ramping ∧
    (after .staggerExpiry (queued3 19 (some 2000) 3 none)).account.blocked = .budget := by
  decide +kernel

/-- Bay 3 in its ramp window. -/
def ramping3 (count total : Nat) : State :=
  withPath 3 { Path.reset with switchOn := true, rampTimer := some 8, ladder := some (ladderAt 1 count total) }
    (taken 5 .bayPowerOn (withBay 3 { inState .ramping with charge := some ⟨⟨20, 8⟩, .inrush⟩, powerOrder := some 5 } base))

theorem test_O33_premises : ∀ k ∈ [2, 3], ∀ n ∈ [5, 6], let s := ramping3 k n
    StepNoteEmpty s.exp ∧ (s.path 3).rampTimer.isSome = true ∧ (s.path 3).ladder = some (ladderAt 1 k n) ∧
    (ladderAt 1 k n).counts[(2 : Level)] = k ∧ (s.bay 3).state = .ramping ∧ s.mem.wf = true ∧
    (s.bay 3).powerOrder = some 5 ∧ (s.slot 5).state = .taken := by
  unfold StepNoteEmpty
  decide +kernel

theorem test_trip_in_the_window : ((after (.tripAsserted 3) (ramping3 2 5)).path 3).coolTimer = some 100 ∧
    ((after (.rampWindowEnd 3) (ramping3 2 6)).bay 3).faultCause = some .powerFault ∧
    resultOf (after (.rampWindowEnd 3) (ramping3 2 6)) 5 1 = [14] := by
  decide +kernel

/-- Bay 3 in its cool-off. -/
def cooling3 : State := withPath 3 { Path.reset with coolTimer := some 100, ladder := some (ladderAt 3 2 5) } (ramping3 2 5)

theorem test_O34_premises : StepNoteEmpty cooling3.exp ∧ (cooling3.path 3).ladder = some (ladderAt 3 2 5) ∧
    (cooling3.path 3).coolTimer.isSome = true ∧ cooling3.pins.powerGood[(3 : Bay)] = false ∧ (cooling3.bay 3).state = .ramping ∧
    (setPowerGood 3 true cooling3).pins.powerGood[(3 : Bay)] = true ∧ (ramping3 2 5).path 3 ≠ Path.reset ∧
    (ramping3 2 5).path 3 = { Path.reset with switchOn := true, rampTimer := some 8, ladder := some (ladderAt 1 2 5) } ∧
    (cooling3.path 3).rampTimer = none := by
  refine ⟨⟨rfl, rfl⟩, ?_⟩
  decide +kernel

theorem test_attempt : ((after (.coolOffEnd 3) cooling3).path 3).rampTimer = some 32 ∧
    ((after (.powerGoodAsserted 3) (ramping3 2 5)).bay 3).lastGood = some 1 := by
  decide +kernel

/-- Bay 3 in its spin window, and in its hold. -/
def spinning3 : State :=
  withPath 3 { Path.reset with switchOn := true, spinTimer := some 10000, ladder := some (ladderAt 1 2 5) }
    (withBay 3 { inState .spinning with charge := some ⟨⟨20, 8⟩, .inrush⟩, powerOrder := some 5 } (taken 5 .bayPowerOn base))
def holding3 : State :=
  withPath 3 { Path.reset with holdTimer := some 2000, stop := some (stopOf 2) }
    (withBay 3 { inState .stopping with powerOrder := some 5 } (taken 5 .bayPowerOff base))

theorem test_O35_premises : (spinning3.path 3).spinTimer.isSome = true ∧ (spinning3.bay 3).state = .spinning ∧
    spinning3.mem.wf = true ∧ (spinning3.bay 3).powerOrder = some 5 ∧ (spinning3.slot 5).state = .taken ∧
    (holding3.path 3).holdTimer.isSome = true ∧ (holding3.bay 3).state = .stopping ∧ (holding3.bay 3).stopPhase = some .hold ∧
    (holding3.slot 5).state = .taken ∧ (holding3.bay 3).powerOrder = some 5 ∧ holding3.mem.wf = true := by
  decide +kernel

theorem test_spin_and_hold_end : ((after (.spinWindowEnd 3) (still spinning3)).bay 3).charge = some ⟨⟨20, 8⟩, .steady⟩ ∧
    ((after (.holdEnd 3) (still holding3)).bay 3).state = .off ∧ resultOf (after (.holdEnd 3) (still holding3)) 5 1 = [0] := by
  decide +kernel

theorem test_O35_first_poll : pollQueued spinning3 3 = false ∧ spinning3.sbe.flight = none ∧ spinning3.sbe.orderQ = [] ∧
    pollQueued { spinning3 with sbe := fullSbe } 3 = true ∧
    pollQueued { spinning3 with sbe := { fullSbe with pollQ := [] } } 3 = false ∧ fullSbe.flight.isSome = true ∧
    (after (.spinWindowEnd 3) (still spinning3)).sbe.pollCount[(3 : Bay)] = 1 ∧
    (after (.spinWindowEnd 3) (still spinning3)).sbe.flight = some ⟨⟨3, .temp, .poll, none, 0⟩, 0, 0, .attempt, 0⟩ := by
  decide +kernel

/-- Bay 3 in STANDBY_WAIT with a hold. -/
def waiting3 (hold : Nat) : State :=
  withPath 3 { Path.reset with switchOn := true, stop := some (stopOf hold) }
    (withBay 3 { inState .stopping with stopPhase := some .standbyWait, charge := some ⟨⟨20, 8⟩, .steady⟩, powerOrder := some 5 }
      (taken 5 .bayPowerOff base))

theorem test_O36_premises : (spinning3.path 3).rampTimer = none ∧ (spinning3.bay 3).state = .spinning ∧
    (charged.bay 3).state = .active ∧ (charged.path 3).rampTimer = none ∧ charged.mem.wf = true ∧
    (∀ h ∈ [0, 10], ((waiting3 h).bay 3).state = .stopping ∧ ((waiting3 h).bay 3).stopPhase = some .standbyWait ∧
      ((waiting3 h).path 3).stop = some (stopOf h) ∧ ((waiting3 h).path 3).rampTimer = none ∧ (waiting3 h).mem.wf = true) ∧
    (base.bay 3).runs = false ∧ (base.bay 3).waits = false := by
  decide +kernel

theorem test_power_lost : ((after (.powerGoodDeasserted 3) charged).bay 3).faultCause = some .powerLost ∧
    ((after (.tripAsserted 3) (waiting3 10)).path 3).holdTimer = some 10000 := by
  decide +kernel

/-- Bay 3 about to be EMPTY, with a TAKEN query of it queued in slot 7 and a transaction in flight or none. -/
def purging (x : Option Txn) : State :=
  { taken 7 .sidebandQuery (taken 5 .sidebandQuery (settling3 .present false none)) with
    sbe := { Sbe.reset with orderQ := [⟨3, .ident, .query, some 7, 0⟩], flight := x } }

theorem test_O26_purge : ∀ x ∈ [none, some (txnOf .temp .query (some 5) 1 2), some { txnOf .temp .query (some 5) 1 2 with entry := ⟨4, .temp, .query, some 5, 0⟩ }],
    let s := purging x
    s.bmon.debounce[(3 : Bay)].isSome = true ∧ s.pins.presence[(3 : Bay)] = .absent ∧ (s.bay 3).settlingFrom = some .present ∧
    s.mem.wf = true ∧ (s.bay 3).state = .settling ∧ (s.slot 5).state = .taken ∧ (s.slot 7).state = .taken ∧
    (∃ e ∈ s.sbe.orderQ, e.bay = 3 ∧ e.slot = some 7) ∧ pollQueued s 3 = false := by
  decide +kernel

theorem test_O26_flight : (∀ x, (purging none).sbe.flight = some x → x.entry.bay ≠ 3) ∧ (purging none).sbe.flight = none ∧
    (∀ x, (purging (some (txnOf .temp .query (some 5) 1 2))).sbe.flight = some x → x.entry.bay = 3 ∧ x.entry.slot ≠ some 7) ∧
    ∀ x, (purging (some { txnOf .temp .query (some 5) 1 2 with entry := ⟨4, .temp, .query, some 5, 0⟩ })).sbe.flight = some x →
      x.entry.bay ≠ 3 := by
  refine ⟨nofun, rfl, ?_, ?_⟩ <;> (intro x h; cases h; decide)

theorem test_purge : let t := after (.debounceExpiry 3) (still (purging (some (txnOf .temp .query (some 5) 1 2))))
    resultOf t 7 1 = [Result.removed.code] ∧ resultOf t 5 12 = [Result.noDevice.code, 0, 0x34, 0x12, 0, 0, 0, 0, 3, 2, 2, 1] ∧
    t.sbe.flight = none ∧
    (after (.debounceExpiry 3) (withPins .present (purging none))).sbe.flight.isSome = true := by
  decide +kernel

theorem test_O25_orders :
    (∀ s ∈ [spinning3, ramping3 2 5, holding3, waiting3 10], s.mem.wf = true ∧ (s.bay 3).powerOrder = some 5 ∧
      (s.slot 5).state = .taken ∧ resultOf (after (.presenceChange 3) (still s)) 5 1 = [Result.removed.code]) ∧
    (let s := taken 5 .bayPowerOn (queued3 0 none 0 (some 5))
     s.mem.wf = true ∧ entryOf s 3 = some (entry3 (some 5)) ∧ (s.bay 3).state = .queued ∧ (s.slot 5).state = .taken ∧
      resultOf (after (.presenceChange 3) (still s)) 5 1 = [Result.removed.code]) ∧
    ((waiting3 10).path 3).switchOn = true ∧ (holding3.path 3).switchOn = false ∧ (holding3.path 3).stop.isSome = true ∧
    (spinning3.path 3).stop = none := by
  decide +kernel

/-- Bay 4 queued beside bay 3 in its hold, with room and a place for it but no evaluation due. -/
def heldBeside : State :=
  { holding3 with
    bmon := { holding3.bmon with bays := holding3.bmon.bays.set 4 (inState .queued) }
    pseq := { holding3.pseq with
      account := { Account.reset with settings := { Settings.reset with capacity := 100 }, fanEstimate := 0 }
      normal := [⟨4, .normal, 0, none⟩] } }

theorem test_a_cut_from_the_hold_starts_no_evaluation : fits heldBeside 4 = true ∧
    ((after (.presenceChange 3) (still heldBeside)).bay 4).state = .queued ∧
    ((after (.holdEnd 3) (still heldBeside)).bay 3).state = .off := by
  decide +kernel

/-- A shed request for bay 3, with the bay in a state. -/
def shedding (st : BayState) : State :=
  { withBay 3 { inState st with charge := if st = .active then some ⟨⟨20, 8⟩, .steady⟩ else none } base with
    pseq := { Pseq.reset with sheds := [⟨3, 45⟩] } }

theorem test_O37_premises : ∀ st ∈ allStates, ((shedding st).pseq.sheds.find? fun r => r.bay = 3) = some ⟨3, 45⟩ ∧
    ((shedding st).bay 3).state = st := by
  decide +kernel

theorem test_shed : ((after (.shedRequest 3) (shedding .active)).bay 3).faultCause = some .thermal ∧
    (after (.shedRequest 3) (shedding .off)).pseq.sheds = [] := by
  decide +kernel

/-- A BAY POWER ON in slot 0, with bay 23 in a state. -/
def powerOnIn (bay cls : Byte) (st : BayState) : State := posted 0 .bayPowerOn [bay, cls] (withBay 23 (inState st) base)

theorem test_O38_premises : takesTest (powerOnIn 24 0 .off) .bayPowerOn 0 = true ∧
    takesTest (powerOnIn 23 0 .off) .bayPowerOn 0 = true ∧
    takesTest (powerOnIn 0 2 .off) .bayPowerOn 0 = true ∧
    ∀ st ∈ allStates, takesTest (powerOnIn 23 1 st) .bayPowerOn 0 = true ∧ ((powerOnIn 23 1 st).bay 23).state = st := by
  decide +kernel

theorem test_power_on : ((after .bayPowerOn (powerOnIn 23 1 .off)).bay 23).state = .queued ∧
    resultOf (after .bayPowerOn (powerOnIn 23 0 .stopping)) 0 1 = [2] := by
  decide +kernel

/-- A BAY POWER OFF in slot 0 of bay 3. -/
def powerOffIn (bay mode hold : Byte) (s : State) : State := posted 0 .bayPowerOff [bay, mode, hold] s

theorem base_matches (st : BayState) (h : st ≠ .queued) : QueueMatches (withBay 3 (inState st) base) := by
  refine ⟨List.nodup_nil, ?_, nofun, nofun⟩
  intro b
  refine ⟨nofun, fun e => ?_⟩
  exfalso
  have : ∀ st ∈ allStates, st ≠ .queued → ∀ b : Bay, ((withBay 3 (inState st) base).bay b).state ≠ .queued := by decide +kernel
  exact this st (by cases st <;> decide) h b e

theorem test_O39_premises :
    (∀ st ∈ allStates, let s := powerOffIn 3 1 10 (withBay 3 (inState st) base)
      takesTest s .bayPowerOff 0 = true ∧ (s.bay 3).state = st ∧ (s.bay 3).powerOrder ≠ some 0) ∧
    takesTest (powerOffIn 3 0 0 charged) .bayPowerOff 0 = true ∧
    takesTest (powerOffIn 3 0 11 charged) .bayPowerOff 0 = true ∧
    takesTest (powerOffIn 3 1 255 charged) .bayPowerOff 0 = true ∧
    takesTest (powerOffIn 3 2 0 charged) .bayPowerOff 0 = true ∧
    takesTest (powerOffIn 24 0 0 base) .bayPowerOff 0 = true ∧
    takesTest (powerOffIn 3 0 0 (queued3 0 none 0 (some 5))) .bayPowerOff 0 = true ∧
    entryOf (powerOffIn 3 0 0 (queued3 0 none 0 (some 5))) 3 = some (entry3 (some 5)) := by
  decide +kernel

theorem test_power_off_bad_arg_has_no_detail : resultOf (after .bayPowerOff (powerOffIn 24 0 11 base)) 0 14 =
    [Result.badArg.code, 0, 0x34, 0x12, 0, 0, 0, 0] ++ List.replicate 6 0xFF := by
  decide +kernel

theorem test_O39_queue (mode hold : Byte) (st : BayState) (h : st ≠ .queued) :
    QueueMatches (powerOffIn 3 mode hold (withBay 3 (inState st) base)) ∧
    QueueMatches (powerOffIn 3 mode hold (queued3 0 none 0 (some 5))) := by
  have a := base_matches st h
  have b := queued3_matches 0 none 0 (some 5)
  exact ⟨⟨a.once, a.queued, a.urgent, a.normal⟩, ⟨b.once, b.queued, b.urgent, b.normal⟩⟩

theorem test_O39_order_class : { Sbe.reset with orderQ := fullSbe.orderQ.tail }.orderQ.length < 8 ∧ 8 ≤ fullSbe.orderQ.length ∧
    ((after .bayPowerOff (powerOffIn 3 0 255 charged)).bay 3).stopPhase = some .standbyWait ∧
    ((after .bayPowerOff (powerOffIn 3 1 0 charged)).bay 3).state = .off := by
  decide +kernel

/-- A BUDGET SET in slot 0. -/
def budgetIn (capacity floor : Nat) (steady maxStart : Byte) : State :=
  posted 0 .budgetSet (le16 capacity ++ le16 floor ++ [200, maxStart, 20, steady, 6, 5, 0, 61])
    (withAccount { Account.reset with drives := 8, starting := 2 } base)

theorem test_O40_premises : takesTest (budgetIn 48 40 20 2) .budgetSet 0 = true ∧
    takesTest (budgetIn 4095 0 1 24) .budgetSet 0 = true ∧
    takesTest (budgetIn 4096 0 8 4) .budgetSet 0 = true ∧
    takesTest (budgetIn 48 49 8 4) .budgetSet 0 = true ∧
    takesTest (budgetIn 48 40 21 4) .budgetSet 0 = true ∧
    takesTest (budgetIn 48 40 0 4) .budgetSet 0 = true ∧
    takesTest (budgetIn 47 40 20 4) .budgetSet 0 = true ∧
    takesTest (budgetIn 48 40 20 1) .budgetSet 0 = true ∧
    arg16 (budgetIn 48 40 20 2) 0 0 = 48 ∧ arg16 (budgetIn 48 40 20 2) 0 2 = 40 := by
  decide +kernel

/-- The settings a BUDGET SET may fail on, each with the order's bytes that fail there. -/
def budgetRefusals : List (Byte × Nat × Nat × List Byte) :=
  [(0, 4096, 0, [20, 8, 6, 5]), (1, 48, 4096, [20, 8, 6, 5]), (1, 48, 49, [20, 8, 6, 5]), (4, 48, 40, [0, 8, 6, 5]),
   (5, 48, 40, [20, 0, 6, 5]), (6, 48, 40, [20, 8, 0, 5]), (7, 48, 40, [20, 8, 6, 0]), (5, 48, 40, [20, 21, 6, 5]),
   (7, 48, 40, [20, 8, 6, 7])]

theorem test_O40_refusals : ∀ x ∈ budgetRefusals,
    let s := posted 0 .budgetSet (le16 x.2.1 ++ le16 x.2.2.1 ++ [20, 4] ++ x.2.2.2 ++ [10, 1])
      (withAccount { Account.reset with drives := 8, starting := 2 } base)
    takesTest s .budgetSet 0 = true ∧ (resultOf (after .budgetSet s) 0 27).drop 26 = [x.1] := by
  decide +kernel

theorem test_O40_in_use : (resultOf (after .budgetSet (budgetIn 47 40 20 4)) 0 30).drop 26 = [0, 0xFF, 8, 0] ∧
    (resultOf (after .budgetSet (budgetIn 48 40 20 1)) 0 30).drop 26 = [3, 0xFF, 2, 0] := by
  decide +kernel

theorem test_budget_set : resultOf (after .budgetSet (budgetIn 47 40 20 4)) 0 1 = [10] ∧
    resultOf (after .budgetSet (budgetIn 4096 0 8 4)) 0 1 = [8] := by
  decide +kernel

/-! ### The sideband (O41 to O45) -/

/-- Bay 3 ACTIVE with a poll queued or not, a transaction in flight. -/
def polling (queue : List SbEntry) : State :=
  { withFlight (txnOf .ident .arrival none 0 0) (withBay 3 (inState .active) base) with
    sbe := { Sbe.reset with pollQ := queue, flight := some (txnOf .ident .arrival none 0 0) } }

theorem test_O41_premises : StepNoteEmpty (polling []).exp ∧ (polling []).sbe.flight.isSome = true ∧
    ((polling []).bay 3).state = .active ∧ ((polling []).bay 4).state ≠ .active ∧ pollQueued (polling []) 3 = false ∧
    pollQueued (polling [⟨3, .temp, .poll, none, 0⟩]) 3 = true ∧
    (after .pollTimerExpiry (polling [])).sbe.pollCount[(3 : Bay)] = 1 := by
  refine ⟨⟨rfl, rfl⟩, ?_⟩
  decide +kernel

theorem test_O41_idle : let s := withBay 3 (inState .active) base
    s.sbe.flight = none ∧ s.sbe.orderQ = [] ∧ s.sbe.pollQ = [] ∧ (s.bay 3).state = .active ∧
    (after .pollTimerExpiry s).sbe.flight = some ⟨⟨3, .temp, .poll, none, 0⟩, 0, 0, .attempt, 0⟩ := by
  decide +kernel

theorem test_O42_check_byte : (List.replicate 24 (0 : Byte)).length ≤ (24 : Byte).toNat ∧
    judgeReply .temp [0, 2, 150, 0] = none ∧ judgeReply .temp [0, 2, 150, 0, 104, 7, 7] = some (.ok [150, 0]) ∧
    judgeReply .health [0, 1, 3, 252, 0] = some (.ok [3]) := by
  decide

theorem test_O42_premises : 24 < (25 : Byte).toNat ∧ (24 : Byte).toNat ≤ 24 ∧ (List.replicate 25 (0 : Byte)).length = (24 : Byte).toNat + 1 ∧
    judgeReply .temp [0, 2, 150, 0, 104] = some (.ok [150, 0]) ∧ judgeReply .temp [0, 2, 150, 0, 105] = some .badCheck ∧
    judgeReply .temp [1, 0, 255] = some .defer ∧ judgeReply .temp [0, 1, 5, 250] = some .badCheck := by
  decide

theorem test_O43_premises : let s := withFlight (txnOf .standby .standby none 1 19) base
    StepNoteEmpty s.exp ∧ s.sbe.flight = some (txnOf .standby .standby none 1 19) ∧
    judgeReply .standby [1, 0, 255] = some .defer ∧ judgeReply .standby [0, 25] = some .badCheck ∧
    (after .sidebandNoReply s).sbe.flight = some (txnOf .standby .standby none 2 19) ∧
    (after (.sidebandReply [1, 0, 255]) (withFlight (txnOf .temp .poll none 0 6) base)).sbe.flight =
      some { txnOf .temp .poll none 0 7 with phase := .spacing } := by
  refine ⟨⟨rfl, rfl⟩, ?_⟩
  decide +kernel

theorem test_O43_pair : requestByte (withFlight (txnOf .health .poll none 0 0) base) = some 0x03 ∧
    selectLine (withFlight (txnOf .health .poll none 0 0) base) 3 = true ∧
    requestByte (withFlight { txnOf .health .poll none 0 0 with phase := .spacing } base) = none ∧ requestByte base = none ∧
    (∀ x, base.sbe.flight = some x → x.phase = .spacing) := by
  refine ⟨?_, ?_, ?_, ?_, nofun⟩ <;> decide +kernel

/-- A QUERY of bay 3 in its last attempt, slot 5 TAKEN, bay 3 in OFF. -/
def querying (item : SbItem) (failed defers : Nat) : State :=
  withFlight (txnOf item .query (some 5) failed defers) (taken 5 .sidebandQuery (withBay 3 (inState .off) base))

/-- A poll of bay 3, ACTIVE to THC. -/
def polled : State :=
  { withFlight (txnOf .temp .poll none 2 7) (withBay 3 (inState .active) base) with
    thc := { Thc.reset with facts := Thc.reset.facts.set 3 ⟨true, false, 0, 0⟩ } }

theorem test_O44_premises : (querying .health 2 7).sbe.flight = some (txnOf .health .query (some 5) 2 7) ∧
    (querying .health 2 7).mem.wf = true ∧ judgeReply .health [0, 1, 3, 252] = some (.ok [3]) ∧
    judgeReply .ident ([0, 21] ++ List.replicate 21 0 ++ [235]) = some (.ok (List.replicate 21 0)) ∧
    judgeReply .health [1, 0, 255] = some .defer ∧ deferLimit .health ≤ 7 ∧ judgeReply .health [0, 25] = some .badCheck ∧
    ((querying .health 2 7).slot 5).state = .taken ∧ ((querying .ident 2 7).bay 3).state = .off ∧
    polled.thc.facts[(3 : Bay)].active = true ∧ polled.sbe.flight = some (txnOf .temp .poll none 2 7) := by
  decide +kernel

theorem test_transaction_ends : ((after (.sidebandReply [0, 1, 3, 252]) (querying .health 0 0)).bay 3).healthWarn = true ∧
    resultOf (after .sidebandNoReply (querying .temp 2 0)) 5 1 = [19] ∧
    ((after (.sidebandReply [0, 2, 150, 0, 104]) polled).sensor 3).value = some 150 := by
  decide +kernel

/-- A standby transaction of bay 3 in its last attempt, the bay waiting for it with a hold. -/
def standing (hold : Nat) : State := withFlight (txnOf .standby .standby none 2 20) (waiting3 hold)

theorem test_O44_standby : ∀ h ∈ [0, 10], let s := standing h
    s.mem.wf = true ∧ s.sbe.flight = some (txnOf .standby .standby none 2 20) ∧ (s.bay 3).state = .stopping ∧
    (s.bay 3).stopPhase = some .standbyWait ∧ (s.path 3).stop = some (stopOf h) ∧
    judgeReply .standby [0, 0, 0] = some (.ok []) ∧ deferLimit .standby ≤ 20 ∧
    ((after (.sidebandReply [0, 0, 0]) (still s)).path 3).holdTimer = (if h = 0 then none else some 10000) := by
  decide +kernel

theorem test_O44_discarded : let s := withFlight (txnOf .standby .standby none 2 20) holding3
    s.mem.wf = true ∧ (s.bay 3).stopPhase ≠ some .standbyWait ∧ ((polled.bay 3).state ≠ .stopping) := by
  decide +kernel

/-- A HEALTH poll of bay 3, ACTIVE, and a poll with one hot reading counted and a shed temperature of 37. -/
def healthPolled : State := withFlight (txnOf .health .poll none 2 7) (withBay 3 (inState .active) base)
def hotPolled : State := { polled with thc := { polled.thc with facts := polled.thc.facts.set 3 ⟨true, false, 37, 1⟩ } }

theorem test_O44_polls : (healthPolled.bay 3).state = .active ∧ pollQueued healthPolled 3 = false ∧ healthPolled.mem.wf = true ∧
    (after .sidebandNoReply healthPolled).sbe.flight = some ⟨⟨3, .temp, .poll, none, 0⟩, 0, 0, .attempt, 0⟩ ∧
    hotPolled.thc.facts[(3 : Bay)].hot + 1 = 2 ∧ (4 * 37 : Int) ≤ clampTemp (tempOf [150, 0]) ∧
    (after (.sidebandReply [0, 2, 150, 0, 104]) hotPolled).pseq.sheds = [⟨3, 37⟩] ∧
    (healthPolled.thc.facts[(3 : Bay)]).active = false := by
  decide +kernel

/-- A SIDEBAND QUERY in slot 0, with bay 23 in a state. -/
def queryIn (bay item : Byte) (st : BayState) (sbe : Sbe) : State :=
  { posted 0 .sidebandQuery [bay, item, 61] (withBay 23 (inState st) base) with sbe := sbe }

theorem test_O45_premises : takesTest (queryIn 23 0 .off Sbe.reset) .sidebandQuery 0 = true ∧
    takesTest (queryIn 23 1 .off Sbe.reset) .sidebandQuery 0 = true ∧
    takesTest (queryIn 23 3 .off Sbe.reset) .sidebandQuery 0 = true ∧
    takesTest (queryIn 23 4 .off Sbe.reset) .sidebandQuery 0 = true ∧
    takesTest (queryIn 24 1 .off Sbe.reset) .sidebandQuery 0 = true ∧
    takesTest (queryIn 255 0 .off Sbe.reset) .sidebandQuery 0 = true ∧
    (∀ st ∈ [BayState.empty, .settling, .off], takesTest (queryIn 23 1 st fullSbe) .sidebandQuery 0 = true ∧
      ((queryIn 23 1 st fullSbe).bay 23).state = st) ∧
    takesTest (queryIn 23 1 .off { fullSbe with orderQ := fullSbe.orderQ.tail }) .sidebandQuery 0 = true ∧
    Sbe.reset.flight = none ∧ Sbe.reset.orderQ = [] ∧ fullSbe.orderQ.length = 8 ∧ fullSbe.orderQ.tail.length = 7 ∧
    fullSbe.flight.isSome = true := by
  decide +kernel

theorem test_O45_item_shown : (∀ item ∈ [(0 : Byte), 4, 5, 0x77], takesTest (queryIn 255 item .off Sbe.reset) .sidebandQuery 0 = true) ∧
    (resultOf (after .sidebandQuery (queryIn 255 0x77 .off Sbe.reset)) 0 10).drop 8 = [255, 255] ∧
    (resultOf (after .sidebandQuery (queryIn 255 4 .off Sbe.reset)) 0 10).drop 8 = [255, 4] := by
  decide +kernel

theorem test_query : (after .sidebandQuery (queryIn 255 0 .off Sbe.reset)).sbe.interval = 60 ∧
    resultOf (after .sidebandQuery (queryIn 23 1 .off fullSbe)) 0 1 = [18] := by
  decide +kernel

/-! ### Sensors, zones and fans (O46 to O53) -/

/-- The curve of section 6.5. -/
def curve65 : CurveRec :=
  { t0 := 30, staleMargin := 12, floor := 200, ceiling := 900, preload := 600, boost := 96, rise := 32, fall := 64,
    segs := #v[⟨0, 256, 384, 6⟩, ⟨40, 496, 780, 6⟩, ⟨80, 984, 0, 0⟩, ⟨120, 1023, 0, 0⟩] }

/-- Zone 1 as section 6.5 finds it. -/
def case65 : State :=
  { base with thc := { Thc.reset with
      working := some (Vector.replicate 4 curve65), bank := some .a
      fitted := Thc.reset.fitted.set 2 true
      facts := ((Thc.reset.facts.set 5 ⟨true, false, 0, 0⟩).set 6 ⟨true, false, 0, 0⟩).set 7 ⟨false, true, 0, 0⟩
      sensors := ((Thc.reset.sensors.set 5 ⟨some 165, 0, some 0⟩).set 6 ⟨some 152, 3, some 0⟩).set 26 ⟨some 146, 0, some 0⟩
      failedFans := Thc.reset.failedFans.set 3 true
      zones := Thc.reset.zones.set 1 { ZoneRec.reset with
        sensors := 0x040000E0, output := 610, failedCount := 1, preloadActive := true, failsafe := false } } }

theorem test_O46_O47_O48_premises : let t := after .zonePeriodStart case65
    t.thc.working = some (Vector.replicate 4 curve65) ∧ (t.zone 1).failsafe = false ∧
    (t.zone 1).sensors.getLsbD 5 = true ∧ sensorState t.thc 5 = .valid ∧ sensorState t.thc 6 = .stale ∧
    case65.thc.pendingMap = none ∧ curve65.segs[(1 : Fin 4)].offset ≤ 45 ∧ 45 < curve65.segs[(2 : Fin 4)].offset := by
  decide +kernel

theorem test_O46_states : let x := (after .zonePeriodStart case65).thc
    (driveSensor 5).val = 5 ∧ x.facts[(5 : Bay)].active = true ∧ x.facts[(0 : Bay)].active = false ∧ x.fitted[(2 : Fin 8)] = true ∧
    x.fitted[(0 : Fin 8)] = false ∧ (x.sensors[(6 : SensorId)]).fails = 3 ∧ (x.sensors[(6 : SensorId)]).value = some 152 ∧
    sensorState x 26 = .valid ∧ sensorState x 0 = .absent ∧ sensorState x 24 = .absent := by
  decide +kernel

theorem test_worked_case : (after .zonePeriodStart case65).zone 1 =
    { sensors := 0x040000E0, excess := 45, d1 := 557, d2 := 653, d3 := 653, output := 642, clamped := false, failedCount := 1,
      preloadActive := true, failsafe := false } := by
  decide +kernel

theorem test_no_contribution : excessOf Thc.reset curve65 0 = -1 ∧ demandOne curve65 (-1) = 200 ∧ demandOne curve65 80 = 900 ∧
    clampActs curve65 80 = true ∧ roundShift 31200 6 = 488 ∧ roundShift (-32) 6 = 0 ∧ slew curve65 700 600 = 636 ∧
    slew curve65 610 1023 = 642 := by
  decide +kernel

/-- A map and a select pending, their slots TAKEN. -/
def pendingMap : State :=
  taken 4 .zoneMap { base with thc := { Thc.reset with
    pendingMap := some ⟨Vector.replicate 8 3, Vector.replicate 4 0xFF000000, 0xFF, some 4⟩ } }
def pendingSelect : State :=
  taken 5 .curveSelect { base with thc := { Thc.reset with pendingSelect := some ⟨.b, some 5⟩ } }

/-- A bank B of four records that pass the tests, and one whose zone 3 ceiling lies below its floor. -/
def curveBytes (ceiling : Nat) : List Byte :=
  [30, 12] ++ le16 200 ++ le16 ceiling ++ le16 600 ++ le16 96 ++ le16 32 ++ le16 64 ++ le16 0 ++
    [0, 0, 0, 1, 128, 1, 6, 0, 40, 0, 240, 1, 12, 3, 6, 0, 80, 0, 216, 3, 0, 0, 0, 0, 120, 0, 255, 3, 0, 0, 0, 0]
def bankB (last : Nat) : Memory :=
  Memory.writeBytes (Memory.writeBytes (Memory.writeBytes (Memory.writeBytes [] 0x1B00 (curveBytes 900)) 0x1B40
    (curveBytes 900)) 0x1B80 (curveBytes 900)) 0x1BC0 (curveBytes last)

theorem test_O49_premises : pendingMap.mem.wf = true ∧ base.thc.working = none ∧ base.thc.pendingSelect = none ∧
    (pendingMap.slot 4).state = .taken ∧ (base.fan 0).state = .running ∧ pendingSelect.thc.pendingMap = none ∧
    pendingSelect.thc.pendingSelect = some ⟨.b, some 5⟩ ∧ (pendingSelect.slot 5).state = .taken ∧
    bankFault (readBank (bankB 900) .b) = none ∧ bankFault (readBank (bankB 199) .b) = some (3, ⟨3, 0xFF⟩) ∧
    (bankB 900).wf = true ∧ (bankB 199).wf = true := by
  decide +kernel

theorem test_select_in_place : let t := after .zonePeriodStart (still { pendingSelect with mem := bankB 900 })
    t.thc.bank = some .b ∧ (t.zone 2).failsafe = false ∧ resultOf t 5 1 = [0] := by
  decide +kernel

theorem test_bad_curve : resultOf (after .zonePeriodStart (still { pendingSelect with mem := bankB 199 })) 5 1 = [9] := by
  decide +kernel

theorem test_map_in_place : let t := after .zonePeriodStart (still pendingMap)
    t.thc.fanZone = Vector.replicate 8 3 ∧ t.thc.fitted = Vector.replicate 8 true ∧ resultOf t 4 1 = [0] := by
  decide +kernel

/-- A learn under way on fan 7. -/
def learnOn : Learn := { slot := some 6, mask := 0x81, level := 7, settled := 0, readings := 0, last := 0, list := [], minBefore := 256, gates := 0 }
def learning7 : State := withFan 7 { FanRec.reset with state := .learning } ⟨0, 0, 0, 0, some learnOn⟩ (taken 6 .fanLearn base)

theorem test_O49_fans : (learning7.fan 7).state = .learning ∧ (learning7.fanWork 7).learn = some learnOn ∧
    896 ≤ ((after .zonePeriodStart learning7).zone (after .zonePeriodStart learning7).thc.fanZone[(7 : FanId)]).d3 ∧
    ((after .zonePeriodStart learning7).fan 7).state = .running ∧
    (∀ st ∈ [FanState.stalled, .failed, .absent], ((withFan 0 { FanRec.reset with state := st } ⟨0, 0, 0, 0, none⟩ base).fan 0).state = st) := by
  decide +kernel

/-- Bay 3 queued with a floor of 0 and an estimate of 80 units that the fans' duty of 1023 makes 8 of 1 unit each. -/
def estimating : State :=
  { queued3 20 none 0 none with
    pseq := { (queued3 20 none 0 none).pseq with account := { (queued3 20 none 0 none).account with fanEstimate := 80 } }
    fanu := { Fanu.reset with fans := Vector.replicate 8 { FanRec.reset with maxUnits := 1 } } }

theorem test_O49_estimate : (after .zonePeriodStart (still estimating)).account.fanEstimate = 8 ∧ estimating.account.fanEstimate = 80 ∧
    (after .zonePeriodStart (still base)).account.fanEstimate = 160 ∧ base.account.fanEstimate = 160 := by
  decide +kernel

theorem test_O49_bank_tests : let seg : Segment := ⟨0, 0, 0, 0⟩
    curveFault { curve65 with segs := #v[⟨1, 256, 384, 6⟩, seg, seg, seg] } = some ⟨0, 0⟩ ∧
    curveFault { curve65 with segs := curve65.segs.set 3 ⟨1024, 0, 0, 0⟩ } = some ⟨0, 3⟩ ∧
    curveFault { curve65 with segs := curve65.segs.set 2 ⟨80, 1024, 0, 16⟩ } = some ⟨1, 2⟩ ∧
    curveFault { curve65 with segs := curve65.segs.set 2 ⟨80, 0, 0, 16⟩ } = some ⟨2, 2⟩ ∧
    curveFault { curve65 with fall := 0 } = some ⟨8, 0xFF⟩ ∧ curveFault curve65 = none := by
  decide +kernel

/-- A ZONE MAP in slot 0 whose last fan names a zone, and a CURVE SELECT. -/
def mapIn (last : Byte) (s : State) : State := posted 0 .zoneMap ([0, 0, 1, 1, 2, 2, 3, last] ++ List.replicate 17 0) s
def selectIn (bank : Byte) (s : State) : State := posted 0 .curveSelect [bank] s

theorem test_O50_premises : (∀ z ∈ [(3 : Byte), 4], takesTest (mapIn z pendingMap) .zoneMap 0 = true ∧
      ∀ f : FanId, (argByte (mapIn z pendingMap) 0 f.val).toNat ≤ 3 ∨ (z = 4 ∧ f = 7)) ∧
    pendingMapSlot (mapIn 3 pendingMap).thc = some 4 ∧ ((mapIn 3 pendingMap).slot 4).state = .taken ∧
    (∀ b ∈ [(0 : Byte), 1, 2], takesTest (selectIn b pendingSelect) .curveSelect 0 = true) ∧
    pendingSelectSlot (selectIn 1 pendingSelect).thc = some 5 := by
  decide +kernel

theorem test_superseded : resultOf (after .zoneMap (mapIn 3 pendingMap)) 4 1 = [6] ∧
    resultOf (after .curveSelect (selectIn 2 pendingSelect)) 0 1 = [8] := by
  decide +kernel

/-- Fan 7 in a state with its counts at a gate's end. -/
def gating (st : FanState) (edges low kick good kicks : Nat) : State :=
  withFan 7 { FanRec.reset with state := st, kicks } ⟨low, kick, good, edges, none⟩ base

theorem test_O51_premises :
    (∀ low ∈ [1, 2], ((gating .running 19 low 0 0 0).fan 7).state = .running ∧ ((gating .running 19 low 0 0 0).fanWork 7).lowGates = low) ∧
    (256 : Nat) ≤ 1023 ∧ 19 * 60 / 2 < 600 ∧ ¬ 20 * 60 / 2 < 600 ∧
    (∀ k ∈ [0, 1], ((gating .stalled 19 0 k 0 2).fanWork 7).kickGates = k) ∧
    (∀ g ∈ [3, 4], ((gating .failed 20 0 0 g 3).fanWork 7).goodGates = g) ∧ ((gating .absent 0 0 0 0 0).fan 7).state = .absent := by
  decide +kernel

theorem test_gate : ((after .tachGateExpiry (gating .running 19 2 0 0 0)).fan 7).state = .stalled ∧
    ((after .tachGateExpiry (gating .stalled 19 0 1 0 2)).fan 7).state = .failed ∧
    ((after .tachGateExpiry (gating .failed 20 0 0 4 3)).fan 7).state = .running ∧
    ((after .tachGateExpiry (gating .running 4095 0 0 0 0)).fan 7).rpm = 122850 := by
  decide +kernel

/-- Fan 7 learning in slot 6, with edges counted in the gate that ends, gates settled, readings made, the last reading
and the levels completed. -/
def laddered (edges settled readings last : Nat) (level : Fin 8) (list : List (Fin 8 × Nat)) : State :=
  withFan 7 { FanRec.reset with state := .learning, duty := 1023 }
    ⟨0, 0, 0, edges, some { learnOn with settled, readings, last, level, list }⟩ (taken 6 .fanLearn base)

theorem test_O51_learn : ∀ x ∈ [laddered 40 2 0 0 7 [], laddered 40 3 1 1200 7 [], laddered 40 3 1 1200 0 [(7, 1200)],
      laddered 10 3 1 300 0 [(7, 1200)], laddered 10 3 1 300 7 [], laddered 40 3 4 300 0 [(7, 1200)], laddered 40 3 4 300 7 [],
      laddered 40 3 3 300 7 []],
    x.mem.wf = true ∧ (x.fan 7).state = .learning ∧ (x.fanWork 7).learn.isSome = true ∧ (x.slot 6).state = .taken ∧
    ((x.fanWork 7).learn.bind Learn.slot) = some 6 ∧ ∀ g : FanId, g ≠ 7 → (x.fanWork g).learn = none := by
  decide +kernel

theorem test_learn_ladder :
    ((after .tachGateExpiry (laddered 40 3 1 1200 7 [])).fan 7).duty = 128 ∧
    ((after .tachGateExpiry (laddered 40 3 1 1200 0 [(7, 1200)])).fan 7).learnedMin = 128 ∧
    ((after .tachGateExpiry (laddered 10 3 1 300 0 [(7, 1200)])).fan 7).learnedMin = 1023 ∧
    ((after .tachGateExpiry (laddered 10 3 1 300 7 [])).fan 7).state = .failed ∧
    resultOf (after .tachGateExpiry (still (laddered 40 3 4 300 7 []))) 6 1 = [Result.unsteady.code] ∧
    ((after .tachGateExpiry (laddered 40 3 3 300 7 [])).fan 7).state = .learning := by
  decide +kernel

theorem test_O51_estimate : base.account.fanEstimate =
    ((List.finRange 8).map fun f => ((base.fan f).maxUnits * (base.fan f).duty + 1023) / 1024).sum := by
  decide +kernel

/-- A FAN CONFIG in slot 0. -/
def configIn (f flags ppr : Byte) (learned : Nat) (s : State) : State :=
  posted 0 .fanConfig ([f, flags, ppr, 40] ++ le16 600 ++ le16 learned) s

theorem test_O52_premises : takesTest (configIn 7 1 0 1023 base) .fanConfig 0 = true ∧
    takesTest (configIn 7 1 1 1023 base) .fanConfig 0 = true ∧
    takesTest (configIn 0 1 4 1023 base) .fanConfig 0 = true ∧
    takesTest (configIn 7 1 5 1023 base) .fanConfig 0 = true ∧
    takesTest (configIn 8 1 1 1023 base) .fanConfig 0 = true ∧
    (∀ st ∈ [FanState.stopped, .running, .stalled, .failed, .absent, .learning],
      let s := configIn 7 0 2 1024 (gating st 0 0 0 0 0)
      takesTest s .fanConfig 0 = true ∧ (s.fan 7).state = st ∧ (argByte s 0 1).getLsbD 0 = false) := by
  decide +kernel

theorem test_O52_estimate : let s := configIn 7 0 2 600 base
    takesTest s .fanConfig 0 = true ∧ (s.fan 7).state = .running ∧ (after .fanConfig s).account.fanEstimate = 140 ∧
    (after .fanConfig (configIn 7 1 2 600 base)).account.fanEstimate = 180 := by
  decide +kernel

theorem test_config : ((after .fanConfig (configIn 7 1 4 1023 base)).fan 7).learnedMin = 1023 ∧
    ((after .fanConfig (configIn 7 0 4 1024 base)).fan 7).state = .absent ∧
    resultOf (after .fanConfig (configIn 7 1 5 0 base)) 0 1 = [8] ∧ fanUnits { FanRec.reset with maxUnits := 40, duty := 642 } = 26 := by
  decide +kernel

/-- A FAN LEARN in slot 0, the stored d3 of every zone given. -/
def learnIn (f mask : Byte) (d3 : Nat) (s : State) : State :=
  posted 0 .fanLearn [f, mask] { s with fanu := { s.fanu with d3 := Vector.replicate 4 d3 } }

theorem test_O53_premises : takesTest (learnIn 7 0 895 base) .fanLearn 0 = true ∧
    takesTest (learnIn 7 1 895 base) .fanLearn 0 = true ∧
    takesTest (learnIn 0 0x80 896 base) .fanLearn 0 = true ∧
    takesTest (learnIn 8 1 0 base) .fanLearn 0 = true ∧
    ((learnIn 7 1 895 (gating .absent 0 0 0 0 0)).fan 7).state = .absent ∧ ((learnIn 7 1 895 learning7).fan 7).state = .learning ∧
    (0x80 : Byte).getLsbD 7 = true ∧ (0x01 : Byte).getLsbD 0 = true ∧ (∀ k : Fin 8, 0 < k → (0x01 : Byte).getLsbD k.val = false) := by
  decide +kernel

theorem test_learn : ((after .fanLearn (learnIn 7 0x80 895 base)).fan 7).duty = 1023 ∧
    ((after .fanLearn (learnIn 7 0x01 895 base)).fan 7).duty = 128 ∧
    resultOf (after .fanLearn (learnIn 7 0x80 896 base)) 0 1 = [25] := by
  decide +kernel

/-! ### Lights (O54 to O59) -/

/-- Channel 7, bay 3's ATTENTION, driven by a pattern of the default table. -/
def shows (p : PatId) (gate : Gate) (openings count : Nat) (phase : EnvPhase) (level : Nat) : State :=
  withChan 7 { Channel.reset with order := some p, layer := .order, pattern := some p, gate, openings, count, phase, level } base

theorem test_O54_premises : StepNoteEmpty (shows 4 .opened 1 0 .sustain 51400).exp ∧ chanBay 7 = 3 ∧
    (shows 4 .opened 1 0 .sustain 51400).lgt.patterns[(4 : PatId)].activity = true ∧
    (shows 4 .opened 1 0 .sustain 51400).lgt.patterns[(4 : PatId)].repeats = 0 ∧
    (shows 4 .opened 1 0 .sustain 51400).lgt.patterns[(4 : PatId)].offTime ≠ 0 ∧
    (shows 0 .opened 1 0 .sustain 0).lgt.patterns[(0 : PatId)].activity = false ∧ (base.chan 7).pattern = none ∧
    ((after (.activityEdge 3) (shows 4 .opened 1 0 .sustain 51400)).chan 7).gate = .dip := by
  refine ⟨⟨rfl, rfl⟩, ?_⟩
  decide +kernel

/-- The pattern of O54's last opening and of its off time 0: an activity pattern with one opening. -/
def oneOpening (off : Nat) : State :=
  let s := shows 4 .opened 1 0 .sustain 51400
  { s with lgt := { s.lgt with patterns := s.lgt.patterns.set 4 ⟨0, 0, 0, 200, 200, 0, off, 1, true⟩ } }

theorem test_O54_last : (oneOpening 0).lgt.patterns[(4 : PatId)].repeats ≤ ((oneOpening 0).chan 7).openings ∧
    (oneOpening 0).lgt.patterns[(4 : PatId)].offTime = 0 ∧ after (.activityEdge 3) (oneOpening 3) = oneOpening 3 := by
  decide +kernel

/-- An activity pattern on channel 7 that repeats for ever with an off time of 0, its gate OPEN at a level. -/
def endless (attack : Fin 16) (level : Nat) : State :=
  let s := shows 4 .opened 1 7 .sustain level
  { s with lgt := { s.lgt with patterns := s.lgt.patterns.set 4 ⟨attack, 0, 0, 200, 200, 0, 0, 0, true⟩ } }

theorem test_O54_off_time_0 : (endless 1 257).lgt.patterns[(4 : PatId)].repeats = 0 ∧
    (endless 1 257).lgt.patterns[(4 : PatId)].offTime = 0 ∧ (endless 1 257).lgt.patterns[(4 : PatId)].activity = true ∧
    (let ch := (after (.activityEdge 3) (endless 1 257)).chan 7
     ch.phase = .attack ∧ ch.level = 257 ∧ ch.gate = .opened ∧ ch.count = 0 ∧ ch.openings = 1) ∧
    ((after (.activityEdge 3) (endless 0 257)).chan 7).level = 51400 := by
  decide +kernel

theorem test_O55_premises : (∀ ph ∈ [EnvPhase.attack, .decay, .sustain, .release, .rest],
      ((shows 2 .opened 1 248 ph 257).chan 7).phase = ph) ∧
    StepNoteEmpty (shows 2 .opened 1 248 .attack 257).exp ∧
    (shows 2 .opened 1 248 .attack 257).lgt.patterns[(2 : PatId)].onTime = 50 ∧ 248 + 1 < 5 * 50 ∧
    (shows 0 .opened 1 0 .sustain 0).lgt.patterns[(0 : PatId)].onTime = 0 ∧ (base.chan 7).pattern = none := by
  refine ⟨?_, ⟨rfl, rfl⟩, ?_⟩ <;> decide +kernel

theorem test_envelope_step : ((after .envelopeStep (shows 2 .opened 1 248 .attack 257)).chan 7).level = 513 ∧
    ((after .envelopeStep (shows 2 .opened 1 249 .sustain 257)).chan 7).gate = .closed := by
  decide +kernel

/-- Channel 7 under a layer with a pattern of on time 2, an off time and a number of repeats in place of pattern 9. -/
def cycling (layer : Layer) (gate : Gate) (off repeats openings count level : Nat) (phase : EnvPhase) : State :=
  let s := withChan 7 { Channel.reset with
      auto := some (if layer = .auto then 9 else 1), order := if layer = .order then some 9 else none
      locate := if layer = .locate then some 9 else none
      layer, pattern := some 9, gate, openings, count, phase, level } base
  { s with lgt := { s.lgt with patterns := s.lgt.patterns.set 9 ⟨1, 0, 1, 200, 200, 2, off, repeats, false⟩ } }

theorem test_O55_gate_premises : ∀ l ∈ [Layer.auto, .order, .locate], ∀ g ∈ [Gate.opened, .closed, .dip],
    let s := cycling l g 3 2 1 9 257 .sustain
    (s.chan 7).pattern = some 9 ∧ (s.chan 7).group = 0 ∧ (s.chan 7).gate = g ∧ driving (s.chan 7) = ((s.chan 7).layer, (s.chan 7).pattern) ∧
    s.lgt.patterns[(9 : PatId)].onTime ≠ 0 ∧ 5 * 2 ≤ 9 + 1 := by
  decide +kernel

theorem test_gate_cycle :
    ((after .envelopeStep (cycling .auto .opened 3 2 1 9 257 .sustain)).chan 7).gate = .closed ∧
    ((after .envelopeStep (cycling .auto .opened 0 2 1 9 257 .sustain)).chan 7).openings = 2 ∧
    ((after .envelopeStep (cycling .auto .closed 3 2 1 14 0 .rest)).chan 7).openings = 2 ∧
    ((after .envelopeStep (cycling .auto .dip 3 2 1 14 0 .rest)).chan 7).openings = 1 ∧
    ((after .envelopeStep (cycling .auto .dip 3 2 1 14 0 .rest)).chan 7).gate = .opened ∧
    ((after .envelopeStep (cycling .auto .closed 3 2 2 0 257 .release)).chan 7).gate = .opened ∧
    ((after .envelopeStep (cycling .order .closed 3 2 2 0 257 .release)).chan 7).layer = .auto ∧
    ((after .envelopeStep (cycling .locate .closed 3 2 2 0 257 .release)).chan 7).pattern = some 1 := by
  decide +kernel

/-- Channel 7 leads group 2, its gate at the end of its off time; channel 40 is a member with its gate open. -/
def synced : State :=
  let s := withChan 40 { Channel.reset with auto := some 2, pattern := some 2, gate := .opened, openings := 3, level := 257, group := 2 }
    (withChan 7 { Channel.reset with auto := some 2, pattern := some 2, gate := .closed, openings := 1, count := 10000, group := 2 } base)
  { s with lgt := { s.lgt with patterns := s.lgt.patterns.set 2 ⟨1, 0, 1, 200, 200, 2, 3, 0, false⟩ } }

theorem test_O55_sync : (synced.chan 7).group ≠ 0 ∧ (∀ d, (synced.chan d).group = (synced.chan 7).group → 7 ≤ d) ∧
    (synced.chan 7).pattern = some 2 ∧ 5 * synced.lgt.patterns[(2 : PatId)].offTime ≤ (synced.chan 7).count + 1 ∧
    (synced.chan 40).group = (synced.chan 7).group ∧ ((after .envelopeStep synced).chan 40).openings = 4 ∧
    ((after .envelopeStep synced).chan 7).openings = 2 := by
  decide +kernel

/-- Channel 7 with a LOCATE layer over an ORDER layer. -/
def locating : State :=
  withChan 7 { Channel.reset with order := some 1, locate := some 3, layer := .locate, pattern := some 3, gate := .opened,
                                  locateTimer := some 5000, deadline := some 5 } base

theorem test_O56_premises : StepNoteEmpty locating.exp ∧ attentionChan 3 = 7 ∧ (locating.chan 7).locateTimer.isSome = true ∧
    ((after (.locateTimerExpiry 3) locating).chan 7).pattern = some 1 := by
  refine ⟨⟨rfl, rfl⟩, ?_⟩
  decide +kernel

/-- A LIGHT SET and a LIGHT SYNC in slot 0. -/
def lightIn (bay chan pat : Byte) (s : State) : State := posted 0 .lightSet [bay, chan, pat] s
def syncIn (chan group : Byte) (s : State) : State := posted 0 .lightSync [chan, group] s

theorem test_O57_premises : takesTest (lightIn 3 0 15 locating) .lightSet 0 = true ∧
    takesTest (lightIn 3 0 255 locating) .lightSet 0 = true ∧
    takesTest (lightIn 23 1 0 locating) .lightSet 0 = true ∧
    takesTest (lightIn 3 1 255 locating) .lightSet 0 = true ∧
    takesTest (lightIn 24 0 0 locating) .lightSet 0 = true ∧
    takesTest (lightIn 0 2 0 locating) .lightSet 0 = true ∧
    takesTest (lightIn 0 0 16 locating) .lightSet 0 = true ∧
    takesTest (syncIn 47 4 base) .lightSync 0 = true ∧
    takesTest (syncIn 0 0 base) .lightSync 0 = true ∧
    takesTest (syncIn 48 0 base) .lightSync 0 = true ∧
    takesTest (syncIn 0 5 base) .lightSync 0 = true ∧
    ((lightIn 3 1 255 locating).chan 7).order.isSome = true ∧ ((lightIn 3 0 255 locating).chan 6).order = none ∧
    ((lightIn 3 0 15 locating).chan 6).locate = none := by
  decide +kernel

theorem test_O55_light_set : let s := lightIn 23 1 15 base
    takesTest s .lightSet 0 = true ∧ (argByte s 0 0).toNat = 23 ∧ (argByte s 0 1).toNat = 1 ∧ (argByte s 0 2).toNat = 15 ∧
    (s.chan 47).locate = none := by
  decide +kernel

theorem test_light_set : ((after .lightSet (lightIn 23 1 15 base)).chan 47).pattern = some 15 ∧
    resultOf (after .lightSet (lightIn 23 1 255 base)) 0 1 = [1] ∧ ((after .lightSync (syncIn 47 4 base)).chan 47).group = 4 := by
  decide +kernel

/-- A LOCATE in slot 0. -/
def locateIn (bay pat lo hi : Byte) (s : State) : State := posted 0 .locate [bay, pat, lo, hi] s

theorem test_O58_premises : takesTest (locateIn 23 15 0 1 locating) .locate 0 = true ∧
    takesTest (locateIn 255 0 0 1 locating) .locate 0 = true ∧
    takesTest (locateIn 3 255 0 1 locating) .locate 0 = true ∧
    takesTest (locateIn 255 255 0 1 locating) .locate 0 = true ∧
    takesTest (locateIn 24 0 0 1 locating) .locate 0 = true ∧
    takesTest (locateIn 254 0 0 1 locating) .locate 0 = true ∧
    takesTest (locateIn 0 16 0 1 locating) .locate 0 = true := by
  decide +kernel

theorem test_locate : ((after .locate (still (locateIn 23 15 0 1 base))).chan 47).deadline = some 255 ∧
    resultOf (after .locate (still (locateIn 255 255 0 0 locating))) 0 11 = [0, 0, 0x34, 0x12, 0, 0, 0, 0, 0, 0, 1] := by
  decide +kernel

/-- A PATTERN LOAD in slot 0, with pattern 15's record in the pattern area; an AUTO MAP with one byte of its area. -/
def loadIn (first count peak : Byte) : State :=
  { posted 0 .patternLoad [first, count] base with
    mem := (posted 0 .patternLoad [first, count] base).mem.writeBytes (patternBase 15) [0x21, 0x13, peak, 200, 10, 10, 2] }
def autoIn (last : Byte) : State :=
  { posted 0 .autoMap [] base with mem := (posted 0 .autoMap [] base).mem.write 0x1E0F last }

theorem test_O59_premises : takesTest (loadIn 15 1 100) .patternLoad 0 = true ∧
    takesTest (loadIn 15 1 0) .patternLoad 0 = true ∧
    takesTest (loadIn 15 0 100) .patternLoad 0 = true ∧
    takesTest (loadIn 15 2 100) .patternLoad 0 = true ∧
    takesTest (loadIn 16 1 100) .patternLoad 0 = true ∧
    (loadIn 15 1 100).mem.read (patternBase 15 + 2) = 100 ∧ (loadIn 15 1 0).mem.read (patternBase 15 + 2) = 0 ∧
    ∀ last ∈ [(15 : Byte), 16, 255], takesTest (autoIn last) .autoMap 0 = true ∧ (autoIn last).mem.read (0x1E00 + 15) = last := by
  decide +kernel

theorem test_pattern_load : (after .patternLoad (still (loadIn 15 1 100))).lgt.patterns[(15 : PatId)] = ⟨1, 2, 3, 100, 100, 10, 10, 2, true⟩ ∧
    resultOf (after .patternLoad (loadIn 15 1 100)) 0 11 = [0, 0, 0x34, 0x12, 0, 0, 0, 0, 15, 1, 1] ∧
    resultOf (after .patternLoad (loadIn 15 1 0)) 0 12 = [8, 0, 0x34, 0x12, 0, 0, 0, 0, 255, 255, 255, 15] := by
  decide +kernel

theorem test_auto_map : (after .autoMap (still (autoIn 15))).lgt.autoMap[(7 : Fin 8)] = ⟨some 0, some 15⟩ ∧
    resultOf (after .autoMap (autoIn 16)) 0 10 = [8, 0, 0x34, 0x12, 0, 0, 0, 0, 7, 1] := by
  decide +kernel

/-! ### Bad kinds and aborts (O60), and the power-on reset -/

/-- A slot whose kind code names no order kind. -/
def badIn (code : Byte) : State := { posted 0 .abort [] base with mem := [(0, code)] }

/-- An ABORT in slot 0 of a target. -/
def abortIn (target : Byte) (s : State) : State := posted 0 .abort [target] s

theorem test_O60_bad_kind : (∀ code ∈ [(0x11 : Byte), 0xFF], takeBadKind (badIn code) = some 0 ∧ (badIn code).mem.wf = true) ∧
    resultOf (after .badKind (badIn 0x11)) 0 1 = [7] := by
  decide +kernel

theorem test_O60_premises : (∀ target ∈ [(0 : Byte), 31, 32], takesTest (abortIn target base) .abort 0 = true) ∧
    (∀ k ∈ [Kind.bayPowerOn, .sidebandQuery, .zoneMap, .curveSelect, .fanLearn, .autoMap],
      takesTest (abortIn 5 (taken 5 k base)) .abort 0 = true ∧ ((abortIn 5 (taken 5 k base)).slot 5).state = .taken ∧
        Kind.ofCode ((abortIn 5 (taken 5 k base)).slot 5).kind = some k) ∧
    (let s := abortIn 5 (taken 5 .bayPowerOn (queued3 0 none 0 (some 5)))
     (s.bay 3).state = .queued ∧ (s.bay 3).powerOrder = some 5 ∧ entryOf s 3 = some (entry3 (some 5)) ∧
      ∀ d : Bay, (s.bay d).state = .queued → d = 3) ∧
    takesTest (abortIn 6 learning7) .abort 0 = true ∧ (learning7.fanWork 7).learn = some learnOn ∧ learnOn.slot = some 6 ∧
    (∀ f : FanId, (learning7.fanWork f).learn = none ∨ f = 7) ∧
    (let s := abortIn 5 (taken 5 .sidebandQuery { base with sbe := { Sbe.reset with orderQ := [⟨3, .temp, .query, some 5, 0⟩] } })
     takesTest s .abort 0 = true ∧ ∃ e ∈ s.sbe.orderQ, e.slot = some 5) := by
  decide +kernel

theorem test_O60_dispatcher : nextPosted (posted 7 .autoMap [] { base with exp := { base.exp with pointer := 7 } }) = some 7 ∧
    nextPosted (posted 7 .autoMap [] (posted 5 .abort [] { base with exp := { base.exp with pointer := 6 } })) = some 7 ∧
    nextPosted (posted 7 .autoMap [] (posted 5 .abort [] { base with exp := { base.exp with pointer := 7 } })) = some 5 ∧
    nextPosted base = none ∧ Kind.ofCode ((posted 7 .autoMap [] base).mem.read (128 * 7)) = some .autoMap ∧
    (after .autoMap (posted 7 .autoMap [] base)).exp.pointer = 7 := by
  decide +kernel

theorem test_O60_queue (t : SlotId) (k : Kind) : QueueMatches (abortIn 5 (taken t k (queued3 0 none 0 (some 5)))) ∧
    QueueMatches (abortIn 5 (taken t k (withBay 3 (inState .off) base))) := by
  have a := queued3_matches 0 none 0 (some 5)
  have b := base_matches .off nofun
  exact ⟨⟨a.once, a.queued, a.urgent, a.normal⟩, ⟨b.once, b.queued, b.urgent, b.normal⟩⟩

theorem test_abort : resultOf (after .abort (abortIn 0 base)) 0 1 = [5] ∧
    resultOf (after .abort (abortIn 5 (taken 5 .zoneMap pendingMap))) 5 1 = [3] ∧
    ((after .abort (abortIn 5 (taken 5 .bayPowerOn (queued3 0 none 0 (some 5))))).bay 3).state = .off ∧
    resultOf (after .abort (abortIn 6 learning7)) 6 1 = [3] := by
  decide +kernel

theorem test_O13_dirty : (after .powerOnReset (withPins .present base)).exp.dirty = Exp.reset.dirty ++ [⟨.bay 3, true⟩] := by
  decide +kernel

theorem test_O14_premises : StepNoteEmpty base.exp ∧ Instr.zonePeriodStart ≠ .powerOnReset ∧ Instr.zonePeriodStart ≠ .portReset ∧
    (let t := after (.presenceChange 3) base; t.bay 3 ≠ base.bay 3) ∧
    (let t := after (.sidebandReply [0, 2, 150, 0, 104]) polled
     sensorState t.thc (driveSensor 3) ≠ sensorState polled.thc (driveSensor 3)) ∧
    (let s := lightIn 23 1 15 base; lightsDiffer s.lgt (after .lightSet s).lgt 23 = true) ∧
    (let s := queued3 20 (some 2000) 3 none; (after .staggerExpiry s).pseq.shown ≠ s.pseq.shown) ∧
    (let s := gating .running 19 2 0 0 0; ((after .tachGateExpiry s).fan 7).state ≠ (s.fan 7).state) ∧
    (let t := after (.boardSensorReadEnd 7 (some 3)) quiet
     t.sensor 31 ≠ quiet.sensor 31 ∧ sensorState t.thc 31 ≠ sensorState quiet.thc 31) ∧
    (let s := gating .stalled 19 0 1 0 2; ((after .tachGateExpiry s).zone 3).failedCount ≠ (s.zone 3).failedCount) ∧
    (let s := still { pendingSelect with mem := bankB 900 }
     let t := after .zonePeriodStart s
     (t.zone 2).failsafe ≠ (s.zone 2).failsafe ∧ t.thc.bank ≠ s.thc.bank) ∧
    takeKind .bayPolicy (policyIn 255 3 1) = some 0 ∧ (argByte (policyIn 23 3 1) 0 0).toNat = 23 := by
  refine ⟨⟨rfl, rfl⟩, ?_⟩
  decide +kernel

theorem test_power_on_reset : ((after .powerOnReset (withPins .present base)).bay 3).settlingFrom = some .absent ∧
    (after .powerOnReset base).mem.read 0x1E02 = 1 := by
  decide +kernel

end Sys2Proof.Tests
end

/-! SUPPORT. Orders and their slots: what a completion writes, that what it wrote stays, and which operations leave
the slot table alone. -/

namespace Sys2Proof.Machine

variable {s t : State}

/-- A command answers what holds at the end of its step, after its body. -/
theorem answers_of_body {c : Instr} {P : State → Prop} (h : P (finishStep (body c s))) : Answers c s P :=
  ⟨_, exec_eq c s, h⟩

/-! ### Operations that leave the slot table -/

@[simp] theorem mark_slots (r : MirrorRec) (n : Bool) (s : State) : (mark r n s).exp.slots = s.exp.slots := rfl

@[simp] theorem markIf_slots (c : Bool) (r : MirrorRec) (n : Bool) (s : State) :
    (markIf c r n s).exp.slots = s.exp.slots := by
  cases c <;> rfl

@[simp] theorem updBay_slots (b : Bay) (f : BayRec → BayRec) (s : State) :
    (updBay b f s).exp.slots = s.exp.slots := markIf_slots _ _ _ _

@[simp] theorem pushHistory_slots (b : Bay) (ev : HistEvent) (s : State) :
    (pushHistory b ev s).exp.slots = s.exp.slots := updBay_slots _ _ _

@[simp] theorem updPseq_slots (f : Pseq → Pseq) (s : State) : (updPseq f s).exp.slots = s.exp.slots :=
  markIf_slots _ _ _ _

@[simp] theorem updAccount_slots (f : Account → Account) (s : State) : (updAccount f s).exp.slots = s.exp.slots :=
  updPseq_slots _ _

@[simp] theorem setLgt_slots (l : Lgt) (s : State) : (setLgt l s).exp.slots = s.exp.slots :=
  foldl_keeps (fun s => s.exp.slots) _ (by simp) _ _

@[simp] theorem setSensor_slots (i : SensorId) (x : Thc) (s : State) : (setSensor i x s).exp.slots = s.exp.slots := by
  unfold setSensor reportSensorState
  split <;> simp

@[simp] theorem handThermal_slots (b : Bay) (s : State) : (handThermal b s).exp.slots = s.exp.slots := by
  have fact : ∀ on, (setActiveFact b on s).exp.slots = s.exp.slots := fun on => by
    unfold setActiveFact
    (repeat' split) <;> simp
  unfold handThermal setStartingFact
  split <;> exact fact _

@[simp] theorem handLights_slots (b : Bay) (s : State) : (handLights b s).exp.slots = s.exp.slots := by
  unfold handLights
  (repeat' split) <;> simp

@[simp] theorem turnBay_slots (b : Bay) (j : Option QEntry) (f : BayRec → BayRec) (s : State) :
    (turnBay b j f s).exp.slots = s.exp.slots := by simp [turnBay]

@[simp] theorem dropEntry_slots (b : Bay) (s : State) : (dropEntry b s).exp.slots = s.exp.slots := updPseq_slots _ _

@[simp] theorem writeRecord_slots (r : MirrorRec) (n : Bool) (s : State) :
    (writeRecord r n s).exp.slots = s.exp.slots := rfl

@[simp] theorem settleThaw_slots (s : State) : (settleThaw s).exp.slots = s.exp.slots := by
  unfold settleThaw
  split <;> rfl

@[simp] theorem writeStepRecord_slots (s : State) (r : MirrorRec) :
    (writeStepRecord s r).exp.slots = s.exp.slots := by
  unfold writeStepRecord
  split <;> simp

/-- The end of a step leaves the slot table. -/
@[simp] theorem finishStep_slots (s : State) : (finishStep s).exp.slots = s.exp.slots := by
  have h := foldl_keeps (fun s : State => s.exp.slots) writeStepRecord writeStepRecord_slots s.exp.stepMarks s
  unfold finishStep
  dsimp only
  split
  · exact h
  · rfl

theorem slot_of_slots (h : t.exp.slots = s.exp.slots) (n : SlotId) : t.slot n = s.slot n := by simp [State.slot, h]

/-! ### A completion, and what becomes of it -/

/-- A completion changes the slot it completes, and that one only if it is TAKEN (R156). -/
theorem slot_complete (n m : SlotId) (r : Result) (d : List Byte) (s : State) :
    (complete n r d s).slot m
      = if m = n ∧ (s.slot n).state = .taken then { s.slot n with state := .done } else s.slot m := by
  unfold complete
  by_cases h : (s.slot n).state = .taken
  · rw [if_pos h]
    simp only [h, and_true]
    exact getFin_set _ _ _ _
  · simp [h]

/-- The result areas of two slots lie apart (section 10.3). -/
theorem resultBase_apart {n m : SlotId} (h : n ≠ m) :
    resultBase n + 64 ≤ resultBase m ∨ resultBase m + 64 ≤ resultBase n := by
  have : n.val ≠ m.val := fun e => h (Fin.ext e)
  unfold resultBase slotBase
  omega

/-- The completion of a TAKEN slot (R156). -/
theorem completed_complete {n : SlotId} (hw : s.mem.wf = true) (h : (s.slot n).state = .taken) (r : Result)
    (d : List Byte) : Completed (complete n r d s) n r (s.slot n).tag s.clock.uptime d := by
  refine ⟨by rw [slot_complete, if_pos ⟨rfl, h⟩], ?_⟩
  have hlen := resultArea_length r (s.slot n).tag s.clock.uptime d
  have hrange := resultBase_range n
  have := Memory.readBytes_writeBytes (l := resultArea r (s.slot n).tag s.clock.uptime d) hw
    (a := resultBase n) (by rw [hlen]; simp only [Memory.size]; omega)
  rw [hlen] at this
  unfold complete
  rw [if_pos h]
  exact this

/-- A completion stays while the slot is DONE and its result area reads the same. -/
theorem Completed.of_same {n : SlotId} {r : Result} {tag : Half} {u : Word} {d : List Byte}
    (h : Completed s n r tag u d) (hslot : t.slot n = s.slot n)
    (hmem : ∀ x, resultBase n ≤ x → x < resultBase n + 64 → t.mem.read x = s.mem.read x) :
    Completed t n r tag u d :=
  ⟨by rw [hslot]; exact h.done, (Memory.readBytes_congr hmem).trans h.area⟩

/-- Completing another slot, or one that is DONE already, leaves a completion. -/
theorem Completed.complete {n : SlotId} {r : Result} {tag : Half} {u : Word} {d : List Byte}
    (h : Completed s n r tag u d) (hw : s.mem.wf = true) (m : SlotId) (r' : Result) (d' : List Byte) :
    Completed (complete m r' d' s) n r tag u d := by
  by_cases hm : (s.slot m).state = .taken
  · have hne : n ≠ m := by
      rintro rfl
      simp [h.done] at hm
    refine h.of_same (by rw [slot_complete, if_neg (fun e => hne e.1)]) fun x hx hx' => ?_
    have hrange := resultBase_range m
    have hapart := resultBase_apart hne
    unfold Machine.complete
    rw [if_pos hm]
    refine Memory.read_writeBytes_outside hw ?_ ?_
    · rw [resultArea_length]; simp only [Memory.size]; omega
    · rw [resultArea_length]; omega
  · unfold Machine.complete
    rwa [if_neg hm]

/-- What a completion wrote, every further change of the step leaves: no order completes twice (R156), and a take
concerns a POSTED slot (R155). -/
theorem Changes.completed {n : SlotId} {r : Result} {tag : Half} {u : Word} {d : List Byte} (h : Changes s t)
    (hw : s.mem.wf = true) (hc : Completed s n r tag u d) : Completed t n r tag u d := by
  induction h with
  | refl => exact hc
  | complete m r' d' h ih => exact ih.complete (h.written hw).wf m r' d'
  | takeSlot m _ hp ih =>
    refine ih.of_same ?_ fun _ _ _ => rfl
    rw [slot_takeSlot, if_neg]
    rintro rfl
    simp [ih.done] at hp
  | turn b j f _ _ ih => exact ih.of_same (slot_of_slots (turnBay_slots b j f _) n) fun _ _ _ => by simp
  | drop b _ _ ih => exact ih.of_same (slot_of_slots (dropEntry_slots b _) n) fun _ _ _ => by simp
  | mark _ _ _ ih | histPending _ _ ih | timers _ _ _ ih | settings _ _ _ _ ih | record _ _ _ _ ih | pseq _ _ _ ih
  | sbe _ _ _ ih | thc _ _ _ ih | fanu _ _ _ ih | lgt _ _ _ ih | pins _ _ ih | clock _ _ ih | free _ _ ih =>
    exact ih.of_same rfl fun _ _ _ => rfl

/-- The end of a step writes the mirror and the history only, so a completion stays (R156, R176). -/
theorem Completed.finishStep {n : SlotId} {r : Result} {tag : Half} {u : Word} {d : List Byte}
    (h : Completed s n r tag u d) (hw : s.mem.wf = true) : Completed (finishStep s) n r tag u d := by
  have hrange := resultBase_range n
  refine h.of_same (slot_of_slots (finishStep_slots s) n) fun x hx hx' => ?_
  refine (finishStep_written s hw).same x fun hm => ?_
  rcases hm with hm | hm <;> omega

/-- A completion within a step's body shows at the end of the step. -/
theorem Changes.completed_finishStep {n : SlotId} {r : Result} {tag : Half} {u : Word} {d : List Byte}
    (h : Changes s t) (hw : s.mem.wf = true) (hc : Completed s n r tag u d) :
    Completed (Machine.finishStep t) n r tag u d :=
  (h.completed hw hc).finishStep (h.written hw).wf

end Sys2Proof.Machine

/-! SUPPORT. A bay's change of state on its own: what it leaves when the bay does not come to EMPTY, when the sideband
hears nothing of it, and an admission evaluation as a whole. -/

namespace Sys2Proof.Machine

variable {s t : State}

/-! ### Bay records and power paths through the operations that leave them -/

@[simp] theorem bay_updPath (b d : Bay) (f : Path → Path) (s : State) : (updPath b f s).bay d = s.bay d := rfl

@[simp] theorem bay_updAccount (f : Account → Account) (s : State) (d : Bay) : (updAccount f s).bay d = s.bay d :=
  bay_of_bmon (updAccount_keeps f s).2.1 d

@[simp] theorem bay_completeOpt (o : Option SlotId) (r : Result) (l : List Byte) (s : State) (d : Bay) :
    (completeOpt o r l s).bay d = s.bay d := bay_of_bmon (completeOpt_keeps o r l s).2.1 d

@[simp] theorem bay_finishStep (s : State) (d : Bay) : (finishStep s).bay d = s.bay d :=
  bay_of_bmon (finishStep_keeps s).2.1 d

@[simp] theorem path_finishStep (s : State) (d : Bay) : (finishStep s).path d = s.path d := by simp [State.path]

@[simp] theorem path_moveBay (b d : Bay) (f : BayRec → BayRec) (s : State) : (moveBay b f s).path d = s.path d := by
  simp [State.path]

@[simp] theorem path_pushHistory (b d : Bay) (ev : HistEvent) (s : State) :
    (pushHistory b ev s).path d = s.path d := by
  simp [State.path]

@[simp] theorem path_completeOpt (o : Option SlotId) (r : Result) (l : List Byte) (s : State) (d : Bay) :
    (completeOpt o r l s).path d = s.path d := by
  simp [State.path]

/-! ### One bay's change -/

@[simp] theorem BayRec.enter_fields (r : BayRec) (st : BayState) :
    (r.enter st).state = st ∧ (r.enter st).stopPhase = none ∧ (r.enter st).settlingFrom = none ∧
    (r.enter st).faultCause = none ∧ (r.enter st).replugCount = r.replugCount ∧
    (r.enter st).driveClass = r.driveClass ∧ (r.enter st).unrecognised = r.unrecognised ∧
    (r.enter st).identity = r.identity ∧ (r.enter st).healthWarn = r.healthWarn ∧
    (r.enter st).lastGood = r.lastGood ∧ (r.enter st).charge = r.charge ∧ (r.enter st).policy = r.policy ∧
    (r.enter st).powerOrder = r.powerOrder ∧ (r.enter st).ring = r.ring ∧ (r.enter st).head = r.head ∧
    (r.enter st).nextSeq = r.nextSeq := by simp [BayRec.enter]

/-- The sideband hears of no change of a bay that neither enters nor leaves ACTIVE, nor enters EMPTY (R22). -/
theorem handSideband_quiet (b : Bay) (before : BayState) (s : State) (h : before ≠ .active)
    (h' : (s.bay b).state ≠ .active) (he : (s.bay b).state ≠ .empty) : handSideband b before s = s := by
  simp [handSideband, h, h', he]

/-- A bay that comes to no EMPTY has no query dropped: no slot and no byte of memory changes (R22, R80). -/
theorem handSideband_orders (b : Bay) (before : BayState) (s : State) (he : (s.bay b).state ≠ .empty) :
    (handSideband b before s).exp = s.exp ∧ (handSideband b before s).mem = s.mem := by
  unfold handSideband
  simp only [he, and_false, if_false]
  (repeat' split) <;> simp

/-- The bay's record when its neighbours are told of a change. -/
theorem bay_handed (j : Option QEntry) (b : Bay) (f : BayRec → BayRec) (s : State) :
    (handLights b (handThermal b (turnBay b j f s))).bay b = f (s.bay b) := by
  rw [bay_of_bmon (handLights_keeps b _).2.1, bay_of_bmon (handThermal_keeps b _).2.1, bay_turnBay, if_pos rfl]

theorem moveBayWith_slots (j : Option QEntry) (b : Bay) (f : BayRec → BayRec) (s : State)
    (he : (f (s.bay b)).state ≠ .empty) : (moveBayWith j b f s).exp.slots = s.exp.slots := by
  unfold moveBayWith
  rw [(handSideband_orders b _ _ (by rwa [bay_handed])).1]
  simp

theorem moveBayWith_mem (j : Option QEntry) (b : Bay) (f : BayRec → BayRec) (s : State)
    (he : (f (s.bay b)).state ≠ .empty) : (moveBayWith j b f s).mem = s.mem := by
  unfold moveBayWith
  rw [(handSideband_orders b _ _ (by rwa [bay_handed])).2]
  simp

theorem moveBayWith_sbe (j : Option QEntry) (b : Bay) (f : BayRec → BayRec) (s : State)
    (h : (s.bay b).state ≠ .active) (h' : (f (s.bay b)).state ≠ .active) (he : (f (s.bay b)).state ≠ .empty) :
    (moveBayWith j b f s).sbe = s.sbe := by
  unfold moveBayWith
  rw [handSideband_quiet b _ _ h (by rwa [bay_handed]) (by rwa [bay_handed])]
  simp

/-- A bay whose new state is not QUEUED has no entry left (R30). -/
theorem mem_queuedBays_moveBay {b d : Bay} {f : BayRec → BayRec} :
    d ∈ queuedBays (moveBay b f s).pseq →
      d ∈ queuedBays s.pseq ∧ ((f (s.bay b)).state ≠ .queued → d ≠ b) := by
  rw [moveBay_pseq]
  by_cases h : (f (s.bay b)).state = .queued
  · simp [queuedBays_eq, Pseq.follow, classAfter, h]
  · have hp : queuedBays (s.pseq.follow b none (s.bay b) (f (s.bay b))) = (queuedBays s.pseq).filter fun d => d ≠ b := by
      rw [← filtered_bays]
      simp [Pseq.follow, classAfter, h, queuedBays, queueView]
    rw [hp]
    simp [h]

/-! ### What concerns one bay only -/

/-- `t` is `s` but for bay `b`'s record and power path, the account, and entries that have left the queue; the
sideband, the orders, the memory and the timers of BMON stand as they did. -/
structure OnlyBay (b : Bay) (s t : State) : Prop where
  slots : t.exp.slots = s.exp.slots
  mem : t.mem = s.mem
  sbe : t.sbe = s.sbe
  debounce : t.bmon.debounce = s.bmon.debounce
  replug : t.bmon.replug = s.bmon.replug
  queue : ∀ d ∈ queuedBays t.pseq, d ∈ queuedBays s.pseq
  others : ∀ d, d ≠ b → BaySame s t d

theorem BaySame.trans {u : State} {d : Bay} (h : BaySame s t d) (h' : BaySame t u d) : BaySame s u d :=
  ⟨h'.1.trans h.1, h'.2.trans h.2⟩

theorem OnlyBay.refl (b : Bay) (s : State) : OnlyBay b s s :=
  ⟨rfl, rfl, rfl, rfl, rfl, fun _ h => h, fun _ _ => ⟨rfl, rfl⟩⟩

theorem OnlyBay.trans {b : Bay} {u : State} (h : OnlyBay b s t) (h' : OnlyBay b t u) : OnlyBay b s u :=
  ⟨h'.slots.trans h.slots, h'.mem.trans h.mem, h'.sbe.trans h.sbe, h'.debounce.trans h.debounce,
    h'.replug.trans h.replug, fun d hd => h.queue d (h'.queue d hd), fun d hd => (h.others d hd).trans (h'.others d hd)⟩

theorem BaySame.of_bmon_paths (hb : t.bmon = s.bmon) (hp : t.pseq.paths = s.pseq.paths) (d : Bay) : BaySame s t d :=
  ⟨bay_of_bmon hb d, by simp [State.path, hp]⟩

theorem OnlyBay.updAccount (b : Bay) (f : Account → Account) (s : State) : OnlyBay b s (updAccount f s) :=
  ⟨by simp, by simp, by simp, by simp, by simp, by simp [queuedBays_eq],
    fun d _ => BaySame.of_bmon_paths (by simp) (by simp) d⟩

theorem OnlyBay.updPath (b : Bay) (f : Path → Path) (s : State) : OnlyBay b s (updPath b f s) :=
  ⟨rfl, rfl, rfl, rfl, rfl, fun _ h => h, fun d hd => ⟨rfl, by rw [path_updPath, if_neg hd]⟩⟩

theorem OnlyBay.dropEntry (b : Bay) (s : State) : OnlyBay b s (dropEntry b s) := by
  refine ⟨by simp, by simp, by simp, by simp, by simp, fun d hd => ?_,
    fun d _ => BaySame.of_bmon_paths (by simp) (by simp) d⟩
  rw [dropEntry_pseq, filtered_bays] at hd
  exact List.mem_of_mem_filter hd

theorem OnlyBay.pushHistory (b : Bay) (ev : HistEvent) (s : State) : OnlyBay b s (pushHistory b ev s) := by
  refine ⟨by simp, by simp, by simp, by simp, by simp, by simp, fun d hd => ⟨?_, by simp [State.path]⟩⟩
  rw [bay_pushHistory, if_neg hd]

theorem OnlyBay.moveBay {b : Bay} {f : BayRec → BayRec} (h : (s.bay b).state ≠ .active)
    (h' : (f (s.bay b)).state ≠ .active) (he : (f (s.bay b)).state ≠ .empty) : OnlyBay b s (moveBay b f s) := by
  refine ⟨moveBayWith_slots _ _ _ _ he, moveBayWith_mem _ _ _ _ he, moveBayWith_sbe _ _ _ _ h h' he, by simp, by simp,
    fun d hd => (mem_queuedBays_moveBay hd).1, fun d hd => ⟨?_, by simp [State.path]⟩⟩
  rw [bay_moveBay, if_neg hd]

/-- A report that BMON acts on outside ACTIVE and EMPTY (R2). -/
theorem OnlyBay.report {b : Bay} {acts : BayRec → Bool} {f : BayRec → BayRec} (events : List HistEvent)
    (h : (s.bay b).state ≠ .active) (h' : (f (s.bay b)).state ≠ .active) (he : (f (s.bay b)).state ≠ .empty) :
    OnlyBay b s (report b acts f events s) := by
  have pushes : ∀ (l : List HistEvent) (u : State), OnlyBay b u (l.foldl (fun s ev => Machine.pushHistory b ev s) u) := by
    intro l
    induction l with
    | nil => exact OnlyBay.refl b
    | cons ev rest ih => exact fun u => (OnlyBay.pushHistory b ev u).trans (ih _)
  unfold Machine.report
  split
  · exact (OnlyBay.moveBay h h' he).trans (pushes events _)
  · exact OnlyBay.refl b s

/-! ### An admission (R36, R48, R51) -/

/-- A bay's record as its power-up goes on. -/
structure Starts (r r' : BayRec) : Prop where
  state : r'.state.starting = true
  settles : r'.settlingFrom = none
  kept : BayKept r r'

theorem attemptGood_onlyBay {b : Bay} (h : (s.bay b).state = .ramping) : OnlyBay b s (attemptGood b s) := by
  unfold attemptGood
  split
  · exact OnlyBay.refl b s
  · refine ((OnlyBay.updPath b _ s).trans (OnlyBay.report _ ?_ ?_ ?_)).trans (OnlyBay.updPath b _ _)
    · exact fun e => by cases h.symm.trans e
    · simp
    · simp

theorem BayKept.refl (r : BayRec) : BayKept r r := ⟨rfl, ⟨rfl, rfl, rfl⟩, rfl, rfl, rfl⟩

/-- An attempt that ends GOOD takes a bay in RAMPING to SPINNING; without a ladder it stays in RAMPING (R51). -/
theorem attemptGood_starts {b : Bay} (h : (s.bay b).state = .ramping) (hs : (s.bay b).settlingFrom = none) :
    Starts (s.bay b) ((attemptGood b s).bay b) := by
  unfold attemptGood
  split
  · exact ⟨by rw [h]; rfl, hs, BayKept.refl _⟩
  · rw [bay_of_bmon (updPath_keeps b _ _).2.1, bay_report, if_pos ⟨rfl, decide_eq_true h⟩]
    exact ⟨by simp [BayState.starting], by simp, by simp, by simp, by simp, by simp, by simp⟩

theorem attemptBegin_onlyBay {b : Bay} (h : (s.bay b).state = .ramping) : OnlyBay b s (attemptBegin b s) := by
  unfold attemptBegin
  split
  · exact OnlyBay.refl b s
  · dsimp only
    split
    · exact (OnlyBay.updPath b _ s).trans (attemptGood_onlyBay h)
    · exact OnlyBay.updPath b _ s

theorem attemptBegin_starts {b : Bay} (h : (s.bay b).state = .ramping) (hs : (s.bay b).settlingFrom = none) :
    Starts (s.bay b) ((attemptBegin b s).bay b) := by
  unfold attemptBegin
  split
  · exact ⟨by rw [h]; rfl, hs, BayKept.refl _⟩
  · rename_i l _
    dsimp only
    split
    · exact attemptGood_starts (s := updPath b (fun p => p.begin l) s) h hs
    · exact ⟨by rw [bay_of_bmon (updPath_keeps b _ _).2.1, h]; rfl, hs, BayKept.refl _⟩

/-- A QUEUED bay's admission concerns that bay only, and the bay starts (R36). -/
theorem admitEntry_queued {e : QEntry} (h : (s.bay e.bay).state = .queued) :
    OnlyBay e.bay s (admitEntry e s) ∧ Starts (s.bay e.bay) ((admitEntry e s).bay e.bay) := by
  unfold admitEntry
  rw [if_pos h]
  generalize hu : updAccount (fun a => { a with staggerTimer := staggerStart a.settings.stagger, sinceAdmission := some 0 }) s = u
  have huo : OnlyBay e.bay s u := hu ▸ OnlyBay.updAccount e.bay _ s
  have hub : u.bay e.bay = s.bay e.bay := by rw [← hu]; exact bay_of_bmon (by simp) _
  generalize hv : report e.bay (fun r => decide (r.state = .queued))
    (fun r => { r.enter .ramping with charge := some ⟨pairNow s e.bay, .inrush⟩ }) [.admitted e.cls] u = v
  have hvo : OnlyBay e.bay u v := hv ▸ OnlyBay.report _ (by rw [hub, h]; simp) (by simp) (by simp)
  have hvb : v.bay e.bay = BayRec.pushedAll { (s.bay e.bay).enter .ramping with charge := some ⟨pairNow s e.bay, .inrush⟩ }
      [.admitted e.cls] u.clock.uptime := by
    rw [← hv, bay_report, if_pos ⟨rfl, by rw [hub]; exact decide_eq_true h⟩, hub]
  generalize hw : updPath e.bay _ v = w
  have hwo : OnlyBay e.bay v w := hw ▸ OnlyBay.updPath _ _ _
  have hwb : w.bay e.bay = v.bay e.bay := by rw [← hw]; rfl
  have hramp : (w.bay e.bay).state = .ramping := by rw [hwb, hvb]; simp
  have hstart := attemptBegin_starts hramp (by rw [hwb, hvb]; simp)
  refine ⟨((huo.trans hvo).trans hwo).trans (attemptBegin_onlyBay hramp), hstart.state, hstart.settles, ?_⟩
  obtain ⟨h1, ⟨h2, h3, h4⟩, h5, h6, h7⟩ := hstart.kept
  rw [hwb, hvb] at h1 h2 h3 h4 h5 h6 h7
  exact ⟨by simpa using h1, ⟨by simpa using h2, by simpa using h3, by simpa using h4⟩, by simpa using h5,
    by simpa using h6, by simpa using h7⟩

/-! ### An admission evaluation (R33, R35) -/

/-- What admissions do: each bay is the same, or it was QUEUED and starts; entries only leave the queue; the sideband,
the orders, the memory and the timers of BMON stand as they did. -/
structure Admissions (s t : State) : Prop where
  slots : t.exp.slots = s.exp.slots
  mem : t.mem = s.mem
  sbe : t.sbe = s.sbe
  debounce : t.bmon.debounce = s.bmon.debounce
  replug : t.bmon.replug = s.bmon.replug
  queue : ∀ d ∈ queuedBays t.pseq, d ∈ queuedBays s.pseq
  bays : ∀ d, BaySame s t d ∨ ((s.bay d).state = .queued ∧ Starts (s.bay d) (t.bay d))

theorem Admissions.refl (s : State) : Admissions s s :=
  ⟨rfl, rfl, rfl, rfl, rfl, fun _ h => h, fun _ => Or.inl ⟨rfl, rfl⟩⟩

/-- A bay that starts is not QUEUED. -/
theorem Starts.not_queued {r r' : BayRec} (h : Starts r r') : r'.state ≠ .queued := fun e => by
  have := h.state
  simp [e, BayState.starting] at this

theorem Admissions.trans {u : State} (h : Admissions s t) (h' : Admissions t u) : Admissions s u := by
  refine ⟨h'.slots.trans h.slots, h'.mem.trans h.mem, h'.sbe.trans h.sbe, h'.debounce.trans h.debounce,
    h'.replug.trans h.replug, fun d hd => h.queue d (h'.queue d hd), fun d => ?_⟩
  rcases h.bays d with hd | ⟨hq, hst⟩
  · rcases h'.bays d with hd' | ⟨hq', hst'⟩
    · exact Or.inl (hd.trans hd')
    · exact Or.inr ⟨hd.1 ▸ hq', hd.1 ▸ hst'⟩
  · rcases h'.bays d with hd' | ⟨hq', _⟩
    · exact Or.inr ⟨hq, hd'.1 ▸ hst⟩
    · exact absurd hq' hst.not_queued

theorem OnlyBay.admissions {b : Bay} (h : OnlyBay b s t)
    (hb : BaySame s t b ∨ ((s.bay b).state = .queued ∧ Starts (s.bay b) (t.bay b))) : Admissions s t := by
  refine ⟨h.slots, h.mem, h.sbe, h.debounce, h.replug, h.queue, fun d => ?_⟩
  by_cases hd : d = b
  · exact hd ▸ hb
  · exact Or.inl (h.others d hd)

theorem Admissions.admitEntry (e : QEntry) (s : State) : Admissions s (admitEntry e s) := by
  by_cases h : (s.bay e.bay).state = .queued
  · obtain ⟨honly, hstart⟩ := admitEntry_queued h
    exact honly.admissions (Or.inr ⟨h, hstart⟩)
  · unfold Machine.admitEntry
    rw [if_neg h]
    exact (OnlyBay.dropEntry e.bay s).admissions (Or.inl (BaySame.of_bmon_paths (by simp) (by simp) _))

theorem Admissions.admitWhileFits (n : Nat) (s : State) : Admissions s (admitWhileFits n s) := by
  induction n generalizing s with
  | zero => exact Admissions.refl s
  | succ n ih =>
    unfold Machine.admitWhileFits
    split
    · exact Admissions.refl s
    · split
      · exact (Admissions.admitEntry _ s).trans (ih _)
      · exact Admissions.refl s

/-- The blocked reason is the account's; nothing else follows from it (R37). -/
theorem Admissions.updateBlocked (s : State) : Admissions s (updateBlocked s) := by
  have h : ∀ a, Admissions s (updAccount a s) := fun a =>
    (OnlyBay.updAccount 0 a s).admissions (Or.inl (BaySame.of_bmon_paths (by simp) (by simp) _))
  unfold Machine.updateBlocked
  dsimp only
  split
  · obtain ⟨h1, h2, h3, h4, h5, h6, h7⟩ := h (fun a => { a with blocked := blockedReason s })
    exact ⟨h1, h2, h3, h4, h5, h6, h7⟩
  · exact h _

/-- What an admission evaluation does (R33, R35). -/
theorem Admissions.evaluate (s : State) : Admissions s (evaluate s) :=
  (Admissions.admitWhileFits _ s).trans (Admissions.updateBlocked _)

/-- A bay that is not QUEUED is untouched by admissions. -/
theorem Admissions.own (h : Admissions s t) {d : Bay} (hd : (s.bay d).state ≠ .queued) : BaySame s t d :=
  (h.bays d).resolve_right fun e => hd e.1

/-- Where only bay `b` has changed before the admissions, every other bay is the same or has been admitted. -/
theorem Admissions.othersKept {b : Bay} {u : State} (h : ∀ d, d ≠ b → BaySame s t d) (h' : Admissions t u) :
    OthersKept (· = b) s u := by
  intro d hd
  rcases h'.bays d with hs | ⟨hq, hst⟩
  · exact Or.inl ((h d hd).trans hs)
  · rw [(h d hd).1] at hq hst
    exact Or.inr ⟨hq, hst.state, hst.kept⟩

end Sys2Proof.Machine

/-! Settles the two orders on bay records that need no admission: BAY POLICY (O27) and CLEAR FAULT (O28). -/

namespace Sys2Proof.Machine

variable {s t : State}

/-! ### A take and its completion (R155, R156) -/

theorem take_of_takeKind {k : Kind} {n : SlotId} (act : SlotId → State → State) (h : takeKind k s = some n) :
    take k act s = act n (takeSlot n s) := by
  unfold take
  rw [h]

/-- An order taken in `s` and completed in `t`, where the slots and the memory are still those of its take. -/
theorem takeCompleted_complete {n : SlotId} (hw : s.mem.wf = true) (hslots : t.exp.slots = (takeSlot n s).exp.slots)
    (hmem : t.mem = s.mem) (hclock : t.clock = s.clock) (r : Result) (d : List Byte) :
    TakeCompleted s (finishStep (complete n r d t)) n r d := by
  have hslot : t.slot n = ⟨.taken, orderKind s n, orderTag s n⟩ := by
    rw [slot_of_slots hslots, slot_takeSlot, if_pos rfl]
  have hwt : t.mem.wf = true := hmem ▸ hw
  have h := completed_complete hwt (by rw [hslot]) r d
  rw [hslot, hclock] at h
  exact h.finishStep (complete_written n r d t hwt).wf

/-! ### BAY POLICY (R18) -/

theorem baysOf_none {b : Byte} (h : 24 ≤ b.toNat) (h' : b ≠ 255) : baysOf b = none := by
  unfold baysOf bayOf
  rw [if_neg h', dif_neg (Nat.not_lt.mpr h), Option.map_none]

/-- A bay byte of 0 to 23 or 255 names one bay or all. -/
theorem baysOf_some {b : Byte} (h : b.toNat < 24 ∨ b = 255) :
    ∃ l, baysOf b = some l ∧ ∀ d : Bay, d ∈ l ↔ b = 255 ∨ d.val = b.toNat := by
  by_cases hb : b = 255
  · exact ⟨List.finRange 24, by simp [baysOf, hb], fun d => by simp [hb]⟩
  · have hlt := h.resolve_right hb
    refine ⟨[⟨b.toNat, hlt⟩], ?_, fun d => ?_⟩
    · unfold baysOf bayOf
      rw [if_neg hb, dif_pos hlt, Option.map_some]
    · rw [List.mem_singleton, Fin.ext_iff]
      exact (or_iff_right hb).symm

theorem levelOfByte_some {b : Byte} (h : b.toNat < 4) : levelOfByte b = some (Fin.ofNat 4 b.toNat) := by
  simp only [levelOfByte, h, dif_pos, Option.some.injEq, Fin.ext_iff, Fin.ofNat]
  omega

theorem levelOfByte_none {b : Byte} (h : 4 ≤ b.toNat) : levelOfByte b = none := by
  simp [levelOfByte, Nat.not_lt.mpr h]

theorem writePolicy_slots (p : Policy) (s : State) (b : Bay) : (writePolicy p s b).exp.slots = s.exp.slots := by
  simp [writePolicy]

theorem bay_writePolicy (p : Policy) (s : State) (b d : Bay) :
    (writePolicy p s b).bay d = if d = b then { s.bay b with policy := p } else s.bay d :=
  bay_updBay b d _ s

theorem bay_writePolicies (p : Policy) (l : List Bay) (s : State) (d : Bay) :
    (l.foldl (writePolicy p) s).bay d = if d ∈ l then { s.bay d with policy := p } else s.bay d := by
  induction l generalizing s with
  | nil => simp
  | cons b rest ih =>
    rw [List.foldl_cons, ih, bay_writePolicy]
    by_cases hd : d = b
    · subst hd
      simp
    · simp [hd]

/-- The blocks a policy order leaves: every one but BMON and EXP. -/
theorem writePolicies_keeps (p : Policy) (l : List Bay) (s : State) :
    (l.foldl (writePolicy p) s).exp.slots = s.exp.slots ∧ (l.foldl (writePolicy p) s).mem = s.mem ∧
    (l.foldl (writePolicy p) s).clock = s.clock :=
  ⟨foldl_keeps (fun s => s.exp.slots) _ (writePolicy_slots p) _ _, foldl_keeps (fun s => s.mem) _ (by simp) _ _,
    foldl_keeps (fun s => s.clock) _ (by simp) _ _⟩

/-- The tests of R18 in their order: the bay, the start level, the mask. -/
theorem policyOrder_badBay {n : SlotId} (h : baysOf (argByte s n 0) = none) :
    policyOrder n s = complete n .badArg [argByte s n 0, 0xFF, 0] s := by
  unfold policyOrder
  dsimp only
  rw [h]

theorem policyOrder_badLevel {n : SlotId} {l : List Bay} (h : baysOf (argByte s n 0) = some l)
    (h' : levelOfByte (argByte s n 3) = none) :
    policyOrder n s = complete n .badArg [argByte s n 0, 0xFF, 1] s := by
  unfold policyOrder
  dsimp only
  rw [h, h']

theorem policyOrder_badMask {n : SlotId} {l : List Bay} {start : Level} (h : baysOf (argByte s n 0) = some l)
    (h' : levelOfByte (argByte s n 3) = some start) (hm : (policyOf s n start).levelMask = 0) :
    policyOrder n s = complete n .badArg [argByte s n 0, 0xFF, 2] s := by
  unfold policyOrder
  dsimp only
  rw [h, h']
  exact if_pos hm

/-- A policy that passes the tests is written into every bay named (R18). -/
theorem policyOrder_accepted {n : SlotId} {l : List Bay} {start : Level} (h : baysOf (argByte s n 0) = some l)
    (h' : levelOfByte (argByte s n 3) = some start) (hm : (policyOf s n start).levelMask ≠ 0) :
    policyOrder n s = complete n .ok [argByte s n 0, byte (policyOf s n start).shedTemp]
      (l.foldl (writePolicy (policyOf s n start)) s) := by
  unfold policyOrder
  dsimp only
  rw [h, h']
  exact if_neg hm

/-- Settles O27: the three tests in their order, and the policy written bay by bay. -/
theorem policyOrderWritesThePolicies : Obligations.PolicyOrderWritesThePolicies := by
  intro s n ⟨⟨hw, _⟩, hk⟩
  refine answers_of_body ?_
  rw [show body .bayPolicy s = policyOrder n (takeSlot n s) from take_of_takeKind policyOrder hk]
  have refused : ∀ d, policyOrder n (takeSlot n s) = complete n .badArg d (takeSlot n s) →
      TakeCompleted s (finishStep (policyOrder n (takeSlot n s))) n .badArg d ∧
        (finishStep (policyOrder n (takeSlot n s))).bmon = s.bmon := by
    intro d h
    rw [h]
    exact ⟨takeCompleted_complete hw rfl rfl rfl _ _, by simp⟩
  refine ⟨fun hb hl hm => ?_, fun hb hb' => refused _ ?_, fun hb hl => refused _ ?_, fun hb hl hm => refused _ ?_,
    by simp⟩
  · obtain ⟨l, hbays, hmem⟩ := baysOf_some hb
    rw [policyOrder_accepted (s := takeSlot n s) hbays (levelOfByte_some hl) hm]
    obtain ⟨hslots, hmem', hclock⟩ := writePolicies_keeps (policyOf s n (Fin.ofNat 4 (argByte s n 3).toNat)) l (takeSlot n s)
    refine ⟨takeCompleted_complete hw hslots hmem' hclock _ _, fun d => ?_⟩
    rw [bay_finishStep, bay_complete]
    exact (bay_writePolicies _ l (takeSlot n s) d).trans (if_congr (hmem d) rfl rfl)
  · exact policyOrder_badBay (baysOf_none hb hb')
  · obtain ⟨l, hbays, _⟩ := baysOf_some hb
    exact policyOrder_badLevel hbays (levelOfByte_none hl)
  · obtain ⟨l, hbays, _⟩ := baysOf_some hb
    exact policyOrder_badMask hbays (levelOfByte_some hl) hm

/-! ### CLEAR FAULT (R14) -/

/-- A record in FAULT after its CLEAR FAULT (R14). -/
def BayRec.cleared (r : BayRec) (stamp : Word) : BayRec := (r.enter .off).pushed (.cleared r.faultCause) stamp

theorem BayRec.cleared_state (r : BayRec) (w : Word) : (r.cleared w).state = .off := rfl

theorem BayRec.cleared_kept (r : BayRec) (w : Word) : BayKept r (r.cleared w) := ⟨rfl, ⟨rfl, rfl, rfl⟩, rfl, rfl, rfl⟩

theorem clearBay_orders (s : State) (b : Bay) :
    (clearBay s b).exp.slots = s.exp.slots ∧ (clearBay s b).mem = s.mem := by
  unfold clearBay
  split
  · rw [pushHistory_slots, (pushHistory_keeps b _ _).2.2.2.2.2.2.1]
    exact ⟨moveBayWith_slots none b _ s (by simp), moveBayWith_mem none b _ s (by simp)⟩
  · exact ⟨rfl, rfl⟩

theorem bay_clearBay (s : State) (b d : Bay) :
    (clearBay s b).bay d = if d = b ∧ (s.bay b).state = .fault then (s.bay b).cleared s.clock.uptime else s.bay d := by
  unfold clearBay
  by_cases h : (s.bay b).state = .fault
  · rw [if_pos h, bay_pushHistory, bay_moveBay, bay_moveBay]
    by_cases hd : d = b <;> simp [hd, h, BayRec.cleared]
  · simp [h]

theorem bay_clearBays (l : List Bay) (s : State) (d : Bay) :
    (l.foldl clearBay s).bay d
      = if d ∈ l ∧ (s.bay d).state = .fault then (s.bay d).cleared s.clock.uptime else s.bay d := by
  induction l generalizing s with
  | nil => simp
  | cons b rest ih =>
    have hc : (clearBay s b).clock = s.clock := by simp
    rw [List.foldl_cons, ih, bay_clearBay, hc]
    by_cases hd : d = b
    · subst hd
      by_cases hf : (s.bay d).state = .fault
      · simp [hf, BayRec.cleared_state]
      · simp [hf]
    · simp [hd]

theorem clearBays_keeps (l : List Bay) (s : State) :
    (l.foldl clearBay s).exp.slots = s.exp.slots ∧ (l.foldl clearBay s).mem = s.mem ∧
    (l.foldl clearBay s).clock = s.clock :=
  ⟨foldl_keeps (fun s => s.exp.slots) _ (fun s b => (clearBay_orders s b).1) _ _,
    foldl_keeps (fun s => s.mem) _ (fun s b => (clearBay_orders s b).2) _ _, foldl_keeps (fun s => s.clock) _ (by simp) _ _⟩

theorem bayOf_val (b : Bay) {c : Byte} (h : b.val = c.toNat) : bayOf c = some b := by
  have hlt : c.toNat < 24 := h ▸ b.isLt
  unfold bayOf
  rw [dif_pos hlt, Option.some.injEq, Fin.ext_iff]
  exact h.symm

theorem bayOf_none {c : Byte} (h : 24 ≤ c.toNat) : bayOf c = none := dif_neg (Nat.not_lt.mpr h)

theorem clearFaultOrder_all {n : SlotId} (h : argByte s n 0 = 255) : clearFaultOrder n s = clearAll n s := if_pos h

/-- A bay number is none but its own byte's. -/
theorem clearFaultOrder_one {n : SlotId} {b : Bay} (h : b.val = (argByte s n 0).toNat) :
    clearFaultOrder n s = clearOne n b s := by
  have h255 : argByte s n 0 ≠ 255 := by
    intro e
    have := b.isLt
    rw [e] at h
    simp at h
    omega
  unfold clearFaultOrder
  dsimp only
  rw [if_neg h255, bayOf_val b h]

theorem clearFaultOrder_bad {n : SlotId} (h : 24 ≤ (argByte s n 0).toNat) (h' : argByte s n 0 ≠ 255) :
    clearFaultOrder n s = complete n .badArg [argByte s n 0] s := by
  unfold clearFaultOrder
  dsimp only
  rw [if_neg h', bayOf_none h]

theorem clearOne_fault {n : SlotId} {b : Bay} (h : (s.bay b).state = .fault) :
    clearOne n b s
      = complete n .ok [byte b.val, 1, optByte ((s.bay b).faultCause.map FaultCause.code)] (clearBay s b) := by
  unfold clearOne
  rw [h]

theorem clearOne_bayEmpty {n : SlotId} {b : Bay} (h : (s.bay b).state = .empty ∨ (s.bay b).state = .settling) :
    clearOne n b s = complete n .bayEmpty [byte b.val, 0] s := by
  unfold clearOne
  rcases h with h | h <;> rw [h]

theorem clearOne_already {n : SlotId} {b : Bay} (h : (s.bay b).state ≠ .fault) (h' : (s.bay b).state ≠ .empty)
    (h'' : (s.bay b).state ≠ .settling) : clearOne n b s = complete n .already [byte b.val, 0] s := by
  unfold clearOne
  split
  · contradiction
  · contradiction
  · contradiction
  all_goals rfl

theorem bay_clearOne (n : SlotId) (b d : Bay) (s : State) :
    (clearOne n b s).bay d
      = if d = b ∧ (s.bay d).state = .fault then (s.bay d).cleared s.clock.uptime else s.bay d := by
  by_cases hf : (s.bay b).state = .fault
  · rw [clearOne_fault hf, bay_complete, bay_clearBay]
    by_cases hd : d = b
    · simp [hd]
    · simp [hd]
  · have hc : ∃ r l, clearOne n b s = complete n r l s := by
      by_cases he : (s.bay b).state = .empty ∨ (s.bay b).state = .settling
      · exact ⟨_, _, clearOne_bayEmpty he⟩
      · obtain ⟨h1, h2⟩ := not_or.mp he
        exact ⟨_, _, clearOne_already hf h1 h2⟩
    obtain ⟨r, l, hc⟩ := hc
    rw [hc, bay_complete, if_neg]
    rintro ⟨rfl, h⟩
    exact hf h

/-- Every bay in FAULT that the order names is cleared, and no other bay changes (R14). -/
theorem bay_clearFaultOrder (n : SlotId) (s : State) (d : Bay) :
    (clearFaultOrder n s).bay d
      = if (s.bay d).state = .fault ∧ (argByte s n 0 = 255 ∨ d.val = (argByte s n 0).toNat)
        then (s.bay d).cleared s.clock.uptime else s.bay d := by
  by_cases hall : argByte s n 0 = 255
  · rw [clearFaultOrder_all hall]
    unfold clearAll
    rw [bay_complete, bay_clearBays]
    simp [hall]
  · by_cases hlt : (argByte s n 0).toNat < 24
    · rw [clearFaultOrder_one (b := ⟨_, hlt⟩) rfl, bay_clearOne]
      refine if_congr ?_ rfl rfl
      rw [Fin.ext_iff, and_comm, or_iff_right hall]
    · rw [clearFaultOrder_bad (Nat.not_lt.mp hlt) hall, bay_complete, if_neg]
      rintro ⟨_, h | h⟩
      · exact hall h
      · have := d.isLt
        omega

/-- Settles O28: one bay by its state, all bays by their number in FAULT, a refusal, and the bays after each. -/
theorem clearFaultTakesBaysToOff : Obligations.ClearFaultTakesBaysToOff := by
  intro s n ⟨⟨hw, _⟩, hk⟩
  refine answers_of_body ?_
  rw [show body .clearFault s = clearFaultOrder n (takeSlot n s) from take_of_takeKind clearFaultOrder hk]
  refine ⟨fun b hb hf => ?_, fun b hb he => ?_, fun b hb h1 h2 h3 => ?_, fun hall => ?_, fun hb hb' => ?_, fun d => ?_⟩
  · rw [clearFaultOrder_one (s := takeSlot n s) hb, clearOne_fault (s := takeSlot n s) hf]
    obtain ⟨hslots, hmem⟩ := clearBay_orders (takeSlot n s) b
    exact takeCompleted_complete hw hslots hmem (by simp) _ _
  · rw [clearFaultOrder_one (s := takeSlot n s) hb, clearOne_bayEmpty (s := takeSlot n s) he]
    exact takeCompleted_complete hw rfl rfl rfl _ _
  · rw [clearFaultOrder_one (s := takeSlot n s) hb, clearOne_already (s := takeSlot n s) h1 h2 h3]
    exact takeCompleted_complete hw rfl rfl rfl _ _
  · rw [clearFaultOrder_all (s := takeSlot n s) hall]
    obtain ⟨hslots, hmem, hclock⟩ := clearBays_keeps (List.finRange 24) (takeSlot n s)
    exact takeCompleted_complete hw hslots hmem hclock _ _
  · rw [clearFaultOrder_bad (s := takeSlot n s) hb hb']
    exact takeCompleted_complete hw rfl rfl rfl _ _
  · have hd : (finishStep (clearFaultOrder n (takeSlot n s))).bay d
        = if (s.bay d).state = .fault ∧ (argByte s n 0 = 255 ∨ d.val = (argByte s n 0).toNat)
          then (s.bay d).cleared s.clock.uptime else s.bay d :=
      (bay_finishStep _ d).trans (bay_clearFaultOrder n (takeSlot n s) d)
    split
    · rename_i h
      rw [hd, if_pos h]
      exact ⟨rfl, rfl, BayRec.cleared_kept _ _, rfl⟩
    · rename_i h
      rw [hd, if_neg h]

end Sys2Proof.Machine

/-! Settles the change of a presence input (O25): the bay's entry to SETTLING, then the admissions that may follow. -/

namespace Sys2Proof.Machine

variable {s t : State}

/-! ### The entry to SETTLING before any admission (R3, R8, R9) -/

@[simp] theorem bay_setDebounce (b d : Bay) (x : Timer) (s : State) : (setDebounce b x s).bay d = s.bay d := rfl

theorem report_timers (b : Bay) (acts : BayRec → Bool) (f : BayRec → BayRec) (events : List HistEvent) (s : State) :
    (report b acts f events s).bmon.debounce = s.bmon.debounce ∧
    (report b acts f events s).bmon.replug = s.bmon.replug := by
  have h := fun u : State => foldl_keeps (fun s => (s.bmon.debounce, s.bmon.replug))
    (fun s ev => pushHistory b ev s) (by simp) events u
  simp only [Prod.mk.injEq] at h
  unfold report
  split <;> simp [h]

/-- The record of a bay whose power is cut early (R8). -/
def BayRec.cutOff (r : BayRec) (stamp : Word) : BayRec :=
  ({ r.settling with charge := none, powerOrder := none } : BayRec).pushed (.off .presenceLost) stamp

/-- The early cut before the evaluation it starts (R8, R62). -/
def cutBay (b : Bay) (s : State) : State :=
  updPath b Path.idle
    (report b (fun _ => true) (fun r => { r.settling with charge := none, powerOrder := none }) [.off .presenceLost]
      (completePower b .removed (cutDetail (s.path b) s.clock.tick) s))

/-- A bay's entry to SETTLING before the evaluation it may start. -/
def toSettling (b : Bay) (s : State) : State :=
  match (s.bay b).state with
  | .settling => s
  | .ramping | .spinning | .active | .stopping => cutBay b s
  | .queued => lostQueued b s
  | .empty | .off | .fault => moveBay b BayRec.settling s

theorem Admissions.earlyCut (b : Bay) (s : State) : Admissions (cutBay b s) (earlyCut b s) := by
  unfold Machine.earlyCut
  dsimp only
  split
  · exact Admissions.evaluate _
  · exact Admissions.refl _

/-- The entry to SETTLING is the bay's own change, then admissions at most. -/
theorem Admissions.enterSettling (b : Bay) (s : State) : Admissions (toSettling b s) (enterSettling b s) := by
  unfold Machine.enterSettling toSettling
  cases (s.bay b).state with
  | ramping | spinning | active | stopping => exact Admissions.earlyCut b s
  | queued => exact Admissions.evaluate _
  | empty | settling | off | fault => exact Admissions.refl _

/-- The states whose presence change cuts the power (R8). -/
def PowerOn (st : BayState) : Prop := st.starting = true ∨ st = .active ∨ st = .stopping

theorem toSettling_cut {b : Bay} (h : PowerOn (s.bay b).state) : toSettling b s = cutBay b s := by
  unfold toSettling
  unfold PowerOn at h
  cases hs : (s.bay b).state with
  | ramping | spinning | active | stopping => rfl
  | empty | settling | off | queued | fault => simp [hs, BayState.starting] at h

theorem toSettling_queued {b : Bay} (h : (s.bay b).state = .queued) : toSettling b s = lostQueued b s := by
  unfold toSettling
  rw [h]

theorem toSettling_settling {b : Bay} (h : (s.bay b).state = .settling) : toSettling b s = s := by
  unfold toSettling
  rw [h]

theorem toSettling_calm {b : Bay} (h : (s.bay b).state = .empty ∨ (s.bay b).state = .off ∨ (s.bay b).state = .fault) :
    toSettling b s = moveBay b BayRec.settling s := by
  unfold toSettling
  rcases h with h | h | h <;> rw [h]

theorem bay_cutBay (b d : Bay) (s : State) :
    (cutBay b s).bay d = if d = b then (s.bay b).cutOff s.clock.uptime else s.bay d := by
  have hc : (completePower b .removed (cutDetail (s.path b) s.clock.tick) s).clock = s.clock := by simp
  have hb : ∀ d, (completePower b .removed (cutDetail (s.path b) s.clock.tick) s).bay d = s.bay d := fun d =>
    bay_completeOpt _ _ _ _ _
  unfold cutBay
  rw [bay_updPath, bay_report, hb, hb, hc]
  simp [BayRec.cutOff]

theorem path_cutBay (b d : Bay) (s : State) :
    (cutBay b s).path d = if d = b then (s.path b).idle else s.path d := by
  have h : ∀ d, (report b (fun _ => true) (fun r => { r.settling with charge := none, powerOrder := none })
      [.off .presenceLost] (completePower b .removed (cutDetail (s.path b) s.clock.tick) s)).path d = s.path d := by
    intro d
    simp [State.path, report_paths]
  unfold cutBay
  rw [path_updPath, h, h]

theorem cutBay_timers (b : Bay) (s : State) :
    (cutBay b s).bmon.debounce = s.bmon.debounce ∧ (cutBay b s).bmon.replug = s.bmon.replug := by
  simp [cutBay, report_timers]

/-- A QUEUED bay's departure, with the entry it had (R9, R32). -/
theorem lostQueued_some {b : Bay} {e : QEntry} (h : entryOf s b = some e) :
    lostQueued b s = pushHistory b (.dequeued e.cls) (completeOpt e.slot .removed (queuedDetail e s.clock.tick)
      (moveBay b (fun r => { r.settling with powerOrder := none }) s)) := by
  unfold lostQueued
  rw [h]

theorem lostQueued_none {b : Bay} (h : entryOf s b = none) :
    lostQueued b s = moveBay b (fun r => { r.settling with powerOrder := none }) s := by
  unfold lostQueued
  rw [h]

/-- What every entry to SETTLING leaves of the bays: the field of the state before, the bay's other settings, the other
bays, the timers. -/
structure Settles (b : Bay) (s t : State) : Prop where
  state : (t.bay b).state = .settling
  field : (t.bay b).settlingFrom = if (s.bay b).state = .settling then (s.bay b).settlingFrom
    else some (if (s.bay b).state = .empty then .absent else .present)
  kept : BayKept { s.bay b with powerOrder := (t.bay b).powerOrder } (t.bay b)
  others : ∀ d, d ≠ b → BaySame s t d
  debounce : t.bmon.debounce = s.bmon.debounce
  replug : t.bmon.replug = s.bmon.replug

theorem settles_cutBay {b : Bay} (h : PowerOn (s.bay b).state) : Settles b s (cutBay b s) := by
  have hs : (s.bay b).state ≠ .settling := by
    intro e
    simp [PowerOn, e, BayState.starting] at h
  have hbay := bay_cutBay b b s
  rw [if_pos rfl] at hbay
  refine ⟨by rw [hbay]; rfl, by rw [hbay, if_neg hs]; rfl, by rw [hbay]; exact ⟨rfl, ⟨rfl, rfl, rfl⟩, rfl, rfl, rfl⟩,
    fun d hd => ⟨?_, ?_⟩, (cutBay_timers b s).1, (cutBay_timers b s).2⟩
  · rw [bay_cutBay, if_neg hd]
  · rw [path_cutBay, if_neg hd]

theorem settles_moveBay {b : Bay} {f : BayRec → BayRec} (hs : (s.bay b).state ≠ .settling)
    (hf : ∃ o, f (s.bay b) = { (s.bay b).settling with powerOrder := o }) : Settles b s (moveBay b f s) := by
  obtain ⟨o, hf⟩ := hf
  have hbay : (moveBay b f s).bay b = { (s.bay b).settling with powerOrder := o } := by
    rw [bay_moveBay, if_pos rfl, hf]
  refine ⟨by rw [hbay]; rfl, by rw [hbay, if_neg hs]; rfl, by rw [hbay]; exact ⟨rfl, ⟨rfl, rfl, rfl⟩, rfl, rfl, rfl⟩,
    fun d hd => ⟨?_, path_moveBay _ _ _ _⟩, by simp, by simp⟩
  rw [bay_moveBay, if_neg hd]

/-- A completion and a history entry leave what the entry to SETTLING left. -/
theorem Settles.recorded {b : Bay} (h : Settles b s t) (o : Option SlotId) (r : Result) (l : List Byte) (ev : HistEvent) :
    Settles b s (pushHistory b ev (completeOpt o r l t)) := by
  have hbay : (pushHistory b ev (completeOpt o r l t)).bay b = (t.bay b).pushed ev t.clock.uptime := by
    rw [bay_pushHistory, if_pos rfl, bay_completeOpt, (completeOpt_keeps o r l t).2.2.2.2.2.2.2.1]
  obtain ⟨h1, h2, h3, h4, h5⟩ := h.kept
  refine ⟨by rw [hbay]; exact h.state, by rw [hbay]; exact h.field,
    by rw [hbay]; exact ⟨h1, h2, h3, h4, h5⟩, fun d hd => (h.others d hd).trans ⟨?_, by simp⟩,
    by simpa using h.debounce, by simpa using h.replug⟩
  rw [bay_pushHistory, if_neg hd, bay_completeOpt]

theorem settles_lostQueued {b : Bay} (h : (s.bay b).state = .queued) : Settles b s (lostQueued b s) := by
  have hmove : Settles b s (moveBay b (fun r => { r.settling with powerOrder := none }) s) :=
    settles_moveBay (by rw [h]; simp) ⟨none, rfl⟩
  cases he : entryOf s b with
  | none =>
    rw [lostQueued_none he]
    exact hmove
  | some e =>
    rw [lostQueued_some he]
    exact hmove.recorded _ _ _ _

theorem settles_toSettling (b : Bay) (s : State) : Settles b s (toSettling b s) := by
  by_cases hcut : PowerOn (s.bay b).state
  · rw [toSettling_cut hcut]
    exact settles_cutBay hcut
  · cases hs : (s.bay b).state with
    | ramping | spinning | active | stopping => exact absurd (by simp [PowerOn, hs, BayState.starting]) hcut
    | queued =>
      rw [toSettling_queued hs]
      exact settles_lostQueued hs
    | settling =>
      rw [toSettling_settling hs]
      exact ⟨hs, by simp [hs], ⟨rfl, ⟨rfl, rfl, rfl⟩, rfl, rfl, rfl⟩, fun _ _ => ⟨rfl, rfl⟩, rfl, rfl⟩
    | empty | off | fault =>
      rw [toSettling_calm (by simp [hs])]
      exact settles_moveBay (by rw [hs]; simp) ⟨(s.bay b).powerOrder, rfl⟩

/-! ### The command (R3, R8, R9) -/

/-- The end of PRESENCE_CHANGE's step. -/
def presenceStep (b : Bay) (s : State) : State := finishStep (presenceChanged b s)

theorem answers_presenceChange {b : Bay} {P : State → Prop} (h : P (presenceStep b s)) :
    Answers (.presenceChange b) s P := answers_of_body h

/-- The bay itself stands at the end of the step as its entry to SETTLING left it. -/
theorem presenceStep_own (b : Bay) (s : State) :
    BaySame (toSettling b (togglePresence b s)) (presenceStep b s) b := by
  have hset := settles_toSettling b (togglePresence b s)
  obtain ⟨hbay, hpath⟩ := (Admissions.enterSettling b (togglePresence b s)).own (d := b) (by rw [hset.state]; simp)
  exact ⟨(bay_finishStep _ b).trans hbay, (path_finishStep _ b).trans hpath⟩

theorem presenceStep_others (b : Bay) (s : State) : OthersKept (· = b) s (presenceStep b s) := by
  intro d hd
  have hend : (presenceStep b s).bay d = (enterSettling b (togglePresence b s)).bay d := bay_finishStep _ d
  rcases Admissions.othersKept (settles_toSettling b (togglePresence b s)).others
    (Admissions.enterSettling b (togglePresence b s)) d hd with ⟨hbay, hpath⟩ | ⟨hq, hst, hk⟩
  · exact Or.inl ⟨hend.trans hbay, (path_finishStep _ d).trans hpath⟩
  · exact Or.inr ⟨hq, hend ▸ hst, hend ▸ hk⟩

theorem presenceStep_debounce (b d : Bay) (s : State) :
    (presenceStep b s).bmon.debounce[d] = if d = b then some 250 else s.bmon.debounce[d] := by
  have h : (enterSettling b (togglePresence b s)).bmon.debounce = s.bmon.debounce :=
    (Admissions.enterSettling b _).debounce.trans (settles_toSettling b _).debounce
  simp only [presenceStep, presenceChanged, finishStep_keeps, setDebounce_bmon, h, getFin_set]
  rfl

theorem presenceStep_replug (b : Bay) (s : State) : (presenceStep b s).bmon.replug = s.bmon.replug := by
  have h : (enterSettling b (togglePresence b s)).bmon.replug = s.bmon.replug :=
    (Admissions.enterSettling b _).replug.trans (settles_toSettling b _).replug
  simp only [presenceStep, presenceChanged, finishStep_keeps, setDebounce_bmon, h]

theorem presenceStep_presence (b d : Bay) (s : State) : (presenceStep b s).pins.presence[d]
    = if d = b then s.pins.presence[d].toggled else s.pins.presence[d] := by
  simp only [presenceStep, presenceChanged, finishStep_keeps, setDebounce_keeps, enterSettling_keeps,
    togglePresence_pins, getFin_set]
  by_cases h : d = b
  · subst h; rfl
  · simp [h]

/-- A bay whose power is cut has no charge and no order left, and its power path is idle (R8). -/
theorem presenceStep_cut {b : Bay} (h : PowerOn (s.bay b).state) :
    (presenceStep b s).bay b = (s.bay b).cutOff s.clock.uptime ∧ (presenceStep b s).path b = (s.path b).idle := by
  obtain ⟨hbay, hpath⟩ := presenceStep_own b s
  rw [toSettling_cut (s := togglePresence b s) h] at hbay hpath
  exact ⟨hbay.trans ((bay_cutBay b b _).trans (if_pos rfl)), hpath.trans ((path_cutBay b b _).trans (if_pos rfl))⟩

/-- A bay that waited is in no class of the queue any more (R9, R32). -/
theorem lostQueued_not_mem (b : Bay) (s : State) : b ∉ queuedBays (lostQueued b s).pseq := by
  have hmove : b ∉ queuedBays (moveBay b (fun r => { r.settling with powerOrder := none }) s).pseq := fun h =>
    (mem_queuedBays_moveBay h).2 (by simp [BayRec.settling]) rfl
  cases he : entryOf s b with
  | none =>
    rw [lostQueued_none he]
    exact hmove
  | some e =>
    rw [lostQueued_some he, (pushHistory_keeps b _ _).2.1, (completeOpt_keeps _ _ _ _).2.2.1]
    exact hmove

theorem lostQueued_powerOrder (b : Bay) (s : State) : ((lostQueued b s).bay b).powerOrder = none := by
  cases he : entryOf s b with
  | none => rw [lostQueued_none he, bay_moveBay, if_pos rfl]
  | some e => rw [lostQueued_some he, bay_pushHistory, if_pos rfl, bay_completeOpt, bay_moveBay, if_pos rfl]; rfl

theorem presenceStep_queued {b : Bay} (h : (s.bay b).state = .queued) :
    ((presenceStep b s).bay b).powerOrder = none ∧ b ∉ queuedBays (presenceStep b s).pseq := by
  have hadm := Admissions.enterSettling b (togglePresence b s)
  obtain ⟨hbay, -⟩ := presenceStep_own b s
  rw [toSettling_queued (s := togglePresence b s) h] at hbay hadm
  refine ⟨by rw [hbay]; exact lostQueued_powerOrder b _, fun hm => lostQueued_not_mem b _ (hadm.queue b ?_)⟩
  simpa only [presenceStep, presenceChanged, finishStep_keeps, setDebounce_keeps] using hm

/-- The DEQUEUED entry of a bay that waited (R9). -/
theorem presenceStep_dequeued {b : Bay} {e : QEntry} (h : (s.bay b).state = .queued) (he : entryOf s b = some e) :
    (presenceStep b s).bay b
      = ({ (s.bay b).settling with powerOrder := none } : BayRec).pushed (.dequeued e.cls) s.clock.uptime := by
  obtain ⟨hbay, -⟩ := presenceStep_own b s
  rw [toSettling_queued (s := togglePresence b s) h, lostQueued_some (s := togglePresence b s) he, bay_pushHistory,
    if_pos rfl, bay_completeOpt, bay_moveBay, if_pos rfl] at hbay
  rw [hbay]
  simp
  rfl

/-- From a state without power or a queue entry no order completes, and the ring stays. -/
theorem presenceStep_calm {b : Bay} (h : (s.bay b).state = .empty ∨ (s.bay b).state = .settling ∨
    (s.bay b).state = .off ∨ (s.bay b).state = .fault) :
    ((presenceStep b s).bay b).ring = (s.bay b).ring ∧ (presenceStep b s).exp.slots = s.exp.slots := by
  have hslots : (presenceStep b s).exp.slots = (toSettling b (togglePresence b s)).exp.slots :=
    (finishStep_slots _).trans (Admissions.enterSettling b (togglePresence b s)).slots
  rw [(presenceStep_own b s).1, hslots]
  by_cases hs : (s.bay b).state = .settling
  · rw [toSettling_settling (s := togglePresence b s) hs]
    exact ⟨rfl, rfl⟩
  · rw [toSettling_calm (s := togglePresence b s) (by tauto)]
    refine ⟨by rw [bay_moveBay, if_pos rfl]; rfl, moveBayWith_slots none b _ _ (by simp [BayRec.settling])⟩

/-! ### The orders the change completes (R32, R60, R62) -/

theorem enterSettling_cut {b : Bay} (h : PowerOn (s.bay b).state) : enterSettling b s = earlyCut b s := by
  unfold enterSettling
  unfold PowerOn at h
  cases hs : (s.bay b).state with
  | ramping | spinning | active | stopping => rfl
  | empty | settling | off | queued | fault => simp [hs, BayState.starting] at h

theorem enterSettling_queued {b : Bay} (h : (s.bay b).state = .queued) :
    enterSettling b s = evaluate (lostQueued b s) := by
  unfold enterSettling
  rw [h]

/-- The detail of a stop that is cut: its wait ends now if the switch was still on (R59, R62). -/
theorem cutDetail_stop {p : Path} {w : Stop} (h : p.stop = some w) (now : Word) :
    cutDetail p now
      = offDetail (some { w with wait := if p.switchOn = true then waitTicks w.take now else w.wait }) := by
  unfold cutDetail
  rw [h]
  cases hon : p.switchOn <;> simp [Stop.atCut]

theorem cutDetail_ladder {p : Path} (h : p.stop = none) (now : Word) : cutDetail p now = onDetail p.ladder := by
  unfold cutDetail
  rw [h]

/-- The power order of a bay whose power is cut completes REMOVED (R62). -/
theorem presenceStep_cut_completed {b : Bay} {n : SlotId} (h : PowerOn (s.bay b).state) (hw : s.mem.wf = true)
    (ho : (s.bay b).powerOrder = some n) (ht : (s.slot n).state = .taken) :
    Completed (presenceStep b s) n .removed (s.slot n).tag s.clock.uptime (cutDetail (s.path b) s.clock.tick) := by
  have hdone : Completed (completePower b .removed (cutDetail (s.path b) s.clock.tick) (togglePresence b s)) n .removed
      (s.slot n).tag s.clock.uptime (cutDetail (s.path b) s.clock.tick) := by
    unfold completePower
    rw [show ((togglePresence b s).bay b).powerOrder = some n from ho]
    exact completed_complete (s := togglePresence b s) hw ht _ _
  have hwf : (completePower b .removed (cutDetail (s.path b) s.clock.tick) (togglePresence b s)).mem.wf = true :=
    ((Changes.refl (s := togglePresence b s)).completeOpt _ _ _ |>.written hw).wf
  have hcut : Changes (completePower b .removed (cutDetail (s.path b) s.clock.tick) (togglePresence b s))
      (cutBay b (togglePresence b s)) :=
    Changes.updPath b _ (Changes.report b _ _ _ .refl fun _ => Turn.settles b)
  refine Changes.completed_finishStep (Changes.setDebounce b _ ?_) hwf hdone
  rw [enterSettling_cut (s := togglePresence b s) h]
  unfold earlyCut
  dsimp only
  split
  · exact hcut.evaluate
  · exact hcut

/-- The BAY POWER ON of a bay that waited completes REMOVED (R32). -/
theorem presenceStep_dequeued_completed {b : Bay} {e : QEntry} {n : SlotId} (h : (s.bay b).state = .queued)
    (he : entryOf s b = some e) (hw : s.mem.wf = true) (hn : e.slot = some n) (ht : (s.slot n).state = .taken) :
    Completed (presenceStep b s) n .removed (s.slot n).tag s.clock.uptime (queuedDetail e s.clock.tick) := by
  generalize hu : moveBay b (fun r => { r.settling with powerOrder := none }) (togglePresence b s) = u
  have hmem : u.mem = s.mem := hu ▸ moveBayWith_mem none b _ (togglePresence b s) (by simp [BayRec.settling])
  have hslot : u.slot n = s.slot n :=
    hu ▸ slot_of_slots (moveBayWith_slots none b _ (togglePresence b s) (by simp [BayRec.settling])) n
  have hclock : u.clock = s.clock := by rw [← hu]; simp
  have hdone := completed_complete (hmem ▸ hw : u.mem.wf = true) (by rw [hslot]; exact ht) .removed
    (queuedDetail e s.clock.tick)
  rw [hslot, hclock] at hdone
  refine Changes.completed_finishStep (Changes.setDebounce b _ ?_)
    (complete_written n .removed (queuedDetail e s.clock.tick) u (hmem ▸ hw)).wf hdone
  rw [enterSettling_queued (s := togglePresence b s) h, lostQueued_some (s := togglePresence b s) he, hu, hn]
  exact Changes.evaluate (Changes.pushHistory b _ .refl)

/-- Settles O25: the bay's record and path, the other bays, and the orders its power or its place in the queue had. -/
theorem presenceChangePutsTheBayInSettling : Obligations.PresenceChangePutsTheBayInSettling := by
  refine ⟨fun b s => answers_presenceChange ?_, fun b s => answers_presenceChange ?_⟩
  · obtain ⟨hbay, hpath⟩ := presenceStep_own b s
    obtain ⟨hstate, hfield, hkept, -, -, -⟩ := settles_toSettling b (togglePresence b s)
    rw [← hbay] at hstate hfield hkept
    refine ⟨fun d => presenceStep_presence b d s, ?_, fun d hd => ?_, presenceStep_replug b s, hstate, hfield,
      fun hcut => ?_, presenceStep_queued, hkept, presenceStep_others b s⟩
    · rw [presenceStep_debounce, if_pos rfl]
    · rw [presenceStep_debounce, if_neg hd]
    · obtain ⟨hrec, hidle⟩ := presenceStep_cut hcut
      exact ⟨by rw [hrec]; rfl, by rw [hrec]; rfl, hidle⟩
  · refine ⟨fun hcut => ?_, fun hcut hw n ho ht => ?_, fun e hq he => ⟨?_, fun hw n hn ht => ?_⟩, presenceStep_calm⟩
    · rw [(presenceStep_cut hcut).1]
      exact ⟨rfl, rfl, rfl⟩
    · have hdone := presenceStep_cut_completed hcut hw ho ht
      cases hstop : (s.path b).stop with
      | none => rwa [cutDetail_ladder hstop] at hdone
      | some w => rwa [cutDetail_stop hstop] at hdone
    · rw [presenceStep_dequeued hq he]
      exact ⟨rfl, rfl, rfl⟩
    · exact presenceStep_dequeued_completed hq he hw hn ht

end Sys2Proof.Machine

/-! Settles the end of a debounce (O26): the bay EMPTY, or OFF and perhaps queued again, and what the sideband does. -/

namespace Sys2Proof.Machine

variable {s t : State}

/-! ### The sideband queue (R70, R73, R80) -/

/-- With nothing in flight the first entry of the order class starts, or else of the poll class (R70). -/
theorem startNext_sbe_idle (h : s.sbe.flight = none) : (startNext s).sbe = { s.sbe with
    flight := nextTxn s.sbe.orderQ s.sbe.pollQ s.clock.tick
    orderQ := s.sbe.orderQ.tail
    pollQ := if s.sbe.orderQ = [] then s.sbe.pollQ.tail else s.sbe.pollQ } := by
  obtain ⟨pins, bmon, pseq, ⟨orderQ, pollQ, flight, interval, pollTimer, pollCount⟩, thc, fanu, lgt, exp, mem, clock, free, pending⟩ := s
  cases h
  cases orderQ with
  | cons e rest => rfl
  | nil =>
    cases pollQ with
    | cons e rest => rfl
    | nil => rfl

theorem startNext_sbe_busy {x : Txn} (h : s.sbe.flight = some x) : startNext s = s := by
  unfold startNext
  rw [h]

/-- What starts depends on the sideband and the tick counter only. -/
theorem startNext_sbe_congr (h : t.sbe = s.sbe) (hc : t.clock = s.clock) : (startNext t).sbe = (startNext s).sbe := by
  cases hf : s.sbe.flight with
  | some x => rw [startNext_sbe_busy hf, startNext_sbe_busy (by rw [h]; exact hf), h]
  | none => rw [startNext_sbe_idle hf, startNext_sbe_idle (by rw [h]; exact hf), h, hc]

theorem requestIdent_new {b : Bay} (h : pollQueued s b = false) :
    requestIdent b s = startNext { s with sbe := { s.sbe with pollQ := s.sbe.pollQ ++
      [{ bay := b, item := .ident, origin := .arrival, slot := none, take := s.clock.tick }] } } := by
  unfold requestIdent
  rw [if_neg (by rw [h]; simp)]
  rfl

theorem endFlightEmpty_other {b : Bay} (h : ∀ x, s.sbe.flight = some x → x.entry.bay ≠ b) : endFlightEmpty b s = s := by
  unfold endFlightEmpty
  split
  · rfl
  · rename_i x hx
    exact if_neg (h x hx)

theorem endFlightEmpty_own {b : Bay} {x : Txn} (h : s.sbe.flight = some x) (hb : x.entry.bay = b) :
    endFlightEmpty b s = completeOpt x.entry.slot .noDevice (queryDetail x.entry x.defers x.failed x.queueWait [])
      { s with sbe := { s.sbe with flight := none } } := by
  unfold endFlightEmpty
  rw [h]
  exact if_pos hb

theorem removeEntries_sbe (b : Bay) (s : State) : (removeEntries b s).sbe = { s.sbe with
    orderQ := s.sbe.orderQ.filter fun e => e.bay ≠ b
    pollQ := s.sbe.pollQ.filter fun e => e.bay ≠ b } :=
  foldl_keeps (fun s => s.sbe) _ (by simp) _ _

/-- A transaction of another bay goes on; the bay's entries leave both classes (R80). -/
theorem purgeBay_sbe_other {b : Bay} {x : Txn} (h : s.sbe.flight = some x) (hb : x.entry.bay ≠ b) :
    (purgeBay b s).sbe = { s.sbe with
      orderQ := s.sbe.orderQ.filter fun e => e.bay ≠ b
      pollQ := s.sbe.pollQ.filter fun e => e.bay ≠ b } := by
  have hend : endFlightEmpty b s = s := endFlightEmpty_other fun y hy => by
    cases h.symm.trans hy
    exact hb
  unfold purgeBay
  rw [hend, startNext_sbe_busy (x := x) (by rw [removeEntries_sbe]; exact h), removeEntries_sbe]

theorem endFlightEmpty_sbe_idle {b : Bay} (h : ∀ x, s.sbe.flight = some x → x.entry.bay = b) :
    (endFlightEmpty b s).sbe = { s.sbe with flight := none } := by
  cases hf : s.sbe.flight with
  | none =>
    rw [endFlightEmpty_other (by simp [hf])]
    rw [← hf]
  | some x =>
    rw [endFlightEmpty_own hf (h x hf)]
    simp

/-- With no transaction left the first entry of what remains starts (R70, R80). -/
theorem purgeBay_sbe_idle {b : Bay} (h : ∀ x, s.sbe.flight = some x → x.entry.bay = b) :
    (purgeBay b s).sbe = { s.sbe with
      flight := nextTxn (s.sbe.orderQ.filter fun e => e.bay ≠ b) (s.sbe.pollQ.filter fun e => e.bay ≠ b) s.clock.tick
      orderQ := (s.sbe.orderQ.filter fun e => e.bay ≠ b).tail
      pollQ := if (s.sbe.orderQ.filter fun e => e.bay ≠ b) = [] then (s.sbe.pollQ.filter fun e => e.bay ≠ b).tail
        else s.sbe.pollQ.filter fun e => e.bay ≠ b } := by
  have hrem : (removeEntries b (endFlightEmpty b s)).sbe = { s.sbe with
      flight := none
      orderQ := s.sbe.orderQ.filter fun e => e.bay ≠ b
      pollQ := s.sbe.pollQ.filter fun e => e.bay ≠ b } := by
    rw [removeEntries_sbe, endFlightEmpty_sbe_idle h]
  have hclock : (removeEntries b (endFlightEmpty b s)).clock = s.clock := by simp
  unfold purgeBay
  rw [startNext_sbe_idle (by rw [hrem]), hrem, hclock]

/-! ### The queries a bay's coming to EMPTY completes (R80) -/

theorem slot_completeOpt_other {o : Option SlotId} {n : SlotId} (h : o ≠ some n) (r : Result) (d : List Byte) (s : State) :
    (completeOpt o r d s).slot n = s.slot n := by
  cases o with
  | none => rfl
  | some m =>
    refine (slot_complete m n r d s).trans (if_neg ?_)
    rintro ⟨rfl, _⟩
    exact h rfl

theorem Changes.dropQueries (l : List SbEntry) (h : Changes s t) :
    Changes s (l.foldl (fun s e => dropQuery .removed e s) t) :=
  Changes.foldl (fun _ _ h => h.completeOpt _ _ _) l h

/-- Of entries dropped in turn the first that holds a TAKEN slot completes it. -/
theorem dropQueries_completed {l : List SbEntry} {e : SbEntry} {n : SlotId} (hl : e ∈ l) (hn : e.slot = some n)
    (hw : s.mem.wf = true) (ht : (s.slot n).state = .taken) :
    ∃ tag u d, Completed (l.foldl (fun s e => dropQuery .removed e s) s) n .removed tag u d := by
  induction l generalizing s with
  | nil => cases hl
  | cons a rest ih =>
    rw [List.foldl_cons]
    have hwa : (dropQuery .removed a s).mem.wf = true := (Changes.refl.completeOpt _ _ _ |>.written hw).wf
    by_cases ha : a.slot = some n
    · have hdone : Completed (dropQuery .removed a s) n .removed (s.slot n).tag s.clock.uptime
          (queryDetail a 0 0 (waitTicks a.take s.clock.tick) []) := by
        unfold dropQuery
        rw [ha]
        exact completed_complete hw ht _ _
      exact ⟨_, _, _, (Changes.dropQueries rest .refl).completed hwa hdone⟩
    · have hmem : e ∈ rest := (List.mem_cons.mp hl).resolve_left fun h => ha (h ▸ hn)
      refine ih hmem hwa ?_
      rw [show (dropQuery .removed a s).slot n = s.slot n from slot_completeOpt_other ha _ _ _]
      exact ht

theorem purgeBay_changes (b : Bay) (s : State) : Changes (endFlightEmpty b s) (purgeBay b s) :=
  Changes.startNext (Changes.dropQueries _
    (Changes.refl.sbe _ fun hb => ⟨le_trans (List.length_filter_le _ _) hb.orderRoom,
      (List.Sublist.map _ List.filter_sublist).nodup hb.pollOnce, hb.interval, hb.counts⟩))

theorem endFlightEmpty_wf (b : Bay) (hw : s.mem.wf = true) : (endFlightEmpty b s).mem.wf = true := by
  unfold endFlightEmpty
  split
  · exact hw
  · split
    · exact ((Changes.refl.sbe _ fun hb => hb.idle).completeOpt _ _ _ |>.written hw).wf
    · exact hw

/-- The query in flight for the bay completes NO_DEVICE (R80). -/
theorem purgeBay_flight_completed {b : Bay} {x : Txn} {n : SlotId} (h : s.sbe.flight = some x) (hb : x.entry.bay = b)
    (hn : x.entry.slot = some n) (hw : s.mem.wf = true) (ht : (s.slot n).state = .taken) :
    Completed (purgeBay b s) n .noDevice (s.slot n).tag s.clock.uptime
      (queryDetail x.entry x.defers x.failed x.queueWait []) := by
  have hdone : Completed (endFlightEmpty b s) n .noDevice (s.slot n).tag s.clock.uptime
      (queryDetail x.entry x.defers x.failed x.queueWait []) := by
    rw [endFlightEmpty_own h hb, hn]
    exact completed_complete (s := { s with sbe := { s.sbe with flight := none } }) hw ht _ _
  exact (purgeBay_changes b s).completed (endFlightEmpty_wf b hw) hdone

/-- A query of the bay that waits in the order class completes REMOVED, if the flight does not hold its slot (R80). -/
theorem purgeBay_queued_completed {b : Bay} {e : SbEntry} {n : SlotId} (he : e ∈ s.sbe.orderQ) (hb : e.bay = b)
    (hn : e.slot = some n) (hw : s.mem.wf = true) (ht : (s.slot n).state = .taken)
    (hx : ∀ x, s.sbe.flight = some x → x.entry.slot ≠ some n) :
    ∃ tag u d, Completed (purgeBay b s) n .removed tag u d := by
  have hend : (endFlightEmpty b s).slot n = s.slot n ∧ (endFlightEmpty b s).sbe.orderQ = s.sbe.orderQ := by
    unfold endFlightEmpty
    split
    · exact ⟨rfl, rfl⟩
    · rename_i x hf
      split
      · exact ⟨slot_completeOpt_other (hx x hf) _ _ _, by simp⟩
      · exact ⟨rfl, rfl⟩
  obtain ⟨hslot, hqueue⟩ := hend
  have hmem : e ∈ (endFlightEmpty b s).sbe.orderQ.filter fun e => e.bay = b := by
    rw [hqueue]
    exact List.mem_filter.mpr ⟨he, decide_eq_true hb⟩
  obtain ⟨tag, u, d, hdone⟩ := dropQueries_completed
    (s := { endFlightEmpty b s with sbe := { (endFlightEmpty b s).sbe with
        orderQ := (endFlightEmpty b s).sbe.orderQ.filter fun e => e.bay ≠ b
        pollQ := (endFlightEmpty b s).sbe.pollQ.filter fun e => e.bay ≠ b } })
    hmem hn (endFlightEmpty_wf b hw) (by rw [← hslot] at ht; exact ht)
  refine ⟨tag, u, d, hdone.of_same (slot_of_slots ?_ n) fun _ _ _ => ?_⟩
  · exact congrArg Exp.slots (startNext_keeps _).2.2.2.2.2.2.1
  · exact congrArg (Memory.read · _) (startNext_keeps _).2.2.2.2.2.2.2.1

/-- A completed slot shows its result code (section 10.3). -/
theorem Completed.code {n : SlotId} {r : Result} {tag : Half} {u : Word} {d : List Byte} (h : Completed s n r tag u d) :
    s.mem.readBytes (resultBase n) 1 = [r.code] :=
  congrArg (List.take 1) h.area

/-! ### The bay EMPTY (R4, R7, R10) -/

@[simp] theorem bay_setReplug (b d : Bay) (x : Timer) (s : State) : (setReplug b x s).bay d = s.bay d := rfl

/-- The state in which the sideband hears that bay `b` has come to EMPTY. -/
def handedOver (b : Bay) (f : BayRec → BayRec) (s : State) : State :=
  handLights b (handThermal b (turnBay b none f s))

@[simp] theorem handedOver_keeps (b : Bay) (f : BayRec → BayRec) (s : State) :
    (handedOver b f s).sbe = s.sbe ∧ (handedOver b f s).mem = s.mem ∧ (handedOver b f s).clock = s.clock ∧
    (handedOver b f s).exp.slots = s.exp.slots := by
  simp [handedOver]

/-- A bay that comes to EMPTY from SETTLING has its sideband entries purged (R22, R80). -/
theorem moveBay_purges {b : Bay} {f : BayRec → BayRec} (h : (s.bay b).state = .settling)
    (h' : (f (s.bay b)).state = .empty) : moveBay b f s = purgeBay b (handedOver b f s) := by
  have hst : ((handedOver b f s).bay b).state = .empty := by
    unfold handedOver
    rw [bay_handed, h']
  unfold moveBay moveBayWith
  change handSideband b _ (handedOver b f s) = _
  unfold handSideband
  simp [h, hst]

theorem debounceEnd_removed {b : Bay} (hd : s.bmon.debounce[b].isSome = true) (hp : s.pins.presence[b] = .absent)
    (hf : (s.bay b).settlingFrom = some .present) : debounceEnd b s = removed b (setDebounce b none s) := by
  unfold debounceEnd
  rw [if_pos hd, hp, hf]

theorem debounceEnd_silent {b : Bay} (hd : s.bmon.debounce[b].isSome = true) (hp : s.pins.presence[b] = .absent)
    (hf : (s.bay b).settlingFrom = some .absent) :
    debounceEnd b s = moveBay b (fun r => r.enter .empty) (setDebounce b none s) := by
  unfold debounceEnd
  rw [if_pos hd, hp, hf]

/-- With the contact ABSENT the bay comes to EMPTY, and what follows is its history and its replug window. -/
theorem debounceEnd_empties {b : Bay} {from' : Presence} (hd : s.bmon.debounce[b].isSome = true)
    (hp : s.pins.presence[b] = .absent) (hf : (s.bay b).settlingFrom = some from') :
    ∃ f : BayRec → BayRec, (f (s.bay b)).state = .empty ∧
      Changes (moveBay b f (setDebounce b none s)) (debounceEnd b s) ∧
      (debounceEnd b s).sbe = (moveBay b f (setDebounce b none s)).sbe := by
  cases from' with
  | absent =>
    rw [debounceEnd_silent hd hp hf]
    exact ⟨_, rfl, .refl, rfl⟩
  | present =>
    rw [debounceEnd_removed hd hp hf]
    exact ⟨_, rfl, Changes.setReplug b _ (Changes.pushHistory b _ .refl), by simp [removed]⟩

/-- The end of DEBOUNCE_EXPIRY's step. -/
def debounceStep (b : Bay) (s : State) : State := finishStep (debounceEnd b s)

theorem answers_debounceExpiry {b : Bay} {P : State → Prop} (h : P (debounceStep b s)) :
    Answers (.debounceExpiry b) s P := answers_of_body h

theorem bay_debounceStep (b d : Bay) (s : State) : (debounceStep b s).bay d = (debounceEnd b s).bay d :=
  bay_finishStep _ d

theorem bmon_debounceStep (b : Bay) (s : State) : (debounceStep b s).bmon = (debounceEnd b s).bmon :=
  (finishStep_keeps _).2.1

theorem sbe_debounceStep (b : Bay) (s : State) : (debounceStep b s).sbe = (debounceEnd b s).sbe :=
  (finishStep_keeps _).2.2.2.1

theorem baySame_debounceStep {b d : Bay} (h : BaySame s (debounceEnd b s) d) : BaySame s (debounceStep b s) d :=
  ⟨(bay_finishStep _ d).trans h.1, (path_finishStep _ d).trans h.2⟩

/-- A REMOVED outcome: the drive's details are gone, the replug window runs, the ring has its entry (R4, R7, R10). -/
theorem debounceStep_removed {b : Bay} (hd : s.bmon.debounce[b].isSome = true) (hp : s.pins.presence[b] = .absent)
    (hf : (s.bay b).settlingFrom = some .present) :
    (debounceStep b s).bay b = (s.bay b).departed.pushed .removed s.clock.uptime ∧
    (∀ d, d ≠ b → BaySame s (debounceStep b s) d) ∧
    (debounceStep b s).bmon.debounce[b] = none ∧ (debounceStep b s).bmon.replug[b] = some 2000 := by
  have hbay : ∀ d, (removed b (setDebounce b none s)).bay d
      = if d = b then (s.bay b).departed.pushed .removed s.clock.uptime else s.bay d := by
    intro d
    unfold removed
    rw [bay_setReplug, bay_pushHistory, bay_moveBay, bay_moveBay, (moveBay_keeps b _ _).2.2.1]
    by_cases h : d = b <;> simp [h]
  refine ⟨?_, fun d hdb => baySame_debounceStep ⟨?_, ?_⟩, ?_, ?_⟩
  · rw [bay_debounceStep, debounceEnd_removed hd hp hf, hbay, if_pos rfl]
  · rw [debounceEnd_removed hd hp hf, hbay, if_neg hdb]
  · rw [debounceEnd_removed hd hp hf]
    simp [removed, State.path]
  · rw [bmon_debounceStep, debounceEnd_removed hd hp hf]
    simp [removed]
  · rw [bmon_debounceStep, debounceEnd_removed hd hp hf]
    simp [removed, replugMs]

/-- A contact that closed and opened again: the bay is EMPTY as it was before (R4). -/
theorem debounceStep_silent {b : Bay} (hd : s.bmon.debounce[b].isSome = true) (hp : s.pins.presence[b] = .absent)
    (hf : (s.bay b).settlingFrom = some .absent) :
    (debounceStep b s).bay b = (s.bay b).enter .empty ∧
    (∀ d, d ≠ b → BaySame s (debounceStep b s) d) ∧
    (debounceStep b s).bmon.debounce[b] = none ∧ (debounceStep b s).bmon.replug[b] = s.bmon.replug[b] := by
  refine ⟨?_, fun d hdb => baySame_debounceStep ⟨?_, ?_⟩, ?_, ?_⟩
  · rw [bay_debounceStep, debounceEnd_silent hd hp hf, bay_moveBay, if_pos rfl, bay_setDebounce]
  · rw [debounceEnd_silent hd hp hf, bay_moveBay, if_neg hdb, bay_setDebounce]
  · rw [debounceEnd_silent hd hp hf, path_moveBay]
    rfl
  · rw [bmon_debounceStep, debounceEnd_silent hd hp hf]
    simp
  · rw [bmon_debounceStep, debounceEnd_silent hd hp hf]
    simp

/-! ### The bay in OFF (R5, R6, R11) -/

/-- The entry to OFF before auto-on: the change, its history entry, the identity request (R11). -/
def offBay (b : Bay) (f : BayRec → BayRec) (ev : HistEvent) (s : State) : State :=
  requestIdent b (pushHistory b ev (moveBay b (fun r => f (r.enter .off)) s))

/-- The state of a bay that has joined the queue, before the evaluation its joining starts (R31). -/
def queuedBay (b : Bay) (cls : QClass) (slot : Option SlotId) (s : State) : State :=
  pushHistory b (.queued cls)
    (moveBayWith (some ⟨b, cls, s.clock.tick, slot⟩) b (fun r => { r.enter .queued with powerOrder := slot }) s)

theorem enqueue_off {b : Bay} (h : (s.bay b).state = .off) (cls : QClass) (slot : Option SlotId) :
    enqueue b cls slot s = evaluate (queuedBay b cls slot s) := if_pos h

theorem bay_offBay (b d : Bay) (f : BayRec → BayRec) (ev : HistEvent) (s : State) :
    (offBay b f ev s).bay d = if d = b then (f ((s.bay b).enter .off)).pushed ev s.clock.uptime else s.bay d := by
  unfold offBay
  rw [bay_of_bmon (requestIdent_keeps b _).2.1, bay_pushHistory, bay_moveBay, bay_moveBay, (moveBay_keeps b _ _).2.2.1]
  by_cases h : d = b <;> simp [h]

theorem offBay_paths_timers (b : Bay) (f : BayRec → BayRec) (ev : HistEvent) (s : State) :
    (offBay b f ev s).pseq.paths = s.pseq.paths ∧ (offBay b f ev s).bmon.debounce = s.bmon.debounce ∧
    (offBay b f ev s).bmon.replug = s.bmon.replug := by
  simp [offBay]

/-- A bay that joins the queue: only its own record changes, and the sideband hears nothing (R22, R31). -/
theorem queuedBay_keeps {b : Bay} {cls : QClass} {slot : Option SlotId} (h : (s.bay b).state = .off) :
    ((queuedBay b cls slot s).bay b).state = .queued ∧ ((queuedBay b cls slot s).bay b).settlingFrom = none ∧
    BayKept { s.bay b with powerOrder := slot } ((queuedBay b cls slot s).bay b) ∧
    (∀ d, d ≠ b → BaySame s (queuedBay b cls slot s) d) ∧ (queuedBay b cls slot s).sbe = s.sbe ∧
    (queuedBay b cls slot s).bmon.debounce = s.bmon.debounce ∧ (queuedBay b cls slot s).bmon.replug = s.bmon.replug := by
  have hbay : ∀ d, (queuedBay b cls slot s).bay d
      = if d = b then ({ (s.bay b).enter .queued with powerOrder := slot } : BayRec).pushed (.queued cls) s.clock.uptime
        else s.bay d := by
    intro d
    unfold queuedBay
    rw [bay_pushHistory, bay_moveBayWith, bay_moveBayWith, (moveBayWith_keeps _ b _ _).2.2.1]
    by_cases hd : d = b <;> simp [hd]
  have hsbe : (queuedBay b cls slot s).sbe = s.sbe := by
    unfold queuedBay
    rw [(pushHistory_keeps b _ _).2.2.1]
    exact moveBayWith_sbe _ b _ s (by rw [h]; simp) (by simp) (by simp)
  refine ⟨by rw [hbay, if_pos rfl]; rfl, by rw [hbay, if_pos rfl]; rfl,
    by rw [hbay, if_pos rfl]; exact ⟨rfl, ⟨rfl, rfl, rfl⟩, rfl, rfl, rfl⟩, fun d hd => ⟨by rw [hbay, if_neg hd], ?_⟩,
    hsbe, ?_, ?_⟩
  · simp [queuedBay, State.path]
  · simp [queuedBay]
  · simp [queuedBay]

/-- What becomes of a bay that enters OFF with the record `r`: it stays there, or it joins the queue and may be admitted
at once, as its policy says (R11); no other bay changes but by an admission. -/
structure EntersOff (b : Bay) (r : BayRec) (s t : State) : Prop where
  settles : (t.bay b).settlingFrom = none
  replugs : (t.bay b).replugCount = r.replugCount
  identity : (t.bay b).identity = r.identity
  driveClass : (t.bay b).driveClass = r.driveClass
  health : (t.bay b).healthWarn = r.healthWarn
  policy : (t.bay b).policy = r.policy
  off : r.policy.autoOn = false → t.bay b = r
  on : r.policy.autoOn = true → (t.bay b).state = .queued ∨ (t.bay b).state.starting = true
  others : OthersKept (· = b) s t
  debounce : t.bmon.debounce = s.bmon.debounce
  replug : t.bmon.replug = s.bmon.replug

theorem BayKept.trans {r r' r'' : BayRec} (h : BayKept r r') (h' : BayKept r' r'') : BayKept r r'' :=
  ⟨h'.replugs.trans h.replugs, ⟨h'.drive.1.trans h.drive.1, h'.drive.2.1.trans h.drive.2.1, h'.drive.2.2.trans h.drive.2.2⟩,
    h'.health.trans h.health, h'.policy.trans h.policy, h'.order.trans h.order⟩

/-- A bay that has joined the queue waits or is admitted at once, its settings as they were (R12, R31, R36). -/
theorem queuedBay_evaluated {b : Bay} {cls : QClass} {slot : Option SlotId} (h : (s.bay b).state = .off)
    (ht : Admissions (queuedBay b cls slot s) t) :
    ((t.bay b).state = .queued ∨ (t.bay b).state.starting = true) ∧ (t.bay b).settlingFrom = none ∧
    BayKept { s.bay b with powerOrder := slot } (t.bay b) := by
  obtain ⟨hq, hs, hk, -, -, -, -⟩ := queuedBay_keeps (cls := cls) (slot := slot) h
  rcases ht.bays b with ⟨hbay, -⟩ | ⟨-, hst⟩
  · rw [hbay]
    exact ⟨Or.inl hq, hs, hk⟩
  · exact ⟨Or.inr hst.state, hst.settles, hk.trans hst.kept⟩

/-- Auto-on is the one thing that follows the entry to OFF (R11). -/
theorem enterOff_eq {b : Bay} {f : BayRec → BayRec} {ev : HistEvent} :
    enterOff b f ev s = if ((offBay b f ev s).bay b).policy.autoOn then enqueue b .normal none (offBay b f ev s)
      else offBay b f ev s := by
  unfold enterOff offBay
  dsimp only

theorem entersOff_enterOff {b : Bay} {f : BayRec → BayRec} {ev : HistEvent} {r : BayRec}
    (hr : r = (f ((s.bay b).enter .off)).pushed ev s.clock.uptime) (hoff : r.state = .off) (hset : r.settlingFrom = none) :
    EntersOff b r s (enterOff b f ev s) ∧ (enterOff b f ev s).sbe = (offBay b f ev s).sbe := by
  have hbay : (offBay b f ev s).bay b = r := by rw [bay_offBay, if_pos rfl, hr]
  obtain ⟨hpaths, hdeb, hrep⟩ := offBay_paths_timers b f ev s
  have hothers : ∀ d, d ≠ b → BaySame s (offBay b f ev s) d := fun d hd =>
    ⟨by rw [bay_offBay, if_neg hd], by simp only [State.path, hpaths]⟩
  rw [enterOff_eq, hbay]
  cases hauto : r.policy.autoOn with
  | false =>
    rw [if_neg (by simp)]
    exact ⟨⟨hbay ▸ hset, by rw [hbay], by rw [hbay], by rw [hbay], by rw [hbay], by rw [hbay], fun _ => hbay,
      fun h => by simp [hauto] at h, fun d hd => Or.inl (hothers d hd), hdeb, hrep⟩, rfl⟩
  | true =>
    have hoff' : ((offBay b f ev s).bay b).state = .off := by rw [hbay, hoff]
    have hadm := Admissions.evaluate (queuedBay b .normal none (offBay b f ev s))
    obtain ⟨-, -, -, ho, hsbe, hdeb', hrep'⟩ := queuedBay_keeps (cls := .normal) (slot := none) hoff'
    obtain ⟨hst, hs, hreplugs, ⟨hclass, _, hident⟩, hhealth, hpolicy, _⟩ := queuedBay_evaluated hoff' hadm
    rw [hbay] at hreplugs hclass hident hhealth hpolicy
    rw [if_pos rfl, enqueue_off hoff']
    exact ⟨⟨hs, hreplugs, hident, hclass, hhealth, hpolicy, fun h => by simp [hauto] at h, fun _ => hst,
      hadm.othersKept fun d hd => (hothers d hd).trans (ho d hd), (hadm.debounce.trans hdeb').trans hdeb,
      (hadm.replug.trans hrep').trans hrep⟩, hadm.sbe.trans hsbe⟩

theorem debounceEnd_arrived {b : Bay} (hd : s.bmon.debounce[b].isSome = true) (hp : s.pins.presence[b] = .present)
    (hf : (s.bay b).settlingFrom = some .absent) : debounceEnd b s = arrived b (setDebounce b none s) := by
  unfold debounceEnd
  rw [if_pos hd, hp, hf]

theorem debounceEnd_glitch {b : Bay} (hd : s.bmon.debounce[b].isSome = true) (hp : s.pins.presence[b] = .present)
    (hf : (s.bay b).settlingFrom = some .present) : debounceEnd b s = enterOff b id .glitch (setDebounce b none s) := by
  unfold debounceEnd
  rw [if_pos hd, hp, hf]

theorem arrived_replugged {b : Bay} (h : s.bmon.replug[b].isSome = true) : arrived b s
    = enterOff b (fun r => { r with replugCount := (s.bay b).replugs }) (.replugged (s.bay b).replugs)
      (setReplug b none s) := if_pos h

theorem arrived_inserted {b : Bay} (h : ¬ s.bmon.replug[b].isSome = true) :
    arrived b s = enterOff b id .inserted s := if_neg h

/-- The replug count after a debounce that ends with the contact PRESENT: a bay that was EMPTY with its replug window
running counts one more (R5). -/
def settledCount (s : State) (b : Bay) (from' : Presence) : Nat :=
  if from' = .absent ∧ s.bmon.replug[b].isSome = true then min ((s.bay b).replugCount + 1) 255 else (s.bay b).replugCount

/-- Its history entry (R5, R6). -/
def settledEvent (s : State) (b : Bay) (from' : Presence) : HistEvent :=
  if from' = .present then .glitch
  else if s.bmon.replug[b].isSome = true then .replugged (settledCount s b from') else .inserted

/-- Its replug windows: the one of a replug stops (R5, R7). -/
def settledReplug (s : State) (b : Bay) (from' : Presence) : Vector Timer 24 :=
  if from' = .absent ∧ s.bmon.replug[b].isSome = true then s.bmon.replug.set b none else s.bmon.replug

/-- The state with the timers such a debounce leaves. -/
def settledTimers (s : State) (b : Bay) (from' : Presence) : State :=
  { s with bmon := { s.bmon with debounce := s.bmon.debounce.set b none, replug := settledReplug s b from' } }

/-- The record with which the bay enters OFF. -/
def settledRec (s : State) (b : Bay) (from' : Presence) : BayRec :=
  ({ (s.bay b).enter .off with replugCount := settledCount s b from' } : BayRec).pushed (settledEvent s b from')
    s.clock.uptime

/-- With the contact PRESENT the bay enters OFF (R5, R6). -/
theorem debounceEnd_enterOff {b : Bay} {from' : Presence} (hd : s.bmon.debounce[b].isSome = true)
    (hp : s.pins.presence[b] = .present) (hf : (s.bay b).settlingFrom = some from') :
    ∃ f : BayRec → BayRec, debounceEnd b s = enterOff b f (settledEvent s b from') (settledTimers s b from') ∧
      f ((s.bay b).enter .off) = { (s.bay b).enter .off with replugCount := settledCount s b from' } := by
  unfold settledTimers settledReplug settledEvent settledCount
  cases from' with
  | present =>
    rw [debounceEnd_glitch hd hp hf]
    exact ⟨id, rfl, rfl⟩
  | absent =>
    rw [debounceEnd_arrived hd hp hf]
    by_cases hw : s.bmon.replug[b].isSome = true
    · rw [arrived_replugged (s := setDebounce b none s) hw]
      simp only [hw, and_self, if_true, reduceCtorEq, if_false]
      exact ⟨_, rfl, rfl⟩
    · rw [arrived_inserted (s := setDebounce b none s) hw]
      simp only [hw, and_false, if_false, reduceCtorEq]
      exact ⟨id, rfl, rfl⟩

/-- What the identity request leaves of the sideband (R69, R70, R73). -/
theorem offBay_sbe {b : Bay} {f : BayRec → BayRec} {ev : HistEvent} (h : (s.bay b).state = .settling)
    (hf : (f ((s.bay b).enter .off)).state = .off) (hq : pollQueued s b = false) :
    (offBay b f ev s).sbe = (startNext { s with sbe := { s.sbe with pollQ := s.sbe.pollQ ++
      [{ bay := b, item := .ident, origin := .arrival, slot := none, take := s.clock.tick }] } }).sbe := by
  generalize hu : pushHistory b ev (moveBay b (fun r => f (r.enter .off)) s) = u
  have hsbe : u.sbe = s.sbe := by
    rw [← hu, (pushHistory_keeps b _ _).2.2.1]
    exact moveBayWith_sbe none b _ s (by rw [h]; simp) (by rw [hf]; simp) (by rw [hf]; simp)
  have hclock : u.clock = s.clock := by rw [← hu]; simp
  have hqu : pollQueued u b = false := by
    unfold pollQueued
    rw [hsbe]
    exact hq
  unfold offBay
  rw [hu, requestIdent_new hqu, hsbe, hclock]
  exact startNext_sbe_congr rfl rfl

/-- The end of a debounce with the contact PRESENT: what becomes of the bay in OFF, and the sideband's part. -/
theorem debounceEnd_entersOff {b : Bay} {from' : Presence} (hd : s.bmon.debounce[b].isSome = true)
    (hp : s.pins.presence[b] = .present) (hf : (s.bay b).settlingFrom = some from') :
    EntersOff b (settledRec s b from') (settledTimers s b from') (debounceEnd b s) ∧
    ((s.bay b).state = .settling → pollQueued s b = false →
      (debounceEnd b s).sbe = (startNext { s with sbe := { s.sbe with pollQ := s.sbe.pollQ ++
        [{ bay := b, item := .ident, origin := .arrival, slot := none, take := s.clock.tick }] } }).sbe) := by
  obtain ⟨f, hend, hrec⟩ := debounceEnd_enterOff hd hp hf
  obtain ⟨henters, hsbe⟩ := entersOff_enterOff (s := settledTimers s b from') (b := b) (f := f)
    (ev := settledEvent s b from') (r := settledRec s b from')
    (by rw [show (settledTimers s b from').bay b = s.bay b from rfl, hrec]; rfl) rfl rfl
  rw [hend]
  refine ⟨henters, fun hst hq => hsbe.trans ?_⟩
  exact (offBay_sbe (s := settledTimers s b from') hst (congrArg BayRec.state hrec) hq).trans (startNext_sbe_congr rfl rfl)

theorem settledReplug_own (s : State) (b : Bay) (from' : Presence) : (settledReplug s b from')[b]
    = if from' = .absent ∧ s.bmon.replug[b].isSome = true then none else s.bmon.replug[b] := by
  unfold settledReplug
  split
  · rw [getFin_set, if_pos rfl]
  · rfl

/-! ### The statement -/

/-- The debounce ends with the contact ABSENT: the bay is EMPTY (R4, R7, R10). -/
theorem debounceStep_empties {b : Bay} {from' : Presence} (hd : s.bmon.debounce[b].isSome = true)
    (hp : s.pins.presence[b] = .absent) (hf : (s.bay b).settlingFrom = some from') :
    let t := debounceStep b s
    t.bmon.debounce[b] = none ∧ (t.bay b).state = .empty ∧ (t.bay b).settlingFrom = none ∧
    (t.bay b).faultCause = none ∧ (t.bay b).replugCount = (s.bay b).replugCount ∧ (t.bay b).policy = (s.bay b).policy ∧
    OthersKept (· = b) s t := by
  cases from' with
  | absent =>
    obtain ⟨hbay, hothers, hdeb, -⟩ := debounceStep_silent hd hp hf
    exact ⟨hdeb, by rw [hbay]; rfl, by rw [hbay]; rfl, by rw [hbay]; rfl, by rw [hbay]; rfl, by rw [hbay]; rfl,
      fun d hdb => Or.inl (hothers d hdb)⟩
  | present =>
    obtain ⟨hbay, hothers, hdeb, -⟩ := debounceStep_removed hd hp hf
    exact ⟨hdeb, by rw [hbay]; rfl, by rw [hbay]; rfl, by rw [hbay]; rfl, by rw [hbay]; rfl, by rw [hbay]; rfl,
      fun d hdb => Or.inl (hothers d hdb)⟩

/-- What the sideband does at the end of the step as a bay in SETTLING comes to EMPTY (R80). -/
theorem debounceStep_purges {b : Bay} {from' : Presence} (hd : s.bmon.debounce[b].isSome = true)
    (hp : s.pins.presence[b] = .absent) (hf : (s.bay b).settlingFrom = some from') (hst : (s.bay b).state = .settling) :
    ∃ u, u.sbe = s.sbe ∧ u.mem = s.mem ∧ u.clock = s.clock ∧ u.exp.slots = s.exp.slots ∧
      (debounceStep b s).sbe = (purgeBay b u).sbe ∧ Changes (purgeBay b u) (debounceEnd b s) := by
  obtain ⟨f, hempty, hchain, hsbe⟩ := debounceEnd_empties hd hp hf
  rw [moveBay_purges (s := setDebounce b none s) hst hempty] at hchain hsbe
  obtain ⟨h1, h2, h3, h4⟩ := handedOver_keeps b f (setDebounce b none s)
  exact ⟨_, h1, h2, h3, h4, (sbe_debounceStep b s).trans hsbe, hchain⟩

theorem purgeBay_wf (b : Bay) (hw : s.mem.wf = true) : (purgeBay b s).mem.wf = true :=
  ((purgeBay_changes b s).written (endFlightEmpty_wf b hw)).wf

/-- Settles O26: the two ends of a debounce, and what the sideband does at each. -/
theorem debounceSettlesTheBay : Obligations.DebounceSettlesTheBay := by
  refine ⟨fun b s from' hd hp hf => answers_debounceExpiry ?_, fun b s from' hd hp hf => answers_debounceExpiry ?_,
    fun b s from' hd hp hf hw hst => answers_debounceExpiry ?_, fun b s from' hd hp hf hst hq => answers_debounceExpiry ?_⟩
  · obtain ⟨h1, h2, h3, h4, h5, h6, h7⟩ := debounceStep_empties hd hp hf
    refine ⟨h1, h2, h3, h4, h5, h6, fun hpres => ?_, fun habs => ?_, h7⟩
    · obtain ⟨hbay, -, -, hrep⟩ := debounceStep_removed hd hp (hpres ▸ hf)
      rw [hbay]
      exact ⟨rfl, rfl, rfl, rfl, rfl, hrep, rfl, rfl, rfl⟩
    · obtain ⟨hbay, -, -, hrep⟩ := debounceStep_silent hd hp (habs ▸ hf)
      rw [hbay]
      exact ⟨hrep, rfl, rfl⟩
  · obtain ⟨h, -⟩ := debounceEnd_entersOff hd hp hf
    rw [bay_debounceStep, bmon_debounceStep]
    refine ⟨?_, h.settles, h.replugs, ?_, h.identity, h.driveClass, h.health, h.policy, fun hoff => ?_, h.on, ?_⟩
    · rw [h.debounce]
      exact (getFin_set _ _ _ _).trans (if_pos rfl)
    · rw [h.replug]
      exact settledReplug_own s b from'
    · rw [h.off hoff]
      exact ⟨rfl, rfl⟩
    · intro d hdb
      rcases h.others d hdb with hsame | ⟨hq, hstart, hkept⟩
      · exact Or.inl (baySame_debounceStep hsame)
      · rw [bay_debounceStep]
        exact Or.inr ⟨hq, hstart, hkept⟩
  · obtain ⟨u, hsbe, hmem, hclock, hslots, hend, hchain⟩ := debounceStep_purges hd hp hf hst
    have hwu : u.mem.wf = true := hmem ▸ hw
    have hslot := slot_of_slots hslots
    refine ⟨fun x hx hb => ?_, fun hx => ?_, fun x n hx hb hn ht => ?_, fun e he hb n hn ht hx => ?_⟩
    · rw [hend, purgeBay_sbe_other (by rw [hsbe]; exact hx) hb, hsbe]
    · rw [hend, purgeBay_sbe_idle (by rw [hsbe]; exact hx), hsbe, hclock]
    · have hdone := purgeBay_flight_completed (by rw [hsbe]; exact hx) hb hn hwu (by rw [hslot]; exact ht)
      rw [hslot, hclock, queryDetail, hb, List.append_nil] at hdone
      exact hchain.completed_finishStep (purgeBay_wf b hwu) hdone
    · obtain ⟨tag, w, d, hdone⟩ := purgeBay_queued_completed (by rw [hsbe]; exact he) hb hn hwu (by rw [hslot]; exact ht)
        (by rw [hsbe]; exact hx)
      have hfinal := hchain.completed_finishStep (purgeBay_wf b hwu) hdone
      exact ⟨hfinal.done, hfinal.code⟩
  · have hsbe := (sbe_debounceStep b s).trans ((debounceEnd_entersOff hd hp hf).2 hst hq)
    rw [hsbe]
    refine ⟨fun hbusy => ?_, fun hidle => ?_⟩
    · obtain ⟨x, hx⟩ := Option.isSome_iff_exists.mp hbusy
      rw [startNext_sbe_busy (x := x) (by exact hx)]
    · rw [startNext_sbe_idle (by exact hidle)]

end Sys2Proof.Machine

/-! SUPPORT. The settings of the part, and that every operation but their own commands' leaves them. -/

namespace Sys2Proof.Machine

variable {s t : State}

/-- The settings of a fan (R123). -/
def FanRec.settings (r : FanRec) : Bool × Nat × Nat × Nat := (r.installed, r.ppr, r.maxUnits, r.threshold)

@[simp] theorem FanRec.settings_eq_iff (r q : FanRec) : r.settings = q.settings ↔
    r.installed = q.installed ∧ r.ppr = q.ppr ∧ r.maxUnits = q.maxUnits ∧ r.threshold = q.threshold := by
  simp [FanRec.settings]

@[simp] theorem FanRec.driven_settings (r : FanRec) (n : Nat) : (r.driven n).settings = r.settings := by
  unfold FanRec.driven
  split <;> simp

@[simp] theorem FanRec.committed_settings (r : FanRec) (l : Learn) (n : Nat) :
    (r.committed l n).settings = r.settings := by simp [FanRec.committed]

/-- The working copy and its bank (R98). -/
def Thc.curves (x : Thc) : Option (Vector CurveRec 4) × Option Bank := (x.working, x.bank)

/-- The pattern table and the AUTO map (R134, R142). -/
def Lgt.tables (l : Lgt) : Vector Pattern 16 × Vector AutoEntry 8 := (l.patterns, l.autoMap)

/-- What the host has set up: it stays until an order of its own, or a power-on reset, changes it. -/
structure Setup where
  policy : Bay → Policy
  account : Settings
  interval : Nat
  curves : Option (Vector CurveRec 4) × Option Bank
  fan : FanId → Bool × Nat × Nat × Nat
  tables : Vector Pattern 16 × Vector AutoEntry 8

/-- The settings a state holds. -/
def State.setup (s : State) : Setup :=
  { policy := fun b => (s.bay b).policy, account := s.account.settings, interval := s.sbe.interval,
    curves := s.thc.curves, fan := fun f => (s.fan f).settings, tables := s.lgt.tables }

/-- States with the same settings in each block have the same set-up. -/
theorem setup_congr (h1 : ∀ b, (t.bay b).policy = (s.bay b).policy) (h2 : t.account.settings = s.account.settings)
    (h3 : t.sbe.interval = s.sbe.interval) (h4 : t.thc.curves = s.thc.curves)
    (h5 : ∀ f, (t.fan f).settings = (s.fan f).settings) (h6 : t.lgt.tables = s.lgt.tables) : t.setup = s.setup := by
  simp only [State.setup, h1, h2, h3, h4, h5, h6]

/-- An operation that leaves every block but EXP, the memory, the pins and the counters leaves the settings. -/
theorem setup_of_blocks (h1 : t.bmon = s.bmon) (h2 : t.pseq = s.pseq) (h3 : t.sbe = s.sbe) (h4 : t.thc = s.thc)
    (h5 : t.fanu = s.fanu) (h6 : t.lgt = s.lgt) : t.setup = s.setup := by
  simp only [State.setup, State.bay, State.account, State.fan, h1, h2, h3, h4, h5, h6]

/-! ### The light tables -/

@[simp] theorem setChan_tables (l : Lgt) (c : Chan) (ch : Channel) : (l.setChan c ch).tables = l.tables := rfl

/-- Steps of LGT that keep its tables keep them one after another. -/
theorem foldl_tables {α : Type} {f : Lgt → α → Lgt} (h : ∀ l a, (f l a).tables = l.tables) (as : List α) (l : Lgt) :
    (as.foldl f l).tables = l.tables := by
  induction as generalizing l with
  | nil => rfl
  | cons a rest ih => exact (ih (f l a)).trans (h l a)

@[simp] theorem syncRestart_tables (l : Lgt) (c : Chan) : (syncRestart l c).tables = l.tables := by
  unfold syncRestart
  split <;> simp

@[simp] theorem gateOpened_tables (l : Lgt) (c : Chan) : (gateOpened l c).1.tables = l.tables :=
  foldl_tables syncRestart_tables _ l

@[simp] theorem freshCycle_tables (l : Lgt) (c : Chan) : (freshCycle l c).1.tables = l.tables := by
  unfold freshCycle
  split <;> simp

@[simp] theorem startDriving_tables (l : Lgt) (c : Chan) : (startDriving l c).1.tables = l.tables := by
  unfold startDriving
  dsimp only
  split <;> simp

@[simp] theorem chooseDriving_tables (l : Lgt) (c : Chan) : (chooseDriving l c).1.tables = l.tables := by
  unfold chooseDriving
  split <;> simp

@[simp] theorem refreshAuto_tables (l : Lgt) (c : Chan) : (refreshAuto l c).tables = l.tables := by simp [refreshAuto]

@[simp] theorem handOver_tables (l : Lgt) (b : Bay) (c : Condition) (w : Bool) :
    (l.handOver b c w).tables = l.tables := by
  unfold Lgt.handOver
  rw [refreshAuto_tables, refreshAuto_tables]
  rfl

@[simp] theorem setAutoMap_tables (l : Lgt) (m : Vector AutoEntry 8) : (l.setAutoMap m).tables = (l.patterns, m) :=
  foldl_tables refreshAuto_tables _ _

@[simp] theorem setOrder_tables (l : Lgt) (c : Chan) (p : PatId) : (l.setOrder c p).tables = l.tables := by
  unfold Lgt.setOrder
  dsimp only
  split <;> simp

@[simp] theorem emptyOrder_tables (l : Lgt) (c : Chan) : (emptyOrder l c).1.tables = l.tables := by simp [emptyOrder]

@[simp] theorem setLocate_tables (l : Lgt) (c : Chan) (p : PatId) (x : Timer) (d : Option Word) :
    (l.setLocate c p x d).tables = l.tables := by simp [Lgt.setLocate]

@[simp] theorem emptyLocate_tables (l : Lgt) (c : Chan) : (emptyLocate l c).1.tables = l.tables := by
  simp [emptyLocate]

@[simp] theorem patternEnd_tables (l : Lgt) (c : Chan) : (patternEnd l c).1.tables = l.tables := by
  unfold patternEnd
  split <;> simp

@[simp] theorem closedLast_tables (l : Lgt) (c : Chan) (ch : Channel) : (closedLast l c ch).1.tables = l.tables := by
  unfold closedLast
  split <;> simp

@[simp] theorem stepChannel_tables (l : Lgt) (c : Chan) (p : Pattern) : (stepChannel l c p).1.tables = l.tables := by
  unfold stepChannel
  dsimp only
  (repeat' split) <;> simp

@[simp] theorem envelopeStep_tables (l : Lgt) : l.envelopeStep.tables = l.tables := by
  have one : ∀ (acc : Lgt × List Chan) (c : Chan), (stepOne acc c).1.tables = acc.1.tables := by
    intro acc c
    unfold stepOne
    (repeat' split) <;> simp
  have all : ∀ (cs : List Chan) (acc : Lgt × List Chan), (cs.foldl stepOne acc).1.tables = acc.1.tables := by
    intro cs
    induction cs with
    | nil => exact fun _ => rfl
    | cons c rest ih => exact fun acc => (ih _).trans (one acc c)
  exact all _ _

@[simp] theorem activityDip_tables (l : Lgt) (c : Chan) : (activityDip l c).tables = l.tables := by
  unfold activityDip
  dsimp only
  (repeat' split) <;> simp

@[simp] theorem loadPatterns_tables (l : Lgt) (first count : Nat) (table : Vector Pattern 16) :
    (l.loadPatterns first count table).tables = (table, l.autoMap) := by
  refine foldl_tables (fun l c => ?_) _ _
  unfold restartLoaded
  (repeat' split) <;> simp

@[simp] theorem setGroup_tables (l : Lgt) (c : Chan) (g : Fin 5) : (l.setGroup c g).tables = l.tables := rfl

@[simp] theorem locateAll_tables (bs : List Bay) (p : PatId) (n : Nat) (u : Word) (l : Lgt) :
    (locateAll bs p n u l).tables = l.tables := foldl_tables (fun _ _ => setLocate_tables _ _ _ _ _) _ _

@[simp] theorem clearLocate_tables (bs : List Bay) (l : Lgt) : (clearLocate bs l).tables = l.tables :=
  foldl_tables (fun _ _ => emptyLocate_tables _ _) _ _

/-! ### The poll interval -/

@[simp] theorem startNext_interval (s : State) : (startNext s).sbe.interval = s.sbe.interval := by
  unfold startNext
  (repeat' split) <;> rfl

@[simp] theorem joinOrder_interval (e : SbEntry) (s : State) : (joinOrder e s).sbe.interval = s.sbe.interval :=
  startNext_interval _

@[simp] theorem joinPoll_interval (e : SbEntry) (s : State) : (joinPoll e s).sbe.interval = s.sbe.interval :=
  startNext_interval _

@[simp] theorem placePoll_interval (b : Bay) (s : State) : (placePoll b s).sbe.interval = s.sbe.interval := by
  unfold placePoll
  split <;> simp

@[simp] theorem pollVisit_interval (s : State) : (pollVisit s).sbe.interval = s.sbe.interval := by
  have hvisit : ∀ (s : State) (b : Bay), (visitBay s b).sbe.interval = s.sbe.interval := by
    intro s b
    unfold visitBay
    split <;> simp
  unfold pollVisit
  rw [foldl_keeps (fun s => s.sbe.interval) visitBay hvisit]

@[simp] theorem followUp_interval (e : SbEntry) (s : State) : (followUp e s).sbe.interval = s.sbe.interval := by
  unfold followUp
  split <;> rfl

@[simp] theorem requestIdent_interval (b : Bay) (s : State) : (requestIdent b s).sbe.interval = s.sbe.interval := by
  unfold requestIdent
  split <;> simp

@[simp] theorem purgeBay_interval (b : Bay) (s : State) : (purgeBay b s).sbe.interval = s.sbe.interval := by
  have hend : (endFlightEmpty b s).sbe.interval = s.sbe.interval := by
    unfold endFlightEmpty
    (repeat' split) <;> simp
  rw [purgeBay, startNext_interval, removeEntries_sbe]
  exact hend

@[simp] theorem handSideband_interval (b : Bay) (x : BayState) (s : State) :
    (handSideband b x s).sbe.interval = s.sbe.interval := by
  unfold handSideband pollEntered
  dsimp only
  (repeat' split) <;> simp

/-! ### The working copy -/

@[simp] theorem handThermal_curves (b : Bay) (s : State) : (handThermal b s).thc.curves = s.thc.curves := by
  have hactive : ∀ on, (setActiveFact b on s).thc.curves = s.thc.curves := by
    intro on
    unfold setActiveFact
    (repeat' split) <;> simp [Thc.curves, Thc.activated, Thc.deactivated]
  unfold handThermal setStartingFact
  split
  · exact hactive _
  · exact hactive _

@[simp] theorem deliverFailed_curves (f : FanId) (x : Bool) (s : State) :
    (deliverFailed f x s).thc.curves = s.thc.curves := by
  unfold deliverFailed
  rw [(markFailedCounts_keeps _ _).2.2.2.2.1]
  rfl

@[simp] theorem applyMap_curves (s : State) : (applyMap s).thc.curves = s.thc.curves := by
  have hfit : ∀ (m : Byte) (s : State) (n : Fin 8), (fitSensor m s n).thc.curves = s.thc.curves := by
    intro m s n
    unfold fitSensor Thc.fit
    rw [setSensor_thc]
    split <;> rfl
  unfold applyMap
  split
  · rfl
  · rename_i p _
    dsimp only
    rw [(completeOpt_keeps _ _ _ _).2.2.2.2.1, (markFailedCounts_keeps _ _).2.2.2.2.1]
    have hfold := foldl_keeps (fun s => s.thc.curves) (fitSensor p.fitted) (hfit p.fitted) (List.finRange 8)
      { s with thc := s.thc.mapped p }
    generalize (List.finRange 8).foldl (fitSensor p.fitted) { s with thc := s.thc.mapped p } = u at hfold ⊢
    exact hfold

/-! ### One block changed -/

/-- A change of a bay's record that leaves its policy. -/
@[simp] theorem updBay_setup (b : Bay) {f : BayRec → BayRec} (s : State) (h : ∀ r, (f r).policy = r.policy) :
    (updBay b f s).setup = s.setup := by
  refine setup_congr (fun d => ?_) (by simp [State.account]) (by simp) (by simp) (by simp [State.fan]) (by simp)
  rw [bay_updBay]
  split
  · rename_i hd
    rw [h, hd]
  · rfl

@[simp] theorem pushHistory_setup (b : Bay) (ev : HistEvent) (s : State) : (pushHistory b ev s).setup = s.setup :=
  updBay_setup b _ fun _ => rfl

/-- A change of PSEQ that leaves the account's settings. -/
@[simp] theorem updPseq_setup {f : Pseq → Pseq} (s : State) (h : ∀ p, (f p).account.settings = p.account.settings) :
    (updPseq f s).setup = s.setup :=
  setup_congr (fun b => by rw [bay_of_bmon (updPseq_keeps f s).2.1]) (by simp [State.account, h]) (by simp) (by simp)
    (by simp [State.fan]) (by simp)

@[simp] theorem updAccount_setup {f : Account → Account} (s : State) (h : ∀ a, (f a).settings = a.settings) :
    (updAccount f s).setup = s.setup := updPseq_setup s fun _ => h _

@[simp] theorem updPath_setup (b : Bay) (f : Path → Path) (s : State) : (updPath b f s).setup = s.setup := rfl

@[simp] theorem dropEntry_setup (b : Bay) (s : State) : (dropEntry b s).setup = s.setup := updPseq_setup s fun _ => rfl

@[simp] theorem setLgt_setup {l : Lgt} (s : State) (h : l.tables = s.lgt.tables) : (setLgt l s).setup = s.setup :=
  setup_congr (fun b => by rw [bay_of_bmon (setLgt_keeps l s).2.1]) (by simp [State.account]) (by simp) (by simp)
    (by simp [State.fan]) (by simpa using h)

@[simp] theorem setSensor_setup (i : SensorId) {x : Thc} (s : State) (h : x.curves = s.thc.curves) :
    (setSensor i x s).setup = s.setup :=
  setup_congr (fun b => by rw [bay_of_bmon (setSensor_keeps i x s).2.1]) (by simp [State.account]) (by simp)
    (by simpa using h) (by simp [State.fan]) (by simp)

/-- A change of a fan's record that leaves its settings. -/
@[simp] theorem updFan_setup (f : FanId) {g : FanRec → FanRec} (s : State) (h : ∀ r, (g r).settings = r.settings) :
    (updFan f g s).setup = s.setup := by
  refine setup_congr (fun b => by rw [bay_of_bmon (updFan_keeps f g s).2.1]) (by simp [State.account]) (by simp)
    (by simp) (fun d => ?_) (by simp)
  rw [fan_updFan]
  split
  · rename_i hd
    rw [h, hd]
  · rfl

@[simp] theorem updWork_setup (f : FanId) (g : FanWork → FanWork) (s : State) : (updWork f g s).setup = s.setup := rfl

@[simp] theorem complete_setup (n : SlotId) (r : Result) (d : List Byte) (s : State) :
    (complete n r d s).setup = s.setup := setup_of_blocks (by simp) (by simp) (by simp) (by simp) (by simp) (by simp)

@[simp] theorem completeOpt_setup (o : Option SlotId) (r : Result) (d : List Byte) (s : State) :
    (completeOpt o r d s).setup = s.setup := setup_of_blocks (by simp) (by simp) (by simp) (by simp) (by simp) (by simp)

@[simp] theorem markIf_setup (c : Bool) (r : MirrorRec) (n : Bool) (s : State) : (markIf c r n s).setup = s.setup :=
  setup_of_blocks (by simp) (by simp) (by simp) (by simp) (by simp) (by simp)

@[simp] theorem mark_setup (r : MirrorRec) (n : Bool) (s : State) : (mark r n s).setup = s.setup :=
  setup_of_blocks (by simp) (by simp) (by simp) (by simp) (by simp) (by simp)

@[simp] theorem takeSlot_setup (n : SlotId) (s : State) : (takeSlot n s).setup = s.setup := rfl

@[simp] theorem setDebounce_setup (b : Bay) (x : Timer) (s : State) : (setDebounce b x s).setup = s.setup := rfl

@[simp] theorem setReplug_setup (b : Bay) (x : Timer) (s : State) : (setReplug b x s).setup = s.setup := rfl

@[simp] theorem finishStep_setup (s : State) : (finishStep s).setup = s.setup :=
  setup_of_blocks (by simp) (by simp) (by simp) (by simp) (by simp) (by simp)

@[simp] theorem requestIdent_setup (b : Bay) (s : State) : (requestIdent b s).setup = s.setup :=
  setup_congr (fun d => by rw [bay_of_bmon (requestIdent_keeps b s).2.1]) (by simp [State.account]) (by simp) (by simp)
    (by simp [State.fan]) (by simp)

@[simp] theorem joinOrder_setup (e : SbEntry) (s : State) : (joinOrder e s).setup = s.setup :=
  setup_congr (fun d => by rw [bay_of_bmon (joinOrder_keeps e s).2.1]) (by simp [State.account]) (by simp) (by simp)
    (by simp [State.fan]) (by simp)

@[simp] theorem startNext_setup (s : State) : (startNext s).setup = s.setup :=
  setup_congr (fun d => by rw [bay_of_bmon (startNext_keeps s).2.1]) (by simp [State.account]) (by simp) (by simp)
    (by simp [State.fan]) (by simp)

@[simp] theorem followUp_setup (e : SbEntry) (s : State) : (followUp e s).setup = s.setup :=
  setup_congr (fun d => by rw [bay_of_bmon (followUp_keeps e s).2.1]) (by simp [State.account]) (by simp) (by simp)
    (by simp [State.fan]) (by simp)

/-! ### A bay's change -/

@[simp] theorem BayRec.settling_policy (r : BayRec) : r.settling.policy = r.policy := by simp [BayRec.settling]
@[simp] theorem BayRec.departed_policy (r : BayRec) : r.departed.policy = r.policy := by simp [BayRec.departed]
@[simp] theorem BayRec.faulted_policy (r : BayRec) (c : FaultCause) : (r.faulted c).policy = r.policy := by
  simp [BayRec.faulted]
@[simp] theorem BayRec.held'_policy (r : BayRec) : r.held'.policy = r.policy := by simp [BayRec.held']
@[simp] theorem BayRec.identified_policy (r : BayRec) (i : Identity) : (r.identified i).policy = r.policy := by
  simp [BayRec.identified]

@[simp] theorem handThermal_setup (b : Bay) (s : State) : (handThermal b s).setup = s.setup :=
  setup_congr (fun d => by rw [bay_of_bmon (handThermal_keeps b s).2.1]) (by simp [State.account]) (by simp) (by simp)
    (by simp [State.fan]) (by simp)

@[simp] theorem handLights_setup (b : Bay) (s : State) : (handLights b s).setup = s.setup := by
  unfold handLights
  (repeat' split) <;> simp

@[simp] theorem handSideband_setup (b : Bay) (x : BayState) (s : State) : (handSideband b x s).setup = s.setup :=
  setup_congr (fun d => by rw [bay_of_bmon (handSideband_keeps b x s).2.1]) (by simp [State.account]) (by simp) (by simp)
    (by simp [State.fan]) (by simp)

@[simp] theorem moveBayWith_setup (j : Option QEntry) (b : Bay) {f : BayRec → BayRec} (s : State)
    (h : ∀ r, (f r).policy = r.policy) : (moveBayWith j b f s).setup = s.setup := by
  rw [moveBayWith, handSideband_setup, handLights_setup, handThermal_setup, turnBay, updBay_setup b _ h]
  exact updPseq_setup s fun _ => rfl

@[simp] theorem moveBay_setup (b : Bay) {f : BayRec → BayRec} (s : State) (h : ∀ r, (f r).policy = r.policy) :
    (moveBay b f s).setup = s.setup := moveBayWith_setup none b s h

@[simp] theorem report_setup (b : Bay) (acts : BayRec → Bool) {f : BayRec → BayRec} (events : List HistEvent) (s : State)
    (h : ∀ r, (f r).policy = r.policy) : (report b acts f events s).setup = s.setup := by
  unfold report
  split
  · exact (foldl_keeps State.setup _ (fun s ev => pushHistory_setup b ev s) events _).trans (moveBay_setup b s h)
  · rfl

end Sys2Proof.Machine

/-! SUPPORT. The operations of BMON, PSEQ, SBE and FANU leave the settings. -/

namespace Sys2Proof.Machine

variable {s t : State}

/-! ### The ladder, the queue and the power path -/

@[simp] theorem attemptGood_setup (b : Bay) (s : State) : (attemptGood b s).setup = s.setup := by
  unfold attemptGood
  split <;> simp

@[simp] theorem attemptBegin_setup (b : Bay) (s : State) : (attemptBegin b s).setup = s.setup := by
  unfold attemptBegin
  dsimp only
  (repeat' split) <;> simp

@[simp] theorem admitEntry_setup (e : QEntry) (s : State) : (admitEntry e s).setup = s.setup := by
  unfold admitEntry
  split <;> simp

@[simp] theorem admitWhileFits_setup (n : Nat) (s : State) : (admitWhileFits n s).setup = s.setup := by
  induction n generalizing s with
  | zero => rfl
  | succ n ih =>
    unfold admitWhileFits
    split
    · rfl
    · split
      · exact (ih _).trans (admitEntry_setup _ s)
      · rfl

@[simp] theorem updateBlocked_setup (s : State) : (updateBlocked s).setup = s.setup := by
  have h : ∀ r, (updAccount (fun a => { a with blocked := r }) s).setup = s.setup := fun r =>
    updAccount_setup s fun _ => rfl
  unfold updateBlocked
  dsimp only
  split
  · exact h _
  · exact h _

@[simp] theorem evaluate_setup (s : State) : (evaluate s).setup = s.setup := by simp [evaluate]

@[simp] theorem deliverEstimate_setup (n : Nat) (s : State) : (deliverEstimate n s).setup = s.setup := by
  unfold deliverEstimate
  dsimp only
  (repeat' split) <;> simp

@[simp] theorem enqueue_setup (b : Bay) (c : QClass) (o : Option SlotId) (s : State) :
    (enqueue b c o s).setup = s.setup := by
  unfold enqueue
  split <;> simp

@[simp] theorem cancelQueued_setup (b : Bay) (s : State) : (cancelQueued b s).setup = s.setup := by
  unfold cancelQueued
  split <;> simp

@[simp] theorem lostQueued_setup (b : Bay) (s : State) : (lostQueued b s).setup = s.setup := by
  unfold lostQueued
  dsimp only
  split <;> simp

@[simp] theorem completePower_setup (b : Bay) (r : Result) (d : List Byte) (s : State) :
    (completePower b r d s).setup = s.setup := completeOpt_setup _ r d s

@[simp] theorem attemptFail_setup (b : Bay) (o : AttemptOutcome) (s : State) :
    (attemptFail b o s).setup = s.setup := by
  unfold attemptFail exhausted
  dsimp only
  (repeat' split) <;> simp

@[simp] theorem coolOffEnd_setup (b : Bay) (s : State) : (coolOffEnd b s).setup = s.setup := by
  unfold coolOffEnd
  split <;> simp

@[simp] theorem spinEnd_setup (b : Bay) (s : State) : (spinEnd b s).setup = s.setup := by
  unfold spinEnd
  split <;> simp

@[simp] theorem startHold_setup (b : Bay) (n : Nat) (s : State) : (startHold b n s).setup = s.setup := by
  unfold startHold finishHold
  split <;> simp

@[simp] theorem finishHold_setup (b : Bay) (s : State) : (finishHold b s).setup = s.setup := by simp [finishHold]

@[simp] theorem standbyEnd_setup (b : Bay) (o : StandbyOutcome) (x : Option SbResult) (c : Option CutCause) (s : State) :
    (standbyEnd b o x c s).setup = s.setup := by
  unfold standbyEnd
  split <;> simp

@[simp] theorem immediateStop_setup (b : Bay) (n : SlotId) (h : Nat) (s : State) :
    (immediateStop b n h s).setup = s.setup := by simp [immediateStop]

@[simp] theorem gracefulStop_setup (b : Bay) (n : SlotId) (h : Nat) (s : State) :
    (gracefulStop b n h s).setup = s.setup := by
  have hask : ∀ u v, requestStandby b u = some v → v.setup = u.setup := by
    intro u v h
    unfold requestStandby at h
    split at h
    · cases h
      exact joinOrder_setup _ u
    · cases h
  unfold gracefulStop
  dsimp only
  split
  · rename_i v hv
    rw [hask _ v hv]
    simp
  · simp

@[simp] theorem powerCut_setup (b : Bay) (c : CutCause) (s : State) : (powerCut b c s).setup = s.setup := by
  unfold powerCut runningFault
  (repeat' split) <;> simp

@[simp] theorem shed_setup (b : Bay) (n : Nat) (s : State) : (shed b n s).setup = s.setup := by
  unfold shed
  split <;> simp

@[simp] theorem earlyCut_setup (b : Bay) (s : State) : (earlyCut b s).setup = s.setup := by
  unfold earlyCut
  dsimp only
  split <;> simp

/-! ### Presence -/

@[simp] theorem enterSettling_setup (b : Bay) (s : State) : (enterSettling b s).setup = s.setup := by
  unfold enterSettling
  split <;> simp

@[simp] theorem presenceChanged_setup (b : Bay) (s : State) : (presenceChanged b s).setup = s.setup :=
  enterSettling_setup b (togglePresence b s)

theorem enterOff_setup (b : Bay) {f : BayRec → BayRec} (ev : HistEvent) (s : State) (h : ∀ r, (f r).policy = r.policy) :
    (enterOff b f ev s).setup = s.setup := by
  unfold enterOff
  dsimp only
  split <;> simp [h]

@[simp] theorem debounceEnd_setup (b : Bay) (s : State) : (debounceEnd b s).setup = s.setup := by
  have harrived : (arrived b (setDebounce b none s)).setup = s.setup := by
    unfold arrived
    dsimp only
    split
    · exact enterOff_setup b _ _ fun _ => rfl
    · exact enterOff_setup b _ _ fun _ => rfl
  have hglitch : (enterOff b id .glitch (setDebounce b none s)).setup = s.setup := enterOff_setup b _ _ fun _ => rfl
  unfold debounceEnd removed
  dsimp only
  (repeat' split) <;> simp [harrived, hglitch]

/-! ### Transactions and deliveries -/

@[simp] theorem deliverTemp_setup (b : Bay) (q : Option Int) (s : State) : (deliverTemp b q s).setup = s.setup := by
  unfold deliverTemp
  dsimp only
  split
  · rw [setSensor_setup _ _ (by rfl)]
    rfl
  · rfl

@[simp] theorem deliverIdentity_setup (b : Bay) (o : Option Identity) (s : State) :
    (deliverIdentity b o s).setup = s.setup := by
  unfold deliverIdentity
  (repeat' split) <;> simp

@[simp] theorem deliverHealth_setup (b : Bay) (o : Option Byte) (s : State) :
    (deliverHealth b o s).setup = s.setup := by
  unfold deliverHealth
  (repeat' split) <;> simp

@[simp] theorem deliverStandby_setup (b : Bay) (r : SbResult) (s : State) :
    (deliverStandby b r s).setup = s.setup := by
  unfold deliverStandby
  split <;> simp

@[simp] theorem deliverResult_setup (e : SbEntry) (r : SbResult) (d : List Byte) (s : State) :
    (deliverResult e r d s).setup = s.setup := by
  unfold deliverResult
  dsimp only
  (repeat' split) <;> simp

@[simp] theorem endTxn_setup (x : Txn) (r : SbResult) (d : List Byte) (s : State) :
    (endTxn x r d s).setup = s.setup := by
  rw [endTxn, startNext_setup, followUp_setup, deliverResult_setup, completeOpt_setup]
  rfl

@[simp] theorem setFlight_setup (x : Txn) (s : State) : (setFlight x s).setup = s.setup := rfl

@[simp] theorem attemptFailed_setup (x : Txn) (r : SbResult) (s : State) : (attemptFailed x r s).setup = s.setup := by
  unfold attemptFailed
  dsimp only
  split <;> simp

@[simp] theorem replyArrived_setup (l : List Byte) (s : State) : (replyArrived l s).setup = s.setup := by
  unfold replyArrived attemptDeferred
  (repeat' split) <;> simp

@[simp] theorem noReply_setup (s : State) : (noReply s).setup = s.setup := by
  unfold noReply
  split <;> simp

@[simp] theorem spacingEnd_setup (s : State) : (spacingEnd s).setup = s.setup := by
  unfold spacingEnd
  (repeat' split) <;> simp

@[simp] theorem pollVisit_setup (s : State) : (pollVisit s).setup = s.setup :=
  setup_congr (fun d => by rw [bay_of_bmon (pollVisit_keeps s).2.1]) (by simp [State.account]) (by simp) (by simp)
    (by simp [State.fan]) (by simp)

/-! ### Fans -/

@[simp] theorem deliverFailed_setup (f : FanId) (x : Bool) (s : State) : (deliverFailed f x s).setup = s.setup :=
  setup_congr (fun b => by rw [bay_of_bmon (deliverFailed_keeps f x s).2.1]) (by simp [State.account]) (by simp)
    (by simp) (by simp [State.fan]) (by simp)

@[simp] theorem deliverFans_setup (s : State) : (deliverFans s).setup = s.setup := deliverEstimate_setup _ s

@[simp] theorem zoneControl_setup (f : FanId) (s : State) : (zoneControl f s).setup = s.setup := by simp [zoneControl]

@[simp] theorem enterFailed_setup (f : FanId) (s : State) : (enterFailed f s).setup = s.setup := by
  simp [enterFailed]

@[simp] theorem leftFailed_setup (f : FanId) (x : FanState) (s : State) : (leftFailed f x s).setup = s.setup := by
  unfold leftFailed
  split <;> simp

@[simp] theorem endLearn_setup (f : FanId) (l : Learn) (r : Result) (m : Nat) (s : State) :
    (endLearn f l r m s).setup = s.setup := by simp [endLearn]

@[simp] theorem noSpin_setup (f : FanId) (l : Learn) (s : State) : (noSpin f l s).setup = s.setup := by
  simp [noSpin]

@[simp] theorem stopLearn_setup (f : FanId) (l : Learn) (r : Result) (s : State) :
    (stopLearn f l r s).setup = s.setup := by
  simp [stopLearn]

@[simp] theorem visitLevel_setup (f : FanId) (l : Learn) (n : Fin 8) (s : State) :
    (visitLevel f l n s).setup = s.setup := by
  simp [visitLevel]

@[simp] theorem judgeLevel_setup (f : FanId) (l : Learn) (rpm : Nat) (s : State) :
    (judgeLevel f l rpm s).setup = s.setup := by
  unfold judgeLevel
  (repeat' split) <;> simp

@[simp] theorem learnGate_setup (f : FanId) (l : Learn) (s : State) : (learnGate f l s).setup = s.setup := by
  unfold learnGate
  dsimp only
  (repeat' split) <;> simp

@[simp] theorem runningGate_setup (f : FanId) (s : State) : (runningGate f s).setup = s.setup := by
  unfold runningGate
  dsimp only
  (repeat' split) <;> simp

@[simp] theorem kickGate_setup (f : FanId) (s : State) : (kickGate f s).setup = s.setup := by
  unfold kickGate
  dsimp only
  (repeat' split) <;> simp

@[simp] theorem failedGate_setup (f : FanId) (s : State) : (failedGate f s).setup = s.setup := by
  unfold failedGate
  dsimp only
  (repeat' split) <;> simp

@[simp] theorem actGate_setup (s : State) (f : FanId) : (actGate s f).setup = s.setup := by
  unfold actGate
  (repeat' split) <;> simp

@[simp] theorem storeReading_setup (s : State) (f : FanId) : (storeReading s f).setup = s.setup :=
  updFan_setup f s fun _ => rfl

@[simp] theorem markFans_setup (s : State) : (markFans s).setup = s.setup :=
  foldl_keeps State.setup _ (fun s f => mark_setup (.fan f) false s) _ s

@[simp] theorem gateExpiry_setup (s : State) : (gateExpiry s).setup = s.setup := by
  rw [gateExpiry, markFans_setup, foldl_keeps State.setup actGate actGate_setup,
    foldl_keeps State.setup storeReading storeReading_setup]
  rfl

@[simp] theorem handFan_setup (s : State) (f : FanId) : (handFan s f).setup = s.setup := by
  have happly : (applyOutput f s).setup = s.setup := by
    unfold applyOutput
    split <;> simp
  unfold handFan
  (repeat' split) <;> simp [happly]

@[simp] theorem handOutputs_setup (s : State) : (handOutputs s).setup = s.setup := by
  rw [handOutputs, markFans_setup, deliverFans_setup, foldl_keeps State.setup handFan handFan_setup]
  rfl

end Sys2Proof.Machine

/-! SUPPORT. What the commands of the bus and the host leave of the settings. -/

namespace Sys2Proof.Machine

variable {s t : State}

/-! ### The parts' events -/

@[simp] theorem setPowerGood_setup (b : Bay) (on : Bool) (s : State) : (setPowerGood b on s).setup = s.setup := rfl

@[simp] theorem powerGoodRises_setup (b : Bay) (s : State) : (powerGoodRises b s).setup = s.setup := by
  unfold powerGoodRises
  dsimp only
  split <;> simp

@[simp] theorem tripRises_setup (b : Bay) (s : State) : (tripRises b s).setup = s.setup := by
  unfold tripRises
  split <;> simp

@[simp] theorem powerGoodFalls_setup (b : Bay) (s : State) : (powerGoodFalls b s).setup = s.setup := by
  simp [powerGoodFalls]

@[simp] theorem rampEnd_setup (b : Bay) (s : State) : (rampEnd b s).setup = s.setup := by
  unfold rampEnd
  split <;> simp

@[simp] theorem holdOver_setup (b : Bay) (s : State) : (holdOver b s).setup = s.setup := by
  unfold holdOver
  split <;> simp

@[simp] theorem staggerOut_setup (s : State) : (staggerOut s).setup = s.setup := by
  unfold staggerOut
  split <;> simp

@[simp] theorem shedTaken_setup (b : Bay) (s : State) : (shedTaken b s).setup = s.setup := by
  unfold shedTaken
  dsimp only
  split
  · rfl
  · exact shed_setup b _ _

@[simp] theorem tickOn_setup (s : State) : (tickOn s).setup = s.setup := updAccount_setup _ fun _ => rfl

@[simp] theorem endBoardRead_setup (n : Fin 8) (q : Option Int) (s : State) :
    (endBoardRead n q s).setup = s.setup := by
  unfold endBoardRead
  dsimp only
  split
  · exact setSensor_setup _ s rfl
  · rfl

@[simp] theorem activity_setup (b : Bay) (s : State) : (activity b s).setup = s.setup := setLgt_setup s (by simp)

@[simp] theorem lightStep_setup (s : State) : (lightStep s).setup = s.setup := by
  have htimer : ∀ (l : Lgt) (x : Timer), { l with stepTimer := x }.tables = l.tables := fun _ _ => rfl
  exact setLgt_setup s (by rw [htimer, envelopeStep_tables])

@[simp] theorem locateExpiry_setup (b : Bay) (s : State) : (locateExpiry b s).setup = s.setup := by
  unfold locateExpiry
  split <;> simp

/-! ### The port -/

@[simp] theorem clearPowerOrders_setup (s : State) : (clearPowerOrders s).setup = s.setup := by
  have hbay : ∀ (s : State) (b : Bay), (updBay b (fun r => { r with powerOrder := none }) s).setup = s.setup :=
    fun s b => updBay_setup b s fun _ => rfl
  rw [clearPowerOrders, foldl_keeps State.setup _ hbay]

/-- The slots the owners drop are no settings. -/
@[simp] theorem dropSlots_setup (s : State) : (dropSlots s).setup = s.setup := by
  have hdrop : ∀ u : State, { u with
      pseq := u.pseq.slotless, sbe := u.sbe.slotless, thc := u.thc.slotless, fanu := u.fanu.slotless }.setup =
      u.setup := fun _ => rfl
  unfold dropSlots
  rw [hdrop, clearPowerOrders_setup]

@[simp] theorem portResetAll_setup (s : State) : (portResetAll s).setup = s.setup := by
  have hexp : ∀ u, (updExp Exp.portReset u).setup = u.setup := fun u =>
    setup_of_blocks (by simp) (by simp) (by simp) (by simp) (by simp) (by simp)
  rw [portResetAll, hexp, dropSlots_setup]

/-- EXP's own commands leave the settings, all but the power-on reset. -/
theorem portOwn_setup {c : Instr} (s : State) (h : portOwn c = true) (hreset : c ≠ .powerOnReset) :
    (body c s).setup = s.setup := by
  by_cases hport : c = .portReset
  · have hbody : body .portReset s = portResetAll s := rfl
    rw [hport, hbody, portResetAll_setup]
  · obtain ⟨hbmon, hpseq, hsbe, hthc, hfanu, hlgt⟩ := portOwn_keeps c s h hreset hport
    exact setup_of_blocks hbmon hpseq hsbe hthc hfanu hlgt

/-! ### Orders that leave the settings -/

@[simp] theorem powerOnOrder_setup (n : SlotId) (s : State) : (powerOnOrder n s).setup = s.setup := by
  have hbay : ∀ b cls, (powerOnBay n b cls s).setup = s.setup := by
    intro b cls
    unfold powerOnBay
    split <;> simp
  unfold powerOnOrder
  split <;> simp [hbay]

@[simp] theorem powerOffOrder_setup (n : SlotId) (s : State) : (powerOffOrder n s).setup = s.setup := by
  have hbay : ∀ b mode hold, (powerOffBay n b mode hold s).setup = s.setup := by
    intro b mode hold
    unfold powerOffBay
    (repeat' split) <;> simp
  unfold powerOffOrder
  split <;> simp [hbay]

@[simp] theorem clearBay_setup (s : State) (b : Bay) : (clearBay s b).setup = s.setup := by
  unfold clearBay
  split <;> simp

@[simp] theorem clearFaultOrder_setup (n : SlotId) (s : State) : (clearFaultOrder n s).setup = s.setup := by
  have hone : ∀ b, (clearOne n b s).setup = s.setup := by
    intro b
    unfold clearOne
    split <;> simp
  have hall : (clearAll n s).setup = s.setup := by
    rw [clearAll, complete_setup, foldl_keeps State.setup clearBay clearBay_setup]
  unfold clearFaultOrder
  dsimp only
  (repeat' split) <;> simp [hone, hall]

@[simp] theorem mapOrder_setup (n : SlotId) (s : State) : (mapOrder n s).setup = s.setup := by
  unfold mapOrder
  split
  · simp
  · exact completeOpt_setup _ _ _ _

@[simp] theorem selectOrder_setup (n : SlotId) (s : State) : (selectOrder n s).setup = s.setup := by
  unfold selectOrder
  split
  · simp
  · exact completeOpt_setup _ _ _ _

@[simp] theorem learnOrder_setup (n : SlotId) (s : State) : (learnOrder n s).setup = s.setup := by
  have hstart : ∀ f mask level, (startLearn n f mask level s).setup = s.setup := by simp [startLearn]
  have hfan : ∀ f mask, (learnFan n f mask s).setup = s.setup := by
    intro f mask
    unfold learnFan
    (repeat' split) <;> simp [hstart]
  unfold learnOrder
  split <;> simp [hfan]

@[simp] theorem lightSetOrder_setup (n : SlotId) (s : State) : (lightSetOrder n s).setup = s.setup := by
  have hset : ∀ c p, (lightSet n c p s).setup = s.setup := by
    intro c p
    unfold lightSet
    (repeat' split) <;> simp
  unfold lightSetOrder
  split <;> simp [hset]

@[simp] theorem locateOrder_setup (n : SlotId) (s : State) : (locateOrder n s).setup = s.setup := by
  have hlocate : ∀ bays p k, (locate n bays p k s).setup = s.setup := by
    intro bays p k
    unfold locate
    split <;> simp
  unfold locateOrder
  split <;> simp [hlocate]

@[simp] theorem lightSyncOrder_setup (n : SlotId) (s : State) : (lightSyncOrder n s).setup = s.setup := by
  unfold lightSyncOrder lightSync
  split
  · rw [complete_setup]
    exact setLgt_setup s rfl
  · simp

@[simp] theorem abortOrder_setup (n : SlotId) (s : State) : (abortOrder n s).setup = s.setup := by
  have hpower : ∀ k x, (abortPowerOn n k x s).setup = s.setup := by
    intro k x
    unfold abortPowerOn
    split <;> simp
  have hquery : ∀ k x, (abortQuery n k x s).setup = s.setup := by
    intro k x
    unfold abortQuery dropQuery
    split
    · rw [complete_setup, completeOpt_setup]
      rfl
    · simp
  have hlearn : ∀ k x, (abortLearn n k x s).setup = s.setup := by
    intro k x
    unfold abortLearn
    split <;> simp
  have htaken : ∀ k x, (abortTaken n k x s).setup = s.setup := by
    intro k x
    unfold abortTaken
    split
    · exact hpower k x
    · exact hquery k x
    · rw [complete_setup, complete_setup]
      rfl
    · rw [complete_setup, complete_setup]
      rfl
    · exact hlearn k x
    · exact complete_setup _ _ _ _
  unfold abortOrder
  dsimp only
  (repeat' split) <;> simp [htaken]

/-! ### The orders that write settings -/

/-- BAY POLICY writes policies and nothing else of the settings. -/
theorem policyOrder_setup (n : SlotId) (s : State) : ∃ p, (policyOrder n s).setup = { s.setup with policy := p } := by
  refine ⟨(policyOrder n s).setup.policy, ?_⟩
  simp [State.setup, State.account, State.fan]

/-- BUDGET SET writes the account's settings and nothing else of the settings. -/
theorem budgetOrder_setup (n : SlotId) (s : State) :
    ∃ a, (budgetOrder n s).setup = { s.setup with account := a } := by
  have haccepted : (updAccount (fun a => a.accepted (settingsOf s n) s.free) s).setup =
      { s.setup with account := settingsOf s n } := by
    simp [State.setup, State.bay, State.fan, State.account, updAccount, updPseq, Account.accepted]
  unfold budgetOrder
  dsimp only
  split
  · exact ⟨s.setup.account, complete_setup _ _ _ _⟩
  · refine ⟨settingsOf s n, ?_⟩
    rw [evaluate_setup, complete_setup]
    exact haccepted

/-- SIDEBAND QUERY writes the poll interval and nothing else of the settings. -/
theorem queryOrder_setup (n : SlotId) (s : State) : ∃ i, (queryOrder n s).setup = { s.setup with interval := i } := by
  have hbay : ∀ b item, (queryBay n b item s).setup = s.setup := by
    intro b item
    unfold queryBay
    (repeat' split) <;> simp
  have hsame : ∃ i, s.setup = { s.setup with interval := i } := ⟨s.setup.interval, rfl⟩
  unfold queryOrder
  split
  · exact ⟨_, complete_setup _ _ _ _⟩
  · split
    · rw [hbay]
      exact hsame
    · rw [complete_setup]
      exact hsame

/-- A zone period writes the working copy and its bank and nothing else of the settings. -/
theorem zonePeriod_setup (s : State) : ∃ c, (zonePeriod s).setup = { s.setup with curves := c } := by
  have hmap : ∀ u, (applyMap u).setup = u.setup := fun u =>
    setup_congr (fun b => by simp [State.bay]) (by simp [State.account]) (by simp) (by simp) (by simp [State.fan])
      (by simp)
  have hselect : ∀ u, ∃ c, (applySelect u).setup = { u.setup with curves := c } := fun u =>
    ⟨(applySelect u).thc.curves, by simp [State.setup, State.bay, State.account, State.fan]⟩
  have hzones : ∀ u, (computeZones u).setup = u.setup := by
    intro u
    have hthc : ∀ x : Thc, x.curves = u.thc.curves → { u with thc := x }.setup = u.setup := fun x h =>
      setup_congr (fun _ => rfl) rfl rfl h (fun _ => rfl) rfl
    rw [computeZones, foldl_keeps State.setup _ fun s z => mark_setup (.zone z) false s]
    exact hthc _ rfl
  obtain ⟨c, hc⟩ := hselect (applyMap { s with thc := { s.thc with periodTimer := some zonePeriodMs } })
  refine ⟨c, ?_⟩
  rw [zonePeriod, handOutputs_setup, hzones, hc, hmap]
  rfl

/-- FAN CONFIG writes a fan's settings and nothing else of the settings. -/
theorem configOrder_setup (n : SlotId) (s : State) : ∃ f, (configOrder n s).setup = { s.setup with fan := f } := by
  have hstate : ∀ f x u, (configuredState f x u).setup = u.setup := by
    intro f x u
    unfold configuredState
    (repeat' split) <;> simp
  have hwrite : ∀ f, (updFan f (configured s n) s).setup =
      { s.setup with fan := (updFan f (configured s n) s).setup.fan } := by
    intro f
    simp [State.setup, State.bay, State.account]
  have hsame : ∃ f, s.setup = { s.setup with fan := f } := ⟨s.setup.fan, rfl⟩
  have happly : ∀ f, ∃ g, (applyConfig n f s).setup = { s.setup with fan := g } := by
    intro f
    refine ⟨(updFan f (configured s n) s).setup.fan, ?_⟩
    rw [applyConfig, deliverFans_setup, complete_setup, hstate, mark_setup]
    exact hwrite f
  unfold configOrder
  (repeat' split) <;> simp only [complete_setup, happly, hsame]

/-- PATTERN LOAD writes the pattern table and nothing else of the settings. -/
theorem patternOrder_setup (n : SlotId) (s : State) :
    ∃ p, (patternOrder n s).setup = { s.setup with tables := (p, s.lgt.autoMap) } := by
  have hkeeps : ∀ l, (setLgt l s).setup = { s.setup with tables := l.tables } := by
    intro l
    simp [State.setup, State.bay, State.account, State.fan]
  have hsame : ∃ p, s.setup = { s.setup with tables := (p, s.lgt.autoMap) } := ⟨s.lgt.patterns, rfl⟩
  unfold patternOrder
  dsimp only
  (repeat' split) <;> simp [hkeeps, hsame]

/-- AUTO MAP writes the AUTO map and nothing else of the settings. -/
theorem autoMapOrder_setup (n : SlotId) (s : State) :
    ∃ m, (autoMapOrder n s).setup = { s.setup with tables := (s.lgt.patterns, m) } := by
  have hkeeps : ∀ l, (setLgt l s).setup = { s.setup with tables := l.tables } := by
    intro l
    simp [State.setup, State.bay, State.account, State.fan]
  have hsame : ∃ m, s.setup = { s.setup with tables := (s.lgt.patterns, m) } := ⟨s.lgt.autoMap, rfl⟩
  unfold autoMapOrder
  split <;> simp [hkeeps, hsame]

end Sys2Proof.Machine

/-! O24. Each setting, pin and counter is changed by its own commands only. -/

namespace Sys2Proof.Machine

variable {s t : State}

/-- Which settings a command may change: each only its own command (R17, R42, R71, R98, R123, R134, R142). -/
structure Setup.ChangedBy (c : Instr) (x y : Setup) : Prop where
  policy : c ≠ .bayPolicy → y.policy = x.policy
  account : c ≠ .budgetSet → y.account = x.account
  interval : c ≠ .sidebandQuery → y.interval = x.interval
  curves : c ≠ .zonePeriodStart → y.curves = x.curves
  fan : c ≠ .fanConfig → y.fan = x.fan
  patterns : c ≠ .patternLoad → y.tables.1 = x.tables.1
  autoMap : c ≠ .autoMap → y.tables.2 = x.tables.2

theorem Setup.ChangedBy.of_eq {c : Instr} {x y : Setup} (h : y = x) : Setup.ChangedBy c x y := by
  subst h
  exact ⟨fun _ => rfl, fun _ => rfl, fun _ => rfl, fun _ => rfl, fun _ => rfl, fun _ => rfl, fun _ => rfl⟩

theorem Setup.ChangedBy.of_bayPolicy {x y : Setup} (h : ∃ p, y = { x with policy := p }) :
    ChangedBy .bayPolicy x y := by
  obtain ⟨_, rfl⟩ := h
  constructor <;> simp

theorem Setup.ChangedBy.of_budgetSet {x y : Setup} (h : ∃ a, y = { x with account := a }) :
    ChangedBy .budgetSet x y := by
  obtain ⟨_, rfl⟩ := h
  constructor <;> simp

theorem Setup.ChangedBy.of_sidebandQuery {x y : Setup} (h : ∃ i, y = { x with interval := i }) :
    ChangedBy .sidebandQuery x y := by
  obtain ⟨_, rfl⟩ := h
  constructor <;> simp

theorem Setup.ChangedBy.of_zonePeriodStart {x y : Setup} (h : ∃ q, y = { x with curves := q }) :
    ChangedBy .zonePeriodStart x y := by
  obtain ⟨_, rfl⟩ := h
  constructor <;> simp

theorem Setup.ChangedBy.of_fanConfig {x y : Setup} (h : ∃ f, y = { x with fan := f }) : ChangedBy .fanConfig x y := by
  obtain ⟨_, rfl⟩ := h
  constructor <;> simp

theorem Setup.ChangedBy.of_patternLoad {x y : Setup} (h : ∃ p, y = { x with tables := (p, x.tables.2) }) :
    ChangedBy .patternLoad x y := by
  obtain ⟨_, rfl⟩ := h
  constructor <;> simp

theorem Setup.ChangedBy.of_autoMap {x y : Setup} (h : ∃ m, y = { x with tables := (x.tables.1, m) }) :
    ChangedBy .autoMap x y := by
  obtain ⟨_, rfl⟩ := h
  constructor <;> simp

/-- An order's command changes what its act changes. -/
theorem take_changedBy {c : Instr} {k : Kind} {act : SlotId → State → State}
    (hact : ∀ n u, Setup.ChangedBy c u.setup (act n u).setup) : Setup.ChangedBy c s.setup (take k act s).setup := by
  unfold take
  split
  · exact .of_eq rfl
  · exact hact _ (takeSlot _ s)

theorem take_setup (k : Kind) {act : SlotId → State → State} (s : State) (hact : ∀ n u, (act n u).setup = u.setup) :
    (take k act s).setup = s.setup := by
  unfold take
  split <;> simp [hact]

@[simp] theorem take_pins (k : Kind) {act : SlotId → State → State} (s : State) (hact : ∀ n u, (act n u).pins = u.pins) :
    (take k act s).pins = s.pins := by
  unfold take
  split <;> simp [hact]

@[simp] theorem take_clock (k : Kind) {act : SlotId → State → State} (s : State)
    (hact : ∀ n u, (act n u).clock = u.clock) : (take k act s).clock = s.clock := by
  unfold take
  split <;> simp [hact]

/-- The commands that may change a setting. -/
def writesSetup : Instr → Bool
  | .powerOnReset | .bayPolicy | .budgetSet | .sidebandQuery | .zonePeriodStart | .fanConfig | .patternLoad
  | .autoMap => true
  | _ => false

/-- A command that writes no settings leaves them: EXP's own, the events of the parts, the orders. -/
theorem body_setup (c : Instr) (s : State) (h : writesSetup c = false) : (body c s).setup = s.setup := by
  cases hport : portOwn c
  case true => exact portOwn_setup s hport fun hc => nomatch (hc ▸ h : writesSetup .powerOnReset = false)
  case false =>
    cases c
    all_goals try exact absurd (show true = false from h) nofun
    all_goals try exact absurd (show true = false from hport) nofun
    case bayPowerOn => exact take_setup _ s powerOnOrder_setup
    case bayPowerOff => exact take_setup _ s powerOffOrder_setup
    case clearFault => exact take_setup _ s clearFaultOrder_setup
    case zoneMap => exact take_setup _ s mapOrder_setup
    case curveSelect => exact take_setup _ s selectOrder_setup
    case fanLearn => exact take_setup _ s learnOrder_setup
    case lightSet => exact take_setup _ s lightSetOrder_setup
    case locate => exact take_setup _ s locateOrder_setup
    case lightSync => exact take_setup _ s lightSyncOrder_setup
    case abort => exact take_setup _ s abortOrder_setup
    case badKind =>
      rw [body, takeBad]
      split <;> simp
    case boardSensorReadTimer => rfl
    case tachEdge f => exact updWork_setup f _ s
    case uptimeCounterAdvance => rfl
    all_goals simp [body]

/-- Every command but the power-on reset changes a setting only if the setting is its own. -/
theorem body_changedBy (c : Instr) (s : State) (hreset : c ≠ .powerOnReset) :
    Setup.ChangedBy c s.setup (body c s).setup := by
  cases hw : writesSetup c
  case false => exact .of_eq (body_setup c s hw)
  case true =>
    cases c
    all_goals try exact absurd (show false = true from hw) nofun
    case powerOnReset => exact absurd rfl hreset
    case bayPolicy => exact take_changedBy fun n u => .of_bayPolicy (policyOrder_setup n u)
    case budgetSet => exact take_changedBy fun n u => .of_budgetSet (budgetOrder_setup n u)
    case sidebandQuery => exact take_changedBy fun n u => .of_sidebandQuery (queryOrder_setup n u)
    case zonePeriodStart => exact .of_zonePeriodStart (zonePeriod_setup s)
    case fanConfig => exact take_changedBy fun n u => .of_fanConfig (configOrder_setup n u)
    case patternLoad => exact take_changedBy fun n u => .of_patternLoad (patternOrder_setup n u)
    case autoMap => exact take_changedBy fun n u => .of_autoMap (autoMapOrder_setup n u)

/-! ### Pins and counters -/

/-- Only the presence and power-good events move an input pin (R174). -/
theorem body_pins (c : Instr) (s : State)
    (h : ∀ b, c ≠ .presenceChange b ∧ c ≠ .powerGoodAsserted b ∧ c ≠ .powerGoodDeasserted b) :
    (body c s).pins = s.pins := by
  cases c
  case presenceChange b => exact absurd rfl (h b).1
  case powerGoodAsserted b => exact absurd rfl (h b).2.1
  case powerGoodDeasserted b => exact absurd rfl (h b).2.2
  case registerWriteOther w => rw [body, otherWrite_keeps]
  case tachEdge f => rfl
  all_goals simp [body]

/-- Only the counters' own advances and the power-on reset change them. -/
theorem body_clock (c : Instr) (s : State) (hreset : c ≠ .powerOnReset) (huptime : c ≠ .uptimeCounterAdvance)
    (htick : c ≠ .tickCounterAdvance) : (body c s).clock = s.clock := by
  cases c
  case powerOnReset => exact absurd rfl hreset
  case uptimeCounterAdvance => exact absurd rfl huptime
  case tickCounterAdvance => exact absurd rfl htick
  case registerWriteOther w => rw [body, otherWrite_keeps]
  case tachEdge f => rfl
  all_goals simp [body]

/-- Settles O24: a command's body changes only settings of its own, and the end of a step changes none. -/
theorem settingsChangeByTheirOwnCommands : Obligations.SettingsChangeByTheirOwnCommands := by
  unfold Obligations.SettingsChangeByTheirOwnCommands
  intro c s
  refine answers_of_body ⟨fun h => ?_, fun hreset => ?_⟩
  · simp [body_pins c s h]
  · obtain ⟨hpolicy, haccount, hinterval, hcurves, hfan, hpatterns, hautoMap⟩ := body_changedBy c s hreset
    rw [← finishStep_setup] at hpolicy haccount hinterval hcurves hfan hpatterns hautoMap
    refine ⟨fun h => ?_, fun h => ?_, fun h b => congrFun (hpolicy h) b, haccount, hinterval,
      fun h => Prod.mk.injEq .. ▸ hcurves h, fun h f => (FanRec.settings_eq_iff ..).mp (congrFun (hfan h) f),
      hpatterns, hautoMap⟩
    · by_cases htick : c = .tickCounterAdvance
      · subst htick
        simp [body, tickOn]
      · simp [body_clock c s hreset h htick]
    · by_cases huptime : c = .uptimeCounterAdvance
      · subst huptime
        simp [body]
      · simp [body_clock c s hreset huptime h]

end Sys2Proof.Machine

/-! SUPPORT. The admission evaluation: it ends with the candidate waiting, and what it does where the candidate waits
already, or where it is admitted. -/

namespace Sys2Proof.Machine

variable {s t : State}

/-! ### The candidate and its conditions (R30, R35) -/

/-- The candidate is an entry of the queue (R30). -/
theorem candidate_mem {p : Pseq} {e : QEntry} (h : candidate p = some e) : e.bay ∈ queuedBays p := by
  unfold candidate at h
  unfold queuedBays queueView
  split at h
  next rest hu =>
    rw [hu, ← Option.some.inj h]
    exact List.mem_map_of_mem (List.mem_append_left _ List.mem_cons_self)
  next => exact List.mem_map_of_mem (List.mem_append_right _ (List.mem_of_mem_head? h))

/-- The admission condition on the budget says that the inrush charge does not exceed the room (R28, R35). -/
theorem budgetFits_iff_room (s : State) (b : Bay) :
    budgetFits s b = true ↔ ((pairNow s b).inrush : Int) ≤ room s.account := by
  unfold budgetFits room
  rw [decide_eq_true_iff]
  omega

theorem fits_eq_true_iff (s : State) (b : Bay) :
    fits s b = true ↔ staggerElapsed s = true ∧ placeFree s = true ∧ budgetFits s b = true := by
  simp [fits, and_assoc]

/-- No bay fits where the room is negative (R28). -/
theorem not_fits_of_room_neg (h : room s.account < 0) (b : Bay) : fits s b = false := by
  rw [← Bool.not_eq_true, fits_eq_true_iff, budgetFits_iff_room]
  omega

theorem staggerElapsed_eq_false_iff (s : State) : staggerElapsed s = false ↔ s.account.staggerTimer ≠ none := by
  unfold staggerElapsed
  cases s.account.staggerTimer <;> simp

theorem placeFree_eq_false_iff (s : State) :
    placeFree s = false ↔ s.account.settings.maxConcurrent ≤ s.account.starting := by
  simp [placeFree]

/-! ### The queue through an admission (R30, R36) -/

/-- A report takes a bay's entries out of the queue where it takes the bay to a state other than QUEUED. -/
theorem queuedBays_report {b : Bay} {acts : BayRec → Bool} {f : BayRec → BayRec} (events : List HistEvent)
    (h : acts (s.bay b) = true) (hf : (f (s.bay b)).state ≠ .queued) :
    queuedBays (report b acts f events s).pseq = (queuedBays s.pseq).filter fun d => d ≠ b := by
  have hpush := fun u : State => foldl_keeps State.pseq (fun s ev => pushHistory b ev s) (by simp) events u
  unfold report
  rw [if_pos h, hpush, moveBay_pseq, ← filtered_bays]
  simp [queuedBays, queueView, Pseq.follow, classAfter, hf]

theorem filter_ne_of_not_mem {l : List Bay} {b : Bay} (h : b ∉ l) : (l.filter fun d => d ≠ b) = l :=
  List.filter_eq_self.mpr fun _ hd => decide_eq_true (ne_of_mem_of_not_mem hd h)

/-- A report on a bay that has no entry leaves the queue, unless it takes the bay to QUEUED. -/
theorem queuedBays_report_absent {b : Bay} {f : BayRec → BayRec} (acts : BayRec → Bool) (events : List HistEvent)
    (h : b ∉ queuedBays s.pseq) (hf : (f (s.bay b)).state ≠ .queued) :
    queuedBays (report b acts f events s).pseq = queuedBays s.pseq := by
  by_cases ha : acts (s.bay b) = true
  · rw [queuedBays_report events ha hf, filter_ne_of_not_mem h]
  · unfold report
    rw [if_neg ha]

theorem queuedBays_updPath (b : Bay) (f : Path → Path) (s : State) :
    queuedBays (updPath b f s).pseq = queuedBays s.pseq := rfl

theorem queuedBays_attemptGood {b : Bay} (h : b ∉ queuedBays s.pseq) :
    queuedBays (attemptGood b s).pseq = queuedBays s.pseq := by
  unfold attemptGood
  split
  · rfl
  · rw [queuedBays_updPath, queuedBays_report_absent _ _ (by rwa [queuedBays_updPath]) (by simp), queuedBays_updPath]

/-- The attempt of a bay that has left the queue leaves the queue (R48, R51). -/
theorem queuedBays_attemptBegin {b : Bay} (h : b ∉ queuedBays s.pseq) :
    queuedBays (attemptBegin b s).pseq = queuedBays s.pseq := by
  unfold attemptBegin
  split
  · rfl
  · dsimp only
    split
    · rw [queuedBays_attemptGood (by rwa [queuedBays_updPath]), queuedBays_updPath]
    · rfl

/-- The account of an admission: the stagger starts anew (R34, R36). -/
def admissionNoted (s : State) : State :=
  updAccount (fun a => { a with staggerTimer := staggerStart a.settings.stagger, sinceAdmission := some 0 }) s

/-- A QUEUED candidate's bay in RAMPING with its inrush charge and its ladder, before the first attempt (R36). -/
def admitted (e : QEntry) (s : State) : State :=
  updPath e.bay (fun p => { p with ladder := some (Ladder.fresh (s.bay e.bay) s.account.settings e s.clock.tick) })
    (report e.bay (fun r => decide (r.state = .queued))
      (fun r => { r.enter .ramping with charge := some ⟨pairNow s e.bay, .inrush⟩ }) [.admitted e.cls]
      (admissionNoted s))

theorem admitEntry_eq {e : QEntry} (h : (s.bay e.bay).state = .queued) :
    admitEntry e s = attemptBegin e.bay (admitted e s) := if_pos h

theorem admissionNoted_bay (s : State) (b : Bay) : (admissionNoted s).bay b = s.bay b := bay_updAccount _ s b

theorem admissionNoted_queue (s : State) : queuedBays (admissionNoted s).pseq = queuedBays s.pseq := by
  simp [admissionNoted, queuedBays_eq]

theorem queuedBays_admitted {e : QEntry} (h : (s.bay e.bay).state = .queued) :
    queuedBays (admitted e s).pseq = (queuedBays s.pseq).filter fun d => d ≠ e.bay := by
  rw [admitted, queuedBays_updPath, queuedBays_report _ (by rw [admissionNoted_bay]; exact decide_eq_true h) (by simp),
    admissionNoted_queue]

/-- An admission takes the bay's entries out of the queue and no other (R36). -/
theorem queuedBays_admitEntry (e : QEntry) (s : State) :
    queuedBays (admitEntry e s).pseq = (queuedBays s.pseq).filter fun d => d ≠ e.bay := by
  by_cases h : (s.bay e.bay).state = .queued
  · rw [admitEntry_eq h, queuedBays_attemptBegin (by simp [queuedBays_admitted h]), queuedBays_admitted h]
  · rw [admitEntry, if_neg h, dropEntry_pseq, filtered_bays]

/-- The queue is shorter after an admission of its candidate. -/
theorem queue_shorter {e : QEntry} (h : candidate s.pseq = some e) :
    (queuedBays (admitEntry e s).pseq).length < (queuedBays s.pseq).length := by
  rw [queuedBays_admitEntry]
  exact List.length_filter_lt_length_iff_exists.mpr ⟨e.bay, candidate_mem h, by simp⟩

/-! ### The charge of an admission (R29, R36) -/

/-- An attempt leaves every charge (R51). -/
theorem attemptBegin_charge (b : Bay) (s : State) : ((attemptBegin b s).bay b).charge = (s.bay b).charge := by
  have hgood : ∀ u : State, ((attemptGood b u).bay b).charge = (u.bay b).charge := by
    intro u
    unfold attemptGood
    split
    · rfl
    · rw [bay_updPath, bay_report]
      split <;> simp
  unfold attemptBegin
  split
  · rfl
  · dsimp only
    split
    · exact hgood _
    · rfl

/-- An admitted bay holds the inrush charge of its class (R29, R36). -/
theorem admitEntry_charge {e : QEntry} (h : (s.bay e.bay).state = .queued) :
    ((admitEntry e s).bay e.bay).charge = some ⟨pairNow s e.bay, .inrush⟩ := by
  rw [admitEntry_eq h, attemptBegin_charge, admitted, bay_updPath, bay_report,
    if_pos ⟨rfl, by rw [admissionNoted_bay]; exact decide_eq_true h⟩]
  simp

/-! ### The fan estimate (R27) -/

theorem report_fanEstimate (b : Bay) (acts : BayRec → Bool) (f : BayRec → BayRec) (events : List HistEvent)
    (s : State) : (report b acts f events s).account.fanEstimate = s.account.fanEstimate := by
  have hpush := fun u : State => foldl_keeps State.account (fun s ev => pushHistory b ev s) (by simp [State.account])
    events u
  unfold report
  split
  · rw [hpush]
    simp [State.account]
  · rfl

theorem attemptBegin_fanEstimate (b : Bay) (s : State) :
    (attemptBegin b s).account.fanEstimate = s.account.fanEstimate := by
  have hgood : ∀ u : State, (attemptGood b u).account.fanEstimate = u.account.fanEstimate := by
    intro u
    unfold attemptGood
    split
    · rfl
    · exact report_fanEstimate _ _ _ _ _
  unfold attemptBegin
  split
  · rfl
  · dsimp only
    split
    · exact hgood _
    · rfl

theorem admitEntry_fanEstimate (e : QEntry) (s : State) :
    (admitEntry e s).account.fanEstimate = s.account.fanEstimate := by
  by_cases h : (s.bay e.bay).state = .queued
  · calc (admitEntry e s).account.fanEstimate
        = (admitted e s).account.fanEstimate := by rw [admitEntry_eq h, attemptBegin_fanEstimate]
      _ = (admissionNoted s).account.fanEstimate := report_fanEstimate _ _ _ _ _
      _ = s.account.fanEstimate := by simp [admissionNoted, State.account]
  · rw [admitEntry, if_neg h, State.account, dropEntry_pseq]
    rfl

/-- Admissions leave the fan estimate FANU delivered (R27). -/
theorem admitWhileFits_fanEstimate (n : Nat) (s : State) :
    (admitWhileFits n s).account.fanEstimate = s.account.fanEstimate := by
  induction n generalizing s with
  | zero => rfl
  | succ n ih =>
    unfold admitWhileFits
    split
    · rfl
    · split
      · exact (ih _).trans (admitEntry_fanEstimate _ s)
      · rfl

/-! ### The blocked reason (R37) -/

/-- Working the reason out writes the reason alone. -/
@[simp] theorem updateBlocked_pseq (s : State) : (updateBlocked s).pseq =
    { s.pseq with account := { s.pseq.account with blocked := blockedReason s } } := by
  unfold updateBlocked
  dsimp only
  split <;> simp

theorem bay_updateBlocked (s : State) (b : Bay) : (updateBlocked s).bay b = s.bay b :=
  bay_of_bmon (by simp) b

theorem baySame_updateBlocked (s : State) (b : Bay) : BaySame s (updateBlocked s) b :=
  BaySame.of_bmon_paths (by simp) (by simp) b

theorem candidate_updateBlocked (s : State) : candidate (updateBlocked s).pseq = candidate s.pseq := by
  rw [updateBlocked_pseq]
  rfl

theorem staggerElapsed_updateBlocked (s : State) : staggerElapsed (updateBlocked s) = staggerElapsed s := by
  rw [staggerElapsed, State.account, updateBlocked_pseq]
  rfl

theorem placeFree_updateBlocked (s : State) : placeFree (updateBlocked s) = placeFree s := by
  rw [placeFree, State.account, updateBlocked_pseq]
  rfl

theorem fits_updateBlocked (s : State) (b : Bay) : fits (updateBlocked s) b = fits s b := by
  have hbudget : budgetFits (updateBlocked s) b = budgetFits s b := by
    rw [budgetFits, pairNow, bay_updateBlocked, State.account, updateBlocked_pseq]
    rfl
  rw [fits, staggerElapsed_updateBlocked, placeFree_updateBlocked, hbudget, fits]

/-- With no candidate there is no reason. -/
theorem blockedReason_none (h : candidate s.pseq = none) : blockedReason s = .none := by
  unfold blockedReason
  rw [h]

/-- A candidate that waits gives the first condition that fails (R35, R37). -/
theorem blockedReason_of_not_fits {e : QEntry} (h : candidate s.pseq = some e) (hf : fits s e.bay = false) :
    blockedReason s = if staggerElapsed s = false then .stagger
      else if placeFree s = false then .concurrency else .budget := by
  unfold blockedReason
  rw [h]
  dsimp only
  split_ifs with hs hp hb
  · rfl
  · rfl
  · rfl
  · simp [fits, hs, hp, hb] at hf

/-! ### The evaluation (R33, R35) -/

/-- The candidate waits: there is none, or it does not meet all three conditions. -/
def Waiting (s : State) : Prop := ∀ e, candidate s.pseq = some e → fits s e.bay = false

theorem admitWhileFits_of_waiting (h : Waiting s) (n : Nat) : admitWhileFits n s = s := by
  cases n with
  | zero => rfl
  | succ n =>
    unfold admitWhileFits
    split
    · rfl
    · next e he => rw [if_neg (by simp [h e he])]

/-- Where the candidate waits, an evaluation works the reason out and does nothing else (R35, R37). -/
theorem evaluate_of_waiting (h : Waiting s) : evaluate s = updateBlocked s := by
  rw [evaluate, admitWhileFits_of_waiting h]

/-- The queue's length is fuel enough: admissions end with the candidate waiting (R35). -/
theorem waiting_admitWhileFits (n : Nat) (s : State) (h : (queuedBays s.pseq).length ≤ n) :
    Waiting (admitWhileFits n s) := by
  induction n generalizing s with
  | zero =>
    intro e he
    have := candidate_mem he
    rw [admitWhileFits, List.eq_nil_of_length_eq_zero (Nat.le_zero.mp h)] at this
    exact absurd this List.not_mem_nil
  | succ n ih =>
    unfold admitWhileFits
    split
    · next hnone => exact fun e he => nomatch hnone.symm.trans he
    · next e he =>
      split
      · exact ih _ (Nat.le_of_lt_succ ((queue_shorter he).trans_le h))
      · next hf => exact fun e' he' => Option.some.inj (he.symm.trans he') ▸ Bool.eq_false_iff.mpr hf

theorem evaluate_eq (s : State) : evaluate s = updateBlocked (admitWhileFits (queuedBays s.pseq).length s) := by
  simp [evaluate, queuedBays]

/-- After an evaluation the candidate waits (R35). -/
theorem waiting_evaluate (s : State) : Waiting (evaluate s) := by
  intro e he
  rw [evaluate_eq, candidate_updateBlocked] at he
  rw [evaluate_eq, fits_updateBlocked]
  exact waiting_admitWhileFits _ s le_rfl e he

/-- The reason a candidate's wait shows is that of the state it is written into (R37). -/
theorem updateBlocked_blocked (h : Waiting s) :
    (updateBlocked s).account.blocked = blockedReason (updateBlocked s) := by
  rw [State.account, updateBlocked_pseq]
  cases he : candidate s.pseq with
  | none => rw [blockedReason_none he, blockedReason_none ((candidate_updateBlocked s).trans he)]
  | some e =>
    rw [blockedReason_of_not_fits he (h e he), blockedReason_of_not_fits ((candidate_updateBlocked s).trans he)
      ((fits_updateBlocked s _).trans (h e he)), staggerElapsed_updateBlocked, placeFree_updateBlocked]

/-- The reason an evaluation shows is that of the state it leaves (R37). -/
theorem evaluate_blocked (s : State) : (evaluate s).account.blocked = blockedReason (evaluate s) := by
  rw [evaluate_eq]
  exact updateBlocked_blocked (waiting_admitWhileFits _ s le_rfl)

theorem evaluate_fanEstimate (s : State) : (evaluate s).account.fanEstimate = s.account.fanEstimate := by
  rw [evaluate_eq, State.account, updateBlocked_pseq]
  exact admitWhileFits_fanEstimate _ s

/-- An evaluation admits a candidate that fits, and goes on from there (R35). -/
theorem Admissions.of_admitted {e : QEntry} (h : candidate s.pseq = some e) (hf : fits s e.bay = true) :
    Admissions (Machine.admitEntry e s) (Machine.evaluate s) := by
  have hlen := queue_shorter h
  obtain ⟨n, hn⟩ : ∃ n, (queuedBays s.pseq).length = n + 1 := Nat.exists_eq_succ_of_ne_zero (by omega)
  rw [evaluate_eq, hn, Machine.admitWhileFits, h]
  dsimp only
  rw [if_pos hf]
  exact (Admissions.admitWhileFits n _).trans (Admissions.updateBlocked _)

/-! ### At the end of a step -/

theorem finishStep_pseq (s : State) : (finishStep s).pseq = s.pseq := by simp

theorem finishStep_account (s : State) : (finishStep s).account = s.account := congrArg Pseq.account (finishStep_pseq s)

/-- What admissions leave of the other bays, the end of the step leaves. -/
theorem OthersKept.finishStep {own : Bay → Prop} (h : OthersKept own s t) :
    OthersKept own s (Machine.finishStep t) := by
  intro d hd
  rcases h d hd with ⟨hbay, hpath⟩ | ⟨hq, hst, hk⟩
  · exact Or.inl ⟨(bay_finishStep t d).trans hbay, (path_finishStep t d).trans hpath⟩
  · rw [bay_finishStep]
    exact Or.inr ⟨hq, hst, hk⟩

/-- Where no bay has changed before the admissions, every bay is the same or has been admitted. -/
theorem Admissions.othersKept_of_same {u : State} (own : Bay → Prop) (h : ∀ d, BaySame s t d)
    (h' : Admissions t u) : OthersKept own s u := by
  intro d _
  rcases h'.bays d with hs | ⟨hq, hst⟩
  · exact Or.inl ((h d).trans hs)
  · rw [(h d).1] at hq hst
    exact Or.inr ⟨hq, hst.state, hst.kept⟩

end Sys2Proof.Machine

/-! Settles the room (O29), the end of an evaluation (O31) and the stagger's expiry (O32). -/

namespace Sys2Proof.Machine

variable {s t : State}

/-! ### The room (R28) -/

/-- The budget record shows the room in bytes 16 and 17 (section 10.6). -/
theorem encodeBudget_room (p : Pseq) : ((encodeBudget p).drop 16).take 2 = le16 (roomShown p.account) := by
  have hhead : (encodeSettings p.account.settings ++ le16 p.account.drives ++ le16 p.account.fanEstimate).length
      = 16 := by simp
  obtain ⟨rest, hrest⟩ : ∃ rest, encodeBudget p = (encodeSettings p.account.settings ++ le16 p.account.drives ++
      le16 p.account.fanEstimate) ++ (le16 (roomShown p.account) ++ rest) :=
    ⟨_, by simp only [encodeBudget, List.append_assoc]; rfl⟩
  rw [hrest, List.drop_left' hhead, List.take_left' (le16_length _)]

theorem roomShown_eq (a : Account) : roomShown a = if room a < 0 then 0 else (room a).toNat := by
  unfold roomShown
  split_ifs with h
  · exact Int.toNat_of_nonpos h.le
  · rfl

/-- Settles O29: no bay fits a negative room, so an evaluation finds its candidate waiting. -/
theorem roomIsWhatNobodyClaims : Obligations.RoomIsWhatNobodyClaims := by
  refine ⟨fun a => ?_, budgetFits_iff_room, fun s => ?_, fun s hroom b => ?_⟩
  · simp [room]
  · rw [encodeBudget_room, roomShown_eq]
    rfl
  · rw [evaluate_of_waiting fun e _ => not_fits_of_room_neg hroom e.bay, bay_updateBlocked]

/-! ### The end of an evaluation (R35, R37) -/

/-- Settles O31: an evaluation stops where the candidate waits, and its reason is worked out there. -/
theorem evaluationEndsAtACandidateThatWaits : Obligations.EvaluationEndsAtACandidateThatWaits := by
  intro s t
  have hwait : Waiting t := waiting_evaluate s
  have hblocked : t.account.blocked = blockedReason t := evaluate_blocked s
  cases he : candidate t.pseq with
  | none => exact Or.inl ⟨rfl, hblocked.trans (blockedReason_none he)⟩
  | some e =>
    refine Or.inr ⟨e, rfl, hwait e he, ?_⟩
    rw [hblocked, blockedReason_of_not_fits he (hwait e he)]
    simp only [staggerElapsed_eq_false_iff, placeFree_eq_false_iff]

/-! ### The stagger's expiry (R34) -/

/-- The stagger has elapsed, before the evaluation this starts. -/
def staggerGone (s : State) : State :=
  updAccount (fun a => { a with
    staggerTimer := none, sinceAdmission := sinceExpiry a.settings.stagger a.sinceAdmission }) s

/-- The end of STAGGER_EXPIRY's step. -/
def staggerStep (s : State) : State := finishStep (evaluate (staggerGone s))

theorem answers_staggerExpiry {P : State → Prop} (h : s.account.staggerTimer.isSome = true)
    (hP : P (staggerStep s)) : Answers .staggerExpiry s P := by
  have hbody : body .staggerExpiry s = evaluate (staggerGone s) := if_pos h
  exact answers_of_body (hbody ▸ hP)

theorem bay_staggerGone (s : State) (b : Bay) : (staggerGone s).bay b = s.bay b := bay_updAccount _ s b

/-- The stagger's end leaves the queue, the place and the budget; a candidate then fits if it has these two. -/
theorem staggerGone_candidate (s : State) : candidate (staggerGone s).pseq = candidate s.pseq := by
  rw [staggerGone, updAccount_pseq]
  rfl

theorem staggerGone_elapsed (s : State) : staggerElapsed (staggerGone s) = true := by
  rw [staggerElapsed, staggerGone, State.account, updAccount_pseq]
  rfl

theorem staggerGone_placeFree (s : State) : placeFree (staggerGone s) = placeFree s := by
  rw [placeFree, staggerGone, State.account, updAccount_pseq]
  rfl

theorem staggerGone_pairNow (s : State) (b : Bay) : pairNow (staggerGone s) b = pairNow s b := by
  rw [pairNow, bay_staggerGone, staggerGone, State.account, updAccount_pseq]
  rfl

theorem staggerGone_budgetFits (s : State) (b : Bay) : budgetFits (staggerGone s) b = budgetFits s b := by
  rw [budgetFits, staggerGone_pairNow, staggerGone, State.account, updAccount_pseq]
  rfl

theorem staggerGone_fits (s : State) (b : Bay) : fits (staggerGone s) b = (placeFree s && budgetFits s b) := by
  rw [fits, staggerGone_elapsed, staggerGone_placeFree, staggerGone_budgetFits, Bool.true_and]

theorem staggerGone_baySame (s : State) (b : Bay) : BaySame s (staggerGone s) b :=
  BaySame.of_bmon_paths (by simp [staggerGone]) (by simp [staggerGone]) b

/-- The candidate is admitted: it starts with its inrush charge, and its entry is gone (R36). -/
theorem staggerStep_admits {e : QEntry} (he : candidate s.pseq = some e) (hq : (s.bay e.bay).state = .queued)
    (hp : placeFree s = true) (hb : budgetFits s e.bay = true) :
    let t := staggerStep s
    (t.bay e.bay).state.starting = true ∧ e.bay ∉ queuedBays t.pseq ∧
      (t.bay e.bay).charge = some ⟨pairNow s e.bay, .inrush⟩ := by
  have hq' : ((staggerGone s).bay e.bay).state = .queued := by rw [bay_staggerGone, hq]
  obtain ⟨-, hstart⟩ := admitEntry_queued hq'
  have hadm := Admissions.of_admitted ((staggerGone_candidate s).trans he) (by rw [staggerGone_fits, hp, hb]; rfl)
  obtain ⟨hbay, -⟩ := hadm.own hstart.not_queued
  dsimp only
  rw [staggerStep, bay_finishStep, hbay, finishStep_pseq]
  refine ⟨hstart.state, fun hm => ?_, by rw [admitEntry_charge hq', staggerGone_pairNow]⟩
  have hleft := hadm.queue _ hm
  rw [queuedBays_admitEntry] at hleft
  simp at hleft

/-- The candidate waits: the reason is worked out, and no bay changes (R35, R37). -/
theorem staggerStep_waits (h : Waiting (staggerGone s)) :
    let t := staggerStep s
    t.account.staggerTimer = none ∧ t.account.blocked = blockedReason (staggerGone s) ∧ ∀ b, BaySame s t b := by
  dsimp only
  rw [staggerStep, evaluate_of_waiting h, finishStep_account, State.account, updateBlocked_pseq]
  refine ⟨by simp [staggerGone], rfl, fun b => ?_⟩
  have hblocked := (staggerGone_baySame s b).trans (baySame_updateBlocked _ b)
  exact hblocked.trans ⟨bay_finishStep _ b, path_finishStep _ b⟩

/-- A candidate without a place or without room waits for the first of them (R35, R37). -/
theorem staggerStep_blocked {e : QEntry} (he : candidate s.pseq = some e)
    (hf : placeFree s = false ∨ budgetFits s e.bay = false) :
    let t := staggerStep s
    t.account.staggerTimer = none ∧ t.account.blocked = (if placeFree s = false then .concurrency else .budget) ∧
      ∀ b, BaySame s t b := by
  have hcand := (staggerGone_candidate s).trans he
  have hnot : fits (staggerGone s) e.bay = false := by
    rw [staggerGone_fits]
    rcases hf with hf | hf <;> simp [hf]
  have hreason := blockedReason_of_not_fits hcand hnot
  rw [staggerGone_elapsed, staggerGone_placeFree, if_neg (by simp)] at hreason
  rw [← hreason]
  exact staggerStep_waits fun e' he' => Option.some.inj (hcand.symm.trans he') ▸ hnot

/-- Settles O32: with the stagger elapsed, the candidate is admitted or shows what it waits for. -/
theorem staggerExpiryAdmitsTheCandidate : Obligations.StaggerExpiryAdmitsTheCandidate := by
  intro s htimer
  refine answers_staggerExpiry htimer ⟨fun e => staggerStep_admits, fun hnone => ?_, fun e he hp => ?_,
    fun e he hp hb => ?_, ((Admissions.evaluate _).othersKept_of_same _ (staggerGone_baySame s)).finishStep, ?_⟩
  · have hcand := (staggerGone_candidate s).trans hnone
    rw [← blockedReason_none hcand]
    exact staggerStep_waits fun e he => nomatch hcand.symm.trans he
  · obtain ⟨htime, hreason, hsame⟩ := staggerStep_blocked he (Or.inl hp)
    exact ⟨htime, hreason.trans (if_pos hp), hsame⟩
  · obtain ⟨htime, hreason, hsame⟩ := staggerStep_blocked he (Or.inr hb)
    exact ⟨htime, hreason.trans (if_neg (by simp [hp])), hsame⟩
  · simpa [staggerStep, staggerGone] using (Admissions.evaluate (staggerGone s)).sbe

end Sys2Proof.Machine

/-! Settles BAY POWER ON (O38). -/

namespace Sys2Proof.Machine

variable {s t : State}

/-! ### An order completed at its take (R155, R156) -/

/-- An order whose owner does no more than complete it: its result shows, and no bay changes. -/
theorem take_answered (n : SlotId) (hw : s.mem.wf = true) (r : Result) (d : List Byte) :
    TakeCompleted s (finishStep (complete n r d (takeSlot n s))) n r d ∧
    (finishStep (complete n r d (takeSlot n s))).bmon = s.bmon ∧
    (finishStep (complete n r d (takeSlot n s))).pseq = s.pseq :=
  ⟨takeCompleted_complete hw rfl rfl rfl r d, by simp, by simp⟩

/-! ### BAY POWER ON (R38) -/

theorem QClass.ofCode_some {c : Byte} (h : c.toNat ≤ 1) : ∃ cls, QClass.ofCode c = some cls := by
  unfold QClass.ofCode
  by_cases h0 : c = 0
  · exact ⟨.normal, if_pos h0⟩
  · have h1 : c = 1 := by bv_omega
    exact ⟨.urgent, by rw [if_neg h0, if_pos h1]⟩

theorem QClass.ofCode_none {c : Byte} (h : 2 ≤ c.toNat) : QClass.ofCode c = none := by
  have h0 : c ≠ 0 := by bv_omega
  have h1 : c ≠ 1 := by bv_omega
  rw [QClass.ofCode, if_neg h0, if_neg h1]

/-- A bay and a class: the state of the bay answers (R38). -/
theorem powerOnOrder_valid {n : SlotId} {b : Bay} (hb : b.val = (argByte s n 0).toNat)
    (hc : (argByte s n 1).toNat ≤ 1) : ∃ cls, powerOnOrder n s = powerOnBay n b cls s := by
  obtain ⟨cls, hcls⟩ := QClass.ofCode_some hc
  refine ⟨cls, ?_⟩
  unfold powerOnOrder
  rw [bayOf_val b hb, hcls]

/-- No bay, or no class. -/
theorem powerOnOrder_invalid {n : SlotId} (h : 24 ≤ (argByte s n 0).toNat ∨ 2 ≤ (argByte s n 1).toNat) :
    powerOnOrder n s = complete n .badArg [] s := by
  unfold powerOnOrder
  rcases h with hb | hc
  · rw [bayOf_none hb]
  · rw [QClass.ofCode_none hc]
    cases bayOf (argByte s n 0) <;> rfl

theorem powerOnBay_off {n : SlotId} {b : Bay} (h : (s.bay b).state = .off) (cls : QClass) :
    powerOnBay n b cls s = evaluate (queuedBay b cls (some n) s) := by
  unfold powerOnBay
  rw [h]
  exact enqueue_off h cls (some n)

/-- A bay joins the queue with its order still open. -/
theorem queuedBay_slots (b : Bay) (cls : QClass) (slot : Option SlotId) (s : State) :
    (queuedBay b cls slot s).exp.slots = s.exp.slots := by
  rw [queuedBay, pushHistory_slots, moveBayWith_slots _ _ _ _ (by simp)]

/-- BAY POWER ON of a bay in OFF: the order stays open, the bay waits or starts (R31, R38). -/
theorem powerOnBay_off_answer {n : SlotId} {b : Bay} (h : (s.bay b).state = .off) (cls : QClass) :
    let t := finishStep (powerOnBay n b cls (takeSlot n s))
    (t.slot n).state = .taken ∧ (t.bay b).powerOrder = some n ∧
      ((t.bay b).state = .queued ∨ (t.bay b).state.starting = true) ∧ OthersKept (· = b) s t := by
  have hoff : ((takeSlot n s).bay b).state = .off := h
  have hadm := Admissions.evaluate (queuedBay b cls (some n) (takeSlot n s))
  obtain ⟨hstate, -, hkept⟩ := queuedBay_evaluated hoff hadm
  obtain ⟨-, -, -, hothers, -⟩ := queuedBay_keeps (cls := cls) (slot := some n) hoff
  dsimp only
  rw [powerOnBay_off hoff, bay_finishStep]
  refine ⟨?_, hkept.order, hstate, (hadm.othersKept (s := s) hothers).finishStep⟩
  rw [slot_of_slots ((finishStep_slots _).trans (hadm.slots.trans (queuedBay_slots b cls _ _))), slot_takeSlot,
    if_pos rfl]

theorem answers_bayPowerOn {n : SlotId} {P : State → Prop} (h : takeKind .bayPowerOn s = some n)
    (hP : P (finishStep (powerOnOrder n (takeSlot n s)))) : Answers .bayPowerOn s P := by
  have hbody : body .bayPowerOn s = powerOnOrder n (takeSlot n s) := take_of_takeKind powerOnOrder h
  exact answers_of_body (hbody ▸ hP)

/-- Settles O38: the bay of a valid order answers by its state, an invalid one is refused. -/
theorem powerOnOrderIsAnsweredByTheBayState : Obligations.PowerOnOrderIsAnsweredByTheBayState := by
  intro s n ⟨⟨hw, _⟩, hk⟩
  refine answers_bayPowerOn hk ⟨fun b hb hc => ?_, fun h => ?_, by simp⟩
  · obtain ⟨cls, hvalid⟩ := powerOnOrder_valid (s := takeSlot n s) hb hc
    rw [hvalid]
    have hbay : (takeSlot n s).bay b = s.bay b := rfl
    have answered : ∀ {r}, powerOnBay n b cls (takeSlot n s) = complete n r [] (takeSlot n s) →
        let t := finishStep (powerOnBay n b cls (takeSlot n s))
        TakeCompleted s t n r [] ∧ t.bmon = s.bmon ∧ t.pseq = s.pseq := fun h => h ▸ take_answered n hw _ []
    cases hst : (s.bay b).state with
    | off => exact powerOnBay_off_answer hst cls
    | queued | ramping | spinning | active | empty | settling | fault | stopping =>
      exact answered (by rw [powerOnBay, hbay, hst])
  · rw [powerOnOrder_invalid (s := takeSlot n s) h]
    exact take_answered n hw .badArg []

end Sys2Proof.Machine

/-! Settles BUDGET SET (O40). -/

namespace Sys2Proof.Machine

variable {s t : State}

/-! ### The tests of R42 in their order -/

/-- The tests on the settings themselves (R42). -/
def Settings.Sound (c : Settings) : Prop :=
  c.capacity ≤ 4095 ∧ c.floor ≤ c.capacity ∧ c.rotating.inrush ≠ 0 ∧ c.rotating.steady ≠ 0 ∧
    c.solid.inrush ≠ 0 ∧ c.solid.steady ≠ 0 ∧ c.rotating.ordered ∧ c.solid.ordered

/-- The tests against what the bays hold at present (R42). -/
def Settings.Free (c : Settings) (a : Account) : Prop :=
  a.drives ≤ c.capacity - c.floor ∧ a.starting ≤ c.maxConcurrent

/-- The number of the first setting that fails on its own (R42, section 10.5). -/
def Settings.firstBad (c : Settings) : Byte :=
  if 4095 < c.capacity then 0 else if 4095 < c.floor ∨ c.capacity < c.floor then 1
  else if c.rotating.inrush = 0 then 4 else if c.rotating.steady = 0 then 5 else if c.solid.inrush = 0 then 6
  else if c.solid.steady = 0 then 7 else if c.rotating.inrush < c.rotating.steady then 5 else 7

/-- The first test that fails of a list of tests. -/
theorem firstFailed_cons (b : Bool) (r : BudgetRefusal) (l : List (Bool × BudgetRefusal)) :
    (((b, r) :: l).find? fun t => !t.1).map Prod.snd
      = if b = true then (l.find? fun t => !t.1).map Prod.snd else some r := by
  cases b <;> rfl

/-- Settings that are not sound are refused with the first that fails: the tests stand in the order of `firstBad`. -/
theorem budgetRefusal_badArg {c : Settings} (h : ¬ c.Sound) (a : Account) :
    budgetRefusal c a = some ⟨.badArg, c.firstBad, none⟩ := by
  unfold budgetRefusal budgetTests Settings.firstBad
  unfold Settings.Sound ChargePair.ordered at h
  simp only [firstFailed_cons, decide_eq_true_eq]
  grind

/-- With sound settings the tests against the present account are left. -/
theorem budgetRefusal_sound {c : Settings} (h : c.Sound) (a : Account) :
    budgetRefusal c a = if a.drives ≤ c.capacity - c.floor then
        if a.starting ≤ c.maxConcurrent then none else some ⟨.budgetInUse, 3, some a.starting⟩
      else some ⟨.budgetInUse, 0, some a.drives⟩ := by
  obtain ⟨hcap, hfloor, hri, hrs, hsi, hss, hr, hs⟩ := h
  unfold ChargePair.ordered at hr hs
  unfold budgetRefusal budgetTests
  simp only [firstFailed_cons, hcap, hfloor, hfloor.trans hcap, hri, hrs, hsi, hss, hr, hs, ne_eq, not_false_eq_true,
    decide_true, if_true, decide_eq_true_eq, List.find?_nil, Option.map_none]

theorem budgetRefusal_none {c : Settings} {a : Account} (h : c.Sound) (h' : c.Free a) : budgetRefusal c a = none := by
  rw [budgetRefusal_sound h, if_pos h'.1, if_pos h'.2]

theorem budgetRefusal_inUse {c : Settings} {a : Account} (h : c.Sound) (h' : ¬ c.Free a) :
    budgetRefusal c a = some (if a.drives ≤ c.capacity - c.floor then ⟨.budgetInUse, 3, some a.starting⟩
      else ⟨.budgetInUse, 0, some a.drives⟩) := by
  rw [budgetRefusal_sound h]
  split_ifs with hd hs
  · exact absurd ⟨hd, hs⟩ h'
  · rfl
  · rfl

/-! ### What a BUDGET SET does (R43) -/

/-- A result area shows a detail and the same detail with absent bytes after it alike (R170). -/
theorem resultArea_absent (r : Result) (tag : Half) (u : Word) {d : List Byte} {k : Nat} (h : d.length + k ≤ 56) :
    resultArea r tag u (d ++ absent k) = resultArea r tag u d := by
  have hpad : (d ++ absent k ++ absent 56).take 56 = (d ++ absent 56).take 56 := by
    simp only [absent, List.append_assoc, List.replicate_append_replicate, List.take_append, List.take_replicate]
    congr 2
    omega
  rw [resultArea, resultArea, hpad]

theorem TakeCompleted.without_absent {n : SlotId} {r : Result} {d : List Byte} {k : Nat}
    (h : TakeCompleted s t n r (d ++ absent k)) (hk : d.length + k ≤ 56) : TakeCompleted s t n r d :=
  ⟨h.done, h.area.trans (resultArea_absent _ _ _ hk)⟩

/-- The account with new settings, before its evaluation (R43). -/
def budgetAccepted (c : Settings) (s : State) : State :=
  mark .budget true (useFree (updAccount (fun a => a.accepted c s.free) s))

theorem budgetAccepted_account (c : Settings) (s : State) :
    (budgetAccepted c s).account = s.account.accepted c s.free := by
  simp [budgetAccepted, State.account]

theorem budgetAccepted_baySame (c : Settings) (s : State) (b : Bay) : BaySame s (budgetAccepted c s) b :=
  BaySame.of_bmon_paths (by simp [budgetAccepted]) (by simp [budgetAccepted]) b

theorem roomShown_sub (a : Account) :
    roomShown a = a.settings.capacity - max a.settings.floor a.fanEstimate - a.drives := by
  unfold roomShown room
  omega

/-- The detail of an accepted BUDGET SET (R43, section 10.5). -/
def budgetDetail (c : Settings) (a : Account) : List Byte :=
  encodeSettings c ++ le16 a.drives ++ le16 a.fanEstimate ++
    le16 (c.capacity - max c.floor a.fanEstimate - a.drives)

theorem budgetOrder_refused {n : SlotId} {r : BudgetRefusal}
    (h : budgetRefusal (settingsOf s n) s.account = some r) :
    budgetOrder n s = complete n r.result r.detail s := by
  unfold budgetOrder
  dsimp only
  rw [h]

/-- An accepted BUDGET SET with its settings written and its result shown, before the evaluation (R43). -/
def budgetAnswered (n : SlotId) (s : State) : State :=
  complete n .ok (budgetDetail (settingsOf s n) s.account) (budgetAccepted (settingsOf s n) s)

theorem budgetOrder_accepted {n : SlotId} (h : budgetRefusal (settingsOf s n) s.account = none) :
    budgetOrder n s = evaluate (budgetAnswered n s) := by
  have haccount := budgetAccepted_account (settingsOf s n) s
  unfold budgetAccepted at haccount
  unfold budgetOrder
  dsimp only
  rw [h]
  dsimp only
  rw [haccount, roomShown_sub]
  rfl

theorem budgetAnswered_account (n : SlotId) (s : State) :
    (budgetAnswered n s).account = s.account.accepted (settingsOf s n) s.free := by
  rw [← budgetAccepted_account]
  simp [budgetAnswered, State.account]

theorem budgetAnswered_baySame (n : SlotId) (s : State) (b : Bay) : BaySame s (budgetAnswered n s) b :=
  (budgetAccepted_baySame (settingsOf s n) s b).trans
    (BaySame.of_bmon_paths (by simp [budgetAnswered]) (by simp [budgetAnswered]) b)

theorem budgetAccepted_mem (c : Settings) (s : State) : (budgetAccepted c s).mem = s.mem := by
  simp [budgetAccepted]

theorem budgetAnswered_wf (n : SlotId) (hw : s.mem.wf = true) : (budgetAnswered n s).mem.wf = true :=
  (complete_written _ _ _ _ (by rwa [budgetAccepted_mem])).wf

theorem budgetAnswered_completed {n : SlotId} (hw : s.mem.wf = true) (h : (s.slot n).state = .taken) :
    Completed (budgetAnswered n s) n .ok (s.slot n).tag s.clock.uptime (budgetDetail (settingsOf s n) s.account) := by
  have hslot : (budgetAccepted (settingsOf s n) s).slot n = s.slot n :=
    slot_of_slots (by simp [budgetAccepted, useFree]) n
  have hclock : (budgetAccepted (settingsOf s n) s).clock = s.clock := by simp [budgetAccepted]
  have hdone := completed_complete (s := budgetAccepted (settingsOf s n) s) (by rwa [budgetAccepted_mem])
    (by rwa [hslot]) .ok (budgetDetail (settingsOf s n) s.account)
  rwa [hslot, hclock] at hdone

theorem answers_budgetSet {n : SlotId} {P : State → Prop} (h : takeKind .budgetSet s = some n)
    (hP : P (finishStep (budgetOrder n (takeSlot n s)))) : Answers .budgetSet s P := by
  have hbody : body .budgetSet s = budgetOrder n (takeSlot n s) := take_of_takeKind budgetOrder h
  exact answers_of_body (hbody ▸ hP)

/-- An evaluation completes no order, so a completion before it stays. -/
theorem Completed.evaluate {n : SlotId} {r : Result} {tag : Half} {u : Word} {d : List Byte}
    (h : Completed s n r tag u d) : Completed (evaluate s) n r tag u d := by
  have hadm := Admissions.evaluate s
  exact h.of_same (slot_of_slots hadm.slots n) fun x _ _ => by rw [hadm.mem]

/-- An accepted BUDGET SET shows the settings and what they leave, then its evaluation starts (R43). -/
theorem budgetStep_accepted {n : SlotId} (hw : s.mem.wf = true)
    (h : budgetRefusal (settingsOf s n) s.account = none) :
    let t := finishStep (budgetOrder n (takeSlot n s))
    t.account.settings = settingsOf s n ∧ t.account.fanEstimate = s.account.fanEstimate ∧
    TakeCompleted s t n .ok (budgetDetail (settingsOf s n) s.account) ∧ OthersKept (fun _ => False) s t := by
  have horder : budgetOrder n (takeSlot n s) = evaluate (budgetAnswered n (takeSlot n s)) := budgetOrder_accepted h
  generalize hx : budgetAnswered n (takeSlot n s) = x at horder
  have haccount : x.account = s.account.accepted (settingsOf s n) s.free :=
    hx ▸ budgetAnswered_account n (takeSlot n s)
  have hsame : ∀ b, BaySame s x b := fun b => hx ▸ budgetAnswered_baySame n (takeSlot n s) b
  have hslot : (takeSlot n s).slot n = ⟨.taken, orderKind s n, orderTag s n⟩ := by rw [slot_takeSlot, if_pos rfl]
  have hdone := budgetAnswered_completed (s := takeSlot n s) hw (by rw [hslot])
  rw [hslot, hx] at hdone
  have hadm := Admissions.evaluate x
  have hwf : (evaluate x).mem.wf = true := by
    rw [hadm.mem, ← hx]
    exact budgetAnswered_wf n hw
  have hsettings : (evaluate x).account.settings = x.account.settings := congrArg Setup.account (evaluate_setup x)
  dsimp only
  rw [horder, finishStep_account, hsettings, evaluate_fanEstimate, haccount]
  exact ⟨rfl, rfl, hdone.evaluate.finishStep hwf, (hadm.othersKept_of_same _ hsame).finishStep⟩

theorem BudgetRefusal.detail_present (r : Result) (setting : Byte) (x : Nat) :
    BudgetRefusal.detail ⟨r, setting, some x⟩ = absent 18 ++ ([setting, 0xFF] ++ le16 x) := List.append_assoc _ _ _

/-- A refused BUDGET SET leaves the account and the bays (R42). -/
theorem budgetStep_refused {n : SlotId} {r : BudgetRefusal} (hw : s.mem.wf = true)
    (h : budgetRefusal (settingsOf s n) s.account = some r) :
    let t := finishStep (budgetOrder n (takeSlot n s))
    TakeCompleted s t n r.result r.detail ∧ t.pseq = s.pseq ∧ t.bmon = s.bmon := by
  obtain ⟨hdone, hbmon, hpseq⟩ := take_answered n hw r.result r.detail
  dsimp only
  rw [budgetOrder_refused (s := takeSlot n s) h]
  exact ⟨hdone, hpseq, hbmon⟩

/-- Settles O40: the tests of R42 in their order refuse the order, or its settings stand. -/
theorem budgetSetReplacesTheSettingsOrNone : Obligations.BudgetSetReplacesTheSettingsOrNone := by
  intro s n ⟨⟨hw, _⟩, hk⟩ v c sound free setting
  have hinterval : (finishStep (budgetOrder n (takeSlot n s))).sbe.interval = s.sbe.interval := by
    obtain ⟨_, hsetup⟩ := budgetOrder_setup n (takeSlot n s)
    exact congrArg Setup.interval ((finishStep_setup _).trans hsetup)
  refine answers_budgetSet hk ⟨fun hs hf => budgetStep_accepted hw (budgetRefusal_none hs hf), fun hs => ?_,
    fun hs hf => ?_, by simp, by simp, by simp, hinterval⟩
  · obtain ⟨hdone, hkept⟩ := budgetStep_refused hw (budgetRefusal_badArg hs _)
    exact ⟨hdone.without_absent (k := 2) (by simp), hkept⟩
  · have hr := budgetRefusal_inUse hs hf
    split_ifs at hr ⊢ with hd
    all_goals
      obtain ⟨hdone, hkept⟩ := budgetStep_refused hw hr
      rw [BudgetRefusal.detail_present] at hdone
      exact ⟨hdone, hkept⟩

end Sys2Proof.Machine

/-! SUPPORT. The power path of one bay: a bay's change as BMON acts on it and PSEQ sets its path, the order that
completes with it, and the admission evaluation and the end of the step after it. -/

namespace Sys2Proof.Machine

variable {s t : State}

/-! ### A step that changes nothing of EXP -/

/-- With an empty note there is nothing to write at the end of a step (R156, R176). -/
theorem finishStep_of_note (h : StepNoteEmpty s.exp) : finishStep s = s := by
  obtain ⟨pins, bmon, pseq, sbe, thc, fanu, lgt, exp, mem, clock, free, pending⟩ := s
  obtain ⟨hmarks, hdone⟩ := h
  dsimp only at hmarks hdone
  simp only [finishStep, hdone, Bool.false_and, Bool.false_eq_true, if_false, ← hmarks]
  rw [← hdone]

/-- A command whose body leaves EXP alone answers its body's state. -/
theorem exec_of_body {c : Instr} (h : StepNoteEmpty s.exp) (hb : body c s = t) (he : t.exp = s.exp) :
    exec c s = .next t := by
  rw [exec_eq, hb, finishStep_of_note (he ▸ h)]

/-! ### What leaves the other bays -/

/-- Every bay but `b` has its record and its path. -/
def OthersSame (b : Bay) (s t : State) : Prop := ∀ d, d ≠ b → BaySame s t d

theorem OthersSame.trans {b : Bay} {u : State} (h : OthersSame b s t) (h' : OthersSame b t u) : OthersSame b s u :=
  fun d hd => (h d hd).trans (h' d hd)

theorem OthersSame.updPath (b : Bay) (g : Path → Path) (s : State) : OthersSame b s (updPath b g s) :=
  (OnlyBay.updPath b g s).others

@[simp] theorem path_report (b d : Bay) (acts : BayRec → Bool) (f : BayRec → BayRec) (events : List HistEvent)
    (s : State) : (report b acts f events s).path d = s.path d := by
  simp only [State.path, report_paths]

theorem OthersSame.report (b : Bay) (acts : BayRec → Bool) (f : BayRec → BayRec) (events : List HistEvent) (s : State) :
    OthersSame b s (report b acts f events s) :=
  fun d hd => ⟨(bay_report b d acts f events s).trans (if_neg fun h => hd h.1), path_report b d acts f events s⟩

/-- A report BMON acts on (R2). -/
theorem bay_report_own {b : Bay} {acts : BayRec → Bool} (h : acts (s.bay b) = true) (f : BayRec → BayRec)
    (events : List HistEvent) :
    (report b acts f events s).bay b = (f (s.bay b)).pushedAll events s.clock.uptime :=
  (bay_report b b acts f events s).trans (if_pos ⟨rfl, h⟩)

/-! ### What leaves the orders and the sideband -/

/-- Unless the bay comes to EMPTY, a report completes no order (R22, R80). -/
theorem report_orders {b : Bay} {f : BayRec → BayRec} (acts : BayRec → Bool) (events : List HistEvent)
    (he : (f (s.bay b)).state ≠ .empty) :
    (report b acts f events s).exp.slots = s.exp.slots ∧ (report b acts f events s).mem = s.mem := by
  have hpush := fun u : State => foldl_keeps (fun s => (s.exp.slots, s.mem)) (fun s ev => pushHistory b ev s) (by simp)
    events u
  simp only [Prod.mk.injEq] at hpush
  unfold report
  split
  · obtain ⟨hslots, hmem⟩ := hpush (moveBay b f s)
    exact ⟨hslots.trans (moveBayWith_slots none b f s he), hmem.trans (moveBayWith_mem none b f s he)⟩
  · exact ⟨rfl, rfl⟩

/-- What the sideband hears of a report is what it hears of the bay's change (R22). -/
theorem report_sbe {b : Bay} {acts : BayRec → Bool} (h : acts (s.bay b) = true) (f : BayRec → BayRec)
    (events : List HistEvent) : (report b acts f events s).sbe = (moveBay b f s).sbe := by
  unfold report
  rw [if_pos h]
  exact foldl_keeps State.sbe (fun s ev => pushHistory b ev s) (by simp) events _

/-! ### The bay's power order (R59, R60) -/

@[simp] theorem bay_completePower (b d : Bay) (r : Result) (l : List Byte) (s : State) :
    (completePower b r l s).bay d = s.bay d := bay_completeOpt _ r l s d

@[simp] theorem path_completePower (b d : Bay) (r : Result) (l : List Byte) (s : State) :
    (completePower b r l s).path d = s.path d := path_completeOpt _ r l s d

theorem OthersSame.completePower (b : Bay) (r : Result) (l : List Byte) (s : State) :
    OthersSame b s (completePower b r l s) :=
  fun d _ => ⟨bay_completePower b d r l s, path_completePower b d r l s⟩

theorem completePower_wf (b : Bay) (r : Result) (l : List Byte) (hw : s.mem.wf = true) :
    (completePower b r l s).mem.wf = true :=
  (((Changes.refl (s := s)).completeOpt (s.bay b).powerOrder r l).written hw).wf

theorem completePower_of_order {b : Bay} {n : SlotId} (h : (s.bay b).powerOrder = some n) (r : Result) (l : List Byte) :
    completePower b r l s = complete n r l s := by
  unfold completePower
  rw [h]
  rfl

theorem completePower_completed {b : Bay} {n : SlotId} (hw : s.mem.wf = true) (ho : (s.bay b).powerOrder = some n)
    (ht : (s.slot n).state = .taken) (r : Result) (l : List Byte) :
    Completed (completePower b r l s) n r (s.slot n).tag s.clock.uptime l := by
  rw [completePower_of_order ho]
  exact completed_complete hw ht r l

/-! ### A bay's change with its path -/

/-- BMON acts on PSEQ's report, and PSEQ sets the bay's path. -/
def powerTurn (b : Bay) (acts : BayRec → Bool) (f : BayRec → BayRec) (events : List HistEvent) (g : Path → Path)
    (s : State) : State :=
  updPath b g (report b acts f events s)

theorem bay_powerTurn {b : Bay} {acts : BayRec → Bool} (h : acts (s.bay b) = true) (f : BayRec → BayRec)
    (events : List HistEvent) (g : Path → Path) :
    (powerTurn b acts f events g s).bay b = (f (s.bay b)).pushedAll events s.clock.uptime :=
  bay_report_own h f events

theorem path_powerTurn (b : Bay) (acts : BayRec → Bool) (f : BayRec → BayRec) (events : List HistEvent)
    (g : Path → Path) (s : State) : (powerTurn b acts f events g s).path b = g (s.path b) := by
  rw [powerTurn, path_updPath, if_pos rfl, path_report]

theorem OthersSame.powerTurn (b : Bay) (acts : BayRec → Bool) (f : BayRec → BayRec) (events : List HistEvent)
    (g : Path → Path) (s : State) : OthersSame b s (powerTurn b acts f events g s) :=
  (OthersSame.report b acts f events s).trans (OthersSame.updPath b g _)

theorem powerTurn_orders {b : Bay} {f : BayRec → BayRec} (acts : BayRec → Bool) (events : List HistEvent)
    (g : Path → Path) (he : (f (s.bay b)).state ≠ .empty) :
    (powerTurn b acts f events g s).exp.slots = s.exp.slots ∧ (powerTurn b acts f events g s).mem = s.mem :=
  report_orders acts events he

/-- A completion stays where neither the slot table nor the memory changes. -/
theorem Completed.of_orders {n : SlotId} {r : Result} {tag : Half} {u : Word} {d : List Byte}
    (h : Completed s n r tag u d) (ho : t.exp.slots = s.exp.slots ∧ t.mem = s.mem) : Completed t n r tag u d :=
  h.of_same (slot_of_slots ho.1 n) fun x _ _ => by rw [ho.2]

/-- The bay's power order completes, and stays complete through the bay's change. -/
theorem powerTurn_completed {b : Bay} {r : Result} {l : List Byte} {acts : BayRec → Bool} {f : BayRec → BayRec}
    {events : List HistEvent} {g : Path → Path} {n : SlotId} (he : (f (s.bay b)).state ≠ .empty)
    (hw : s.mem.wf = true) (ho : (s.bay b).powerOrder = some n) (ht : (s.slot n).state = .taken) :
    Completed (powerTurn b acts f events g (completePower b r l s)) n r (s.slot n).tag s.clock.uptime l :=
  (completePower_completed hw ho ht r l).of_orders (powerTurn_orders acts events g (by rwa [bay_completePower]))

theorem powerTurn_wf {b : Bay} {r : Result} {l : List Byte} {acts : BayRec → Bool} {f : BayRec → BayRec}
    {events : List HistEvent} {g : Path → Path} (he : (f (s.bay b)).state ≠ .empty) (hw : s.mem.wf = true) :
    (powerTurn b acts f events g (completePower b r l s)).mem.wf = true := by
  rw [(powerTurn_orders acts events g (by rwa [bay_completePower])).2]
  exact completePower_wf b r l hw

/-! ### The evaluation and the end of the step -/

theorem baySame_finishStep (s : State) (d : Bay) : BaySame s (finishStep s) d :=
  ⟨bay_finishStep s d, path_finishStep s d⟩

/-- A bay that is not QUEUED stands at the end of the step as it stood before the evaluation (R35). -/
theorem evaluated_own {b : Bay} (h : (s.bay b).state ≠ .queued) : BaySame s (finishStep (evaluate s)) b :=
  ((Admissions.evaluate s).own h).trans (baySame_finishStep _ b)

theorem evaluated_others {b : Bay} (h : OthersSame b s t) : OthersKept (· = b) s (finishStep (evaluate t)) :=
  ((Admissions.evaluate t).othersKept h).finishStep

theorem evaluated_completed {n : SlotId} {r : Result} {tag : Half} {u : Word} {d : List Byte} (hw : s.mem.wf = true)
    (h : Completed s n r tag u d) : Completed (finishStep (evaluate s)) n r tag u d :=
  h.evaluate.finishStep (by rwa [(Admissions.evaluate s).mem])

theorem evaluated_slot (s : State) (n : SlotId) : (finishStep (evaluate s)).slot n = s.slot n :=
  slot_of_slots ((finishStep_slots _).trans (Admissions.evaluate s).slots) n

/-! ### An order completes, the bay and its path change, an evaluation follows (R50, R52, R53) -/

/-- The end of a step in which a bay's power order completes with the bay's change. -/
def powerStep (b : Bay) (r : Result) (l : List Byte) (acts : BayRec → Bool) (f : BayRec → BayRec)
    (events : List HistEvent) (g : Path → Path) (s : State) : State :=
  finishStep (evaluate (powerTurn b acts f events g (completePower b r l s)))

section PowerStep

variable {b : Bay} {r : Result} {l : List Byte} {acts : BayRec → Bool} {f : BayRec → BayRec} {events : List HistEvent}
  {g : Path → Path}

theorem powerStep_own (h : acts (s.bay b) = true) (hq : (f (s.bay b)).state ≠ .queued) :
    (powerStep b r l acts f events g s).bay b = (f (s.bay b)).pushedAll events s.clock.uptime ∧
    (powerStep b r l acts f events g s).path b = g (s.path b) := by
  have hturn := bay_powerTurn (s := completePower b r l s) (by rwa [bay_completePower]) f events g
  rw [bay_completePower, (completePower_keeps b r l s).2.2.2.2.2.2.2.1] at hturn
  obtain ⟨hbay, hpath⟩ := evaluated_own (s := powerTurn b acts f events g (completePower b r l s)) (b := b)
    (by rw [hturn]; simpa using hq)
  exact ⟨hbay.trans hturn, hpath.trans ((path_powerTurn _ _ _ _ _ _).trans (by rw [path_completePower]))⟩

theorem powerStep_others : OthersKept (· = b) s (powerStep b r l acts f events g s) :=
  evaluated_others ((OthersSame.completePower b r l s).trans (OthersSame.powerTurn b acts f events g _))

theorem powerStep_completed {n : SlotId} (he : (f (s.bay b)).state ≠ .empty) (hw : s.mem.wf = true)
    (ho : (s.bay b).powerOrder = some n) (ht : (s.slot n).state = .taken) :
    Completed (powerStep b r l acts f events g s) n r (s.slot n).tag s.clock.uptime l :=
  evaluated_completed (powerTurn_wf he hw) (powerTurn_completed he hw ho ht)

/-- What the sideband hears in such a step is what it hears of the bay's change (R22). -/
theorem powerStep_sbe (h : acts (s.bay b) = true) :
    (powerStep b r l acts f events g s).sbe = (moveBay b f (completePower b r l s)).sbe := by
  unfold powerStep powerTurn
  rw [(finishStep_keeps _).2.2.2.1, (Admissions.evaluate _).sbe, (updPath_keeps b g _).2.2.1,
    report_sbe (by rwa [bay_completePower])]

end PowerStep

/-! ### A bay taken to FAULT (R13) -/

@[simp] theorem BayRec.faulted_fields (r : BayRec) (c : FaultCause) :
    (r.faulted c).state = .fault ∧ (r.faulted c).faultCause = some c ∧ (r.faulted c).charge = none ∧
    (r.faulted c).powerOrder = none ∧ (r.faulted c).lastGood = r.lastGood := by simp [BayRec.faulted]

/-- What a fault leaves of the bay at the end of the step: the cause, no charge, no order, an idle path. -/
theorem powerStep_faulted {b : Bay} {r : Result} {l : List Byte} {acts : BayRec → Bool} {c : FaultCause}
    {events : List HistEvent} (h : acts (s.bay b) = true) :
    let t := powerStep b r l acts (fun r => r.faulted c) events Path.idle s
    (t.bay b).state = .fault ∧ (t.bay b).faultCause = some c ∧ (t.bay b).charge = none ∧
    (t.bay b).powerOrder = none ∧ (t.bay b).lastGood = (s.bay b).lastGood ∧
    t.path b = { Path.reset with slew := (s.path b).slew } := by
  obtain ⟨hbay, hpath⟩ := powerStep_own (r := r) (l := l) (f := fun r => r.faulted c) (events := events)
    (g := Path.idle) h (by simp)
  dsimp only
  rw [hbay]
  exact ⟨by simp, by simp, by simp, by simp, by simp, hpath⟩

end Sys2Proof.Machine

/-! Settles the level of a ladder's first attempt (O30) and what follows a failed one (O33). -/

namespace Sys2Proof.Machine

variable {s t : State}

/-! ### Levels (R47, R49) -/

/-- The next slower level is the lowest enabled one with a higher number. -/
theorem slower_of_nearest {mask : BitVec 4} {l n : Level} (hn : l < n) (he : enabled mask n = true)
    (hbetween : ∀ k, l < k → k < n → enabled mask k = false) : slower mask l = some n := by
  unfold slower
  rw [List.find?_eq_some_iff_getElem]
  refine ⟨by simp [hn, he], n.val, by simp, by simp, fun j hj => ?_⟩
  by_cases hlj : l < (⟨j, hj.trans n.isLt⟩ : Level)
  · simp [hbetween ⟨j, hj.trans n.isLt⟩ hlj hj]
  · simp [hlj]

/-- There is no slower level where no higher number is enabled. -/
theorem slower_eq_none {mask : BitVec 4} {l : Level} (h : ∀ k, l < k → enabled mask k = false) :
    slower mask l = none := by
  unfold slower
  rw [List.find?_eq_none]
  intro k _ hk
  simp only [Bool.and_eq_true, decide_eq_true_eq] at hk
  simp [h k hk.1] at hk

theorem slower_enabled {mask : BitVec 4} {l k : Level} (h : slower mask l = some k) : enabled mask k = true := by
  have hfound := List.find?_some h
  simp only [Bool.and_eq_true] at hfound
  exact hfound.2

theorem slower_ne_none {mask : BitVec 4} {l n : Level} (hn : l < n) (he : enabled mask n = true) :
    slower mask l ≠ none := fun h => by
  simpa [hn, he] using List.find?_eq_none.mp h n (List.mem_finRange n)

/-- The next faster level is the highest enabled one with a lower number. -/
theorem faster_of_nearest {mask : BitVec 4} {l n : Level} (hn : n < l) (he : enabled mask n = true)
    (hbetween : ∀ k, n < k → k < l → enabled mask k = false) : faster mask l = some n := by
  unfold faster
  rw [List.find?_eq_some_iff_getElem]
  refine ⟨by simp [hn, he], 3 - n.val, by simp; omega, Fin.ext (by simp; omega), fun j hj => ?_⟩
  have hj4 : 3 - j < 4 := by omega
  have hget : (List.finRange 4).reverse[j]'(by simp; omega) = (⟨3 - j, hj4⟩ : Level) := Fin.ext (by simp)
  rw [hget]
  by_cases hlj : (⟨3 - j, hj4⟩ : Level) < l
  · have hnj : n < (⟨3 - j, hj4⟩ : Level) := by
      rw [Fin.lt_def]
      show n.val < 3 - j
      omega
    simp [hbetween _ hnj hlj]
  · simp [hlj]

theorem faster_enabled {mask : BitVec 4} {l k : Level} (h : faster mask l = some k) : enabled mask k = true := by
  have hfound := List.find?_some h
  simp only [Bool.and_eq_true] at hfound
  exact hfound.2

theorem faster_ne_none {mask : BitVec 4} {l n : Level} (hn : n < l) (he : enabled mask n = true) :
    faster mask l ≠ none := fun h => by
  simpa [hn, he] using List.find?_eq_none.mp h n (List.mem_reverse.mpr (List.mem_finRange n))

/-- A mask other than 0 enables a level. -/
theorem exists_enabled {mask : BitVec 4} (h : mask ≠ 0) : ∃ n : Level, enabled mask n = true := by
  by_contra hnone
  refine h (BitVec.eq_of_getLsbD_eq fun i hi => ?_)
  have hbit : mask.getLsbD i ≠ true := fun hb => hnone ⟨⟨i, hi⟩, hb⟩
  simpa using hbit

theorem firstLevel_wanted {mask : BitVec 4} {start : Level} {learned : Option Level}
    (h : enabled mask (learned.getD start) = true) : firstLevel mask start learned = learned.getD start := if_pos h

theorem firstLevel_other {mask : BitVec 4} {start : Level} {learned : Option Level}
    (h : enabled mask (learned.getD start) = false) : firstLevel mask start learned
      = (slower mask (learned.getD start)).getD ((faster mask (learned.getD start)).getD (learned.getD start)) :=
  if_neg (by simp [h])

/-- The first level is enabled where the mask enables any (R47). -/
theorem firstLevel_enabled {mask : BitVec 4} (h : mask ≠ 0) (start : Level) (learned : Option Level) :
    enabled mask (firstLevel mask start learned) = true := by
  cases hw : enabled mask (learned.getD start) with
  | true => rwa [firstLevel_wanted hw]
  | false =>
    rw [firstLevel_other hw]
    cases hs : slower mask (learned.getD start) with
    | some k => exact slower_enabled hs
    | none =>
      cases hf : faster mask (learned.getD start) with
      | some k => exact faster_enabled hf
      | none =>
        obtain ⟨n, hn⟩ := exists_enabled h
        rcases lt_trichotomy n (learned.getD start) with hlt | heq | hgt
        · exact absurd hf (faster_ne_none hlt hn)
        · exact absurd (heq ▸ hn) (by simp [hw])
        · exact absurd hs (slower_ne_none hgt hn)

/-! ### An attempt begins, and ends GOOD (R48, R51) -/

/-- The path as an attempt ends GOOD, before its spin window starts (R51). -/
def Path.good (p : Path) (l : Ladder) : Path :=
  { p with ladder := some { l with phase := .spin, last := some .good }, rampTimer := none }

theorem attemptGood_eq {b : Bay} {l : Ladder} (h : (s.path b).ladder = some l) :
    attemptGood b s = powerTurn b (fun r => decide (r.state = .ramping))
      (fun r => { r.enter .spinning with lastGood := some l.level }) [.powerGood l.level]
      (fun p => { p with spinTimer := some (1000 * l.spinWindow) })
      (updPath b (fun p => p.good l) s) := by
  unfold attemptGood
  rw [h]
  rfl

theorem attemptBegin_low {b : Bay} {l : Ladder} (h : (s.path b).ladder = some l) (hg : s.pins.powerGood[b] = false) :
    attemptBegin b s = updPath b (fun p => p.begin l) s := by
  unfold attemptBegin
  rw [h]
  dsimp only
  rw [if_neg (by simp [hg])]

theorem attemptBegin_high {b : Bay} {l : Ladder} (h : (s.path b).ladder = some l) (hg : s.pins.powerGood[b] = true) :
    attemptBegin b s = attemptGood b (updPath b (fun p => p.begin l) s) := by
  unfold attemptBegin
  rw [h]
  dsimp only
  rw [if_pos hg]

/-- A GOOD end leaves the switches as they are (R51). -/
theorem attemptGood_switches (b : Bay) (s : State) :
    ((attemptGood b s).path b).switchOn = (s.path b).switchOn ∧
    ((attemptGood b s).path b).slew = (s.path b).slew := by
  cases hl : (s.path b).ladder with
  | none =>
    unfold attemptGood
    rw [hl]
    exact ⟨rfl, rfl⟩
  | some l =>
    rw [attemptGood_eq hl, path_powerTurn, path_updPath, if_pos rfl]
    exact ⟨rfl, rfl⟩

/-- An attempt begins with the switch on and the slew at its level (R48). -/
theorem attemptBegin_switches {b : Bay} {l : Ladder} (h : (s.path b).ladder = some l) :
    ((attemptBegin b s).path b).switchOn = true ∧ ((attemptBegin b s).path b).slew = l.level := by
  have hbegun : (updPath b (fun p => p.begin l) s).path b = (s.path b).begin l := by rw [path_updPath, if_pos rfl]
  cases hg : s.pins.powerGood[b] with
  | false =>
    rw [attemptBegin_low h hg, hbegun]
    exact ⟨rfl, rfl⟩
  | true =>
    obtain ⟨hon, hslew⟩ := attemptGood_switches b (updPath b (fun p => p.begin l) s)
    rw [attemptBegin_high h hg, hon, hslew, hbegun]
    exact ⟨rfl, rfl⟩

/-- An admission begins its first attempt at the first level (R36, R47, R48). -/
theorem admitEntry_switches {e : QEntry} (h : (s.bay e.bay).state = .queued) :
    ((admitEntry e s).path e.bay).switchOn = true ∧ ((admitEntry e s).path e.bay).slew
      = (Ladder.fresh (s.bay e.bay) s.account.settings e s.clock.tick).level := by
  rw [admitEntry_eq h]
  refine attemptBegin_switches ?_
  rw [admitted, path_updPath, if_pos rfl]

/-- Settles O30: the branches of the first level, and the attempt an admission begins at it. -/
theorem firstLevelIsTheNearestEnabled : Obligations.FirstLevelIsTheNearestEnabled := by
  refine ⟨fun mask start learned => ⟨firstLevel_wanted, fun hw n hn he hbetween => ?_,
    fun hw hnone n hn he hbetween => ?_, fun hm => firstLevel_enabled hm start learned⟩, fun _ _ _ _ => rfl,
    fun _ _ => admitEntry_switches, by decide, by decide⟩
  · rw [firstLevel_other hw, slower_of_nearest hn he hbetween]
    rfl
  · rw [firstLevel_other hw, slower_eq_none hnone, faster_of_nearest hn he hbetween]
    rfl

/-! ### A failed attempt (R49, R50) -/

/-- What a failed attempt leaves of a ladder. -/
def Ladder.failed (l : Ladder) (o : AttemptOutcome) : Ladder := { l with last := some o, phase := .coolOff }

/-- The path as an attempt fails, its ladder still at the level of that attempt. -/
def Path.failed (p : Path) (l : Ladder) (o : AttemptOutcome) : Path :=
  { p with switchOn := false, rampTimer := none, ladder := some (l.failed o) }

/-- Below both limits the ladder waits out its cool-off at the next level (R49). -/
theorem attemptFail_waits {b : Bay} {l : Ladder} {o : AttemptOutcome} (h : (s.path b).ladder = some l)
    (hcount : l.counts[nextLevel l.mask l.level o] < 3) (htotal : l.total < 6) :
    attemptFail b o s = updPath b (fun p => { p with
      switchOn := false, rampTimer := none, coolTimer := some 100,
      ladder := some { l with last := some o, phase := .coolOff, level := nextLevel l.mask l.level o } }) s := by
  have hspent : l.spent (nextLevel l.mask l.level o) = false :=
    decide_eq_false (show ¬ (3 ≤ l.counts[nextLevel l.mask l.level o] ∨ 6 ≤ l.total) by omega)
  unfold attemptFail
  rw [h]
  dsimp only
  rw [hspent]
  rfl

/-- At a limit the ladder is exhausted (R50). -/
theorem attemptFail_spent {b : Bay} {l : Ladder} {o : AttemptOutcome} (h : (s.path b).ladder = some l)
    (hlimit : 3 ≤ l.counts[nextLevel l.mask l.level o] ∨ 6 ≤ l.total) :
    finishStep (attemptFail b o s) = powerStep b .powerFault (onDetail (some (l.failed o)))
      (fun r => decide (r.state = .ramping)) (fun r => r.faulted .powerFault) [.fault .powerFault] Path.idle
      (updPath b (fun p => p.failed l o) s) := by
  have hspent : l.spent (nextLevel l.mask l.level o) = true := decide_eq_true hlimit
  unfold attemptFail
  rw [h]
  dsimp only
  rw [hspent]
  rfl

theorem OthersKept.after_same {b : Bay} {u : State} (h : OthersSame b s t) (h' : OthersKept (· = b) t u) :
    OthersKept (· = b) s u := by
  intro d hd
  obtain ⟨hbay, hpath⟩ := h d hd
  rcases h' d hd with hsame | hadmitted
  · exact Or.inl (BaySame.trans ⟨hbay, hpath⟩ hsame)
  · exact Or.inr (hbay ▸ hadmitted)

/-- The two commands that end an attempt without success (R48, R49). -/
theorem body_attemptFail {b : Bay} {c : Instr} {o : AttemptOutcome} (h : (s.path b).rampTimer.isSome = true)
    (hc : (c = .tripAsserted b ∧ o = .trip) ∨ (c = .rampWindowEnd b ∧ o = .slow)) :
    body c s = attemptFail b o s := by
  rcases hc with ⟨rfl, rfl⟩ | ⟨rfl, rfl⟩
  · exact if_pos h
  · exact if_pos h

/-- Settles O33: below the limits a cool-off, at a limit the fault of an exhausted ladder. -/
theorem failedAttemptGoesToTheNextLevel : Obligations.FailedAttemptGoesToTheNextLevel := by
  intro s b l hnote hramp hl c o hc _
  have hbody := body_attemptFail hramp hc
  refine ⟨fun hcount htotal => ?_, fun hlimit hst hw => answers_of_body ?_⟩
  · exact exec_of_body hnote (hbody.trans (attemptFail_waits hl hcount htotal)) rfl
  · rw [hbody, attemptFail_spent hl hlimit]
    obtain ⟨hstate, hcause, hcharge, horder, hgood, hpath⟩ := powerStep_faulted
      (s := updPath b (fun p => p.failed l o) s) (b := b) (r := .powerFault) (l := onDetail (some (l.failed o)))
      (acts := fun r => decide (r.state = .ramping)) (c := .powerFault) (events := [.fault .powerFault])
      (decide_eq_true hst)
    rw [path_updPath, if_pos rfl] at hpath
    refine ⟨hstate, hcause, hcharge, horder, hgood, hpath, fun n ho ht => ?_,
      powerStep_others.after_same (OthersSame.updPath b _ s)⟩
    exact powerStep_completed (s := updPath b (fun p => p.failed l o) s) (by simp) hw ho ht

end Sys2Proof.Machine

/-! Settles the attempt after a cool-off and its good end (O34), and the ends of the spin window and of the
hold (O35). -/

namespace Sys2Proof.Machine

variable {s t : State}

/-! ### The good end of an attempt (R48, R51) -/

/-- Two changes of one path are one. -/
theorem updPath_updPath (b : Bay) (f g : Path → Path) (s : State) :
    updPath b g (updPath b f s) = updPath b (fun p => g (f p)) s := by
  have hpath : (updPath b f s).path b = f (s.path b) := (path_updPath b b f s).trans (if_pos rfl)
  unfold updPath at hpath ⊢
  rw [hpath]
  simp

/-- A bay in RAMPING whose attempt ends GOOD spins up (R51). -/
theorem attemptGood_spins {b : Bay} {l : Ladder} (hl : (s.path b).ladder = some l) (hst : (s.bay b).state = .ramping) :
    let t := finishStep (attemptGood b s)
    (t.bay b).state = .spinning ∧ (t.bay b).lastGood = some l.level ∧ (t.bay b).charge = (s.bay b).charge ∧
    (t.bay b).powerOrder = (s.bay b).powerOrder ∧ (t.path b).rampTimer = none ∧
    (t.path b).spinTimer = some (1000 * l.spinWindow) ∧ (t.path b).switchOn = (s.path b).switchOn ∧
    OthersSame b s t := by
  generalize hu : updPath b (fun p => p.good l) s = u
  have hbay : u.bay b = s.bay b := hu ▸ rfl
  have hpath : u.path b = (s.path b).good l := by
    rw [← hu, path_updPath, if_pos rfl]
  have hturn := bay_powerTurn (s := u) (b := b) (acts := fun r => decide (r.state = .ramping))
    (by rw [hbay]; exact decide_eq_true hst) (fun r => { r.enter .spinning with lastGood := some l.level })
    [.powerGood l.level] (fun p => { p with spinTimer := some (1000 * l.spinWindow) })
  dsimp only
  rw [attemptGood_eq hl, hu, bay_finishStep, path_finishStep, hturn, path_powerTurn, hbay, hpath]
  refine ⟨by simp, by simp, by simp, by simp, rfl, rfl, rfl, ?_⟩
  rw [← hu]
  exact ((OthersSame.updPath b _ s).trans (OthersSame.powerTurn b _ _ _ _ _)).trans fun d _ => baySame_finishStep _ d

theorem body_coolOffEnd {b : Bay} (h : (s.path b).coolTimer.isSome = true) :
    body (.coolOffEnd b) s = attemptBegin b (updPath b (fun p => { p with coolTimer := none }) s) := if_pos h

theorem body_powerGoodAsserted {b : Bay} (h : (s.path b).rampTimer.isSome = true) :
    body (.powerGoodAsserted b) s = attemptGood b (setPowerGood b true s) := if_pos h

/-- Settles O34: an attempt begins, or begins and ends GOOD, as the power-good input reads. -/
theorem attemptBeginsAfterTheCoolOff : Obligations.AttemptBeginsAfterTheCoolOff := by
  intro s b hnote
  have hladder : ∀ {l}, (s.path b).ladder = some l →
      ((updPath b (fun p => { p with coolTimer := none }) s).path b).ladder = some l := fun hl => by
    rw [path_updPath, if_pos rfl]
    exact hl
  refine ⟨fun l hl hcool hgood => ?_, fun l c hl hst hc => answers_of_body ?_, fun hramp => ?_⟩
  · refine exec_of_body hnote ((body_coolOffEnd hcool).trans ((attemptBegin_low (hladder hl) hgood).trans ?_)) rfl
    rw [updPath_updPath]
    rfl
  · rcases hc with ⟨rfl, hramp⟩ | ⟨rfl, hcool, hgood⟩
    · obtain ⟨hstate, hlast, hcharge, horder, hrampt, hspin, hon, hothers⟩ :=
        attemptGood_spins (s := setPowerGood b true s) hl hst
      rw [body_powerGoodAsserted hramp]
      refine ⟨hstate, hlast, hcharge, horder, hrampt, hspin, ?_, ?_, ?_, hothers⟩
      · rw [if_neg (by simp)]
        exact hon
      · simp
      · simp
    · generalize hu : updPath b (fun p => p.begin l) (updPath b (fun p => { p with coolTimer := none }) s) = u
      have hpath : u.path b = ({ s.path b with coolTimer := none } : Path).begin l := by
        rw [← hu, path_updPath, if_pos rfl, path_updPath, if_pos rfl]
      have hpins : u.pins = s.pins := hu ▸ rfl
      obtain ⟨hstate, hlast, hcharge, horder, hrampt, hspin, hon, hothers⟩ :=
        attemptGood_spins (s := u) (b := b) (l := l.begin) (by rw [hpath]; rfl) (by rw [← hu]; exact hst)
      rw [body_coolOffEnd hcool, attemptBegin_high (hladder hl) hgood, hu]
      refine ⟨hstate, hlast, hcharge.trans (hu ▸ rfl), horder.trans (hu ▸ rfl), hrampt, hspin, ?_, ?_, ?_, ?_⟩
      · rw [if_pos rfl, hon, hpath]
        rfl
      · simp [hpins, hgood]
      · simp [hpins]
      · refine OthersSame.trans ?_ hothers
        rw [← hu]
        exact (OthersSame.updPath b _ s).trans (OthersSame.updPath b _ _)
  · exact exec_of_body hnote (if_neg (by simp [hramp])) rfl

/-! ### The end of the spin window (R52) -/

/-- The record of a bay whose spin window has ended: ACTIVE, at its steady charge (R12, R52). -/
def BayRec.spunUp (r : BayRec) : BayRec := { r.enter .active with charge := lowered r.charge, powerOrder := none }

@[simp] theorem BayRec.spunUp_fields (r : BayRec) :
    r.spunUp.state = .active ∧ r.spunUp.charge = lowered r.charge ∧ r.spunUp.powerOrder = none ∧
    r.spunUp.lastGood = r.lastGood ∧ r.spunUp.policy = r.policy := by simp [BayRec.spunUp]

/-- The end of SPIN_WINDOW_END's step. -/
def spinStep (b : Bay) (s : State) : State :=
  powerStep b .ok (onDetail (s.path b).ladder) (fun r => decide (r.state = .spinning)) BayRec.spunUp
    [.active (s.bay b).lastGood] (fun p => { p with spinTimer := none, ladder := none }) s

theorem answers_spinWindowEnd {b : Bay} {P : State → Prop} (h : (s.path b).spinTimer.isSome = true)
    (hP : P (spinStep b s)) : Answers (.spinWindowEnd b) s P := by
  refine answers_of_body ?_
  rw [show body (.spinWindowEnd b) s = _ from if_pos h]
  exact hP

/-! ### The first poll of a bay that enters ACTIVE (R70, R72) -/

theorem moveBay_enters_active {b : Bay} {f : BayRec → BayRec} (h : (s.bay b).state ≠ .active)
    (h' : (f (s.bay b)).state = .active) : moveBay b f s = pollEntered b (handedOver b f s) := by
  have hst : ((handedOver b f s).bay b).state = .active := by rw [handedOver, bay_handed, h']
  exact if_pos ⟨h, hst⟩

theorem pollEntered_queued {b : Bay} (h : pollQueued s b = true) :
    pollEntered b s = { s with sbe := { s.sbe with pollCount := s.sbe.pollCount.set b 0 } } := if_pos h

/-- A bay without a poll-class entry gets its first poll, a TEMP (R71, R72). -/
theorem pollEntered_new {b : Bay} (h : pollQueued s b = false) :
    pollEntered b s = startNext { s with sbe := { s.sbe with
      pollCount := s.sbe.pollCount.set b 1
      pollQ := s.sbe.pollQ ++
        [{ bay := b, item := .temp, origin := .poll, slot := none, take := s.clock.tick }] } } := by
  have hjoin : pollEntered b s = joinPoll _ _ := if_neg (ne_true_of_eq_false h)
  rw [hjoin]
  simp [joinPoll, plainEntry, pollItem]

/-- The state whose sideband alone follows from the bay's entry to ACTIVE. -/
theorem spinStep_sbe {b : Bay} (hst : (s.bay b).state = .spinning) :
    ∃ u, u.sbe = s.sbe ∧ u.clock = s.clock ∧ (spinStep b s).sbe = (pollEntered b u).sbe := by
  refine ⟨handedOver b BayRec.spunUp (completePower b .ok (onDetail (s.path b).ladder) s), by simp, by simp, ?_⟩
  rw [spinStep, powerStep_sbe (decide_eq_true hst), moveBay_enters_active (by simp [hst]) (by simp)]

/-! ### The end of the hold (R59) -/

theorem finishHold_eq (b : Bay) (s : State) : finishHold b s =
    powerTurn b BayRec.holds (fun r => { r.enter .off with powerOrder := none }) [] Path.idle
      (completePower b .ok (offDetail (s.path b).stop) s) := rfl

theorem finishHold_own {b : Bay} (h : (s.bay b).holds = true) :
    (finishHold b s).bay b = { (s.bay b).enter .off with powerOrder := none } ∧
    (finishHold b s).path b = (s.path b).idle := by
  rw [finishHold_eq, bay_powerTurn (by rwa [bay_completePower]), path_powerTurn, bay_completePower, path_completePower]
  exact ⟨rfl, rfl⟩

theorem OthersSame.finishHold (b : Bay) (s : State) : OthersSame b s (finishHold b s) := by
  rw [finishHold_eq]
  exact (OthersSame.completePower b _ _ s).trans (OthersSame.powerTurn b _ _ _ _ _)

theorem answers_holdEnd {b : Bay} {P : State → Prop} (h : (s.path b).holdTimer.isSome = true)
    (hP : P (finishStep (finishHold b s))) : Answers (.holdEnd b) s P := by
  refine answers_of_body ?_
  rw [show body (.holdEnd b) s = _ from if_pos h]
  exact hP

/-- Settles O35: the two ends, and the sideband's first poll of a bay that has come to ACTIVE. -/
theorem spinWindowAndHoldEnd : Obligations.SpinWindowAndHoldEnd := by
  refine ⟨fun s b hw htimer hst => answers_spinWindowEnd htimer ?_,
    fun s b hw htimer hst hphase => answers_holdEnd htimer ?_,
    fun s b htimer hst => answers_spinWindowEnd htimer ?_⟩
  · obtain ⟨hbay, hpath⟩ := powerStep_own (s := s) (b := b) (r := .ok) (l := onDetail (s.path b).ladder)
      (acts := fun r => decide (r.state = .spinning)) (f := BayRec.spunUp) (events := [.active (s.bay b).lastGood])
      (g := fun p => { p with spinTimer := none, ladder := none }) (decide_eq_true hst) (by simp)
    change (spinStep b s).bay b = _ at hbay
    rw [hbay]
    exact ⟨by simp, by simp [lowered], by simp, by simp, by simp, rfl, hpath,
      fun n ho ht => powerStep_completed (by simp) hw ho ht, powerStep_others⟩
  · obtain ⟨hbay, hpath⟩ := finishHold_own (s := s) (b := b) (decide_eq_true ⟨hst, hphase⟩)
    rw [bay_finishStep, path_finishStep, hbay, hpath]
    refine ⟨rfl, rfl, rfl, rfl, rfl, fun n ho ht => ?_,
      (OthersSame.finishHold b s).trans fun d _ => baySame_finishStep _ d⟩
    exact (powerTurn_completed (by simp) hw ho ht).finishStep (powerTurn_wf (by simp) hw)
  · obtain ⟨u, hsbe, hclock, hend⟩ := spinStep_sbe (b := b) hst
    have hqueued : pollQueued u b = pollQueued s b := by rw [pollQueued, hsbe, pollQueued]
    refine ⟨fun hq => ?_, fun hq hbusy => ?_, fun hq hidle => ?_⟩
    · rw [hend, pollEntered_queued (hqueued.trans hq), hsbe]
    · obtain ⟨x, hx⟩ := Option.isSome_iff_exists.mp hbusy
      rw [hend, pollEntered_new (hqueued.trans hq), startNext_sbe_busy (x := x) (by rw [hsbe]; exact hx), hsbe, hclock]
    · rw [hend, pollEntered_new (hqueued.trans hq), startNext_sbe_idle (by rw [hsbe]; exact hidle), hsbe, hclock]

end Sys2Proof.Machine

/-! Settles what cuts the power of a running bay: a trip or the loss of power-good (O36), and the shed (O37). -/

namespace Sys2Proof.Machine

variable {s t : State}

/-! ### The hold (R12, R56, R59) -/

/-- The hold of bay `b` has begun for `k` seconds, with the power order `o`; one of 0 s has ended as it began. -/
structure HoldBegun (b : Bay) (k : Nat) (o : Option SlotId) (t : State) : Prop where
  charge : (t.bay b).charge = none
  switch : (t.path b).switchOn = false
  ended : k = 0 → (t.bay b).state = .off ∧ (t.bay b).powerOrder = none
  runs : k ≠ 0 → (t.bay b).state = .stopping ∧ (t.bay b).stopPhase = some .hold ∧ (t.bay b).powerOrder = o ∧
    (t.path b).holdTimer = some (1000 * k)

theorem HoldBegun.not_queued {b : Bay} {k : Nat} {o : Option SlotId} (h : HoldBegun b k o t) :
    (t.bay b).state ≠ .queued := by
  by_cases hk : k = 0
  · simp [(h.ended hk).1]
  · simp [(h.runs hk).1]

theorem HoldBegun.of_same {b : Bay} {k : Nat} {o : Option SlotId} {u : State} (h : HoldBegun b k o t)
    (hs : BaySame t u b) : HoldBegun b k o u := by
  obtain ⟨hbay, hpath⟩ := hs
  exact ⟨by rw [hbay]; exact h.charge, by rw [hpath]; exact h.switch, fun hk => by rw [hbay]; exact h.ended hk,
    fun hk => by rw [hbay, hpath]; exact h.runs hk⟩

theorem HoldBegun.evaluated {b : Bay} {k : Nat} {o : Option SlotId} (h : HoldBegun b k o t) :
    HoldBegun b k o (finishStep (evaluate t)) := h.of_same (evaluated_own h.not_queued)

theorem startHold_zero (b : Bay) (s : State) : startHold b 0 s = finishHold b s := if_pos rfl

theorem startHold_pos {k : Nat} (h : k ≠ 0) (b : Bay) (s : State) :
    startHold b k s = updPath b (fun p => { p with holdTimer := some (1000 * k) }) s := if_neg h

theorem startHold_begun {b : Bay} (hst : (s.bay b).holds = true) (hc : (s.bay b).charge = none)
    (hon : (s.path b).switchOn = false) (k : Nat) : HoldBegun b k (s.bay b).powerOrder (startHold b k s) := by
  by_cases hk : k = 0
  · obtain ⟨hbay, hpath⟩ := finishHold_own hst
    subst hk
    rw [startHold_zero]
    exact ⟨by simpa [hbay] using hc, by rw [hpath]; rfl, fun _ => by rw [hbay]; exact ⟨rfl, rfl⟩,
      fun h => absurd rfl h⟩
  · obtain ⟨hstate, hphase⟩ := of_decide_eq_true hst
    rw [startHold_pos hk]
    refine ⟨hc, ?_, fun h => absurd h hk, fun _ => ⟨hstate, hphase, rfl, ?_⟩⟩
    · rwa [path_updPath, if_pos rfl]
    · rw [path_updPath, if_pos rfl]

theorem OthersSame.startHold (b : Bay) (k : Nat) (s : State) : OthersSame b s (startHold b k s) := by
  by_cases hk : k = 0
  · subst hk
    exact OthersSame.finishHold b s
  · rw [startHold_pos hk]
    exact OthersSame.updPath b _ s

/-- BMON puts a bay in STOPPING/HOLD on PSEQ's report, and the hold starts. -/
def toHold (b : Bay) (k : Nat) (acts : BayRec → Bool) (f : BayRec → BayRec) (events : List HistEvent) (s : State) :
    State := startHold b k (report b acts f events s)

theorem toHold_begun {b : Bay} {acts : BayRec → Bool} {f : BayRec → BayRec} {o : Option SlotId}
    (h : acts (s.bay b) = true) (hf : f (s.bay b) = { (s.bay b).held' with powerOrder := o })
    (hon : (s.path b).switchOn = false) (k : Nat) (events : List HistEvent) :
    HoldBegun b k o (toHold b k acts f events s) := by
  have hbay := bay_report_own h f events
  rw [hf] at hbay
  have hbegun := startHold_begun (s := report b acts f events s) (b := b)
    (by rw [hbay]; simp [BayRec.holds, BayRec.held'])
    (by rw [hbay]; simp [BayRec.held']) (by rwa [path_report]) k
  rw [hbay] at hbegun
  simpa [toHold] using hbegun

theorem OthersSame.toHold (b : Bay) (k : Nat) (acts : BayRec → Bool) (f : BayRec → BayRec) (events : List HistEvent)
    (s : State) : OthersSame b s (toHold b k acts f events s) :=
  (OthersSame.report b acts f events s).trans (OthersSame.startHold b k _)

/-! ### The end of a standby wait (R54, R57, R58) -/

/-- The path of a standby wait that ends: the switch goes off, the stop has its outcome (R58, R59). -/
def Path.waited (p : Path) (w : Stop) : Path := { p with switchOn := false, stop := some w }

theorem standbyEnd_eq {b : Bay} {w : Stop} (h : (s.path b).stop = some w) (o : StandbyOutcome) (x : Option SbResult)
    (c : Option CutCause) : standbyEnd b o x c s = evaluate (toHold b w.hold BayRec.waits BayRec.held' (standbyEvents o)
      (updPath b (fun p => p.waited (w.ended o x c s.clock.tick)) s)) := by
  unfold standbyEnd
  rw [h]
  rfl

theorem standbyEnd_none {b : Bay} (h : (s.path b).stop = none) (o : StandbyOutcome) (x : Option SbResult)
    (c : Option CutCause) : standbyEnd b o x c s = s := by
  unfold standbyEnd
  rw [h]

/-- The hold after a standby wait keeps the wait's power order. -/
theorem standbyEnd_begun {b : Bay} {w : Stop} (h : (s.path b).stop = some w) (hw : (s.bay b).waits = true)
    (o : StandbyOutcome) (x : Option SbResult) (c : Option CutCause) :
    HoldBegun b w.hold (s.bay b).powerOrder (finishStep (standbyEnd b o x c s)) := by
  rw [standbyEnd_eq h]
  refine (toHold_begun (s := updPath b (fun p => p.waited (w.ended o x c s.clock.tick)) s) (b := b) hw rfl ?_ _ _).evaluated
  rw [path_updPath, if_pos rfl]
  rfl

theorem standbyEnd_others {b : Bay} (o : StandbyOutcome) (x : Option SbResult) (c : Option CutCause) (s : State) :
    OthersKept (· = b) s (finishStep (standbyEnd b o x c s)) := by
  cases h : (s.path b).stop with
  | none =>
    rw [standbyEnd_none h]
    exact fun d _ => Or.inl (baySame_finishStep s d)
  | some w =>
    rw [standbyEnd_eq h]
    exact evaluated_others ((OthersSame.updPath b _ s).trans (OthersSame.toHold b _ _ _ _ _))

/-! ### A trip, or the loss of power-good, outside a ramp window (R53, R54) -/

theorem powerCut_running {b : Bay} (h : (s.bay b).runs = true) (k : CutCause) :
    finishStep (powerCut b k s) = powerStep b k.result (onDetail (s.path b).ladder) BayRec.runs
      (fun r => r.faulted k.fault) [.fault k.fault] Path.idle s := congrArg finishStep (if_pos h)

theorem powerCut_waiting {b : Bay} (h : (s.bay b).runs = false) (h' : (s.bay b).waits = true) (k : CutCause) :
    powerCut b k s = standbyEnd b .failed none (some k) s := by
  rw [powerCut, if_neg (by simp [h]), if_pos h']

theorem powerCut_idle {b : Bay} (h : (s.bay b).runs = false) (h' : (s.bay b).waits = false) (k : CutCause) :
    powerCut b k s = s := by
  rw [powerCut, if_neg (by simp [h]), if_neg (by simp [h'])]

/-- A bay in SPINNING or ACTIVE goes to FAULT, and its power order completes with the cause (R53). -/
theorem powerCut_faults {b : Bay} {k : CutCause} (hw : s.mem.wf = true)
    (h : (s.bay b).state = .spinning ∨ (s.bay b).state = .active) :
    let t := finishStep (powerCut b k s)
    (t.bay b).state = .fault ∧ (t.bay b).faultCause = some k.fault ∧ (t.bay b).charge = none ∧
    (t.bay b).powerOrder = none ∧ (t.bay b).lastGood = (s.bay b).lastGood ∧
    t.path b = { Path.reset with slew := (s.path b).slew } ∧
    ∀ n, (s.bay b).powerOrder = some n → (s.slot n).state = .taken →
      Completed t n k.result (s.slot n).tag s.clock.uptime (onDetail (s.path b).ladder) := by
  have hruns : (s.bay b).runs = true := decide_eq_true h
  dsimp only
  rw [powerCut_running hruns]
  obtain ⟨hstate, hcause, hcharge, horder, hgood, hpath⟩ := powerStep_faulted (r := k.result)
    (l := onDetail (s.path b).ladder) (c := k.fault) (events := [.fault k.fault]) hruns
  exact ⟨hstate, hcause, hcharge, horder, hgood, hpath, fun n ho ht => powerStep_completed (by simp) hw ho ht⟩

/-- The cut of a standby wait: the hold begins at once (R54). -/
theorem powerCut_holds {b : Bay} {k : CutCause} {w : Stop} (hst : (s.bay b).state = .stopping)
    (hphase : (s.bay b).stopPhase = some .standbyWait) (h : (s.path b).stop = some w) :
    HoldBegun b w.hold (s.bay b).powerOrder (finishStep (powerCut b k s)) := by
  have hwaits : (s.bay b).waits = true := decide_eq_true ⟨hst, hphase⟩
  rw [powerCut_waiting (by simp [BayRec.runs, hst]) hwaits]
  exact standbyEnd_begun h hwaits _ _ _

theorem powerCut_others {b : Bay} {k : CutCause} : OthersKept (· = b) s (finishStep (powerCut b k s)) := by
  cases hruns : (s.bay b).runs with
  | true =>
    rw [powerCut_running hruns]
    exact powerStep_others
  | false =>
    cases hwaits : (s.bay b).waits with
    | true =>
      rw [powerCut_waiting hruns hwaits]
      exact standbyEnd_others _ _ _ s
    | false =>
      rw [powerCut_idle hruns hwaits]
      exact fun d _ => Or.inl (baySame_finishStep s d)

/-- In any other state the bays stay (R53, R54). -/
theorem powerCut_stays {b : Bay} {k : CutCause} (h : (s.bay b).runs = false) (h' : (s.bay b).waits = false) (d : Bay) :
    BaySame s (finishStep (powerCut b k s)) d := by
  rw [powerCut_idle h h']
  exact baySame_finishStep s d

/-- The hold as the statement gives it. -/
theorem HoldBegun.off_or_holding {b : Bay} {k : Nat} {o : Option SlotId} (h : HoldBegun b k o t) :
    (t.bay b).charge = none ∧ (t.path b).switchOn = false ∧
    (if k = 0 then (t.bay b).state = .off
    else (t.bay b).state = .stopping ∧ (t.bay b).stopPhase = some .hold ∧ (t.path b).holdTimer = some (1000 * k)) := by
  refine ⟨h.charge, h.switch, ?_⟩
  split_ifs with hk
  · exact (h.ended hk).1
  · obtain ⟨hstate, hphase, -, htimer⟩ := h.runs hk
    exact ⟨hstate, hphase, htimer⟩

/-- Settles O36: the cut by the bay's state, with the power-good input as it reads after the edge. -/
theorem runningFaultCutsTheBay : Obligations.RunningFaultCutsTheBay := by
  intro s b hw c k hc
  rcases hc with ⟨rfl, rfl, hramp⟩ | ⟨rfl, rfl⟩
  · have hbody : body (.tripAsserted b) s = powerCut b .trip s := if_neg (by simp [hramp])
    refine answers_of_body ?_
    rw [hbody]
    exact ⟨by simp, by simp, powerCut_faults hw, fun w hst hphase h => (powerCut_holds hst hphase h).off_or_holding,
      powerCut_stays, powerCut_others⟩
  · have hbody : body (.powerGoodDeasserted b) s = powerCut b .powerLost (setPowerGood b false s) := rfl
    refine answers_of_body ?_
    rw [hbody]
    exact ⟨by simp, by simp, powerCut_faults (s := setPowerGood b false s) hw,
      fun w hst hphase h => (powerCut_holds (s := setPowerGood b false s) hst hphase h).off_or_holding,
      powerCut_stays (s := setPowerGood b false s), powerCut_others (s := setPowerGood b false s)⟩

/-! ### The shed requests through an evaluation (R61) -/

theorem report_sheds (b : Bay) (acts : BayRec → Bool) (f : BayRec → BayRec) (events : List HistEvent) (s : State) :
    (report b acts f events s).pseq.sheds = s.pseq.sheds := by
  have hpush := fun u : State => foldl_keeps (fun s => s.pseq.sheds) (fun s ev => pushHistory b ev s) (by simp) events u
  unfold report
  split <;> simp [hpush]

theorem powerTurn_sheds (b : Bay) (acts : BayRec → Bool) (f : BayRec → BayRec) (events : List HistEvent)
    (g : Path → Path) (s : State) : (powerTurn b acts f events g s).pseq.sheds = s.pseq.sheds :=
  report_sheds b acts f events s

theorem attemptBegin_sheds (b : Bay) (s : State) : (attemptBegin b s).pseq.sheds = s.pseq.sheds := by
  cases hl : (s.path b).ladder with
  | none =>
    unfold attemptBegin
    rw [hl]
  | some l =>
    cases hg : s.pins.powerGood[b] with
    | false =>
      rw [attemptBegin_low hl hg]
      rfl
    | true =>
      have hbegun : ((updPath b (fun p => p.begin l) s).path b).ladder = some l.begin := by
        rw [path_updPath, if_pos rfl]
        rfl
      rw [attemptBegin_high hl hg, attemptGood_eq hbegun, powerTurn_sheds]
      rfl

theorem admitEntry_sheds (e : QEntry) (s : State) : (admitEntry e s).pseq.sheds = s.pseq.sheds := by
  by_cases h : (s.bay e.bay).state = .queued
  · calc (admitEntry e s).pseq.sheds
        = (admitted e s).pseq.sheds := by rw [admitEntry_eq h, attemptBegin_sheds]
      _ = (admissionNoted s).pseq.sheds := report_sheds _ _ _ _ _
      _ = s.pseq.sheds := by simp [admissionNoted]
  · rw [admitEntry, if_neg h, dropEntry_pseq]

/-- Admissions take no shed request (R61). -/
theorem admitWhileFits_sheds (n : Nat) (s : State) : (admitWhileFits n s).pseq.sheds = s.pseq.sheds := by
  induction n generalizing s with
  | zero => rfl
  | succ n ih =>
    unfold admitWhileFits
    split
    · rfl
    · split
      · exact (ih _).trans (admitEntry_sheds _ s)
      · rfl

theorem evaluate_sheds (s : State) : (evaluate s).pseq.sheds = s.pseq.sheds := by
  rw [evaluate_eq, updateBlocked_pseq]
  exact admitWhileFits_sheds _ s

/-! ### The shed (R13, R61) -/

/-- The state in which PSEQ carries out a shed request it has taken. -/
def shedLeft (q : ShedReq) (s : State) : State := { s with pseq := { s.pseq with sheds := s.pseq.sheds.erase q } }

theorem body_shedRequest {b : Bay} {q : ShedReq} (h : (s.pseq.sheds.find? fun r => r.bay = b) = some q) :
    body (.shedRequest b) s = shed b q.temp (shedLeft q s) := by
  change shedTaken b s = _
  unfold shedTaken takeShed
  rw [h]
  rfl

theorem shed_active {b : Bay} (h : (s.bay b).state = .active) (temp : Nat) : shed b temp s =
    evaluate (powerTurn b (fun r => decide (r.state = .active)) (fun r => r.faulted .thermal)
      [.shed temp, .fault .thermal] Path.idle s) := if_pos h

theorem shed_discarded {b : Bay} (h : (s.bay b).state ≠ .active) (temp : Nat) : shed b temp s = s := if_neg h

/-- An ACTIVE bay goes to FAULT THERMAL, with the two entries in its ring (R13, R61). -/
theorem shed_faults {b : Bay} (h : (s.bay b).state = .active) (temp : Nat) :
    (finishStep (shed b temp s)).bay b
      = ((s.bay b).faulted .thermal).pushedAll [.shed temp, .fault .thermal] s.clock.uptime ∧
    (finishStep (shed b temp s)).path b = (s.path b).idle := by
  have hturn := bay_powerTurn (b := b) (acts := fun r => decide (r.state = .active)) (decide_eq_true h)
    (fun r => r.faulted .thermal) [.shed temp, .fault .thermal] Path.idle
  rw [shed_active h]
  obtain ⟨hbay, hpath⟩ := evaluated_own (by rw [hturn]; simp)
  exact ⟨hbay.trans hturn, hpath.trans (path_powerTurn _ _ _ _ _ _)⟩

theorem shed_others (b : Bay) (temp : Nat) (s : State) : OthersKept (· = b) s (finishStep (shed b temp s)) := by
  by_cases h : (s.bay b).state = .active
  · rw [shed_active h]
    exact evaluated_others (OthersSame.powerTurn b _ _ _ _ s)
  · rw [shed_discarded h]
    exact fun d _ => Or.inl (baySame_finishStep s d)

theorem shed_sheds (b : Bay) (temp : Nat) (s : State) : (finishStep (shed b temp s)).pseq.sheds = s.pseq.sheds := by
  rw [finishStep_pseq]
  by_cases h : (s.bay b).state = .active
  · rw [shed_active h, evaluate_sheds, powerTurn_sheds]
  · rw [shed_discarded h]

/-- Settles O37: the request is taken, and an ACTIVE bay is shed. -/
theorem shedTakesAnActiveBayToFault : Obligations.ShedTakesAnActiveBayToFault := by
  intro s b q hq
  refine answers_of_body ?_
  rw [body_shedRequest hq]
  refine ⟨shed_sheds b q.temp _, fun hst => ?_, fun hst d => ?_, shed_others b q.temp (shedLeft q s)⟩
  · obtain ⟨hbay, hpath⟩ := shed_faults (s := shedLeft q s) hst q.temp
    rw [hbay]
    exact ⟨by simp, by simp, by simp, hpath, rfl⟩
  · rw [shed_discarded (s := shedLeft q s) hst]
    exact baySame_finishStep (shedLeft q s) d

end Sys2Proof.Machine

/-! Settles BAY POWER OFF (O39). -/

namespace Sys2Proof.Machine

variable {s t : State}

/-! ### The order's slot through a hold (R59) -/

/-- A hold of 0 s completes its order as it begins, any other leaves it open. -/
theorem startHold_slot {b : Bay} {n : SlotId} (ho : (s.bay b).powerOrder = some n) (ht : (s.slot n).state = .taken)
    (k : Nat) : ((startHold b k s).slot n).state = if k = 0 then .done else .taken := by
  by_cases hk : k = 0
  · subst hk
    rw [startHold_zero, finishHold_eq, slot_of_slots (powerTurn_orders _ _ _ (by simp)).1,
      completePower_of_order ho, slot_complete, if_pos ⟨rfl, ht⟩, if_pos rfl]
  · rw [startHold_pos hk, if_neg hk]
    exact ht

theorem toHold_slot {b : Bay} {acts : BayRec → Bool} {f : BayRec → BayRec} {n : SlotId}
    (h : acts (s.bay b) = true) (hf : f (s.bay b) = { (s.bay b).held' with powerOrder := some n })
    (ht : (s.slot n).state = .taken) (k : Nat) (events : List HistEvent) :
    ((toHold b k acts f events s).slot n).state = if k = 0 then .done else .taken := by
  refine startHold_slot (by rw [bay_report_own h, hf]; simp) ?_ k
  rwa [slot_of_slots (report_orders acts events (by rw [hf]; simp [BayRec.held'])).1]

/-- A BAY POWER OFF with slot `n` has stopped bay `b` with a hold of `k` seconds. -/
structure StoppedBy (b : Bay) (n : SlotId) (k : Nat) (s t : State) : Prop where
  hold : HoldBegun b k (some n) t
  slot : (t.slot n).state = if k = 0 then .done else .taken
  others : OthersKept (· = b) s t

/-- The stop as the statement gives it. -/
theorem StoppedBy.shown {b : Bay} {n : SlotId} {k : Nat} (h : StoppedBy b n k s t) :
    (t.bay b).charge = none ∧ (t.path b).switchOn = false ∧
    (if k = 0 then (t.bay b).state = .off ∧ (t.bay b).powerOrder = none ∧ (t.slot n).state = .done
    else (t.bay b).state = .stopping ∧ (t.bay b).stopPhase = some .hold ∧ (t.bay b).powerOrder = some n ∧
      (t.path b).holdTimer = some (1000 * k) ∧ (t.slot n).state = .taken) ∧ OthersKept (· = b) s t := by
  obtain ⟨hold, hslot, hothers⟩ := h
  refine ⟨hold.charge, hold.switch, ?_, hothers⟩
  split_ifs at hslot ⊢ with hk
  · obtain ⟨hstate, horder⟩ := hold.ended hk
    exact ⟨hstate, horder, hslot⟩
  · obtain ⟨hstate, hphase, horder, htimer⟩ := hold.runs hk
    exact ⟨hstate, hphase, horder, htimer, hslot⟩

/-- A stop that begins its hold at once, with the switch off already, and the evaluation after it. -/
theorem stoppedBy_toHold {b : Bay} {acts : BayRec → Bool} {f : BayRec → BayRec} {n : SlotId}
    (h : acts (t.bay b) = true) (hf : f (t.bay b) = { (t.bay b).held' with powerOrder := some n })
    (hon : (t.path b).switchOn = false) (ht : (t.slot n).state = .taken) (hs : OthersSame b s t) (k : Nat)
    (events : List HistEvent) : StoppedBy b n k s (finishStep (evaluate (toHold b k acts f events t))) := by
  refine ⟨(toHold_begun h hf hon k events).evaluated, ?_, evaluated_others (hs.trans (OthersSame.toHold b k _ _ _ t))⟩
  rw [evaluated_slot]
  exact toHold_slot h hf ht k events

/-! ### An immediate stop (R56) -/

/-- The stop PSEQ keeps of a BAY POWER OFF at its take (R56, R57). -/
def Stop.taken (found : BayState) (mode : OffMode) (hold : Nat) (take : Word) : Stop :=
  { found, mode, standby := .none, txn := none, cut := none, hold, take, wait := 0 }

/-- The bay's power order is cancelled and its switch off, before BMON hears of the stop. -/
def switchedOff (b : Bay) (k : Nat) (s : State) : State :=
  updPath b (fun p => { p.idle with stop := some (Stop.taken (s.bay b).state .immediate k s.clock.tick) })
    (completePower b .cancelled (onDetail (s.path b).ladder) s)

theorem immediateStop_eq (b : Bay) (n : SlotId) (k : Nat) (s : State) : immediateStop b n k s =
    evaluate (toHold b k (fun r => decide (r.state = .ramping) || r.runs)
      (fun r => { r.held' with powerOrder := some n }) [.off .immediate] (switchedOff b k s)) := rfl

theorem immediateStop_stops {b : Bay} {n : SlotId}
    (h : (s.bay b).state = .ramping ∨ (s.bay b).state = .spinning ∨ (s.bay b).state = .active)
    (ho : (s.bay b).powerOrder ≠ some n) (ht : (s.slot n).state = .taken) (k : Nat) :
    StoppedBy b n k s (finishStep (immediateStop b n k s)) := by
  have hbay : (switchedOff b k s).bay b = s.bay b := bay_completePower b b _ _ s
  have hslot : (switchedOff b k s).slot n = s.slot n := slot_completeOpt_other ho _ _ s
  have hothers : OthersSame b s (switchedOff b k s) :=
    (OthersSame.completePower b _ _ s).trans (OthersSame.updPath b _ _)
  rw [immediateStop_eq]
  refine stoppedBy_toHold ?_ rfl ?_ (by rwa [hslot]) hothers k _
  · rw [hbay]
    simpa [BayRec.runs] using h
  · rw [switchedOff, path_updPath, if_pos rfl]
    rfl

/-! ### A graceful stop (R57, R77) -/

/-- BMON's record of a bay that waits for its standby (R12). -/
def BayRec.waiting (r : BayRec) (n : SlotId) : BayRec :=
  { r.enter .stopping with stopPhase := some .standbyWait, powerOrder := some n }

@[simp] theorem BayRec.waiting_fields (r : BayRec) (n : SlotId) :
    (r.waiting n).state = .stopping ∧ (r.waiting n).stopPhase = some .standbyWait ∧
    (r.waiting n).powerOrder = some n ∧ (r.waiting n).charge = r.charge := by simp [BayRec.waiting]

/-- The bay in STOPPING/STANDBY_WAIT, before the standby request. -/
def standbyBegun (b : Bay) (n : SlotId) (k : Nat) (s : State) : State :=
  report b (fun r => decide (r.state = .active)) (fun r => r.waiting n) []
    (updPath b (fun p => { p with stop := some (Stop.taken .active .graceful k s.clock.tick) }) s)

theorem bay_standbyBegun {b : Bay} (h : (s.bay b).state = .active) (n : SlotId) (k : Nat) :
    (standbyBegun b n k s).bay b = (s.bay b).waiting n := by
  rw [standbyBegun, bay_report_own (decide_eq_true h), bay_updPath]
  rfl

theorem path_standbyBegun (b : Bay) (n : SlotId) (k : Nat) (s : State) : (standbyBegun b n k s).path b
    = { s.path b with stop := some (Stop.taken .active .graceful k s.clock.tick) } := by
  rw [standbyBegun, path_report, path_updPath, if_pos rfl]

theorem OthersSame.standbyBegun (b : Bay) (n : SlotId) (k : Nat) (s : State) : OthersSame b s (standbyBegun b n k s) :=
  (OthersSame.updPath b _ s).trans (OthersSame.report b _ _ _ _)

theorem slot_standbyBegun (b : Bay) (n m : SlotId) (k : Nat) (s : State) : (standbyBegun b n k s).slot m = s.slot m :=
  slot_of_slots (report_orders (s := updPath b _ s) _ _ (by simp)).1 m

theorem moveBay_leaves_active {b : Bay} {f : BayRec → BayRec} (h : (s.bay b).state = .active)
    (h' : (f (s.bay b)).state ≠ .active) : moveBay b f s = pollLeft b (handedOver b f s) := by
  have hst : ((handedOver b f s).bay b).state ≠ .active := by rwa [handedOver, bay_handed]
  change handSideband b (s.bay b).state (handedOver b f s) = _
  rw [handSideband, h, if_neg (fun e => e.1 rfl), if_pos ⟨rfl, hst⟩]

/-- A bay that leaves ACTIVE leaves the order class as it is (R72). -/
theorem orderQ_standbyBegun {b : Bay} (h : (s.bay b).state = .active) (n : SlotId) (k : Nat) :
    (standbyBegun b n k s).sbe.orderQ = s.sbe.orderQ := by
  rw [standbyBegun, report_sbe (decide_eq_true h), moveBay_leaves_active (s := updPath b _ s) h (by simp)]
  simp

theorem gracefulStop_eq (b : Bay) (n : SlotId) (k : Nat) (s : State) : gracefulStop b n k s =
    (requestStandby b (standbyBegun b n k s)).getD (standbyEnd b .skipped none none (standbyBegun b n k s)) := by
  unfold gracefulStop
  change (match requestStandby b (standbyBegun b n k s) with
    | some u => u
    | none => standbyEnd b .skipped none none (standbyBegun b n k s)) = _
  cases requestStandby b (standbyBegun b n k s) <;> rfl

theorem gracefulStop_room {b : Bay} (h : (s.bay b).state = .active) (hr : s.sbe.orderQ.length < 8) (n : SlotId)
    (k : Nat) : gracefulStop b n k s
      = joinOrder (plainEntry b .standby .standby (standbyBegun b n k s)) (standbyBegun b n k s) := by
  have hroom : orderRoom (standbyBegun b n k s) = true := by
    rw [orderRoom, orderQ_standbyBegun h]
    exact decide_eq_true hr
  have hrequest : requestStandby b (standbyBegun b n k s) = some _ := if_pos hroom
  rw [gracefulStop_eq, hrequest]
  rfl

theorem gracefulStop_full {b : Bay} (h : (s.bay b).state = .active) (hr : 8 ≤ s.sbe.orderQ.length) (n : SlotId)
    (k : Nat) : gracefulStop b n k s = standbyEnd b .skipped none none (standbyBegun b n k s) := by
  have hroom : ¬ orderRoom (standbyBegun b n k s) = true := by
    rw [orderRoom, orderQ_standbyBegun h, decide_eq_true_eq]
    exact Nat.not_lt.mpr hr
  have hrequest : requestStandby b (standbyBegun b n k s) = none := if_neg hroom
  rw [gracefulStop_eq, hrequest]
  rfl

/-- With room in the order class the bay waits for its standby, with its charge and its switch (R57). -/
theorem gracefulStop_waits {b : Bay} {n : SlotId} (h : (s.bay b).state = .active) (hr : s.sbe.orderQ.length < 8)
    (ht : (s.slot n).state = .taken) (k : Nat) :
    let t := finishStep (gracefulStop b n k s)
    (t.bay b).state = .stopping ∧ (t.bay b).stopPhase = some .standbyWait ∧ (t.bay b).powerOrder = some n ∧
    (t.bay b).charge = (s.bay b).charge ∧ (t.path b).switchOn = (s.path b).switchOn ∧ (t.slot n).state = .taken ∧
    OthersSame b s t := by
  have hsame : ∀ d, BaySame (standbyBegun b n k s) (finishStep (gracefulStop b n k s)) d := fun d => by
    rw [gracefulStop_room h hr]
    exact (BaySame.of_bmon_paths (by simp) (by simp) d).trans (baySame_finishStep _ d)
  have hslot : (finishStep (gracefulStop b n k s)).slot n = s.slot n := by
    rw [slot_of_slots (finishStep_slots _), gracefulStop_room h hr,
      slot_of_slots (congrArg Exp.slots (joinOrder_keeps _ _).2.2.2.2.2.2.1), slot_standbyBegun]
  dsimp only
  rw [(hsame b).1, (hsame b).2, hslot, bay_standbyBegun h, path_standbyBegun]
  exact ⟨by simp, by simp, by simp, by simp, rfl, ht, (OthersSame.standbyBegun b n k s).trans fun d _ => hsame d⟩

/-- With no room the standby is skipped, and the bay stops as if at once (R57). -/
theorem gracefulStop_stops {b : Bay} {n : SlotId} (h : (s.bay b).state = .active) (hr : 8 ≤ s.sbe.orderQ.length)
    (ht : (s.slot n).state = .taken) (k : Nat) : StoppedBy b n k s (finishStep (gracefulStop b n k s)) := by
  have hbay := bay_standbyBegun h n k
  rw [gracefulStop_full h hr, standbyEnd_eq (by rw [path_standbyBegun])]
  refine stoppedBy_toHold ?_ ?_ ?_ ?_ ((OthersSame.standbyBegun b n k s).trans (OthersSame.updPath b _ _)) k _
  · rw [bay_updPath, hbay]
    simp [BayRec.waits]
  · rw [bay_updPath, hbay]
    rfl
  · rw [path_updPath, if_pos rfl]
    rfl
  · rwa [show (updPath b _ (standbyBegun b n k s)).slot n = _ from slot_standbyBegun b n n k s]

/-! ### A bay that waits in the queue (R32, R40) -/

/-- A QUEUED bay has its entry (R30). -/
theorem entryOf_of_queued {b : Bay} (hq : QueueMatches s) (h : (s.bay b).state = .queued) :
    ∃ e, entryOf s b = some e := by
  obtain ⟨e, he, hb⟩ := List.mem_map.mp ((hq.queued b).mpr h)
  refine Option.isSome_iff_exists.mp (List.find?_isSome.mpr ⟨e, he, ?_⟩)
  simpa using hb

theorem cancelQueued_some {b : Bay} {e : QEntry} (h : entryOf s b = some e) : cancelQueued b s =
    report b (fun r => decide (r.state = .queued)) (fun r => { r.enter .off with powerOrder := none })
      [.dequeued e.cls] (completeOpt e.slot .cancelled (queuedDetail e s.clock.tick) s) := by
  unfold cancelQueued
  rw [h]

/-- A cancelled bay is OFF without an order, its entry gone; another slot's order stays as it is (R32, R40). -/
theorem cancelQueued_off {b : Bay} {e : QEntry} (h : (s.bay b).state = .queued) (he : entryOf s b = some e) :
    ((cancelQueued b s).bay b).state = .off ∧ ((cancelQueued b s).bay b).powerOrder = none ∧
    b ∉ queuedBays (cancelQueued b s).pseq ∧ OthersSame b s (cancelQueued b s) ∧
    (s.mem.wf = true → (cancelQueued b s).mem.wf = true) ∧
    ∀ n, e.slot ≠ some n → (cancelQueued b s).slot n = s.slot n := by
  generalize hu : completeOpt e.slot .cancelled (queuedDetail e s.clock.tick) s = u
  have hbay : ∀ d, u.bay d = s.bay d := fun d => hu ▸ bay_completeOpt _ _ _ _ _
  have hacts : decide ((u.bay b).state = .queued) = true := by rw [hbay]; exact decide_eq_true h
  have horders := report_orders (s := u) (b := b) (f := fun r => { r.enter .off with powerOrder := none })
    (fun r => decide (r.state = .queued)) [.dequeued e.cls] (by simp)
  rw [cancelQueued_some he, hu, bay_report_own hacts, queuedBays_report _ hacts (by simp)]
  refine ⟨by simp, by simp, by simp, ?_, fun hw => ?_, fun n hn => ?_⟩
  · refine OthersSame.trans (fun d _ => ⟨hbay d, ?_⟩) (OthersSame.report b _ _ _ u)
    rw [← hu, path_completeOpt]
  · rw [horders.2, ← hu]
    exact (((Changes.refl (s := s)).completeOpt _ _ _).written hw).wf
  · rw [slot_of_slots horders.1, ← hu]
    exact slot_completeOpt_other hn _ _ s

/-- BAY POWER OFF of a QUEUED bay: the bay is OFF, and the order completes OK (R40). -/
theorem cancelStep {b : Bay} {e : QEntry} {n : SlotId} (hw : s.mem.wf = true) (ht : (s.slot n).state = .taken)
    (h : (s.bay b).state = .queued) (he : entryOf s b = some e) (hn : e.slot ≠ some n) (d : List Byte) :
    let t := finishStep (evaluate (complete n .ok d (cancelQueued b s)))
    Completed t n .ok (s.slot n).tag s.clock.uptime d ∧ (t.bay b).state = .off ∧ (t.bay b).powerOrder = none ∧
    b ∉ queuedBays t.pseq ∧ OthersKept (· = b) s t := by
  obtain ⟨hstate, horder, hqueue, hothers, hwf, hslot⟩ := cancelQueued_off h he
  have hdone := completed_complete (s := cancelQueued b s) (n := n) (hwf hw) (by rw [hslot n hn]; exact ht) .ok d
  rw [hslot n hn, (cancelQueued_keeps b s).2.2.1] at hdone
  generalize hx : complete n .ok d (cancelQueued b s) = x at hdone ⊢
  have hsame : ∀ d, BaySame (cancelQueued b s) x d := fun d => BaySame.of_bmon_paths (by simp [← hx]) (by simp [← hx]) d
  have hwx : x.mem.wf = true := hx ▸ (complete_written n .ok d _ (hwf hw)).wf
  obtain ⟨hbay, -⟩ := evaluated_own (s := x) (b := b) (by rw [(hsame b).1, hstate]; simp)
  dsimp only
  rw [hbay, (hsame b).1]
  refine ⟨evaluated_completed hwx hdone, hstate, horder, fun hm => hqueue ?_,
    evaluated_others (hothers.trans fun d _ => hsame d)⟩
  rw [finishStep_pseq] at hm
  simpa [← hx] using (Admissions.evaluate x).queue b hm

/-! ### The order (R55) -/

/-- A take leaves the order area as it is (R155). -/
@[simp] theorem argByte_takeSlot (s : State) (m n : SlotId) (i : Nat) : argByte (takeSlot m s) n i = argByte s n i := rfl

@[simp] theorem bay_takeSlot (s : State) (m : SlotId) (b : Bay) : (takeSlot m s).bay b = s.bay b := rfl

theorem OffMode.ofCode_some {c : Byte} (h : c.toNat ≤ 1) :
    OffMode.ofCode c = some (if c = 1 then .immediate else .graceful) := by
  unfold OffMode.ofCode
  by_cases h0 : c = 0
  · subst h0
    rfl
  · have h1 : c = 1 := by bv_omega
    subst h1
    rfl

theorem OffMode.ofCode_none {c : Byte} (h : 2 ≤ c.toNat) : OffMode.ofCode c = none := by
  have h0 : c ≠ 0 := by bv_omega
  have h1 : c ≠ 1 := by bv_omega
  rw [OffMode.ofCode, if_neg h0, if_neg h1]

theorem clampedDetail_eq (c : Byte) :
    clampedDetail c = if 11 ≤ c.toNat ∧ c ≠ 255 then absent 5 ++ [10] else [] :=
  if_congr (by bv_omega) rfl rfl

/-- A bay and a mode: the state of the bay answers (R55). -/
theorem powerOffOrder_valid {n : SlotId} {b : Bay} (hb : b.val = (argByte s n 0).toNat)
    (hm : (argByte s n 1).toNat ≤ 1) : powerOffOrder n s
      = powerOffBay n b (if argByte s n 1 = 1 then .immediate else .graceful) (argByte s n 2) s := by
  unfold powerOffOrder
  rw [bayOf_val b hb, OffMode.ofCode_some hm]

/-- No bay, or no mode. -/
theorem powerOffOrder_invalid {n : SlotId} (h : 24 ≤ (argByte s n 0).toNat ∨ 2 ≤ (argByte s n 1).toNat) :
    powerOffOrder n s = complete n .badArg [] s := by
  unfold powerOffOrder
  rcases h with hb | hm
  · rw [bayOf_none hb]
  · rw [OffMode.ofCode_none hm]
    cases bayOf (argByte s n 0) <;> rfl

theorem answers_bayPowerOff {n : SlotId} {P : State → Prop} (h : takeKind .bayPowerOff s = some n)
    (hP : P (finishStep (powerOffOrder n (takeSlot n s)))) : Answers .bayPowerOff s P := by
  have hbody : body .bayPowerOff s = powerOffOrder n (takeSlot n s) := take_of_takeKind powerOffOrder h
  exact answers_of_body (hbody ▸ hP)

/-! The answer by the bay's state (R55). -/

theorem powerOffBay_answered {n : SlotId} {b : Bay}
    (h : (s.bay b).state = .off ∨ (s.bay b).state = .empty ∨ (s.bay b).state = .settling ∨ (s.bay b).state = .fault)
    (mode : OffMode) (hold : Byte) : powerOffBay n b mode hold s = complete n .already (clampedDetail hold) s := by
  unfold powerOffBay
  rcases h with h | h | h | h <;> rw [h]

theorem powerOffBay_stopping {n : SlotId} {b : Bay} (h : (s.bay b).state = .stopping) (mode : OffMode) (hold : Byte) :
    powerOffBay n b mode hold s = complete n .busy (clampedDetail hold) s := by
  unfold powerOffBay
  rw [h]

theorem powerOffBay_queued {n : SlotId} {b : Bay} (h : (s.bay b).state = .queued) (mode : OffMode) (hold : Byte) :
    powerOffBay n b mode hold s = evaluate (complete n .ok (clampedDetail hold) (cancelQueued b s)) := by
  unfold powerOffBay
  rw [h]

theorem powerOffBay_starting {n : SlotId} {b : Bay} (h : (s.bay b).state = .ramping ∨ (s.bay b).state = .spinning)
    (mode : OffMode) (hold : Byte) : powerOffBay n b mode hold s = immediateStop b n (holdUsed hold) s := by
  unfold powerOffBay
  rcases h with h | h <;> rw [h]

theorem powerOffBay_immediate {n : SlotId} {b : Bay} (h : (s.bay b).state = .active) (hold : Byte) :
    powerOffBay n b .immediate hold s = immediateStop b n (holdUsed hold) s := by
  unfold powerOffBay
  rw [h]

theorem powerOffBay_graceful {n : SlotId} {b : Bay} (h : (s.bay b).state = .active) (hold : Byte) :
    powerOffBay n b .graceful hold s = gracefulStop b n (holdUsed hold) s := by
  unfold powerOffBay
  rw [h]

/-- What the take of an order leaves of the bays, a stop after it changes as one from the state before. -/
theorem StoppedBy.of_take {b : Bay} {n m : SlotId} {k : Nat} (h : StoppedBy b n k (takeSlot m s) t) :
    StoppedBy b n k s t := ⟨h.hold, h.slot, h.others⟩

/-- Settles O39: the bay of a valid order answers by its state, an invalid one is refused. -/
theorem powerOffOrderIsAnsweredByTheBayState : Obligations.PowerOffOrderIsAnsweredByTheBayState := by
  intro s n ⟨⟨hw, _⟩, hk⟩ hqueue hold h clamped
  have hslot : (takeSlot n s).slot n = ⟨.taken, orderKind s n, orderTag s n⟩ := by rw [slot_takeSlot, if_pos rfl]
  have ht : ((takeSlot n s).slot n).state = .taken := by rw [hslot]
  have hclamped : clampedDetail (argByte s n 2) = clamped := clampedDetail_eq _
  refine answers_bayPowerOff hk ⟨fun b hb hm ho hentry => ?_, fun hbad => ?_, by simp⟩
  · rw [powerOffOrder_valid (s := takeSlot n s) hb hm, argByte_takeSlot, argByte_takeSlot]
    have stops : (s.bay b).state = .ramping ∨ (s.bay b).state = .spinning ∨ (s.bay b).state = .active →
        StoppedBy b n h s (finishStep (immediateStop b n (holdUsed hold) (takeSlot n s))) := fun hst =>
      (immediateStop_stops (s := takeSlot n s) hst ho ht h).of_take
    cases hst : (s.bay b).state with
    | off | empty | settling | fault =>
      rw [powerOffBay_answered (s := takeSlot n s) (b := b) (by simp [hst]), hclamped]
      exact take_answered n hw .already clamped
    | stopping =>
      rw [powerOffBay_stopping (s := takeSlot n s) hst, hclamped]
      exact take_answered n hw .busy clamped
    | queued =>
      obtain ⟨e, he⟩ := entryOf_of_queued hqueue hst
      have hstep := cancelStep (s := takeSlot n s) hw ht hst he (hentry e he) clamped
      rw [hslot] at hstep
      rw [powerOffBay_queued (s := takeSlot n s) hst, hclamped]
      exact hstep
    | ramping =>
      rw [powerOffBay_starting (s := takeSlot n s) (Or.inl hst)]
      exact (stops (Or.inl hst)).shown
    | spinning =>
      rw [powerOffBay_starting (s := takeSlot n s) (Or.inr hst)]
      exact (stops (Or.inr (Or.inl hst))).shown
    | active =>
      by_cases himm : argByte s n 1 = 1
      · rw [if_pos himm, powerOffBay_immediate (s := takeSlot n s) hst]
        dsimp only
        rw [if_pos himm]
        exact (stops (Or.inr (Or.inr hst))).shown
      · rw [if_neg himm, powerOffBay_graceful (s := takeSlot n s) hst]
        dsimp only
        rw [if_neg himm]
        exact ⟨fun hroom => gracefulStop_waits (s := takeSlot n s) hst hroom ht h,
          fun hfull => (gracefulStop_stops (s := takeSlot n s) hst hfull ht h).of_take.shown⟩
  · rw [powerOffOrder_invalid (s := takeSlot n s) hbad]
    exact take_answered n hw .badArg []

end Sys2Proof.Machine

/-! Settles SBE's judgement of a reply (O42), the attempts that do not end a transaction (O43) and SIDEBAND QUERY (O45). -/

namespace Sys2Proof.Machine

variable {s t : State}

/-! ### The judgement of a reply (R64, R66) -/

/-- A length above 24 needs no more of the reply (R66). -/
theorem judgeReply_long (item : SbItem) (status : Byte) {len : Byte} (rest : List Byte) (h : 24 < len.toNat) :
    judgeReply item (status :: len :: rest) = some .badCheck := if_pos h

/-- Bytes that end before the check byte are no complete reply (R64). -/
theorem judgeReply_short (item : SbItem) (status : Byte) {len : Byte} {rest : List Byte} (h : len.toNat ≤ 24)
    (hr : rest.length ≤ len.toNat) : judgeReply item (status :: len :: rest) = none :=
  (if_neg (Nat.not_lt.mpr h)).trans (if_pos (Nat.lt_succ_of_le hr))

/-- A reply is judged at its check byte: the bytes after it do not count (R64). -/
theorem judgeReply_whole (item : SbItem) (status : Byte) {len : Byte} {rest : List Byte} (h : len.toNat ≤ 24)
    (hr : len.toNat + 1 ≤ rest.length) :
    judgeReply item (status :: len :: rest) = some (judgeWhole item status len (rest.take (len.toNat + 1))) :=
  (if_neg (Nat.not_lt.mpr h)).trans (if_neg (Nat.not_lt.mpr hr))

/-- The sum, then the status, then for READY the length (R66). -/
theorem judgeWhole_eq (item : SbItem) (status len : Byte) (rest : List Byte) : judgeWhole item status len rest =
    if byteSum (status :: len :: rest) ≠ 0 then .badCheck
    else if status ≠ 0 ∧ status ≠ 1 then .badCheck
    else if status = 1 then .defer
    else if len.toNat = expectedLength item then .ok (rest.take len.toNat)
    else .badCheck := by
  unfold judgeWhole
  by_cases hdefer : status = 1
  · rw [hdefer]
    rfl
  · by_cases hready : status = 0
    · rw [hready]
      simp
    · have hunknown : status ≠ 0 ∧ status ≠ 1 := ⟨hready, hdefer⟩
      rw [if_pos hunknown, if_neg hdefer, if_neg fun h : status = 0 ∧ _ => hready h.1]

/-- Settles O42: the three tests in their order, at the check byte. -/
theorem replyIsJudgedByThreeTests : Obligations.ReplyIsJudgedByThreeTests := by
  intro item status len rest
  refine ⟨judgeReply_long item status rest, judgeReply_short item status, fun h hr => ?_⟩
  rw [judgeReply_whole item status h hr, judgeWhole_eq, List.take_take, Nat.min_eq_left (Nat.le_succ _)]
  cases item <;> rfl

/-! ### An attempt (R64, R67, R68) -/

theorem attemptOf_some {x : Txn} (h : s.sbe.flight = some x) (hp : x.phase = .attempt) : attemptOf s = some x := by
  unfold attemptOf
  rw [h]
  exact if_pos hp

/-- What a reply does is what its verdict says (R66). -/
theorem replyArrived_ok {x : Txn} {bytes data : List Byte} (h : attemptOf s = some x)
    (hj : judgeReply x.entry.item bytes = some (.ok data)) : replyArrived bytes s = endTxn x .ok data s := by
  simp only [replyArrived, h, hj]

theorem replyArrived_defer {x : Txn} {bytes : List Byte} (h : attemptOf s = some x)
    (hj : judgeReply x.entry.item bytes = some .defer) : replyArrived bytes s = attemptDeferred x s := by
  simp only [replyArrived, h, hj]

theorem replyArrived_badCheck {x : Txn} {bytes : List Byte} (h : attemptOf s = some x)
    (hj : judgeReply x.entry.item bytes = some .badCheck) : replyArrived bytes s = attemptFailed x .badCheck s := by
  simp only [replyArrived, h, hj]

theorem noReply_attempt {x : Txn} (h : attemptOf s = some x) : noReply s = attemptFailed x .noReply s := by
  simp only [noReply, h]

/-- Below its limit a deferred attempt waits out the spacing (R67). -/
theorem attemptDeferred_below {x : Txn} (h : x.defers < deferLimit x.entry.item) :
    attemptDeferred x s = setFlight { x with defers := x.defers + 1, phase := .spacing } s := if_pos h

/-- The first two failed attempts are followed by another (R68). -/
theorem attemptFailed_below {x : Txn} (h : x.failed < 2) (r : SbResult) :
    attemptFailed x r s = setFlight { x with failed := x.failed + 1 } s :=
  if_neg (Nat.not_le.mpr (Nat.succ_lt_succ h))

theorem deferLimit_eq (item : SbItem) : deferLimit item = if item = .standby then 20 else 7 := by
  cases item <;> rfl

/-- Settles O43: the transaction goes on with one count advanced; the pair and the select lines show its attempt. -/
theorem attemptThatDoesNotEndTheTransaction : Obligations.AttemptThatDoesNotEndTheTransaction := by
  refine ⟨fun s x hnote hx hphase => ?_, fun s => ⟨fun x hx hphase => ⟨?_, fun b => ?_⟩, fun hspacing => ?_⟩⟩
  · have hattempt := attemptOf_some hx hphase
    refine ⟨fun bytes hj hlimit => ?_, fun c hfailed hc => ?_⟩
    · exact exec_of_body hnote
        ((replyArrived_defer hattempt hj).trans (attemptDeferred_below (by rwa [deferLimit_eq]))) rfl
    · rcases hc with rfl | ⟨bytes, rfl, hj⟩
      · exact exec_of_body hnote ((noReply_attempt hattempt).trans (attemptFailed_below hfailed _)) rfl
      · exact exec_of_body hnote ((replyArrived_badCheck hattempt hj).trans (attemptFailed_below hfailed _)) rfl
  · simp only [requestByte, hx, hphase, if_true]
    cases x.entry.item <;> rfl
  · simp [selectLine, hx, hphase, eq_comm]
  · cases hflight : s.sbe.flight with
    | none => simp [requestByte, selectLine, hflight]
    | some x => simp [requestByte, selectLine, hflight, hspacing x hflight]

/-! ### SIDEBAND QUERY (R74) -/

theorem SbItem.ofQueryCode_some {c : Byte} (h : 1 ≤ c.toNat) (h' : c.toNat ≤ 3) :
    ∃ item, SbItem.ofQueryCode c = some item ∧ item.code = c := by
  unfold SbItem.ofQueryCode
  by_cases h1 : c = 1
  · exact ⟨.ident, if_pos h1, h1.symm⟩
  · by_cases h2 : c = 2
    · exact ⟨.temp, by rw [if_neg h1, if_pos h2], h2.symm⟩
    · have h3 : c = 3 := by bv_omega
      exact ⟨.health, by rw [if_neg h1, if_neg h2, if_pos h3], h3.symm⟩

theorem SbItem.ofQueryCode_none {c : Byte} (h : c.toNat = 0 ∨ 4 ≤ c.toNat) : SbItem.ofQueryCode c = none := by
  have h1 : c ≠ 1 := by bv_omega
  have h2 : c ≠ 2 := by bv_omega
  have h3 : c ≠ 3 := by bv_omega
  rw [SbItem.ofQueryCode, if_neg h1, if_neg h2, if_neg h3]

theorem queryOrder_interval {n : SlotId} (h : argByte s n 0 = 255) : queryOrder n s = setInterval n s := if_pos h

/-- A bay number is none but its own byte's, and the item must be one a query may name. -/
theorem queryOrder_valid {n : SlotId} {b : Bay} (hb : b.val = (argByte s n 0).toNat)
    (h : 1 ≤ (argByte s n 1).toNat) (h' : (argByte s n 1).toNat ≤ 3) :
    ∃ item, queryOrder n s = queryBay n b item s ∧ item.code = argByte s n 1 := by
  obtain ⟨item, hitem, hcode⟩ := SbItem.ofQueryCode_some h h'
  have hall : argByte s n 0 ≠ 255 := by bv_omega
  refine ⟨item, ?_, hcode⟩
  rw [queryOrder, if_neg hall, bayOf_val b hb, hitem]

theorem queryOrder_invalid {n : SlotId} (hall : argByte s n 0 ≠ 255)
    (h : 24 ≤ (argByte s n 0).toNat ∨ (argByte s n 1).toNat = 0 ∨ 4 ≤ (argByte s n 1).toNat) :
    queryOrder n s = complete n .badArg [] s := by
  rw [queryOrder, if_neg hall]
  rcases h with hb | hitem
  · rw [bayOf_none hb]
  · rw [SbItem.ofQueryCode_none hitem]
    cases bayOf (argByte s n 0) <;> rfl

theorem queryBay_empty {n : SlotId} {b : Bay} (h : (s.bay b).state = .empty ∨ (s.bay b).state = .settling)
    (item : SbItem) : queryBay n b item s = complete n .bayEmpty [] s := by
  unfold queryBay
  rcases h with h | h <;> rw [h]

/-- The entry of a query in the order class (R69, R75). -/
def queryEntry (n : SlotId) (b : Bay) (item : SbItem) (s : State) : SbEntry :=
  { bay := b, item, origin := .query, slot := some n, take := s.clock.tick }

/-- A bay with a drive: the room of the order class answers (R69, R74). -/
theorem queryBay_drive {n : SlotId} {b : Bay} (h : (s.bay b).state ≠ .empty) (h' : (s.bay b).state ≠ .settling)
    (item : SbItem) : queryBay n b item s =
      if orderRoom s then joinOrder (queryEntry n b item s) s else complete n .queueFull [] s := by
  unfold queryBay
  cases hst : (s.bay b).state with
  | empty => exact absurd hst h
  | settling => exact absurd hst h'
  | off | queued | ramping | spinning | active | stopping | fault => rfl

theorem joinOrder_sbe_busy (h : s.sbe.flight.isSome = true) (e : SbEntry) :
    (joinOrder e s).sbe = { s.sbe with orderQ := s.sbe.orderQ ++ [e] } := by
  obtain ⟨x, hx⟩ := Option.isSome_iff_exists.mp h
  unfold joinOrder
  rw [startNext_sbe_busy (x := x) (by exact hx)]

theorem joinOrder_sbe_idle (h : s.sbe.flight = none) (hq : s.sbe.orderQ = []) (e : SbEntry) :
    (joinOrder e s).sbe = { s.sbe with flight := some (beginTxn e s.clock.tick) } := by
  unfold joinOrder
  rw [startNext_sbe_idle (by exact h)]
  simp [hq, nextTxn]

theorem sbe_finishStep (s : State) : (finishStep s).sbe = s.sbe := by simp

/-- An order completed at its take leaves the sideband. -/
theorem take_refused (n : SlotId) (hw : s.mem.wf = true) (r : Result) (d : List Byte) :
    (finishStep (complete n r d (takeSlot n s))).sbe = s.sbe ∧
    TakeCompleted s (finishStep (complete n r d (takeSlot n s))) n r d :=
  ⟨by simp, (take_answered n hw r d).1⟩

/-- The sideband with a new poll interval (R74). -/
def intervalSet (interval : Nat) (s : State) : State :=
  { s with sbe := { s.sbe with interval, pollTimer := some (1000 * interval) } }

theorem setInterval_eq (n : SlotId) (s : State) : setInterval n s =
    complete n .ok
      ([255, itemShown (argByte s n 1)] ++ absent 30 ++ [byte (max 1 (min (argByte s n 2).toNat 60))])
      (intervalSet (max 1 (min (argByte s n 2).toNat 60)) s) := rfl

/-- An interval order: the interval stands, the poll timer runs with it, and the result shows it (R74). -/
theorem setInterval_answered (n : SlotId) (hw : s.mem.wf = true) :
    let interval := max 1 (min (argByte s n 2).toNat 60)
    (finishStep (setInterval n (takeSlot n s))).sbe = { s.sbe with interval, pollTimer := some (1000 * interval) } ∧
    TakeCompleted s (finishStep (setInterval n (takeSlot n s))) n .ok
      ([255, itemShown (argByte s n 1)] ++ absent 30 ++ [byte interval]) := by
  intro interval
  rw [setInterval_eq, argByte_takeSlot, argByte_takeSlot]
  exact ⟨by simp [intervalSet, interval],
    takeCompleted_complete (t := intervalSet interval (takeSlot n s)) hw rfl rfl rfl _ _⟩

/-- A query that joins the order class keeps its slot TAKEN, and stands last or is in flight (R69, R70, R74). -/
theorem queryJoined (n : SlotId) (e : SbEntry) :
    ((finishStep (joinOrder e (takeSlot n s))).slot n).state = .taken ∧
    (s.sbe.flight.isSome = true →
      (finishStep (joinOrder e (takeSlot n s))).sbe = { s.sbe with orderQ := s.sbe.orderQ ++ [e] }) ∧
    (s.sbe.flight = none → s.sbe.orderQ = [] →
      (finishStep (joinOrder e (takeSlot n s))).sbe = { s.sbe with flight := some (beginTxn e s.clock.tick) }) := by
  refine ⟨?_, fun hbusy => ?_, fun hidle hq => ?_⟩
  · rw [slot_of_slots (s := takeSlot n s) (by simp), slot_takeSlot, if_pos rfl]
  · rw [sbe_finishStep, joinOrder_sbe_busy (s := takeSlot n s) hbusy]
    rfl
  · rw [sbe_finishStep, joinOrder_sbe_idle (s := takeSlot n s) hidle hq]
    rfl

theorem answers_sidebandQuery {n : SlotId} {P : State → Prop} (h : takeKind .sidebandQuery s = some n)
    (hP : P (finishStep (queryOrder n (takeSlot n s)))) : Answers .sidebandQuery s P := by
  have hbody : body .sidebandQuery s = queryOrder n (takeSlot n s) := take_of_takeKind queryOrder h
  exact answers_of_body (hbody ▸ hP)

/-- Settles O45: an interval order, a refused one, and a query of a bay by the bay's state and the room. -/
theorem queryOrderJoinsOrIsAnswered : Obligations.QueryOrderJoinsOrIsAnswered := by
  intro s n ⟨⟨hw, _⟩, hk⟩ i code interval
  refine answers_sidebandQuery hk ⟨fun hall => ?_, fun hall hbad => ?_, fun b hb hlow hhigh => ?_, by simp⟩
  · have hinterval : max 1 (min (argByte s n 2).toNat 60) = interval := by
      dsimp only [interval, i]
      split_ifs <;> omega
    rw [queryOrder_interval (s := takeSlot n s) hall, ← hinterval]
    exact setInterval_answered n hw
  · rw [queryOrder_invalid (s := takeSlot n s) hall hbad]
    exact take_refused n hw .badArg []
  · obtain ⟨item, hquery, hitem⟩ := queryOrder_valid (s := takeSlot n s) hb hlow hhigh
    rw [hquery]
    refine ⟨fun hst => ?_, fun he hs hfull => ?_, fun he hs hroom => ?_⟩
    · rw [queryBay_empty (s := takeSlot n s) hst]
      exact take_refused n hw .bayEmpty []
    · rw [queryBay_drive (s := takeSlot n s) he hs, if_neg (by simpa [orderRoom, orderClassRoom] using hfull)]
      exact take_refused n hw .queueFull []
    · rw [queryBay_drive (s := takeSlot n s) he hs, if_pos (by simpa [orderRoom, orderClassRoom] using hroom)]
      obtain ⟨hslot, hbusy, hidle⟩ := queryJoined (s := s) n (queryEntry n b item (takeSlot n s))
      exact ⟨hslot, _, rfl, rfl, rfl, rfl, hitem, hbusy, hidle⟩

end Sys2Proof.Machine

/-! Settles the expiry of the poll timer (O41): what each visit adds, bay by bay. -/

namespace Sys2Proof.Machine

variable {s t : State}

/-! ### One visit (R70, R71) -/

/-- The poll of a bay whose count is now `n`, queued at `tick` (R71). -/
def pollEntry (b : Bay) (n : Fin 8) (tick : Word) : SbEntry :=
  { bay := b, item := if n = 0 then .health else .temp, origin := .poll, slot := none, take := tick }

theorem pollQueued_eq_false_iff (s : State) (b : Bay) :
    pollQueued s b = false ↔ s.sbe.pollQ.filter (fun e => e.bay = b) = [] := by
  simp [pollQueued]

/-- A bay not in ACTIVE gets no poll (R71). -/
theorem visitBay_calm {b : Bay} (h : (s.bay b).state ≠ .active) : visitBay s b = s := if_neg h

/-- An ACTIVE bay with a poll-class entry is passed over (R71). -/
theorem visitBay_queued {b : Bay} (h : pollQueued s b = true) : visitBay s b = s := by
  unfold visitBay
  split
  · exact if_pos h
  · rfl

/-- The bay's poll count advances (R71). -/
def pollCounted (b : Bay) (s : State) : State :=
  { s with sbe := { s.sbe with pollCount := s.sbe.pollCount.set b (s.sbe.pollCount[b] + 1) } }

/-- An ACTIVE bay's count advances and its poll joins (R71). -/
theorem visitBay_polled {b : Bay} (h : (s.bay b).state = .active) (hq : pollQueued s b = false) :
    visitBay s b = joinPoll (pollEntry b (s.sbe.pollCount[b] + 1) s.clock.tick) (pollCounted b s) :=
  (if_pos h).trans (if_neg (ne_true_of_eq_false hq))

theorem joinPoll_sbe_busy {x : Txn} (h : s.sbe.flight = some x) (e : SbEntry) :
    (joinPoll e s).sbe = { s.sbe with pollQ := s.sbe.pollQ ++ [e] } := by
  unfold joinPoll
  rw [startNext_sbe_busy (x := x) (by exact h)]

theorem joinPoll_sbe_idle (h : s.sbe.flight = none) (ho : s.sbe.orderQ = []) (hp : s.sbe.pollQ = []) (e : SbEntry) :
    (joinPoll e s).sbe = { s.sbe with flight := some (beginTxn e s.clock.tick) } := by
  unfold joinPoll
  rw [startNext_sbe_idle (by exact h)]
  simp [ho, hp, nextTxn]

@[simp] theorem joinPoll_pollCount (e : SbEntry) (s : State) : (joinPoll e s).sbe.pollCount = s.sbe.pollCount := by
  unfold joinPoll startNext
  (repeat' split) <;> rfl

@[simp] theorem joinPoll_pollTimer (e : SbEntry) (s : State) : (joinPoll e s).sbe.pollTimer = s.sbe.pollTimer := by
  unfold joinPoll startNext
  (repeat' split) <;> rfl

/-- A visit changes the count of the bay visited only, and never the timer. -/
theorem visitBay_pollTimer (s : State) (b : Bay) : (visitBay s b).sbe.pollTimer = s.sbe.pollTimer := by
  unfold visitBay placePoll
  (repeat' split) <;> simp

theorem visitBay_pollCount_other {b d : Bay} (h : d ≠ b) : (visitBay s d).sbe.pollCount[b] = s.sbe.pollCount[b] := by
  by_cases hst : (s.bay d).state = .active
  · cases hq : pollQueued s d with
    | true => rw [visitBay_queued hq]
    | false =>
      simp only [visitBay_polled hst hq, joinPoll_pollCount, pollCounted, getFin_set, Ne.symm h, if_false]
  · rw [visitBay_calm hst]

/-! ### All visits, seen from one bay -/

/-- Where a view of the part follows a step for bay `b` and no step for another bay, the steps for all bays take it one
step on. -/
theorem foldl_bays {β : Type} {P : State → Prop} {f : State → Bay → State} {g : State → β} {F : β → β} {b : Bay}
    (keep : ∀ u d, P u → P (f u d)) (own : ∀ u, P u → g (f u b) = F (g u))
    (other : ∀ u d, P u → d ≠ b → g (f u d) = g u) (h : P s) : g ((List.finRange 24).foldl f s) = F (g s) := by
  have steps : ∀ (l : List Bay) (u : State), l.Nodup → P u →
      g (l.foldl f u) = if b ∈ l then F (g u) else g u := by
    intro l
    induction l with
    | nil => exact fun u _ _ => rfl
    | cons a rest ih =>
      intro u hl hu
      obtain ⟨ha, hrest⟩ := List.nodup_cons.mp hl
      rw [List.foldl_cons, ih _ hrest (keep u a hu)]
      by_cases hab : a = b
      · subst hab
        rw [if_neg ha, if_pos List.mem_cons_self, own u hu]
      · simp only [other u a hu hab, List.mem_cons, Ne.symm hab, false_or]
  rw [steps _ s (List.nodup_finRange 24) h, if_pos (List.mem_finRange b)]

/-- What holds before any step, and goes from the bays stepped for to one bay more, holds after the steps for all bays. -/
theorem foldl_bays_steps {P : List Bay → State → Prop} {f : State → Bay → State} (start : P [] s)
    (step : ∀ l b u, b ∉ l → P l u → P (l ++ [b]) (f u b)) :
    P (List.finRange 24) ((List.finRange 24).foldl f s) := by
  have steps : ∀ l : List Bay, l.Nodup → P l (l.foldl f s) := by
    intro l
    induction l using List.reverseRecOn with
    | nil => exact fun _ => start
    | append_singleton l b ih =>
      intro hl
      obtain ⟨hb, hrest⟩ := (List.nodup_concat l b).mp (by rwa [List.concat_eq_append])
      rw [List.foldl_append]
      exact step l b _ hb (ih hrest)
  exact steps _ (List.nodup_finRange 24)

/-- What the poll class and the poll count hold for one bay. -/
def bayPolls (b : Bay) (s : State) : List SbEntry × Fin 8 :=
  (s.sbe.pollQ.filter fun e => e.bay = b, s.sbe.pollCount[b])

/-- The same after a visit behind a transaction in flight (R71). -/
def bayPolled (b : Bay) (state : BayState) (tick : Word) (v : List SbEntry × Fin 8) : List SbEntry × Fin 8 :=
  if state = .active ∧ v.1 = [] then ([pollEntry b (v.2 + 1) tick], v.2 + 1) else v

/-- What visits leave while transaction `x` is in flight. -/
structure VisitKept (x : Txn) (s t : State) : Prop where
  bmon : t.bmon = s.bmon
  clock : t.clock = s.clock
  flight : t.sbe.flight = some x
  orderQ : t.sbe.orderQ = s.sbe.orderQ

/-- The sideband after a visit that polls behind a transaction in flight (R71). -/
theorem visitBay_sbe_busy {b : Bay} {x : Txn} (h : (s.bay b).state = .active) (hq : pollQueued s b = false)
    (hx : s.sbe.flight = some x) : (visitBay s b).sbe = { s.sbe with
      pollCount := s.sbe.pollCount.set b (s.sbe.pollCount[b] + 1)
      pollQ := s.sbe.pollQ ++ [pollEntry b (s.sbe.pollCount[b] + 1) s.clock.tick] } := by
  rw [visitBay_polled h hq, joinPoll_sbe_busy (s := pollCounted b s) hx]
  rfl

theorem VisitKept.visit {x : Txn} {u : State} (h : VisitKept x s u) (b : Bay) : VisitKept x s (visitBay u b) := by
  obtain ⟨hbmon, hclock, hflight, horder⟩ := h
  have hsbe : (visitBay u b).sbe.flight = u.sbe.flight ∧ (visitBay u b).sbe.orderQ = u.sbe.orderQ := by
    by_cases hst : (u.bay b).state = .active
    · cases hq : pollQueued u b with
      | true => rw [visitBay_queued hq]; exact ⟨rfl, rfl⟩
      | false => rw [visitBay_sbe_busy hst hq hflight]; exact ⟨rfl, rfl⟩
    · rw [visitBay_calm hst]
      exact ⟨rfl, rfl⟩
  exact ⟨by simp [hbmon], by simp [hclock], hsbe.1.trans hflight, hsbe.2.trans horder⟩

/-- A bay's own visit (R71). -/
theorem bayPolls_visit_own {b : Bay} {x : Txn} (hx : s.sbe.flight = some x) :
    bayPolls b (visitBay s b) = bayPolled b (s.bay b).state s.clock.tick (bayPolls b s) := by
  by_cases hst : (s.bay b).state = .active
  · cases hq : pollQueued s b with
    | true =>
      have hne : (bayPolls b s).1 ≠ [] := fun e => by
        simp [(pollQueued_eq_false_iff s b).mpr e] at hq
      rw [visitBay_queued hq, bayPolled, if_neg fun h => hne h.2]
    | false =>
      have hnil : (bayPolls b s).1 = [] := (pollQueued_eq_false_iff s b).mp hq
      have hnone : s.sbe.pollQ.filter (fun e => e.bay = b) = [] := hnil
      rw [bayPolled, if_pos ⟨hst, hnil⟩]
      simp only [bayPolls, visitBay_sbe_busy hst hq hx, List.filter_append, hnone, getFin_set, if_true]
      simp [pollEntry]
  · rw [visitBay_calm hst, bayPolled, if_neg fun h => hst h.1]

/-- The visit of another bay leaves what a bay has queued. -/
theorem bayPolls_visit_other {b d : Bay} {x : Txn} (hx : s.sbe.flight = some x) (h : d ≠ b) :
    bayPolls b (visitBay s d) = bayPolls b s := by
  refine Prod.ext ?_ (visitBay_pollCount_other h)
  by_cases hst : (s.bay d).state = .active
  · cases hq : pollQueued s d with
    | true => rw [visitBay_queued hq]
    | false => simp [bayPolls, visitBay_sbe_busy hst hq hx, pollEntry, h]
  · rw [visitBay_calm hst]

/-! ### All visits with nothing in flight and nothing queued -/

/-- The polls of the ACTIVE bays among `l`, in order (R71). -/
def pollsOf (s : State) (l : List Bay) : List SbEntry :=
  (l.filter fun b => (s.bay b).state = .active).map fun b => pollEntry b (s.sbe.pollCount[b] + 1) s.clock.tick

/-- After the visits of the bays of `l`: the first poll is in flight, the others wait behind it (R70, R71). -/
structure Visited (s : State) (l : List Bay) (t : State) : Prop where
  bmon : t.bmon = s.bmon
  clock : t.clock = s.clock
  flight : t.sbe.flight = nextTxn [] (pollsOf s l) s.clock.tick
  orderQ : t.sbe.orderQ = []
  pollQ : t.sbe.pollQ = (pollsOf s l).tail
  count : ∀ b, t.sbe.pollCount[b] =
    if b ∈ l ∧ (s.bay b).state = .active then s.sbe.pollCount[b] + 1 else s.sbe.pollCount[b]

theorem pollsOf_calm {l : List Bay} {b : Bay} (h : (s.bay b).state ≠ .active) : pollsOf s (l ++ [b]) = pollsOf s l := by
  simp [pollsOf, h]

theorem pollsOf_active {l : List Bay} {b : Bay} (h : (s.bay b).state = .active) : pollsOf s (l ++ [b]) =
    pollsOf s l ++ [pollEntry b (s.sbe.pollCount[b] + 1) s.clock.tick] := by
  simp [pollsOf, h]

/-- Only bays visited have a poll. -/
theorem bay_mem_of_mem_pollsOf {l : List Bay} {e : SbEntry} (h : e ∈ pollsOf s l) : e.bay ∈ l := by
  obtain ⟨b, hb, rfl⟩ := List.mem_map.mp h
  exact List.mem_of_mem_filter hb

theorem Visited.not_queued {l : List Bay} {b : Bay} (h : Visited s l t) (hb : b ∉ l) : pollQueued t b = false := by
  rw [pollQueued_eq_false_iff, h.pollQ, List.filter_eq_nil_iff]
  intro e he heb
  exact hb (of_decide_eq_true heb ▸ bay_mem_of_mem_pollsOf (List.mem_of_mem_tail he))

/-- One more bay is visited. -/
theorem Visited.visit {l : List Bay} {b : Bay} (h : Visited s l t) (hb : b ∉ l) :
    Visited s (l ++ [b]) (visitBay t b) := by
  have hbay : t.bay b = s.bay b := bay_of_bmon h.bmon b
  by_cases hst : (s.bay b).state = .active
  · have hcount : t.sbe.pollCount[b] = s.sbe.pollCount[b] := (h.count b).trans (if_neg fun e => hb e.1)
    have hvisit := visitBay_polled (by rw [hbay, hst]) (h.not_queued hb)
    rw [hcount, h.clock] at hvisit
    have hcounts : ∀ d, (visitBay t b).sbe.pollCount[d] =
        if d ∈ l ++ [b] ∧ (s.bay d).state = .active then s.sbe.pollCount[d] + 1 else s.sbe.pollCount[d] := by
      intro d
      simp only [hvisit, joinPoll_pollCount, pollCounted, getFin_set]
      by_cases hd : d = b
      · subst hd
        simp [hst, hcount]
      · simp only [hd, if_false, h.count d, List.mem_append, List.mem_singleton, or_false]
    have hsbe : (visitBay t b).sbe.flight = nextTxn [] (pollsOf s (l ++ [b])) s.clock.tick ∧
        (visitBay t b).sbe.orderQ = [] ∧ (visitBay t b).sbe.pollQ = (pollsOf s (l ++ [b])).tail := by
      rw [hvisit, pollsOf_active hst]
      cases hl : pollsOf s l with
      | nil =>
        have hpoll : t.sbe.pollQ = [] := by rw [h.pollQ, hl, List.tail_nil]
        have hidle : t.sbe.flight = none := by rw [h.flight, hl]; rfl
        rw [joinPoll_sbe_idle (s := pollCounted b t) hidle h.orderQ hpoll]
        exact ⟨congrArg (fun c : Clock => some (beginTxn _ c.tick)) h.clock, h.orderQ, hpoll⟩
      | cons e rest =>
        have hflight : t.sbe.flight = some (beginTxn e s.clock.tick) := by rw [h.flight, hl]; rfl
        have hpoll : t.sbe.pollQ = rest := by rw [h.pollQ, hl, List.tail_cons]
        rw [joinPoll_sbe_busy (s := pollCounted b t) hflight]
        exact ⟨hflight, h.orderQ, congrArg (· ++ _) hpoll⟩
    obtain ⟨hflight, horder, hpoll⟩ := hsbe
    exact ⟨by simp [h.bmon], by simp [h.clock], hflight, horder, hpoll, hcounts⟩
  · rw [visitBay_calm (by rwa [hbay])]
    refine ⟨h.bmon, h.clock, by rw [pollsOf_calm hst, h.flight], h.orderQ, by rw [pollsOf_calm hst, h.pollQ], fun d => ?_⟩
    rw [h.count d]
    by_cases hd : d = b
    · subst hd
      simp [hst]
    · simp [hd]

/-! ### The statement -/

/-- The poll timer has been restarted, before the visits (R71). -/
def pollRestarted (s : State) : State := { s with sbe := { s.sbe with pollTimer := some (1000 * s.sbe.interval) } }

theorem pollVisit_eq (s : State) : pollVisit s = (List.finRange 24).foldl visitBay (pollRestarted s) := by
  rw [pollVisit, pollRestarted]

theorem pollVisit_pollTimer (s : State) : (pollVisit s).sbe.pollTimer = some (1000 * s.sbe.interval) := by
  rw [pollVisit_eq]
  exact foldl_keeps (fun u => u.sbe.pollTimer) visitBay visitBay_pollTimer _ (pollRestarted s)

/-- The count of a bay not in ACTIVE stays (R71). -/
theorem pollVisit_pollCount_calm {b : Bay} (h : (s.bay b).state ≠ .active) :
    (pollVisit s).sbe.pollCount[b] = s.sbe.pollCount[b] := by
  rw [pollVisit_eq]
  exact foldl_bays (s := pollRestarted s) (P := fun u => u.bmon = s.bmon) (g := fun u => u.sbe.pollCount[b]) (F := id)
    (fun u d hu => by simp [hu])
    (fun u hu => by rw [visitBay_calm (show (u.bay b).state ≠ .active by rwa [bay_of_bmon hu]), id_eq])
    (fun _ _ _ hd => visitBay_pollCount_other hd) rfl

/-- Behind a transaction in flight every ACTIVE bay without a poll-class entry gets one (R71). -/
theorem pollVisit_busy {x : Txn} (hx : s.sbe.flight = some x) : VisitKept x s (pollVisit s) ∧
    ∀ b, bayPolls b (pollVisit s) = bayPolled b (s.bay b).state s.clock.tick (bayPolls b s) := by
  have start : VisitKept x s (pollRestarted s) := ⟨rfl, rfl, hx, rfl⟩
  rw [pollVisit_eq]
  refine ⟨List.foldlRecOn _ visitBay start fun u hu b _ => hu.visit b, fun b => ?_⟩
  refine foldl_bays (s := pollRestarted s) (P := VisitKept x s) (g := bayPolls b) (fun u d hu => hu.visit d)
    (fun u hu => ?_) (fun u d hu hd => bayPolls_visit_other hu.flight hd) start
  rw [bayPolls_visit_own hu.flight, bay_of_bmon hu.bmon, hu.clock]

/-- With nothing in flight and nothing queued the first poll starts and the others wait (R70, R71). -/
theorem pollVisit_idle (h : s.sbe.flight = none) (ho : s.sbe.orderQ = []) (hp : s.sbe.pollQ = []) :
    Visited s (List.finRange 24) (pollVisit s) := by
  rw [pollVisit_eq]
  exact foldl_bays_steps (P := Visited s)
    ⟨rfl, rfl, h, ho, hp, fun _ => (if_neg fun e => List.not_mem_nil e.1).symm⟩ fun _ _ _ hb hl => hl.visit hb

theorem answers_pollTimerExpiry {P : State → Prop} (h : StepNoteEmpty s.exp) (hP : P (pollVisit s)) :
    Answers .pollTimerExpiry s P := ⟨_, exec_of_body (t := pollVisit s) h rfl (by simp), hP⟩

/-- Settles O41: the visits behind a transaction in flight bay by bay, and from an idle sideband in their order. -/
theorem pollTimerPollsTheActiveBays : Obligations.PollTimerPollsTheActiveBays := by
  refine ⟨fun s hnote => answers_pollTimerExpiry hnote ?_,
    fun s hnote hidle horder hpoll => answers_pollTimerExpiry hnote ?_⟩
  · refine ⟨pollVisit_pollTimer s, pollVisit_interval s, fun b hb => pollVisit_pollCount_calm hb,
      fun hbusy => ?_, by simp⟩
    · obtain ⟨x, hx⟩ := Option.isSome_iff_exists.mp hbusy
      obtain ⟨hkept, hviews⟩ := pollVisit_busy hx
      refine ⟨hkept.flight.trans hx.symm, hkept.orderQ, fun b => ?_⟩
      have hview := hviews b
      by_cases h : (s.bay b).state = .active ∧ pollQueued s b = false
      · have hnone := (pollQueued_eq_false_iff s b).mp h.2
        rw [if_pos h, if_pos h, hnone]
        rw [bayPolled, if_pos ⟨h.1, hnone⟩] at hview
        simp only [bayPolls, Prod.mk.injEq] at hview
        exact hview
      · rw [if_neg h, if_neg h, List.append_nil]
        rw [bayPolled, if_neg fun e => h ⟨e.1, (pollQueued_eq_false_iff s b).mpr e.2⟩] at hview
        simp only [bayPolls, Prod.mk.injEq] at hview
        exact hview
  · have h := pollVisit_idle hidle horder hpoll
    refine ⟨h.flight, h.orderQ, h.pollQ, fun b => ?_⟩
    simpa using h.count b

end Sys2Proof.Machine

/-! Settles the power-on reset (O13): the reset values, and the presence inputs sampled one by one. -/

namespace Sys2Proof.Machine

variable {s t : State}

/-! ### The registers after the reset (R151, R152, R158) -/

/-- No slot in a state: its bitmap is 0. -/
theorem slotSet_eq_zero {e : Exp} {st : SlotState} (h : ∀ n : SlotId, e.slots[n].state ≠ st) : slotSet e st = 0 :=
  List.foldl_fixed' (fun n => if_neg (h n)) _

theorem reset_slot (n : SlotId) : State.reset.slot n = ⟨.free, 0, 0⟩ := getFin_replicate _ n

theorem reset_slotSet {st : SlotState} (h : st ≠ .free) : slotSet State.reset.exp st = 0 :=
  slotSet_eq_zero fun n e => h (e.symm.trans (congrArg Slot.state (reset_slot n)))

/-! ### A bay sampled PRESENT (R3, R24) -/

/-- A change of PSEQ that changes nothing marks nothing. -/
theorem updPseq_same {f : Pseq → Pseq} (h : f s.pseq = s.pseq) : updPseq f s = s := by
  simp [updPseq, h, markIf]

/-- A bay that neither claims a charge nor starts, before and after, leaves PSEQ where the queue is empty (R25, R26). -/
theorem follow_idle {p : Pseq} {r r' : BayRec} (b : Bay) (hu : p.urgent = []) (hn : p.normal = [])
    (hc : r.charge = none) (hc' : r'.charge = none) (hs : r.state.starting = false) (hs' : r'.state.starting = false) :
    p.follow b none r r' = p := by
  obtain ⟨account, urgent, normal, paths, sheds⟩ := p
  subst hu hn
  simp [Pseq.follow, Account.follow, classAfter, hc, hc', hs, hs', chargeUnits, bit]

/-- An EMPTY bay's entry to SETTLING is its own record's change: no neighbour hears of it (R21, R22, R25, R30). -/
theorem moveBay_settling_empty {b : Bay} (hst : (s.bay b).state = .empty) (hc : (s.bay b).charge = none)
    (hu : s.pseq.urgent = []) (hn : s.pseq.normal = []) (ha : s.thc.facts[b].active = false)
    (hf : s.thc.facts[b].starting = false) : moveBay b BayRec.settling s = updBay b BayRec.settling s := by
  have hsettling : ((updBay b BayRec.settling s).bay b).state = .settling := by rw [bay_updBay, if_pos rfl]; rfl
  have hthc : (updBay b BayRec.settling s).thc = s.thc := by simp
  have hturn : turnBay b none BayRec.settling s = updBay b BayRec.settling s := by
    have hpseq : s.pseq.follow b none (s.bay b) (s.bay b).settling = s.pseq :=
      follow_idle b hu hn hc hc (by rw [hst]; rfl) rfl
    rw [turnBay, updPseq_same hpseq]
  have hthermal : handThermal b (updBay b BayRec.settling s) = updBay b BayRec.settling s := by
    rw [handThermal, hsettling]
    have hactive : setActiveFact b (decide (BayState.settling = .active)) (updBay b BayRec.settling s)
        = updBay b BayRec.settling s := if_pos (by rw [hthc, ha]; rfl)
    rw [hactive]
    exact if_pos (by rw [hthc, hf]; rfl)
  have hlights : handLights b (updBay b BayRec.settling s) = updBay b BayRec.settling s := by
    rw [handLights, hsettling]
    rfl
  rw [moveBay, moveBayWith, hturn, hthermal, hlights,
    handSideband_quiet b _ _ (by simp [hst]) (by simp [hsettling]) (by simp [hsettling])]

/-- A record without a place in the dirty set gets one at its end (R161). -/
theorem addMark_new {r : MirrorRec} {notice : Bool} {l : List DirtyEntry} (h : ∀ e ∈ l, e.record ≠ r) :
    addMark r notice l = l ++ [⟨r, notice⟩] := by
  induction l with
  | nil => rfl
  | cons e rest ih =>
    rw [addMark, if_neg (h e List.mem_cons_self), ih fun x hx => h x (List.mem_cons_of_mem e hx)]
    rfl

theorem noteMark_new {r : MirrorRec} {l : List MirrorRec} (h : r ∉ l) : noteMark r l = l ++ [r] := if_neg h

/-- A change of a bay's record marks it with notice (R23). -/
theorem updBay_exp_changed {b : Bay} {f : BayRec → BayRec} (h : f (s.bay b) ≠ s.bay b) : (updBay b f s).exp =
    { s.exp with
      dirty := addMark (.bay b) true s.exp.dirty
      stepMarks := noteMark (.bay b) s.exp.stepMarks } := by
  rw [updBay, decide_eq_true h]
  rfl

/-! ### The samples one by one (R24) -/

/-- The bays among `l` whose presence input reads PRESENT. -/
def presentBays (s : State) (l : List Bay) : List Bay := l.filter fun b => s.pins.presence[b] = .present

/-- The record of a bay sampled PRESENT (R3, R24). -/
def sampledRec : BayRec := { BayRec.reset with state := .settling, settlingFrom := some .absent }

/-- Their marks, each with notice (R23). -/
def presentMarks (s : State) (l : List Bay) : List DirtyEntry := (presentBays s l).map fun b => ⟨.bay b, true⟩

/-- EXP after the bays of `l` have been sampled, before the end of the step. -/
def sampledExp (s : State) (l : List Bay) : Exp :=
  { Exp.reset with
    dirty := Exp.reset.dirty ++ presentMarks s l
    stepMarks := (presentBays s l).map .bay }

/-- The part at its reset values, with the presence inputs of the bays of `l` sampled. -/
structure Sampled (s : State) (l : List Bay) (t : State) : Prop where
  bays : ∀ b, t.bay b = if b ∈ presentBays s l then sampledRec else BayRec.reset
  debounce : ∀ b : Bay, t.bmon.debounce[b] = if b ∈ presentBays s l then some 250 else none
  replug : ∀ b : Bay, t.bmon.replug[b] = none
  pseq : t.pseq = Pseq.reset
  sbe : t.sbe = Sbe.reset
  thc : t.thc = Thc.reset
  fanu : t.fanu = Fanu.reset
  lgt : t.lgt = Lgt.reset
  exp : t.exp = sampledExp s l
  clock : t.clock = ⟨0, 0⟩
  pins : t.pins = s.pins
  mem : t.mem = writeLightDefaults s.mem

theorem presentBays_absent {l : List Bay} {b : Bay} (h : s.pins.presence[b] ≠ .present) :
    presentBays s (l ++ [b]) = presentBays s l := by
  rw [presentBays, List.filter_append, List.filter_cons_of_neg (by simpa using h), List.filter_nil,
    List.append_nil, presentBays]

theorem presentBays_present {l : List Bay} {b : Bay} (h : s.pins.presence[b] = .present) :
    presentBays s (l ++ [b]) = presentBays s l ++ [b] := by
  rw [presentBays, List.filter_append, List.filter_cons_of_pos (by simpa using h), List.filter_nil, presentBays]

theorem samplePresence_present {b : Bay} (h : s.pins.presence[b] = .present) :
    samplePresence s b = setDebounce b (some debounceMs) (moveBay b BayRec.settling s) := if_pos h

theorem samplePresence_absent {b : Bay} (h : s.pins.presence[b] ≠ .present) : samplePresence s b = s := if_neg h

/-- The marks of the bays sampled so far stand behind FANU's own (R161, R167). -/
theorem sampledExp_mark {l : List Bay} {b : Bay} (hp : s.pins.presence[b] = .present) (hb : b ∉ presentBays s l) :
    { sampledExp s l with
      dirty := addMark (.bay b) true (sampledExp s l).dirty
      stepMarks := noteMark (.bay b) (sampledExp s l).stepMarks } = sampledExp s (l ++ [b]) := by
  have hdirty : ∀ e ∈ (sampledExp s l).dirty, e.record ≠ .bay b := by
    intro e he
    rcases List.mem_append.mp he with he | he
    · rw [List.mem_singleton.mp he]
      exact MirrorRec.noConfusion
    · obtain ⟨d, hd, rfl⟩ := List.mem_map.mp he
      exact fun e => hb (MirrorRec.bay.inj e ▸ hd)
  have hmarks : MirrorRec.bay b ∉ (sampledExp s l).stepMarks := fun he => by
    obtain ⟨d, hd, e⟩ := List.mem_map.mp he
    exact hb (MirrorRec.bay.inj e ▸ hd)
  rw [addMark_new hdirty, noteMark_new hmarks]
  simp [sampledExp, presentMarks, presentBays_present hp]

/-- One more presence input is sampled (R24). -/
theorem Sampled.sample {l : List Bay} {b : Bay} (h : Sampled s l t) (hb : b ∉ l) :
    Sampled s (l ++ [b]) (samplePresence t b) := by
  by_cases hp : s.pins.presence[b] = .present
  · have hnew : b ∉ presentBays s l := fun e => hb (List.mem_of_mem_filter e)
    have hbay : t.bay b = BayRec.reset := (h.bays b).trans (if_neg hnew)
    have hmove : moveBay b BayRec.settling t = updBay b BayRec.settling t :=
      moveBay_settling_empty (by rw [hbay]; rfl) (by rw [hbay]; rfl) (by rw [h.pseq]; rfl) (by rw [h.pseq]; rfl)
        (by rw [h.thc]; exact congrArg DriveFacts.active (getFin_replicate _ b))
        (by rw [h.thc]; exact congrArg DriveFacts.starting (getFin_replicate _ b))
    have hexp : (updBay b BayRec.settling t).exp = sampledExp s (l ++ [b]) := by
      rw [updBay_exp_changed (by rw [hbay]; exact fun e => BayState.noConfusion (congrArg BayRec.state e)), h.exp]
      exact sampledExp_mark hp hnew
    rw [samplePresence_present (by rw [h.pins, hp]), hmove]
    refine ⟨fun d => ?_, fun d => ?_, fun d => ?_, by simp [h.pseq], by simp [h.sbe], by simp [h.thc], by simp [h.fanu],
      by simp [h.lgt], by simp [hexp], by simp [h.clock], by simp [h.pins], by simp [h.mem]⟩
    · change (updBay b BayRec.settling t).bay d = _
      rw [bay_updBay, presentBays_present hp, hbay]
      by_cases hd : d = b
      · subst hd
        rw [if_pos rfl, if_pos (List.mem_append_right _ List.mem_cons_self)]
        rfl
      · simp only [hd, if_false, h.bays d, List.mem_append, List.mem_singleton, or_false]
    · simp only [setDebounce_bmon, updBay_bmon, getFin_set, presentBays_present hp]
      by_cases hd : d = b
      · subst hd
        simp [debounceMs]
      · simp only [hd, if_false, h.debounce d, List.mem_append, List.mem_singleton, or_false]
    · simpa only [setDebounce_bmon, updBay_bmon] using h.replug d
  · rw [samplePresence_absent (by rwa [h.pins])]
    obtain ⟨hbays, hdebounce, hreplug, hpseq, hsbe, hthc, hfanu, hlgt, hexp, hclock, hpins, hmem⟩ := h
    have hsame := presentBays_absent (l := l) hp
    exact ⟨hsame ▸ hbays, hsame ▸ hdebounce, hreplug, hpseq, hsbe, hthc, hfanu, hlgt,
      by rw [hexp, sampledExp, sampledExp, presentMarks, presentMarks, hsame], hclock, hpins, hmem⟩

/-- Power-on reset samples every presence input, in ascending order (R24, R167). -/
theorem sampled_powerOn (s : State) : Sampled s (List.finRange 24) (powerOn s) := by
  have start : Sampled s [] (State.poweredOn s.pins s.mem s.free s.pending) :=
    ⟨fun b => (poweredOn_bay _ _ _ _ b).trans (if_neg List.not_mem_nil).symm,
      fun b => (getFin_replicate _ b).trans (if_neg List.not_mem_nil).symm, fun b => getFin_replicate _ b, rfl, rfl, rfl,
      rfl, rfl, rfl, rfl, rfl, by rw [State.poweredOn]⟩
  rw [powerOn]
  exact foldl_bays_steps (P := Sampled s) start fun _ _ _ hb hl => hl.sample hb

/-! ### The end of the step (R156) -/

/-- A step that completed no order only clears its note. -/
theorem finishStep_of_not_done (h : s.exp.stepDone = false) :
    finishStep s = { s with exp := { s.exp with stepMarks := [], stepDone := false } } := by
  simp only [finishStep, h, Bool.false_and, Bool.false_eq_true, if_false]

theorem mem_presentBays_finRange (s : State) (b : Bay) :
    b ∈ presentBays s (List.finRange 24) ↔ s.pins.presence[b] = .present := by
  simp [presentBays]

/-- EXP at the end of POWER_ON_RESET: its reset values, and a mark for each bay sampled PRESENT (R161, R167). -/
theorem powerOn_exp (s : State) : (finishStep (powerOn s)).exp =
    { Exp.reset with dirty := Exp.reset.dirty ++ presentMarks s (List.finRange 24) } := by
  have hexp := (sampled_powerOn s).exp
  rw [finishStep_of_not_done (by rw [hexp]; rfl), hexp]
  rfl

theorem powerOn_mem (s : State) : (finishStep (powerOn s)).mem = writeLightDefaults s.mem := by
  have h := sampled_powerOn s
  rw [finishStep_of_not_done (by rw [h.exp]; rfl), h.mem]

/-- Settles O13: the values State.reset holds, and those POWER_ON_RESET leaves whatever the state was. -/
theorem everyBlockAfterPowerOn : Obligations.EveryBlockAfterPowerOn := by
  refine ⟨⟨?_, ?_, ?_⟩, fun s => answers_of_body ?_⟩
  · exact ⟨fun b => poweredOn_bay _ _ _ _ b, fun b => ⟨getFin_replicate _ b, getFin_replicate _ b⟩,
      fun b => by simp [State.reset, State.poweredOn, State.path, Pseq.reset, Path.reset], rfl, rfl, rfl, rfl⟩
  · exact ⟨fun i => getFin_replicate _ i, fun b => getFin_replicate _ b,
      fun n => ⟨getFin_replicate _ n, getFin_replicate _ n⟩, fun z => getFin_replicate _ z,
      fun f => ⟨congrArg Fin.val (getFin_ofFn _ f), congrArg Fin.val (getFin_ofFn _ f)⟩, rfl, rfl, rfl, rfl,
      fun z => ⟨getFin_replicate _ z, getFin_replicate _ z⟩, fun f => ⟨getFin_replicate _ f, getFin_replicate _ f⟩⟩
  · exact ⟨fun c => getFin_replicate _ c, rfl, rfl, rfl, rfl, rfl, fun n => congrArg Slot.state (reset_slot n), rfl,
      reset_slotSet (by simp), reset_slotSet (by simp), rfl, rfl, rfl, rfl, rfl, rfl, fun i => getFin_replicate _ i, rfl,
      rfl⟩
  · obtain ⟨hbays, hdebounce, hreplug, hpseq, hsbe, hthc, hfanu, hlgt, -, hclock, hpins, -⟩ := sampled_powerOn s
    obtain ⟨epins, ebmon, epseq, esbe, ethc, efanu, elgt, eclock, -, -⟩ := finishStep_keeps (powerOn s)
    simp only [mem_presentBays_finRange] at hbays hdebounce
    have hbody : body .powerOnReset s = powerOn s := rfl
    rw [hbody]
    exact ⟨fun b => (bay_finishStep _ b).trans (hbays b), by simpa only [ebmon] using hdebounce,
      by simpa only [ebmon] using hreplug, epseq.trans hpseq, esbe.trans hsbe, ethc.trans hthc, efanu.trans hfanu,
      elgt.trans hlgt, powerOn_exp s, eclock.trans hclock, epins.trans hpins, powerOn_mem s⟩

end Sys2Proof.Machine

/-! Settles the end of a transaction (O44): its result completes a query, goes to its owner, and the next entry starts. -/

namespace Sys2Proof.Machine

variable {s t : State}

/-! ### What ends a transaction (R66, R67, R68) -/

/-- At its limit a deferred attempt ends the transaction (R67). -/
theorem attemptDeferred_limit {x : Txn} (h : deferLimit x.entry.item ≤ x.defers) :
    attemptDeferred x s = endTxn x .deferredOut [] s := if_neg (Nat.not_lt.mpr h)

/-- The third failed attempt ends the transaction (R68). -/
theorem attemptFailed_third {x : Txn} (h : 2 ≤ x.failed) (r : SbResult) :
    attemptFailed x r s = endTxn { x with failed := x.failed + 1 } r [] s := if_pos (Nat.succ_le_succ h)

/-- The query of an ended transaction has completed, and nothing is in flight (R75). -/
def txnDone (x : Txn) (r : SbResult) (data : List Byte) (s : State) : State :=
  completeOpt x.entry.slot r.result
    (queryDetail x.entry x.defers x.failed x.queueWait (queryData x.entry.item r data))
    { s with sbe := { s.sbe with flight := none } }

theorem endTxn_eq (x : Txn) (r : SbResult) (data : List Byte) (s : State) : endTxn x r data s =
    startNext (followUp x.entry (deliverResult x.entry r data (txnDone x r data s))) := rfl

@[simp] theorem txnDone_bmon (x : Txn) (r : SbResult) (data : List Byte) (s : State) :
    (txnDone x r data s).bmon = s.bmon := by simp [txnDone]

@[simp] theorem txnDone_pseq (x : Txn) (r : SbResult) (data : List Byte) (s : State) :
    (txnDone x r data s).pseq = s.pseq := by simp [txnDone]

@[simp] theorem txnDone_sbe (x : Txn) (r : SbResult) (data : List Byte) (s : State) :
    (txnDone x r data s).sbe = { s.sbe with flight := none } := by simp [txnDone]

@[simp] theorem txnDone_thc (x : Txn) (r : SbResult) (data : List Byte) (s : State) :
    (txnDone x r data s).thc = s.thc := by simp [txnDone]

@[simp] theorem txnDone_clock (x : Txn) (r : SbResult) (data : List Byte) (s : State) :
    (txnDone x r data s).clock = s.clock := by simp [txnDone]

theorem baySame_txnDone (x : Txn) (r : SbResult) (data : List Byte) (s : State) (d : Bay) :
    BaySame s (txnDone x r data s) d := BaySame.of_bmon_paths (by simp) (by simp) d

/-! ### Where a result goes (R77, R78, R79) -/

theorem deliverResult_standby {e : SbEntry} (h : e.item = .standby) (r : SbResult) (data : List Byte) :
    deliverResult e r data s = deliverStandby e.bay r s := by
  unfold deliverResult
  rw [h]

theorem deliverResult_ident {e : SbEntry} (h : e.item = .ident) (r : SbResult) (data : List Byte) :
    deliverResult e r data s = deliverIdentity e.bay (if r = .ok then some (identityOf data) else none) s := by
  unfold deliverResult
  rw [h]
  simp

theorem deliverResult_health {e : SbEntry} (h : e.item = .health) (r : SbResult) (data : List Byte) :
    deliverResult e r data s = deliverHealth e.bay (if r = .ok then some (data.getD 0 0) else none) s := by
  unfold deliverResult
  rw [h]
  simp

theorem deliverResult_poll {e : SbEntry} (h : e.item = .temp) (ho : e.origin = .poll) (r : SbResult)
    (data : List Byte) :
    deliverResult e r data s = deliverTemp e.bay (if r = .ok then some (tempOf data) else none) s := by
  unfold deliverResult
  rw [h]
  simp [ho]

/-- The temperature a query reads is the query's alone (R75, R78). -/
theorem deliverResult_query {e : SbEntry} (h : e.item = .temp) (ho : e.origin ≠ .poll) (r : SbResult)
    (data : List Byte) : deliverResult e r data s = s := by
  unfold deliverResult
  rw [h]
  exact if_neg ho

/-! ### A change of a bay that leaves its state -/

/-- The sideband hears nothing of a change that leaves a bay's state (R22). -/
theorem handSideband_same {b : Bay} {before : BayState} (h : (s.bay b).state = before) :
    handSideband b before s = s := by
  unfold handSideband
  dsimp only
  rw [h, if_neg fun e => e.1 e.2, if_neg fun e => e.2 e.1, if_neg fun e => e.1 e.2]

theorem moveBay_sbe_same {b : Bay} {f : BayRec → BayRec} (h : (f (s.bay b)).state = (s.bay b).state) :
    (moveBay b f s).sbe = s.sbe := by
  rw [moveBay, moveBayWith, handSideband_same (by rw [bay_handed, h])]
  simp

theorem moveBay_others (b : Bay) (f : BayRec → BayRec) (s : State) : OthersSame b s (moveBay b f s) :=
  fun d hd => ⟨(bay_moveBay b d f s).trans (if_neg hd), path_moveBay b d f s⟩

theorem listens_of_ne {st : BayState} (h : st ≠ .empty) (h' : st ≠ .settling) : st.listens = true := by
  cases st with
  | empty => exact absurd rfl h
  | settling => exact absurd rfl h'
  | off | queued | ramping | spinning | active | stopping | fault => rfl

/-! ### An identity, a health reading (R15, R16) -/

theorem deliverIdentity_stored {b : Bay} (h : (s.bay b).state.listens = true) (i : Identity) :
    deliverIdentity b (some i) s = moveBay b (fun r => r.identified i) s := if_pos h

/-- The record with the health warning a reading gives (R16, R79). -/
def BayRec.warned (r : BayRec) (flags : Byte) : BayRec := { r with healthWarn := decide (flags &&& 3#8 ≠ 0#8) }

theorem deliverHealth_stored {b : Bay} (h : (s.bay b).state.listens = true) (flags : Byte) :
    deliverHealth b (some flags) s = moveBay b (fun r => r.warned flags) s := if_pos h

/-- An identity or health result changes nothing, or the bay's record but for its state (R2, R15, R16). -/
theorem deliverResult_record {e : SbEntry} (h : e.item = .ident ∨ e.item = .health) (r : SbResult) (data : List Byte) :
    deliverResult e r data s = s ∨
    ∃ f : BayRec → BayRec, (∀ x, (f x).state = x.state) ∧ deliverResult e r data s = moveBay e.bay f s := by
  rcases h with h | h
  · rw [deliverResult_ident h]
    unfold deliverIdentity
    split
    · exact Or.inl rfl
    · split
      · exact Or.inr ⟨fun x => x.identified _, fun _ => rfl, rfl⟩
      · exact Or.inl rfl
  · rw [deliverResult_health h]
    unfold deliverHealth
    split
    · exact Or.inl rfl
    · split
      · exact Or.inr ⟨fun x => x.warned _, fun _ => rfl, rfl⟩
      · exact Or.inl rfl

/-! ### A standby outcome (R58, R59, R77) -/

theorem deliverStandby_waiting {b : Bay} (h : (s.bay b).waits = true) (r : SbResult) :
    deliverStandby b r s = standbyEnd b (if r = .ok then .ack else .failed) (some r) none s := if_pos h

theorem deliverStandby_discarded {b : Bay} (h : (s.bay b).waits = false) (r : SbResult) : deliverStandby b r s = s :=
  if_neg (ne_true_of_eq_false h)

theorem waits_eq_false {r : BayRec} (h : r.state ≠ .stopping ∨ r.stopPhase ≠ some .standbyWait) : r.waits = false :=
  decide_eq_false fun e => h.elim (fun h => h e.1) fun h => h e.2

/-- A bay in STOPPING goes through its hold without the sideband (R22). -/
theorem startHold_sbe {b : Bay} (h : (s.bay b).state = .stopping) (k : Nat) : (startHold b k s).sbe = s.sbe := by
  by_cases hk : k = 0
  · subst hk
    have honly := OnlyBay.report (s := completePower b .ok (offDetail (s.path b).stop) s) (b := b) (acts := BayRec.holds)
      (f := fun r => { r.enter .off with powerOrder := none }) [] (by simp [h]) (by simp) (by simp)
    rw [startHold_zero, finishHold_eq]
    exact honly.sbe.trans (by simp [completePower])
  · rw [startHold_pos hk]
    rfl

theorem standbyEnd_sbe {b : Bay} (h : (s.bay b).waits = true) (o : StandbyOutcome) (x : Option SbResult)
    (c : Option CutCause) : (standbyEnd b o x c s).sbe = s.sbe := by
  cases hstop : (s.path b).stop with
  | none => rw [standbyEnd_none hstop]
  | some w =>
    have hst := (of_decide_eq_true h).1
    generalize hu : updPath b (fun p => p.waited (w.ended o x c s.clock.tick)) s = u
    have hbay : u.bay b = s.bay b := by rw [← hu]; rfl
    have honly := OnlyBay.report (s := u) (b := b) (acts := BayRec.waits) (f := BayRec.held') (standbyEvents o)
      (by simp [hbay, hst]) (by simp [BayRec.held']) (by simp [BayRec.held'])
    have hheld : (((report b BayRec.waits BayRec.held' (standbyEvents o) u)).bay b).state = .stopping := by
      rw [bay_report_own (by rwa [hbay])]
      simp [BayRec.held']
    rw [standbyEnd_eq hstop, hu, (Admissions.evaluate _).sbe, toHold, startHold_sbe hheld, honly.sbe, ← hu]
    rfl

theorem deliverStandby_sbe (b : Bay) (r : SbResult) (s : State) : (deliverStandby b r s).sbe = s.sbe := by
  cases h : (s.bay b).waits with
  | true => rw [deliverStandby_waiting h, standbyEnd_sbe h]
  | false => rw [deliverStandby_discarded h]

/-- What history entries leave in the ring depends on the ring, its head and the next number only (R19). -/
theorem BayRec.pushedAll_ring {r r' : BayRec} (hring : r'.ring = r.ring) (hhead : r'.head = r.head)
    (hseq : r'.nextSeq = r.nextSeq) (l : List HistEvent) (w : Word) :
    (r'.pushedAll l w).ring = (r.pushedAll l w).ring := by
  induction l generalizing r r' with
  | nil => exact hring
  | cons ev rest ih =>
    exact ih (by simp only [BayRec.pushed, hring, hhead, hseq]) (by simp [hhead]) (by simp [hseq])

/-- The hold leaves the ring as the end of the wait wrote it (R12, R59). -/
theorem startHold_ring {b : Bay} (h : (s.bay b).holds = true) (k : Nat) :
    ((startHold b k s).bay b).ring = (s.bay b).ring := by
  by_cases hk : k = 0
  · subst hk
    rw [startHold_zero, (finishHold_own h).1]
    simp
  · rw [startHold_pos hk]
    rfl

theorem startHold_stop {k : Nat} (h : k ≠ 0) (b : Bay) (s : State) : ((startHold b k s).path b).stop = (s.path b).stop := by
  rw [startHold_pos h, path_updPath, if_pos rfl]

/-- What the end of a standby wait leaves beside the hold: the two entries in the ring, and the stop with its outcome
(R12, R58, R59). -/
theorem standbyEnd_record {b : Bay} {w : Stop} (h : (s.path b).stop = some w) (hw : (s.bay b).waits = true)
    (o : StandbyOutcome) (x : Option SbResult) (c : Option CutCause) :
    ((standbyEnd b o x c s).bay b).ring = ((s.bay b).pushedAll (standbyEvents o) s.clock.uptime).ring ∧
    (w.hold ≠ 0 → ((standbyEnd b o x c s).path b).stop = some (w.ended o x c s.clock.tick)) := by
  generalize hu : updPath b (fun p => p.waited (w.ended o x c s.clock.tick)) s = u
  have hbay : u.bay b = s.bay b := by rw [← hu]; rfl
  have hpath : u.path b = (s.path b).waited (w.ended o x c s.clock.tick) := by rw [← hu, path_updPath, if_pos rfl]
  have hreport := bay_report_own (b := b) (acts := BayRec.waits) (s := u) (by rwa [hbay]) BayRec.held' (standbyEvents o)
  have hholds : ((report b BayRec.waits BayRec.held' (standbyEvents o) u).bay b).holds = true := by
    rw [hreport]
    simp [BayRec.holds, BayRec.held']
  have hbegun := toHold_begun (s := u) (b := b) (acts := BayRec.waits) (f := BayRec.held') (o := (u.bay b).powerOrder)
    (by rwa [hbay]) rfl (by rw [hpath]; rfl) w.hold (standbyEvents o)
  obtain ⟨hownbay, hownpath⟩ := (Admissions.evaluate
    (toHold b w.hold BayRec.waits BayRec.held' (standbyEvents o) u)).own hbegun.not_queued
  rw [standbyEnd_eq h, hu, hownbay, hownpath, toHold]
  refine ⟨?_, fun hk => ?_⟩
  · rw [startHold_ring hholds, hreport, hbay, ← hu]
    exact BayRec.pushedAll_ring (r := s.bay b) (r' := (s.bay b).held') rfl rfl rfl _ _
  · rw [startHold_stop hk, path_report, hpath]
    rfl

/-- Bay `b`'s standby wait in `s` has ended with a result, its stop being `w` (R12, R58, R59). -/
structure WaitEnded (b : Bay) (w : Stop) (r : SbResult) (s t : State) : Prop where
  charge : (t.bay b).charge = none
  switch : (t.path b).switchOn = false
  ring : (t.bay b).ring =
    ((s.bay b).pushedAll (standbyEvents (if r = .ok then .ack else .failed)) s.clock.uptime).ring
  ended : w.hold = 0 → (t.bay b).state = .off
  holds : w.hold ≠ 0 → (t.bay b).state = .stopping ∧ (t.bay b).stopPhase = some .hold ∧
    (t.path b).holdTimer = some (1000 * w.hold) ∧
    (t.path b).stop = some (w.ended (if r = .ok then .ack else .failed) (some r) none s.clock.tick)

theorem deliverStandby_ends {b : Bay} {w : Stop} {r : SbResult} (hstop : (s.path b).stop = some w)
    (hw : (s.bay b).waits = true) (hsame : BaySame (deliverStandby b r s) t b) : WaitEnded b w r s t := by
  rw [deliverStandby_waiting hw] at hsame
  obtain ⟨hring, hstopped⟩ := standbyEnd_record hstop hw (if r = .ok then .ack else .failed) (some r) none
  have hbegun := (standbyEnd_begun hstop hw (if r = .ok then .ack else .failed) (some r) none).of_same
    (BaySame.trans ⟨(bay_finishStep _ b).symm, (path_finishStep _ b).symm⟩ hsame)
  refine ⟨hbegun.charge, hbegun.switch, by rw [hsame.1, hring], fun hk => (hbegun.ended hk).1, fun hk => ?_⟩
  obtain ⟨hstopping, hphase, -, htimer⟩ := hbegun.runs hk
  exact ⟨hstopping, hphase, htimer, by rw [hsame.2, hstopped hk]⟩

/-- The same of a state before in which the bay and the counters stand alike. -/
theorem WaitEnded.of_before {b : Bay} {w : Stop} {r : SbResult} {u : State} (h : WaitEnded b w r u t)
    (hbay : u.bay b = s.bay b) (hclock : u.clock = s.clock) : WaitEnded b w r s t := by
  obtain ⟨hcharge, hswitch, hring, hended, hholds⟩ := h
  rw [hbay, hclock] at hring
  rw [hclock] at hholds
  exact ⟨hcharge, hswitch, hring, hended, hholds⟩

/-- The wait's end as the statement gives it. -/
theorem WaitEnded.shown {b : Bay} {w : Stop} {r : SbResult} (h : WaitEnded b w r s t) :
    (t.bay b).charge = none ∧ (t.path b).switchOn = false ∧
    (t.bay b).ring = ((s.bay b).ring.set (s.bay b).head (some ⟨(s.bay b).nextSeq,
        (if r = .ok then .standbyAck else .standbyFailed false), s.clock.uptime⟩)).set
      (((s.bay b).head + 1 : Fin 8) : Nat) (some ⟨(s.bay b).nextSeq + 1, .off .graceful, s.clock.uptime⟩) ∧
    (if w.hold = 0 then (t.bay b).state = .off
    else (t.bay b).state = .stopping ∧ (t.bay b).stopPhase = some .hold ∧
      (t.path b).holdTimer = some (1000 * w.hold) ∧
      (t.path b).stop = some { w with
        standby := if r = .ok then .ack else .failed
        txn := some r
        cut := none
        wait := waitTicks w.take s.clock.tick }) := by
  refine ⟨h.charge, h.switch, ?_, ?_⟩
  · rw [h.ring]
    by_cases hr : r = .ok <;> simp only [hr, if_true, if_false] <;> rfl
  · by_cases hk : w.hold = 0
    · rw [if_pos hk]
      exact h.ended hk
    · rw [if_neg hk]
      exact h.holds hk

theorem deliverStandby_others (b : Bay) (r : SbResult) (s : State) :
    OthersKept (· = b) s (finishStep (deliverStandby b r s)) := by
  cases h : (s.bay b).waits with
  | true =>
    rw [deliverStandby_waiting h]
    exact standbyEnd_others _ _ _ s
  | false =>
    rw [deliverStandby_discarded h]
    exact fun d _ => Or.inl (baySame_finishStep s d)

/-! ### A temperature reading (R84, R89) -/

theorem deliverTemp_inactive {b : Bay} (h : s.thc.facts[b].active = false) (q : Option Int) : deliverTemp b q s = s :=
  if_neg (ne_true_of_eq_false h)

/-- A reading leaves every power path. -/
theorem deliverTemp_paths (b : Bay) (q : Option Int) (s : State) : (deliverTemp b q s).pseq.paths = s.pseq.paths := by
  cases h : s.thc.facts[b].active with
  | false => rw [deliverTemp_inactive h]
  | true =>
    have hdeliver : deliverTemp b q s = setSensor (driveSensor b) _ _ := if_pos h
    simp [hdeliver]

/-- An accepted reading: the sensor record, the hot count and the shed requests (R84, R89). -/
theorem deliverTemp_active {b : Bay} (h : s.thc.facts[b].active = true) (q : Option Int) :
    (deliverTemp b q s).sensor (driveSensor b) = (s.sensor (driveSensor b)).read q s.clock.uptime ∧
    (deliverTemp b q s).thc.facts[b].hot = (hotAfter s.thc.facts[b] q).1 ∧
    (deliverTemp b q s).pseq.sheds = s.pseq.sheds ++
      (if (hotAfter s.thc.facts[b] q).2 = true then [⟨b, s.thc.facts[b].shedCopy⟩] else []) := by
  have hdeliver : deliverTemp b q s = setSensor (driveSensor b) _ _ := if_pos h
  rw [hdeliver]
  refine ⟨?_, ?_, ?_⟩
  · simp only [State.sensor, setSensor_thc, getFin_set, if_true]
  · simp only [setSensor_thc, getFin_set, if_true]
  · split_ifs <;> simp

/-- The hot count and the request after a reading, by whether it reaches the shed temperature (R89). -/
theorem hotAfter_eq (f : DriveFacts) (r : SbResult) (q : Int) : hotAfter f (if r = .ok then some q else none) =
    (if (r = .ok ∧ f.shedCopy ≠ 0 ∧ (4 * f.shedCopy : Int) ≤ clampTemp q) ∧ f.hot + 1 ≠ 2 then f.hot + 1 else 0,
      decide ((r = .ok ∧ f.shedCopy ≠ 0 ∧ (4 * f.shedCopy : Int) ≤ clampTemp q) ∧ f.hot + 1 = 2)) := by
  by_cases hr : r = .ok
  · by_cases hbelow : f.shedCopy = 0 ∨ clampTemp q < 4 * (f.shedCopy : Int)
    · have hnot : ¬ (f.shedCopy ≠ 0 ∧ (4 * f.shedCopy : Int) ≤ clampTemp q) := by omega
      rw [if_pos hr, if_neg fun e => hnot e.1.2, decide_eq_false fun e => hnot e.1.2]
      exact if_pos hbelow
    · have hat : f.shedCopy ≠ 0 ∧ (4 * f.shedCopy : Int) ≤ clampTemp q := by omega
      by_cases hsecond : f.hot + 1 = 2
      · rw [if_pos hr, if_neg fun e => e.2 hsecond, decide_eq_true ⟨⟨hr, hat⟩, hsecond⟩]
        exact (if_neg hbelow).trans (if_pos hsecond)
      · rw [if_pos hr, if_pos ⟨⟨hr, hat⟩, hsecond⟩, decide_eq_false fun e => hsecond e.2]
        exact (if_neg hbelow).trans (if_neg hsecond)
  · rw [if_neg hr, if_neg fun e => hr e.1.1, decide_eq_false fun e => hr e.1.1]
    rfl

/-- A poll's reading of an ACTIVE bay as the statement gives it (R84). -/
theorem sensor_read (x : SensorRec) (r : SbResult) (q : Int) (uptime : Word) :
    x.read (if r = .ok then some q else none) uptime =
      if r = .ok then ⟨some (clampTemp q), 0, some uptime⟩ else { x with fails := min (x.fails + 1) 255 } := by
  by_cases hr : r = .ok <;> simp [hr, SensorRec.read]

/-! ### Any result: what it leaves of the sideband and the other bays -/

theorem deliverResult_sbe (e : SbEntry) (r : SbResult) (data : List Byte) (s : State) :
    (deliverResult e r data s).sbe = s.sbe := by
  cases hitem : e.item with
  | standby => rw [deliverResult_standby hitem, deliverStandby_sbe]
  | temp =>
    by_cases ho : e.origin = .poll
    · rw [deliverResult_poll hitem ho]
      simp
    · rw [deliverResult_query hitem ho]
  | ident | health =>
    rcases deliverResult_record (s := s) (e := e) (by simp [hitem]) r data with h | ⟨f, hf, h⟩
    · rw [h]
    · rw [h, moveBay_sbe_same (hf _)]

/-- A health reading leaves the bay's state, so its follow-up depends on the state before (R72). -/
theorem deliverResult_health_state {e : SbEntry} (h : e.item = .health) (r : SbResult) (data : List Byte) :
    ((deliverResult e r data s).bay e.bay).state = (s.bay e.bay).state := by
  rcases deliverResult_record (s := s) (Or.inr h) r data with h | ⟨f, hf, h⟩
  · rw [h]
  · rw [h, bay_moveBay, if_pos rfl, hf]

theorem OthersSame.othersKept {b : Bay} (h : OthersSame b s t) : OthersKept (· = b) s t := fun d hd => Or.inl (h d hd)

theorem OthersKept.of_same {own : Bay → Prop} {u : State} (h : OthersKept own s t) (hs : ∀ d, BaySame t u d) :
    OthersKept own s u := by
  intro d hd
  rcases h d hd with hsame | ⟨hq, hst, hkept⟩
  · exact Or.inl (hsame.trans (hs d))
  · exact Or.inr ⟨hq, by rw [(hs d).1]; exact hst, by rw [(hs d).1]; exact hkept⟩

theorem OthersKept.after_baySame {own : Bay → Prop} {u : State} (hs : ∀ d, BaySame s t d) (h : OthersKept own t u) :
    OthersKept own s u := by
  intro d hd
  rcases h d hd with hsame | ⟨hq, hst, hkept⟩
  · exact Or.inl ((hs d).trans hsame)
  · rw [(hs d).1] at hq hkept
    exact Or.inr ⟨hq, hst, hkept⟩

theorem deliverResult_others (e : SbEntry) (r : SbResult) (data : List Byte) (s : State) :
    OthersKept (· = e.bay) s (deliverResult e r data s) := by
  have same : OthersKept (· = e.bay) s s := fun d _ => Or.inl ⟨rfl, rfl⟩
  cases hitem : e.item with
  | standby =>
    rw [deliverResult_standby hitem]
    exact (deliverStandby_others e.bay r s).of_same fun d => ⟨(bay_finishStep _ d).symm, (path_finishStep _ d).symm⟩
  | temp =>
    by_cases ho : e.origin = .poll
    · rw [deliverResult_poll hitem ho]
      exact fun d _ => Or.inl (BaySame.of_bmon_paths (by simp) (deliverTemp_paths _ _ s) d)
    · rw [deliverResult_query hitem ho]
      exact same
  | ident | health =>
    rcases deliverResult_record (s := s) (e := e) (by simp [hitem]) r data with h | ⟨f, -, h⟩
    · rwa [h]
    · rw [h]
      exact (moveBay_others _ _ s).othersKept

/-! ### The end of the transaction (R70, R72, R75) -/

/-- The poll class with the follow-up of an ended transaction (R72). -/
def pollsAfter (e : SbEntry) (s : State) : List SbEntry := s.sbe.pollQ ++
  (if e.origin = .poll ∧ e.item = .health ∧ (s.bay e.bay).state = .active ∧ pollQueued s e.bay = false then
    [{ bay := e.bay, item := .temp, origin := .poll, slot := none, take := s.clock.tick }] else [])

theorem followUp_sbe (e : SbEntry) (s : State) : (followUp e s).sbe = { s.sbe with pollQ := pollsAfter e s } := by
  unfold followUp pollsAfter
  split
  · rfl
  · rw [List.append_nil]

/-- The follow-up depends on the poll class, the tick counter and, for a HEALTH, the bay's state. -/
theorem pollsAfter_congr {e : SbEntry} (hq : t.sbe.pollQ = s.sbe.pollQ) (hc : t.clock = s.clock)
    (hst : e.item = .health → (t.bay e.bay).state = (s.bay e.bay).state) : pollsAfter e t = pollsAfter e s := by
  have hqueued : pollQueued t e.bay = pollQueued s e.bay := by rw [pollQueued, hq, pollQueued]
  unfold pollsAfter
  rw [hq, hc, hqueued]
  by_cases h : e.item = .health
  · rw [hst h]
  · rw [if_neg fun x => h x.2.1, if_neg fun x => h x.2.1]

/-- The end of the step in which a transaction ends. -/
def txnStep (x : Txn) (r : SbResult) (data : List Byte) (s : State) : State := finishStep (endTxn x r data s)

/-- Beside the sideband, the state at the end of the step is that of the delivery. -/
theorem txnStep_blocks (x : Txn) (r : SbResult) (data : List Byte) (s : State) :
    (txnStep x r data s).bmon = (deliverResult x.entry r data (txnDone x r data s)).bmon ∧
    (txnStep x r data s).pseq = (deliverResult x.entry r data (txnDone x r data s)).pseq ∧
    (txnStep x r data s).thc = (deliverResult x.entry r data (txnDone x r data s)).thc := by
  simp [txnStep, endTxn_eq]

theorem txnStep_baySame (x : Txn) (r : SbResult) (data : List Byte) (s : State) (d : Bay) :
    BaySame (deliverResult x.entry r data (txnDone x r data s)) (txnStep x r data s) d := by
  obtain ⟨hbmon, hpseq, -⟩ := txnStep_blocks x r data s
  exact BaySame.of_bmon_paths hbmon (congrArg Pseq.paths hpseq) d

/-- The follow-up is placed and the next entry starts (R70, R72). -/
theorem txnStep_sbe (x : Txn) (r : SbResult) (data : List Byte) (s : State) : (txnStep x r data s).sbe =
    { s.sbe with
      flight := nextTxn s.sbe.orderQ (pollsAfter x.entry s) s.clock.tick
      orderQ := s.sbe.orderQ.tail
      pollQ := if s.sbe.orderQ = [] then (pollsAfter x.entry s).tail else pollsAfter x.entry s } := by
  generalize hu : deliverResult x.entry r data (txnDone x r data s) = u
  have hsbe : u.sbe = { s.sbe with flight := none } := by
    rw [← hu, deliverResult_sbe, txnDone_sbe]
  have hclock : u.clock = s.clock := by rw [← hu]; simp
  have hpolls : pollsAfter x.entry u = pollsAfter x.entry s := by
    refine pollsAfter_congr (by rw [hsbe]) hclock fun hitem => ?_
    rw [← hu, deliverResult_health_state hitem, (baySame_txnDone x r data s x.entry.bay).1]
  have hfollow : (followUp x.entry u).sbe = { s.sbe with flight := none, pollQ := pollsAfter x.entry s } := by
    rw [followUp_sbe, hpolls, hsbe]
  have hfollowClock : (followUp x.entry u).clock = s.clock := by simp [hclock]
  rw [txnStep, sbe_finishStep, endTxn_eq, hu, startNext_sbe_idle (by rw [hfollow]), hfollow, hfollowClock]

/-- The query's result shows at the end of the step (R75). -/
theorem txnStep_completed {x : Txn} {n : SlotId} (hw : s.mem.wf = true) (hn : x.entry.slot = some n)
    (ht : (s.slot n).state = .taken) (r : SbResult) (data : List Byte) :
    Completed (txnStep x r data s) n r.result (s.slot n).tag s.clock.uptime
      (queryDetail x.entry x.defers x.failed x.queueWait (queryData x.entry.item r data)) := by
  have hdone : txnDone x r data s = complete n r.result
      (queryDetail x.entry x.defers x.failed x.queueWait (queryData x.entry.item r data))
      { s with sbe := { s.sbe with flight := none } } := by
    rw [txnDone, hn]
    rfl
  have hcomplete := completed_complete (s := { s with sbe := { s.sbe with flight := none } }) hw ht r.result
    (queryDetail x.entry x.defers x.failed x.queueWait (queryData x.entry.item r data))
  have hwf := (complete_written n r.result
    (queryDetail x.entry x.defers x.failed x.queueWait (queryData x.entry.item r data))
    { s with sbe := { s.sbe with flight := none } } hw).wf
  rw [← hdone] at hcomplete hwf
  exact (Changes.startNext (Changes.followUp _ (Changes.deliverResult _ _ _ .refl))).completed_finishStep hwf hcomplete

theorem txnStep_others (x : Txn) (r : SbResult) (data : List Byte) (s : State) :
    OthersKept (· = x.entry.bay) s (txnStep x r data s) :=
  .after_baySame (baySame_txnDone x r data s) ((deliverResult_others _ r data _).of_same (txnStep_baySame x r data s))

/-! ### The statement -/

/-- A STANDBY's outcome ends the bay's wait (R58, R59, R77). -/
theorem txnStep_standby {x : Txn} {w : Stop} (hitem : x.entry.item = .standby) (r : SbResult) (data : List Byte)
    (hst : (s.bay x.entry.bay).state = .stopping) (hphase : (s.bay x.entry.bay).stopPhase = some .standbyWait)
    (hstop : (s.path x.entry.bay).stop = some w) :
    WaitEnded x.entry.bay w r s (txnStep x r data s) := by
  obtain ⟨hbay, hpath⟩ := baySame_txnDone x r data s x.entry.bay
  have hsame := txnStep_baySame x r data s x.entry.bay
  rw [deliverResult_standby hitem] at hsame
  exact (deliverStandby_ends (by rw [hpath, hstop]) (by rw [hbay]; exact decide_eq_true ⟨hst, hphase⟩) hsame).of_before
    hbay (txnDone_clock x r data s)

/-- Where the delivery changes nothing, the blocks are those before the transaction's end. -/
theorem txnStep_undelivered {x : Txn} {r : SbResult} {data : List Byte}
    (h : deliverResult x.entry r data (txnDone x r data s) = txnDone x r data s) :
    (txnStep x r data s).bmon = s.bmon ∧ (txnStep x r data s).pseq = s.pseq ∧ (txnStep x r data s).thc = s.thc := by
  obtain ⟨hbmon, hpseq, hthc⟩ := txnStep_blocks x r data s
  rw [h] at hbmon hpseq hthc
  exact ⟨hbmon.trans (by simp), hpseq.trans (by simp), hthc.trans (by simp)⟩

/-- An outcome that finds the bay in no standby wait is discarded (R58, R77). -/
theorem txnStep_standby_discarded {x : Txn} (hitem : x.entry.item = .standby) (r : SbResult) (data : List Byte)
    (h : (s.bay x.entry.bay).state ≠ .stopping ∨ (s.bay x.entry.bay).stopPhase ≠ some .standbyWait) :
    (txnStep x r data s).bmon = s.bmon ∧ (txnStep x r data s).pseq = s.pseq := by
  have hdiscarded : deliverStandby x.entry.bay r (txnDone x r data s) = txnDone x r data s :=
    deliverStandby_discarded (by rw [(baySame_txnDone x r data s _).1]; exact waits_eq_false h) r
  obtain ⟨hbmon, hpseq, -⟩ := txnStep_undelivered ((deliverResult_standby hitem r data).trans hdiscarded)
  exact ⟨hbmon, hpseq⟩

/-- A failed identity or health request changes no bay (R15, R16). -/
theorem txnStep_unread {x : Txn} (hitem : x.entry.item = .ident ∨ x.entry.item = .health) {r : SbResult}
    (data : List Byte) (hr : r ≠ .ok) :
    (txnStep x r data s).bmon = s.bmon ∧ (txnStep x r data s).pseq = s.pseq := by
  have hnone : deliverResult x.entry r data (txnDone x r data s) = txnDone x r data s := by
    rcases hitem with h | h
    · rw [deliverResult_ident h, if_neg hr]
      rfl
    · rw [deliverResult_health h, if_neg hr]
      rfl
  obtain ⟨hbmon, hpseq, -⟩ := txnStep_undelivered hnone
  exact ⟨hbmon, hpseq⟩

/-- An IDENT read with OK is stored (R15). -/
theorem txnStep_ident {x : Txn} (hitem : x.entry.item = .ident) (data : List Byte)
    (h : (s.bay x.entry.bay).state ≠ .empty) (h' : (s.bay x.entry.bay).state ≠ .settling) :
    (txnStep x .ok data s).bay x.entry.bay = (s.bay x.entry.bay).identified (identityOf data) := by
  have hbay := (baySame_txnDone x .ok data s x.entry.bay).1
  rw [(txnStep_baySame x .ok data s x.entry.bay).1, deliverResult_ident hitem, if_pos rfl,
    deliverIdentity_stored (by rw [hbay]; exact listens_of_ne h h'), bay_moveBay, if_pos rfl, hbay]

/-- A HEALTH read with OK stores the warning (R16, R79). -/
theorem txnStep_health {x : Txn} (hitem : x.entry.item = .health) (data : List Byte)
    (h : (s.bay x.entry.bay).state ≠ .empty) (h' : (s.bay x.entry.bay).state ≠ .settling) :
    (txnStep x .ok data s).bay x.entry.bay = (s.bay x.entry.bay).warned (data.getD 0 0) := by
  have hbay := (baySame_txnDone x .ok data s x.entry.bay).1
  rw [(txnStep_baySame x .ok data s x.entry.bay).1, deliverResult_health hitem, if_pos rfl,
    deliverHealth_stored (by rw [hbay]; exact listens_of_ne h h'), bay_moveBay, if_pos rfl, hbay]

/-- A POLL's temperature of an ACTIVE bay: the sensor record, the hot count, the shed requests (R84, R89). -/
theorem txnStep_poll {x : Txn} (hitem : x.entry.item = .temp) (ho : x.entry.origin = .poll) (r : SbResult)
    (data : List Byte) (h : s.thc.facts[x.entry.bay].active = true) :
    let b := x.entry.bay
    let q := if r = .ok then some (tempOf data) else none
    let t := txnStep x r data s
    t.sensor (driveSensor b) = (s.sensor (driveSensor b)).read q s.clock.uptime ∧
    t.thc.facts[b].hot = (hotAfter s.thc.facts[b] q).1 ∧
    t.pseq.sheds = s.pseq.sheds ++
      (if (hotAfter s.thc.facts[b] q).2 = true then [⟨b, s.thc.facts[b].shedCopy⟩] else []) := by
  obtain ⟨-, hpseq, hthc⟩ := txnStep_blocks x r data s
  rw [deliverResult_poll hitem ho] at hpseq hthc
  have hread := deliverTemp_active (s := txnDone x r data s) (b := x.entry.bay) (by rwa [txnDone_thc])
    (if r = .ok then some (tempOf data) else none)
  simp only [State.sensor, ← hpseq, ← hthc, txnDone_thc, txnDone_pseq, txnDone_clock] at hread
  exact hread

/-- A POLL's temperature of a bay THC does not hold ACTIVE changes nothing (R84). -/
theorem txnStep_poll_inactive {x : Txn} (hitem : x.entry.item = .temp) (ho : x.entry.origin = .poll) (r : SbResult)
    (data : List Byte) (h : s.thc.facts[x.entry.bay].active = false) :
    (txnStep x r data s).thc = s.thc ∧ (txnStep x r data s).pseq = s.pseq := by
  have hdiscarded := deliverTemp_inactive (s := txnDone x r data s) (b := x.entry.bay)
    (by rwa [txnDone_thc]) (if r = .ok then some (tempOf data) else none)
  obtain ⟨-, hpseq, hthc⟩ := txnStep_undelivered ((deliverResult_poll hitem ho r data).trans hdiscarded)
  exact ⟨hthc, hpseq⟩

/-- The counts with which each end of a transaction is reported (R67, R68). -/
theorem answers_txnStep {x : Txn} {c : Instr} {r : SbResult} {data : List Byte} {failed : Nat} {P : State → Prop}
    (h : attemptOf s = some x)
    (hend : ((∃ bytes, c = .sidebandReply bytes ∧ judgeReply x.entry.item bytes = some (.ok data)) ∧
          r = .ok ∧ failed = x.failed) ∨
        ((∃ bytes, c = .sidebandReply bytes ∧ judgeReply x.entry.item bytes = some .defer) ∧
          deferLimit x.entry.item ≤ x.defers ∧ r = .deferredOut ∧ data = [] ∧ failed = x.failed) ∨
        ((∃ bytes, c = .sidebandReply bytes ∧ judgeReply x.entry.item bytes = some .badCheck) ∧
          2 ≤ x.failed ∧ r = .badCheck ∧ data = [] ∧ failed = x.failed + 1) ∨
        (c = .sidebandNoReply ∧ 2 ≤ x.failed ∧ r = .noReply ∧ data = [] ∧ failed = x.failed + 1))
    (hP : P (txnStep { x with failed := failed } r data s)) : Answers c s P := by
  refine answers_of_body (P := P) ?_
  rcases hend with ⟨⟨bytes, rfl, hj⟩, rfl, rfl⟩ | ⟨⟨bytes, rfl, hj⟩, hlimit, rfl, rfl, rfl⟩ |
    ⟨⟨bytes, rfl, hj⟩, hthird, rfl, rfl, rfl⟩ | ⟨rfl, hthird, rfl, rfl, rfl⟩
  · rwa [show body (.sidebandReply bytes) s = _ from replyArrived_ok h hj]
  · rwa [show body (.sidebandReply bytes) s = _ from (replyArrived_defer h hj).trans (attemptDeferred_limit hlimit)]
  · rwa [show body (.sidebandReply bytes) s = _ from (replyArrived_badCheck h hj).trans (attemptFailed_third hthird _)]
  · rwa [show body .sidebandNoReply s = _ from (noReply_attempt h).trans (attemptFailed_third hthird _)]

/-- Settles O44: the query's result, the sideband, and each item's delivery. -/
theorem transactionEndDeliversItsResult : Obligations.TransactionEndDeliversItsResult := by
  intro s x hw hx hphase c r data failed hend b polls
  let y : Txn := { x with failed := failed }
  refine answers_txnStep (attemptOf_some hx hphase) hend ?_
  refine ⟨fun n hn ht => txnStep_completed (x := y) hw hn ht r data,
    txnStep_sbe y r data s,
    fun w hitem hst hphase hstop =>
      (txnStep_standby (x := y) hitem r data hst hphase hstop).shown,
    fun hitem h => txnStep_standby_discarded (x := y) hitem r data h,
    fun hitem hr => txnStep_unread (x := y) hitem data hr,
    fun hitem hr he hs => ?_, fun hitem hr he hs => ?_, fun hitem ho h => ?_, fun hitem ho h => ?_,
    fun hitem ho h => txnStep_poll_inactive (x := y) hitem ho r data h,
    fun hitem ho => ?_, txnStep_others y r data s⟩
  · subst hr
    rw [txnStep_ident (x := y) hitem data he hs]
    exact ⟨rfl, rfl, rfl, rfl, rfl⟩
  · subst hr
    rw [txnStep_health (x := y) hitem data he hs]
    exact ⟨rfl, rfl⟩
  · rw [(txnStep_poll (x := y) hitem ho r data h).1]
    exact sensor_read _ r _ _
  · obtain ⟨-, hhot, hsheds⟩ := txnStep_poll (x := y) hitem ho r data h
    simp only [hotAfter_eq, decide_eq_true_eq] at hhot hsheds
    exact ⟨hhot, hsheds⟩
  · obtain ⟨hbmon, -, hthc⟩ := txnStep_undelivered (x := y) (r := r) (data := data)
      (deliverResult_query hitem (by rw [ho]; exact SbOrigin.noConfusion) r data)
    exact ⟨hbmon, hthc⟩

end Sys2Proof.Machine

/-! Settles the two orders that wait for the start of a zone period, ZONE MAP and CURVE SELECT (O50). -/

namespace Sys2Proof.Machine

variable {s : State}

/-! ### An order that becomes pending (R94, R111) -/

/-- THC's state becomes `x`, with the new order pending, and the slot of the older pending order completes
SUPERSEDED (R94, R111). -/
def supersede (older : Option SlotId) (x : Thc) (s : State) : State :=
  completeOpt older .superseded [] { s with thc := x }

@[simp] theorem supersede_thc (older : Option SlotId) (x : Thc) (s : State) : (supersede older x s).thc = x := by
  simp [supersede]

/-- The take of an order that becomes pending: only the older order's slot completes, so the new one's stays TAKEN. -/
theorem supersede_take {older : Option SlotId} {x : Thc} {n : SlotId} (hw : s.mem.wf = true) :
    let t := finishStep (supersede older x (takeSlot n s))
    (∀ o, older = some o → o ≠ n → (s.slot o).state = .taken →
      Completed t o .superseded (s.slot o).tag s.clock.uptime []) ∧
    (older ≠ some n → (t.slot n).state = .taken) ∧ t.thc = x := by
  refine ⟨?_, fun hne => ?_, by simp⟩
  · rintro o rfl hne ht
    have hslot : State.slot { takeSlot n s with thc := x } o = s.slot o := (slot_takeSlot n o s).trans (if_neg hne)
    have hdone := completed_complete (s := { takeSlot n s with thc := x }) hw (by rwa [hslot]) .superseded []
    rw [hslot] at hdone
    exact hdone.finishStep (complete_written o .superseded [] { takeSlot n s with thc := x } hw).wf
  · rw [slot_of_slots (finishStep_slots _), supersede, slot_completeOpt_other hne]
    exact congrArg Slot.state ((slot_takeSlot n n s).trans (if_pos rfl))

/-- An order refused at its take leaves THC, so the order pending before it stays pending. -/
theorem refused_take (n : SlotId) (hw : s.mem.wf = true) (d : List Byte) :
    let t := finishStep (complete n .badArg d (takeSlot n s))
    TakeCompleted s t n .badArg d ∧ t.thc = s.thc :=
  ⟨(take_answered n hw .badArg d).1, by simp⟩

/-! ### ZONE MAP (R94) -/

theorem badFanZone_none {n : SlotId} (h : ∀ f : FanId, (argByte s n f.val).toNat ≤ 3) : badFanZone s n = none := by
  unfold badFanZone
  rw [List.find?_eq_none]
  intro f _ hf
  exact absurd (of_decide_eq_true hf) (Nat.not_lt.mpr (h f))

/-- The fan named is the lowest-numbered one whose zone number is above 3 (R94). -/
theorem badFanZone_first {n : SlotId} {f : FanId} (hf : 3 < (argByte s n f.val).toNat)
    (hbefore : ∀ g, g < f → (argByte s n g.val).toNat ≤ 3) : badFanZone s n = some f := by
  unfold badFanZone fanZoneArg
  rw [List.find?_eq_some_iff_getElem]
  refine ⟨decide_eq_true hf, f.val, by simp, by simp, fun j hj => ?_⟩
  simpa using hbefore ⟨j, hj.trans f.isLt⟩ hj

theorem mapOrder_valid {n : SlotId} (h : ∀ f : FanId, (argByte s n f.val).toNat ≤ 3) :
    mapOrder n s = supersede (pendingMapSlot s.thc) { s.thc with pendingMap := some (mapOf s n) } s := by
  rw [mapOrder, badFanZone_none h, supersede]

theorem mapOrder_badZone {n : SlotId} {f : FanId} (hf : 3 < (argByte s n f.val).toNat)
    (hbefore : ∀ g, g < f → (argByte s n g.val).toNat ≤ 3) : mapOrder n s = complete n .badArg [byte f.val] s := by
  rw [mapOrder, badFanZone_first hf hbefore]

theorem pendingMapSlot_of_pending {x : Thc} {p : PendingMap} (h : x.pendingMap = some p) :
    pendingMapSlot x = p.slot := by
  rw [pendingMapSlot, h]

theorem answers_zoneMap {n : SlotId} {P : State → Prop} (h : takeKind .zoneMap s = some n)
    (hP : P (finishStep (mapOrder n (takeSlot n s)))) : Answers .zoneMap s P := by
  have hbody : body .zoneMap s = mapOrder n (takeSlot n s) := take_of_takeKind mapOrder h
  exact answers_of_body (hbody ▸ hP)

/-! ### CURVE SELECT (R111) -/

theorem Bank.ofCode_some {c : Byte} (h : c.toNat ≤ 1) : Bank.ofCode c = some (if c = 0 then .a else .b) := by
  unfold Bank.ofCode
  by_cases h0 : c = 0
  · rw [if_pos h0, if_pos h0]
  · have h1 : c = 1 := by bv_omega
    rw [if_neg h0, if_neg h0, if_pos h1]

theorem Bank.ofCode_none {c : Byte} (h : 2 ≤ c.toNat) : Bank.ofCode c = none := by
  have h0 : c ≠ 0 := by bv_omega
  have h1 : c ≠ 1 := by bv_omega
  rw [Bank.ofCode, if_neg h0, if_neg h1]

theorem selectOrder_valid {n : SlotId} (h : (argByte s n 0).toNat ≤ 1) :
    selectOrder n s = supersede (pendingSelectSlot s.thc)
      { s.thc with pendingSelect := some ⟨if argByte s n 0 = 0 then .a else .b, some n⟩ } s := by
  rw [selectOrder, Bank.ofCode_some h, supersede]

theorem selectOrder_badBank {n : SlotId} (h : 2 ≤ (argByte s n 0).toNat) :
    selectOrder n s = complete n .badArg [] s := by
  rw [selectOrder, Bank.ofCode_none h]

theorem pendingSelectSlot_of_pending {x : Thc} {p : PendingSelect} (h : x.pendingSelect = some p) :
    pendingSelectSlot x = p.slot := by
  rw [pendingSelectSlot, h]

theorem answers_curveSelect {n : SlotId} {P : State → Prop} (h : takeKind .curveSelect s = some n)
    (hP : P (finishStep (selectOrder n (takeSlot n s)))) : Answers .curveSelect s P := by
  have hbody : body .curveSelect s = selectOrder n (takeSlot n s) := take_of_takeKind selectOrder h
  exact answers_of_body (hbody ▸ hP)

/-- Settles O50: each order by its arguments, valid ones superseding the order pending before. -/
theorem mapAndSelectBecomePending : Obligations.MapAndSelectBecomePending := by
  constructor
  · intro s n ⟨⟨hw, _⟩, hk⟩ map
    refine answers_zoneMap hk ⟨fun hzones => ?_, fun f hf hbefore => ?_, by simp⟩
    · rw [mapOrder_valid (s := takeSlot n s) hzones]
      obtain ⟨hsuperseded, htaken, hthc⟩ := supersede_take (n := n) hw
      exact ⟨fun o p hp ho => hsuperseded o ((pendingMapSlot_of_pending hp).trans ho), htaken, hthc⟩
    · rw [mapOrder_badZone (s := takeSlot n s) hf hbefore]
      exact refused_take n hw _
  · intro s n ⟨⟨hw, _⟩, hk⟩
    refine answers_curveSelect hk ⟨fun hbank => ?_, fun hbank => ?_, by simp⟩
    · rw [selectOrder_valid (s := takeSlot n s) hbank]
      obtain ⟨hsuperseded, htaken, hthc⟩ := supersede_take (n := n) hw
      exact ⟨fun o p hp ho => hsuperseded o ((pendingSelectSlot_of_pending hp).trans ho), htaken, hthc⟩
    · rw [selectOrder_badBank (s := takeSlot n s) hbank]
      exact refused_take n hw _

end Sys2Proof.Machine

/-! Settles the ranges of the cooling side (O9). -/

namespace Sys2Proof.Machine

variable {s t : State}

/-- The ranges are those of THC and FANU, so they hold of every state with the same two blocks. -/
theorem CoolingInRange.of_blocks (h : CoolingInRange s) (hthc : t.thc = s.thc) (hfanu : t.fanu = s.fanu) :
    CoolingInRange t := ⟨hthc ▸ h.thc, hfanu ▸ h.fanu⟩

theorem thcInRange_reset : ThcInRange Thc.reset := by
  refine ⟨fun i v hv => ?_, fun i => ?_, fun z => ?_, nofun⟩
  · simp [Thc.reset] at hv
  · simp [Thc.reset]
  · rw [Thc.reset, getFin_replicate]
    exact ⟨by simp [ZoneRec.reset], le_rfl, le_rfl, le_rfl, le_rfl⟩

theorem fanInRange_reset : FanInRange FanRec.reset :=
  ⟨fun h => by simp [FanRec.reset] at h, fun h => by simp [FanRec.reset] at h, le_rfl, by decide, by decide, by decide⟩

theorem fanuInRange_reset : FanuInRange Fanu.reset := by
  refine ⟨fun f => ?_, fun z => ?_, fun z => ?_⟩
  · rw [Fanu.reset, getFin_replicate]
    exact fanInRange_reset
  · simp [Fanu.reset]
  · simp [Fanu.reset]

/-- The two resets either sample the presence inputs at the reset values or drop references to slots; EXP's other
commands touch neither THC nor FANU. -/
theorem CoolingInRange.portOwn {c : Instr} (h : CoolingInRange s) (hc : portOwn c = true) :
    CoolingInRange (body c s) := by
  by_cases hpower : c = .powerOnReset
  · subst hpower
    exact (powerOn_changes s).cooling ⟨thcInRange_reset, fanuInRange_reset⟩
  · by_cases hport : c = .portReset
    · subst hport
      exact ((portReset_changes s).cooling h).of_blocks rfl rfl
    · obtain ⟨_, _, _, hthc, hfanu, _⟩ := portOwn_keeps c s hc hpower hport
      exact h.of_blocks hthc hfanu

/-- Settles O9: every change a command's body is made of keeps the ranges, and so do the end of the step and EXP's
own commands. -/
theorem coolingStaysInRange : Obligations.CoolingStaysInRange :=
  step_keeps (fun _ _ h => h.of_blocks rfl rfl) (fun _ _ hst h => hst.cooling h)
    (fun s h => h.of_blocks (by simp) (by simp)) fun _ _ hc h => h.portOwn hc

end Sys2Proof.Machine

/-! SUPPORT. The zone period in its parts: what an admission leaves of THC, the pending map and select put in place, the
zones figured, and the hand-over to the fans. -/

namespace Sys2Proof.Machine

variable {s t : State}

/-! ### What an admission leaves of THC (R22, R85, R93) -/

/-- `y` is `x` but for the facts, the drive sensors and the preload-active flags. -/
structure ThcKept (x y : Thc) : Prop where
  rest : y = { x with facts := y.facts, sensors := y.sensors, zones := y.zones }
  boards : ∀ k : Fin 8, y.sensors[boardSensor k] = x.sensors[boardSensor k]
  zones : ∀ z : ZoneId, y.zones[z] = { x.zones[z] with preloadActive := y.zones[z].preloadActive }

theorem ThcKept.refl (x : Thc) : ThcKept x x := ⟨rfl, fun _ => rfl, fun _ => rfl⟩

theorem ThcKept.trans {x y w : Thc} (h : ThcKept x y) (h' : ThcKept y w) : ThcKept x w :=
  ⟨by rw [h'.rest, h.rest], fun k => (h'.boards k).trans (h.boards k), fun z => by rw [h'.zones z, h.zones z]⟩

theorem boardSensor_ne_driveSensor (k : Fin 8) (b : Bay) : boardSensor k ≠ driveSensor b := by
  simp only [boardSensor, driveSensor, ne_eq, Fin.mk.injEq]
  omega

theorem ThcKept.deactivated (x : Thc) (b : Bay) : ThcKept x (x.deactivated b) :=
  ⟨rfl, fun k => by rw [Thc.deactivated, getFin_set, if_neg (boardSensor_ne_driveSensor k b)], fun _ => rfl⟩

theorem ThcKept.setActiveFact (b : Bay) (on : Bool) (s : State) : ThcKept s.thc (setActiveFact b on s).thc := by
  unfold Machine.setActiveFact
  split_ifs
  · exact ThcKept.refl _
  · rw [setSensor_thc]
    exact ⟨rfl, fun _ => rfl, fun _ => rfl⟩
  · rw [setSensor_thc]
    exact ThcKept.deactivated _ b

theorem ThcKept.refreshPreload (x : Thc) (f : Vector DriveFacts 24) :
    ThcKept x { x with facts := f }.refreshPreload :=
  ⟨rfl, fun _ => rfl, fun z => by rw [Thc.refreshPreload, getFin_ofFn]⟩

theorem ThcKept.setStartingFact (b : Bay) (on : Bool) (s : State) : ThcKept s.thc (setStartingFact b on s).thc := by
  unfold Machine.setStartingFact
  split_ifs
  · exact ThcKept.refl _
  · exact ThcKept.refreshPreload _ _

theorem ThcKept.moveBay (b : Bay) (f : BayRec → BayRec) (s : State) : ThcKept s.thc (moveBay b f s).thc := by
  have hthermal : ∀ u : State, ThcKept u.thc (handThermal b u).thc := fun u =>
    (ThcKept.setActiveFact b _ u).trans (ThcKept.setStartingFact b _ _)
  have hturn := hthermal (turnBay b none f s)
  rw [(turnBay_keeps b none f s).2.2.1] at hturn
  simpa [Machine.moveBay, moveBayWith] using hturn

theorem ThcKept.report (b : Bay) (acts : BayRec → Bool) (f : BayRec → BayRec) (events : List HistEvent) (s : State) :
    ThcKept s.thc (report b acts f events s).thc := by
  have hpush := fun u : State => foldl_keeps State.thc (fun s ev => pushHistory b ev s) (by simp) events u
  unfold Machine.report
  split
  · rw [hpush]
    exact ThcKept.moveBay b f s
  · exact ThcKept.refl _

theorem ThcKept.attemptGood (b : Bay) (s : State) : ThcKept s.thc (attemptGood b s).thc := by
  unfold Machine.attemptGood
  split
  · exact ThcKept.refl _
  · exact ThcKept.report _ _ _ _ (updPath b _ s)

theorem ThcKept.attemptBegin (b : Bay) (s : State) : ThcKept s.thc (attemptBegin b s).thc := by
  unfold Machine.attemptBegin
  split
  · exact ThcKept.refl _
  · next l _ =>
    dsimp only
    split
    · exact ThcKept.attemptGood b (updPath b (fun p => p.begin l) s)
    · exact ThcKept.refl _

theorem ThcKept.admitEntry (e : QEntry) (s : State) : ThcKept s.thc (admitEntry e s).thc := by
  by_cases h : (s.bay e.bay).state = .queued
  · rw [admitEntry_eq h]
    have hreport := ThcKept.report e.bay (fun r => decide (r.state = .queued))
      (fun r => { r.enter .ramping with charge := some ⟨pairNow s e.bay, .inrush⟩ }) [.admitted e.cls]
      (admissionNoted s)
    rw [show (admissionNoted s).thc = s.thc by simp [admissionNoted]] at hreport
    exact hreport.trans (ThcKept.attemptBegin e.bay (admitted e s))
  · rw [Machine.admitEntry, if_neg h, (dropEntry_keeps e.bay s).2.2.2.1]
    exact ThcKept.refl _

theorem ThcKept.admitWhileFits (n : Nat) (s : State) : ThcKept s.thc (admitWhileFits n s).thc := by
  induction n generalizing s with
  | zero => exact ThcKept.refl _
  | succ n ih =>
    unfold Machine.admitWhileFits
    split
    · exact ThcKept.refl _
    · split
      · exact (ThcKept.admitEntry _ s).trans (ih _)
      · exact ThcKept.refl _

theorem ThcKept.evaluate (s : State) : ThcKept s.thc (evaluate s).thc := by
  rw [evaluate_eq, (updateBlocked_keeps _).2.2.2.1]
  exact ThcKept.admitWhileFits _ s

/-! ### The estimate delivered (R27, R37) -/

/-- The account with the estimate FANU hands over, before what it gives rise to. -/
def estimateNoted (n : Nat) (s : State) : State := updAccount (fun a => { a with fanEstimate := n }) s

theorem deliverEstimate_lower {n : Nat} (h : n < s.account.fanEstimate) :
    deliverEstimate n s = evaluate (estimateNoted n s) := if_pos h

/-- An estimate that does not fall admits no bay: the blocked reason may change, and nothing else (R37). -/
theorem deliverEstimate_not_lower {n : Nat} (h : s.account.fanEstimate ≤ n) :
    deliverEstimate n s = updateBlocked (estimateNoted n s) ∨ deliverEstimate n s = estimateNoted n s := by
  unfold deliverEstimate
  dsimp only
  rw [if_neg (Nat.not_lt.mpr h)]
  split
  · exact Or.inl rfl
  · exact Or.inr rfl

theorem estimateNoted_account (n : Nat) (s : State) :
    (estimateNoted n s).account = { s.account with fanEstimate := n } := by simp [estimateNoted, State.account]

theorem estimateNoted_baySame (n : Nat) (s : State) (b : Bay) : BaySame s (estimateNoted n s) b :=
  BaySame.of_bmon_paths (by simp [estimateNoted]) (by simp [estimateNoted]) b

theorem estimateNoted_thc (n : Nat) (s : State) : (estimateNoted n s).thc = s.thc := by simp [estimateNoted]

theorem ThcKept.deliverEstimate (n : Nat) (s : State) : ThcKept s.thc (deliverEstimate n s).thc := by
  rcases Nat.lt_or_ge n s.account.fanEstimate with h | h
  · rw [deliverEstimate_lower h]
    have hevaluated := ThcKept.evaluate (estimateNoted n s)
    rwa [estimateNoted_thc] at hevaluated
  · rcases deliverEstimate_not_lower h with he | he
    · rw [he, (updateBlocked_keeps _).2.2.2.1, estimateNoted_thc]
      exact ThcKept.refl _
    · rw [he, estimateNoted_thc]
      exact ThcKept.refl _

theorem deliverEstimate_fanEstimate (n : Nat) (s : State) : (deliverEstimate n s).account.fanEstimate = n := by
  have hnoted : (estimateNoted n s).account.fanEstimate = n := by rw [estimateNoted_account]
  rcases Nat.lt_or_ge n s.account.fanEstimate with h | h
  · rw [deliverEstimate_lower h, evaluate_fanEstimate, hnoted]
  · rcases deliverEstimate_not_lower h with he | he
    · rw [he, State.account, updateBlocked_pseq]
      exact hnoted
    · rw [he, hnoted]

/-- A lower estimate starts an evaluation, which ends with the candidate waiting (R27, R35). -/
theorem waiting_deliverEstimate {n : Nat} (h : n < s.account.fanEstimate) : Waiting (deliverEstimate n s) := by
  rw [deliverEstimate_lower h]
  exact waiting_evaluate _

theorem baySame_deliverEstimate {n : Nat} (h : s.account.fanEstimate ≤ n) (b : Bay) :
    BaySame s (deliverEstimate n s) b := by
  rcases deliverEstimate_not_lower h with he | he
  · rw [he]
    exact (estimateNoted_baySame n s b).trans (baySame_updateBlocked _ b)
  · rw [he]
    exact estimateNoted_baySame n s b

theorem deliverEstimate_othersKept (own : Bay → Prop) (n : Nat) (s : State) :
    OthersKept own s (deliverEstimate n s) := by
  rcases Nat.lt_or_ge n s.account.fanEstimate with h | h
  · rw [deliverEstimate_lower h]
    exact (Admissions.evaluate _).othersKept_of_same own (estimateNoted_baySame n s)
  · exact fun d _ => Or.inl (baySame_deliverEstimate h d)

/-! ### The pending map (R95) -/

/-- `y` is `x` but for the fitted flags, the reads in progress and the board sensors. -/
structure FitKept (x y : Thc) : Prop where
  rest : y = { x with fitted := y.fitted, reading := y.reading, sensors := y.sensors }
  drives : ∀ b : Bay, y.sensors[driveSensor b] = x.sensors[driveSensor b]

theorem FitKept.refl (x : Thc) : FitKept x x := ⟨rfl, fun _ => rfl⟩

theorem FitKept.trans {x y w : Thc} (h : FitKept x y) (h' : FitKept y w) : FitKept x w :=
  ⟨by rw [h'.rest, h.rest], fun b => (h'.drives b).trans (h.drives b)⟩

theorem FitKept.fit (x : Thc) (n : Fin 8) (on : Bool) : FitKept x (x.fit n on) := by
  unfold Thc.fit
  split
  · exact FitKept.refl x
  · exact ⟨rfl, fun b => by rw [getFin_set, if_neg (boardSensor_ne_driveSensor n b).symm]⟩

theorem fitted_fit (x : Thc) (n k : Fin 8) (on : Bool) :
    (x.fit n on).fitted[k] = if k = n then on else x.fitted[k] := by
  unfold Thc.fit
  split
  · next h =>
    split
    · next hk => rw [hk, h]
    · rfl
  · exact getFin_set _ _ _ _

/-- THC with the fitted flags of a list of board sensors taken from a map (R95). -/
def Thc.fitEach (x : Thc) (fitted : Byte) (l : List (Fin 8)) : Thc :=
  l.foldl (fun x n => x.fit n (fitted.getLsbD n.val)) x

theorem fitSensor_thc (fitted : Byte) (s : State) (n : Fin 8) :
    (fitSensor fitted s n).thc = s.thc.fit n (fitted.getLsbD n.val) := setSensor_thc _ _ _

theorem foldl_fitSensor_thc (fitted : Byte) (l : List (Fin 8)) (s : State) :
    (l.foldl (fitSensor fitted) s).thc = s.thc.fitEach fitted l :=
  (List.foldl_hom State.thc fun s n => (fitSensor_thc fitted s n).symm).symm

theorem FitKept.fitEach (fitted : Byte) (l : List (Fin 8)) (x : Thc) : FitKept x (x.fitEach fitted l) := by
  induction l generalizing x with
  | nil => exact FitKept.refl x
  | cons n rest ih => exact (FitKept.fit x n _).trans (ih _)

theorem fitted_fitEach (fitted : Byte) (l : List (Fin 8)) (x : Thc) (k : Fin 8) :
    (x.fitEach fitted l).fitted[k] = if k ∈ l then fitted.getLsbD k.val else x.fitted[k] := by
  induction l generalizing x with
  | nil => simp [Thc.fitEach]
  | cons n rest ih =>
    have hstep : x.fitEach fitted (n :: rest) = (x.fit n (fitted.getLsbD n.val)).fitEach fitted rest := rfl
    rw [hstep, ih, fitted_fit]
    by_cases hk : k = n
    · simp [hk]
    · simp [hk]

/-- A zone with a map put in place (R92, R93, R95). -/
def Thc.zoneMapped (x : Thc) (p : PendingMap) (z : ZoneId) : ZoneRec :=
  { x.zones[z] with
    sensors := p.sensors[z]
    failedCount := (List.finRange 8).countP fun f => x.failedFans[f] && decide (p.fanZone[f] = z)
    preloadActive := (List.finRange 24).any fun b => x.facts[b].starting && p.sensors[z].getLsbD b.val }

theorem applyMap_none (h : s.thc.pendingMap = none) : applyMap s = s := by
  unfold applyMap
  rw [h]

/-- The membership of a map taken over and its board sensors fitted (R95). -/
def mapFitted (p : PendingMap) (s : State) : State :=
  (List.finRange 8).foldl (fitSensor p.fitted) { s with thc := s.thc.mapped p }

/-- The state in which a map's order completes. -/
def mapPlaced (p : PendingMap) (s : State) : State :=
  markFailedCounts s.thc.zones { mapFitted p s with thc := (mapFitted p s).thc.refreshFailed.refreshPreload }

theorem applyMap_some {p : PendingMap} (h : s.thc.pendingMap = some p) :
    applyMap s = completeOpt p.slot .ok [] (mapPlaced p s) := by
  unfold applyMap
  rw [h]
  rfl

/-- What a map put in place leaves of THC `x` and what it writes (R92, R93, R95). -/
structure MapPlaced (p : PendingMap) (x y : Thc) : Prop where
  rest : y = { x with
    fitted := y.fitted, reading := y.reading, fanZone := p.fanZone, sensors := y.sensors, zones := y.zones
    pendingMap := none }
  drives : ∀ b : Bay, y.sensors[driveSensor b] = x.sensors[driveSensor b]
  fitted : ∀ k : Fin 8, y.fitted[k] = p.fitted.getLsbD k.val
  zones : ∀ z : ZoneId, y.zones[z] = x.zoneMapped p z

/-- The membership of a map with its board sensors fitted: the counts figured anew complete it (R92, R93). -/
theorem MapPlaced.of_fitted {p : PendingMap} {x y : Thc} (h : FitKept (x.mapped p) y)
    (hfitted : ∀ k : Fin 8, y.fitted[k] = p.fitted.getLsbD k.val) : MapPlaced p x y.refreshFailed.refreshPreload := by
  obtain ⟨hrest, hdrives⟩ := h
  refine ⟨?_, hdrives, hfitted, fun z => ?_⟩
  · rw [hrest]
    rfl
  · rw [hrest]
    simp only [Thc.refreshPreload, Thc.refreshFailed, Thc.mapped, getFin_ofFn, preloadOf, failedOf]
    rfl

theorem mapPlaced_thc (p : PendingMap) (s : State) : MapPlaced p s.thc (mapPlaced p s).thc := by
  have hfitted := fun k => (fitted_fitEach p.fitted (List.finRange 8) (s.thc.mapped p) k).trans
    (if_pos (List.mem_finRange k))
  have hplaced := MapPlaced.of_fitted (FitKept.fitEach p.fitted (List.finRange 8) (s.thc.mapped p)) hfitted
  have hthc : (mapFitted p s).thc = (s.thc.mapped p).fitEach p.fitted (List.finRange 8) := foldl_fitSensor_thc _ _ _
  rwa [mapPlaced, (markFailedCounts_keeps _ _).2.2.2.2.1, hthc]

theorem fitSensor_slots (fitted : Byte) (s : State) (n : Fin 8) :
    (fitSensor fitted s n).exp.slots = s.exp.slots :=
  (setSensor_slots _ _ _).trans (markIf_slots _ _ _ _)

theorem markFailedCounts_slots (before : Vector ZoneRec 4) (s : State) :
    (markFailedCounts before s).exp.slots = s.exp.slots := by
  unfold markFailedCounts
  refine foldl_keeps (fun s => s.exp.slots) _ (fun u z => ?_) _ s
  exact markIf_slots _ _ _ u

theorem mapFitted_keeps (p : PendingMap) (s : State) : (mapFitted p s).exp.slots = s.exp.slots ∧
    (mapFitted p s).mem = s.mem ∧ (mapFitted p s).clock = s.clock := by
  have hfold := foldl_keeps (fun s => (s.exp.slots, s.mem, s.clock)) (fitSensor p.fitted)
    (fun u n => by rw [fitSensor_slots]; simp) (List.finRange 8) { s with thc := s.thc.mapped p }
  rw [Prod.mk.injEq, Prod.mk.injEq] at hfold
  unfold mapFitted
  exact hfold

theorem mapPlaced_keeps (p : PendingMap) (s : State) : (mapPlaced p s).exp.slots = s.exp.slots ∧
    (mapPlaced p s).mem = s.mem ∧ (mapPlaced p s).clock = s.clock := by
  obtain ⟨hslots, hmem, hclock⟩ := mapFitted_keeps p s
  unfold mapPlaced
  refine ⟨?_, ?_, ?_⟩
  · rw [markFailedCounts_slots]
    dsimp only
    exact hslots
  · simpa using hmem
  · simpa using hclock

/-! ### The pending select (R109 to R113) -/

theorem applySelect_none (h : s.thc.pendingSelect = none) : applySelect s = s := by
  unfold applySelect
  rw [h]

/-- The state with no select pending. -/
def selectGone (s : State) : State := { s with thc := { s.thc with pendingSelect := none } }

theorem applySelect_accepted {p : PendingSelect} (h : s.thc.pendingSelect = some p)
    (hb : bankFault (readBank s.mem p.bank) = none) :
    applySelect s = acceptSelect p (readBank s.mem p.bank) (selectGone s) := by
  unfold applySelect
  rw [h]
  dsimp only
  rw [hb]
  rfl

theorem applySelect_refused {p : PendingSelect} {z : ZoneId} {f : CurveFault} (h : s.thc.pendingSelect = some p)
    (hb : bankFault (readBank s.mem p.bank) = some (z, f)) : applySelect s =
      completeOpt p.slot .badCurve [p.bank.code, 0, byte z.val, f.field, f.segment] (selectGone s) := by
  unfold applySelect
  rw [h]
  dsimp only
  rw [hb]
  rfl

/-- The state in which an accepted select's order completes (R112). -/
def bankPlaced (p : PendingSelect) (w : Vector CurveRec 4) (s : State) : State :=
  (List.finRange 4).foldl
    (fun u z => markIf (inFailsafe s.thc || decide (s.thc.bank ≠ some p.bank)) (.zone z) true u)
    { s with thc := s.thc.selected p.bank w }

theorem acceptSelect_eq (p : PendingSelect) (w : Vector CurveRec 4) (s : State) : acceptSelect p w s =
    completeOpt p.slot .ok [p.bank.code, byte (bit (inFailsafe s.thc))] (bankPlaced p w s) := rfl

theorem bankPlaced_keeps (p : PendingSelect) (w : Vector CurveRec 4) (s : State) :
    (bankPlaced p w s).thc = s.thc.selected p.bank w ∧ (bankPlaced p w s).exp.slots = s.exp.slots ∧
    (bankPlaced p w s).mem = s.mem ∧ (bankPlaced p w s).clock = s.clock := by
  have h := foldl_keeps (fun s : State => (s.thc, s.exp.slots, s.mem, s.clock))
    (fun u z => markIf (inFailsafe s.thc || decide (s.thc.bank ≠ some p.bank)) (.zone z) true u) (by simp)
    (List.finRange 4) { s with thc := s.thc.selected p.bank w }
  rw [Prod.mk.injEq, Prod.mk.injEq, Prod.mk.injEq] at h
  exact h

theorem acceptSelect_thc (p : PendingSelect) (w : Vector CurveRec 4) (s : State) :
    (acceptSelect p w s).thc = s.thc.selected p.bank w := by
  rw [acceptSelect_eq, (completeOpt_keeps _ _ _ _).2.2.2.2.1, (bankPlaced_keeps p w s).1]

/-- What a select put in place, or none, leaves of THC: all but the working copy, its bank and the failsafe flags. -/
structure SelectKept (x y : Thc) : Prop where
  rest : y = { x with pendingSelect := none, working := y.working, bank := y.bank, zones := y.zones }
  zones : ∀ z : ZoneId, y.zones[z] = { x.zones[z] with failsafe := y.zones[z].failsafe }

theorem SelectKept.applySelect (s : State) : SelectKept s.thc (applySelect s).thc := by
  cases h : s.thc.pendingSelect with
  | none =>
    rw [applySelect_none h]
    exact ⟨by rw [← h], fun _ => rfl⟩
  | some p =>
    cases hb : bankFault (readBank s.mem p.bank) with
    | none =>
      rw [applySelect_accepted h hb, acceptSelect_thc]
      exact ⟨rfl, fun z => by simp [Thc.selected, selectGone]⟩
    | some f =>
      rw [applySelect_refused h hb, (completeOpt_keeps _ _ _ _).2.2.2.2.1]
      exact ⟨rfl, fun _ => rfl⟩

/-! ### The period (R97) -/

/-- The period begun: its timer restarted (R97). -/
def periodBegun (s : State) : State := { s with thc := { s.thc with periodTimer := some zonePeriodMs } }

/-- The state the zones are figured in, the pending orders in place (R97). -/
def ordersPlaced (s : State) : State := applySelect (applyMap (periodBegun s))

/-- FANU's stored outputs, d3 and membership as THC hands them over (R108, R116). -/
def outputsStored (s : State) : State :=
  { s with fanu := { s.fanu with
      output := Vector.ofFn fun z => (s.zone z).output
      d3 := Vector.ofFn fun z => (s.zone z).d3
      member := s.thc.fanZone } }

/-- The zones figured and handed over, before any fan acts (R108). -/
def outputsHanded (s : State) : State := outputsStored (computeZones (ordersPlaced s))

/-- Every fan has acted on the hand-over (R119, R127). -/
def fansHanded (s : State) : State := (List.finRange 8).foldl handFan (outputsHanded s)

theorem zonePeriod_eq (s : State) : zonePeriod s = markFans (deliverFans (fansHanded s)) := rfl

/-- What a ZONE_PERIOD_START answers. -/
def periodStep (s : State) : State := finishStep (zonePeriod s)

theorem answers_zonePeriodStart {P : State → Prop} (h : P (periodStep s)) : Answers .zonePeriodStart s P :=
  answers_of_body h

/-! ### THC through the period -/

theorem computeZones_thc (s : State) :
    (computeZones s).thc = { s.thc with zones := Vector.ofFn fun z => periodZone s.thc z } := by
  unfold computeZones
  rw [foldl_keeps State.thc _ fun u z => (mark_keeps (.zone z) false u).2.2.2.2.1]

theorem fansHanded_thc (s : State) : (fansHanded s).thc = (computeZones (ordersPlaced s)).thc :=
  foldl_keeps State.thc handFan (fun u f => (handFan_keeps u f).2.2.2.2.1) _ (outputsHanded s)

theorem periodStep_thc (s : State) : (periodStep s).thc = (deliverFans (fansHanded s)).thc := by
  rw [periodStep, (finishStep_keeps _).2.2.2.2.1, zonePeriod_eq, (markFans_keeps _).2.2.2.2.1]

/-- THC at the end of the period is THC with its zones figured, but for what an admission hands it. -/
theorem thcKept_periodStep (s : State) : ThcKept (computeZones (ordersPlaced s)).thc (periodStep s).thc := by
  rw [periodStep_thc, ← fansHanded_thc]
  exact ThcKept.deliverEstimate _ _

/-- A zone at the end of the period, as figured at its start. -/
theorem zone_periodStep (s : State) (z : ZoneId) : (periodStep s).zone z =
    { periodZone (ordersPlaced s).thc z with preloadActive := ((periodStep s).zone z).preloadActive } := by
  have hz := (thcKept_periodStep s).zones z
  rw [computeZones_thc] at hz
  dsimp only at hz
  rwa [getFin_ofFn] at hz

/-- The fields an admission does not touch. -/
theorem thc_periodStep (s : State) : (periodStep s).thc = { (ordersPlaced s).thc with
    facts := (periodStep s).thc.facts, sensors := (periodStep s).thc.sensors, zones := (periodStep s).thc.zones } := by
  have h := (thcKept_periodStep s).rest
  rwa [computeZones_thc] at h

theorem working_periodStep (s : State) : (periodStep s).thc.working = (ordersPlaced s).thc.working := by
  rw [thc_periodStep]

theorem boards_periodStep (s : State) (k : Fin 8) :
    (periodStep s).thc.sensors[boardSensor k] = (ordersPlaced s).thc.sensors[boardSensor k] := by
  rw [(thcKept_periodStep s).boards k, computeZones_thc]

/-- Without a working copy every zone is held in failsafe (R98, R99). -/
theorem periodZone_held {x : Thc} (h : x.working = none) (z : ZoneId) : periodZone x z = holdZone x.zones[z] := by
  unfold periodZone
  rw [h]

theorem periodZone_computed {x : Thc} {w : Vector CurveRec 4} {z : ZoneId} (h : x.working = some w)
    (hf : (periodZone x z).failsafe = false) : periodZone x z = computeZone x w[z] z := by
  unfold periodZone at hf ⊢
  rw [h] at hf ⊢
  dsimp only at hf ⊢
  split_ifs at hf ⊢ with hfail
  · exact absurd (hfail.symm.trans hf) (by decide)
  · rfl

/-- The failsafe flag and the member sensors are the orders', not the computation's (R95, R99, R112). -/
theorem periodZone_keeps (x : Thc) (z : ZoneId) :
    (periodZone x z).failsafe = x.zones[z].failsafe ∧ (periodZone x z).sensors = x.zones[z].sensors := by
  unfold periodZone
  split
  · exact ⟨rfl, rfl⟩
  · split <;> exact ⟨rfl, rfl⟩

/-- A zone out of failsafe under a working copy has been computed from it (R101 to R107). -/
theorem zone_computed {w : Vector CurveRec 4} {z : ZoneId} (hw : (periodStep s).thc.working = some w)
    (hf : ((periodStep s).zone z).failsafe = false) : (periodStep s).zone z =
      { computeZone (ordersPlaced s).thc w[z] z with preloadActive := ((periodStep s).zone z).preloadActive } := by
  have hzone := zone_periodStep s z
  rw [working_periodStep] at hw
  rw [hzone] at hf
  dsimp only at hf
  rwa [periodZone_computed hw hf] at hzone

/-! ### The zones as the pending orders leave them -/

theorem ordersPlaced_select (s : State) : SelectKept (applyMap (periodBegun s)).thc (ordersPlaced s).thc :=
  SelectKept.applySelect _

theorem ordersPlaced_noMap (h : s.thc.pendingMap = none) : ordersPlaced s = applySelect (periodBegun s) := by
  rw [ordersPlaced, applyMap_none (s := periodBegun s) h]

theorem mapInPlace {p : PendingMap} (h : s.thc.pendingMap = some p) :
    MapPlaced p (periodBegun s).thc (applyMap (periodBegun s)).thc := by
  rw [applyMap_some (s := periodBegun s) h, (completeOpt_keeps _ _ _ _).2.2.2.2.1]
  exact mapPlaced_thc p _

/-- No map or select in place changes a zone's figures, so its output is that of the period before (R107). -/
theorem zone_noMap (h : s.thc.pendingMap = none) (z : ZoneId) : (ordersPlaced s).thc.zones[z] =
    { s.zone z with failsafe := ((ordersPlaced s).thc.zones[z]).failsafe } := by
  have hz := (ordersPlaced_select s).zones z
  rwa [applyMap_none (s := periodBegun s) h] at hz

theorem zone_mapped {p : PendingMap} (h : s.thc.pendingMap = some p) (z : ZoneId) : (ordersPlaced s).thc.zones[z] =
    { s.thc.zoneMapped p z with failsafe := ((ordersPlaced s).thc.zones[z]).failsafe } := by
  have hz := (ordersPlaced_select s).zones z
  rwa [(mapInPlace h).zones z] at hz

/-- The facts and drive sensors are read as they stood before the command. -/
theorem drives_ordersPlaced (s : State) (b : Bay) : (ordersPlaced s).thc.facts[b] = s.thc.facts[b] ∧
    (ordersPlaced s).thc.sensors[driveSensor b] = s.thc.sensors[driveSensor b] := by
  rw [(ordersPlaced_select s).rest]
  cases h : s.thc.pendingMap with
  | none =>
    rw [applyMap_none (s := periodBegun s) h]
    exact ⟨rfl, rfl⟩
  | some p =>
    have hplaced := mapInPlace h
    refine ⟨?_, hplaced.drives b⟩
    rw [hplaced.rest]
    rfl

end Sys2Proof.Machine

/-! Settles the zone computation: the excess (O46), segment and line (O47), and boost, preload and slew (O48). -/

namespace Sys2Proof.Machine

variable {s t : State}

/-! ### The state of a sensor (R85, R87) -/

theorem sensorState_drive (x : Thc) (b : Bay) :
    sensorState x (driveSensor b) = driveState x.facts[b].active x.sensors[driveSensor b] := dif_pos b.isLt

theorem sensorState_board (x : Thc) (k : Fin 8) :
    sensorState x (boardSensor k) = boardState x.fitted[k] x.sensors[boardSensor k] := by
  have hk : ¬ (boardSensor k).val < 24 := by simp [boardSensor]
  have hn : (⟨(boardSensor k).val - 24, by omega⟩ : Fin 8) = k := Fin.ext (by simp [boardSensor])
  rw [sensorState, dif_neg hk]
  congr

/-- A drive sensor is ABSENT out of ACTIVE, and else by its value and failures (R85). -/
theorem driveState_eq (active : Bool) (r : SensorRec) : driveState active r =
    if active = false then .absent
    else if r.value.isSome = true then if r.fails ≤ 2 then .valid else if r.fails ≤ 9 then .stale else .lost
    else if r.fails ≤ 2 then .absent else .lost := by
  cases active
  · rfl
  · cases h : r.value <;> simp [driveState, h]

/-- A board sensor is ABSENT where it is not fitted, and else by its value and failures (R87). -/
theorem boardState_eq (fitted : Bool) (r : SensorRec) : boardState fitted r =
    if fitted = false then .absent
    else if r.value.isSome = true then if r.fails ≤ 3 then .valid else if r.fails ≤ 39 then .stale else .lost
    else if r.fails ≤ 3 then .absent else .lost := by
  cases fitted
  · rfl
  · cases h : r.value <;> simp [boardState, h]

/-- A sensor is a drive sensor or a board sensor. -/
theorem sensor_cases (i : SensorId) : (∃ b : Bay, i = driveSensor b) ∨ ∃ k : Fin 8, i = boardSensor k := by
  by_cases h : i.val < 24
  · exact Or.inl ⟨⟨i.val, h⟩, rfl⟩
  · exact Or.inr ⟨⟨i.val - 24, by omega⟩, Fin.ext (by simp only [boardSensor]; omega)⟩

/-! ### The excess (R88, R101) -/

/-- A running maximum is an upper bound, and its start or one of the values. -/
theorem foldl_max_spec (l : List Int) (a : Int) :
    a ≤ l.foldl max a ∧ (∀ v ∈ l, v ≤ l.foldl max a) ∧ (l.foldl max a = a ∨ l.foldl max a ∈ l) := by
  induction l generalizing a with
  | nil => exact ⟨le_rfl, nofun, Or.inl rfl⟩
  | cons b rest ih =>
    obtain ⟨hstart, hbound, hvalue⟩ := ih (max a b)
    rw [List.foldl_cons]
    refine ⟨(le_max_left a b).trans hstart, fun v hv => ?_, ?_⟩
    · rcases List.mem_cons.mp hv with rfl | hv
      · exact (le_max_right a v).trans hstart
      · exact hbound v hv
    · rcases hvalue with hvalue | hvalue
      · rw [hvalue]
        rcases max_choice a b with h | h
        · exact Or.inl h
        · exact Or.inr (List.mem_cons.mpr (Or.inl h))
      · exact Or.inr (List.mem_cons_of_mem b hvalue)

/-- What the members of a zone contribute. -/
def contributions (x : Thc) (c : CurveRec) (z : ZoneId) : List Int :=
  ((List.finRange 32).filter fun i => x.zones[z].sensors.getLsbD i.val).filterMap (contribution x c)

theorem mem_contributions (x : Thc) (c : CurveRec) (z : ZoneId) (v : Int) : v ∈ contributions x c z ↔
    ∃ i : SensorId, x.zones[z].sensors.getLsbD i.val = true ∧ contribution x c i = some v := by
  simp [contributions]

/-- The excess is the largest contribution, clamped (R101). -/
theorem excessOf_spec (x : Thc) (c : CurveRec) (z : ZoneId) :
    excessOf x c z ≤ 1023 ∧ -1 ≤ excessOf x c z ∧
    (∀ i v, x.zones[z].sensors.getLsbD i.val = true → contribution x c i = some v → min v 1023 ≤ excessOf x c z) ∧
    (excessOf x c z = -1 ∨ ∃ i : SensorId, ∃ v, x.zones[z].sensors.getLsbD i.val = true ∧ contribution x c i = some v ∧
      excessOf x c z = min v 1023) := by
  have he : excessOf x c z = min 1023 ((contributions x c z).foldl max (-1)) := rfl
  obtain ⟨hstart, hbound, hvalue⟩ := foldl_max_spec (contributions x c z) (-1)
  rw [he]
  refine ⟨min_le_left _ _, by omega, fun i v hi hv => ?_, ?_⟩
  · have := hbound v ((mem_contributions x c z v).mpr ⟨i, hi, hv⟩)
    omega
  · rcases hvalue with hvalue | hvalue
    · exact Or.inl (by rw [hvalue]; rfl)
    · obtain ⟨i, hi, hv⟩ := (mem_contributions x c z _).mp hvalue
      exact Or.inr ⟨i, _, hi, hv, min_comm _ _⟩

/-- What a sensor contributes is read off its state and its value (R88). -/
theorem contribution_eq (x : Thc) (c : CurveRec) (i : SensorId) : contribution x c i =
    match sensorState x i, (x.sensors[i]).value with
    | .valid, some v => some (v - 4 * c.t0)
    | .stale, some v => some (v + c.staleMargin - 4 * c.t0)
    | .lost, _ => some 1023
    | _, _ => none := by
  unfold contribution
  cases sensorState x i <;> cases (x.sensors[i]).value <;> rfl

/-- The THC a sensor's reading shows in: before the command for a drive sensor, after it for a board sensor. -/
def readFrom (s : State) (i : SensorId) : Thc := if i.val < 24 then s.thc else (periodStep s).thc

/-- The computation reads a drive sensor as before the command and a board sensor as after it. -/
theorem sensor_read_at_period (s : State) (i : SensorId) :
    sensorState (ordersPlaced s).thc i = sensorState (readFrom s i) i ∧
    (ordersPlaced s).thc.sensors[i] = (readFrom s i).sensors[i] := by
  rcases sensor_cases i with ⟨b, rfl⟩ | ⟨k, rfl⟩
  · obtain ⟨hfacts, hsensor⟩ := drives_ordersPlaced s b
    rw [readFrom, if_pos (show (driveSensor b).val < 24 from b.isLt)]
    exact ⟨by rw [sensorState_drive, sensorState_drive, hfacts, hsensor], hsensor⟩
  · have hfitted : (periodStep s).thc.fitted = (ordersPlaced s).thc.fitted := by rw [thc_periodStep]
    rw [readFrom, if_neg (by simp [boardSensor])]
    exact ⟨by rw [sensorState_board, sensorState_board, hfitted, boards_periodStep], (boards_periodStep s k).symm⟩

/-- What a member contributes to the computation, as the sensors stand before and after the command (R88). -/
theorem contribution_at_period (s : State) (c : CurveRec) (i : SensorId) : contribution (ordersPlaced s).thc c i =
    match sensorState (readFrom s i) i, ((readFrom s i).sensors[i]).value with
    | .valid, some v => some (v - 4 * c.t0)
    | .stale, some v => some (v + c.staleMargin - 4 * c.t0)
    | .lost, _ => some 1023
    | _, _ => none := by
  obtain ⟨hstate, hsensor⟩ := sensor_read_at_period s i
  rw [contribution_eq, hstate, hsensor]

/-- Settles O46: the excess is the clamped maximum of the contributions, of sensors the period does not change. -/
theorem excessIsTheLargestContribution : Obligations.ExcessIsTheLargestContribution := by
  refine ⟨fun s => answers_zonePeriodStart fun w z hw hf => ?_, fun x i => ⟨?_, ?_⟩⟩
  · have hzone := zone_computed hw hf
    have hexcess : ((periodStep s).zone z).excess = excessOf (ordersPlaced s).thc w[z] z := by rw [hzone]; rfl
    have hsensors : ((periodStep s).zone z).sensors = (ordersPlaced s).thc.zones[z].sensors := by rw [hzone]; rfl
    obtain ⟨hle, hge, hbound, hvalue⟩ := excessOf_spec (ordersPlaced s).thc w[z] z
    simp only [contribution_at_period] at hbound hvalue
    dsimp only
    rw [hexcess, hsensors]
    exact ⟨hle, hge, hbound, hvalue⟩
  · intro b hb
    obtain rfl : i = driveSensor b := Fin.ext hb.symm
    rw [sensorState_drive, driveState_eq]
  · intro k hk
    obtain rfl : i = boardSensor k := Fin.ext hk.symm
    rw [sensorState_board, boardState_eq]

/-! ### Segment, line and clamp (R102 to R104) -/

/-- The segment of an excess is the last whose start offset does not exceed it (R102). -/
theorem segmentOf_last {c : CurveRec} {e : Int} {i : Fin 4} (hi : (c.segs[i].offset : Int) ≤ e)
    (hlast : ∀ k : Fin 4, i < k → e < (c.segs[k].offset : Int)) : segmentOf c e = c.segs[i] := by
  have hfind : ((List.finRange 4).reverse.find? fun k => decide ((c.segs[k].offset : Int) ≤ e)) = some i := by
    rw [List.find?_eq_some_iff_getElem]
    refine ⟨decide_eq_true hi, 3 - i.val, by simp; omega, Fin.ext (by simp; omega), fun j hj => ?_⟩
    have hget : (List.finRange 4).reverse[j]'(by simp; omega) = (⟨3 - j, by omega⟩ : Fin 4) := Fin.ext (by simp)
    have hlater : i < (⟨3 - j, by omega⟩ : Fin 4) := by
      rw [Fin.lt_def]
      show i.val < 3 - j
      omega
    rw [hget]
    simpa using hlast _ hlater
  exact congrArg (fun o : Option (Fin 4) => c.segs[o.getD 0]) hfind

theorem lineAt_eq {c : CurveRec} {e : Int} {g : Segment} (h : segmentOf c e = g) :
    lineAt c e = g.base + roundShift ((e - g.offset) * g.slope) g.shift := by
  rw [← h]
  rfl

theorem demandOne_floor (c : CurveRec) : demandOne c (-1) = c.floor ∧ clampActs c (-1) = false :=
  ⟨if_pos rfl, by simp [clampActs]⟩

/-- Off the floor the demand is the line clamped, and the flag shows that the clamp changed it (R104). -/
theorem demandOne_line {c : CurveRec} {e : Int} (h : e ≠ -1) :
    (demandOne c e : Int) = max (c.floor : Int) (min (c.ceiling : Int) (lineAt c e)) ∧
    clampActs c e = decide ((demandOne c e : Int) ≠ lineAt c e) := by
  refine ⟨?_, ?_⟩
  · rw [demandOne, if_neg h]
    exact Int.toNat_of_nonneg (le_max_of_le_left (Int.natCast_nonneg _))
  · simp [clampActs, h, eq_comm]

/-- Settles O47: the demand is the clamped line of the last segment at or below the excess. -/
theorem segmentAndLineGiveTheDemand : Obligations.SegmentAndLineGiveTheDemand := by
  refine fun s => answers_zonePeriodStart fun w z hw hf => ?_
  have hzone := zone_computed hw hf
  generalize (ordersPlaced s).thc = x at hzone
  have hexcess : ((periodStep s).zone z).excess = excessOf x w[z] z := by rw [hzone]; rfl
  have hd1 : ((periodStep s).zone z).d1 = demandOne w[z] (excessOf x w[z] z) := by rw [hzone]; rfl
  have hclamped : ((periodStep s).zone z).clamped = clampActs w[z] (excessOf x w[z] z) := by rw [hzone]; rfl
  dsimp only
  rw [hexcess, hd1, hclamped]
  refine ⟨fun he => ?_, fun i he hi hlast => ?_⟩
  · rw [he]
    exact demandOne_floor _
  · obtain ⟨hdemand, hflag⟩ := demandOne_line (c := w[z]) he
    rw [lineAt_eq (segmentOf_last hi hlast)] at hdemand hflag
    exact ⟨hdemand, hflag⟩

/-! ### Boost, preload and slew (R105 to R107) -/

/-- The failed-fan count the period computes with: that of a map put in place, or the zone's own (R92, R95). -/
def failedAtPeriod (s : State) (z : ZoneId) : Nat :=
  match s.thc.pendingMap with
  | none => (s.zone z).failedCount
  | some p => (List.finRange 8).countP fun f => s.thc.failedFans[f] && decide (p.fanZone[f] = z)

/-- The preload-active flag the period computes with (R93, R95). -/
def preloadAtPeriod (s : State) (z : ZoneId) : Bool :=
  match s.thc.pendingMap with
  | none => (s.zone z).preloadActive
  | some p => (List.finRange 24).any fun b => s.thc.facts[b].starting && p.sensors[z].getLsbD b.val

/-- What the computation finds in a zone's record: its previous output, and the count and flag of a map in place. -/
theorem zone_found (s : State) (z : ZoneId) : ((ordersPlaced s).thc.zones[z]).output = (s.zone z).output ∧
    ((ordersPlaced s).thc.zones[z]).failedCount = failedAtPeriod s z ∧
    ((ordersPlaced s).thc.zones[z]).preloadActive = preloadAtPeriod s z := by
  unfold failedAtPeriod preloadAtPeriod
  cases h : s.thc.pendingMap with
  | none =>
    rw [zone_noMap h]
    exact ⟨rfl, rfl, rfl⟩
  | some p =>
    rw [zone_mapped h]
    exact ⟨rfl, rfl, rfl⟩

/-- The slew: one rise or one fall from the previous output where the wanted one lies further away (R107). -/
theorem slew_spec (c : CurveRec) (prev d3 : Nat) :
    (c.rise + prev < d3 → slew c prev d3 = prev + c.rise) ∧ (d3 + c.fall < prev → slew c prev d3 = prev - c.fall) ∧
    (d3 ≤ c.rise + prev → prev ≤ d3 + c.fall → slew c prev d3 = d3) ∧
    min prev d3 ≤ slew c prev d3 ∧ slew c prev d3 ≤ max prev d3 ∧ slew c prev d3 ≤ prev + c.rise ∧
    prev ≤ slew c prev d3 + c.fall := by
  unfold slew
  split_ifs <;> omega

/-- Settles O48: a computed zone's figures, from the count, the flag and the output the period finds. -/
theorem boostPreloadAndSlewGiveTheOutput : Obligations.BoostPreloadAndSlewGiveTheOutput := by
  refine fun s => answers_zonePeriodStart fun w z hw hf => ?_
  have hzone := zone_computed hw hf
  obtain ⟨hprev, hfailed, hpreload⟩ := zone_found s z
  generalize (ordersPlaced s).thc = x at hzone hprev hfailed hpreload
  have hd2 : ((periodStep s).zone z).d2
      = min 1023 (((periodStep s).zone z).d1 + failedAtPeriod s z * w[z].boost) := by
    rw [← hfailed, hzone]
    rfl
  have hd3 : ((periodStep s).zone z).d3 = if preloadAtPeriod s z = true
      then max ((periodStep s).zone z).d2 w[z].preload else ((periodStep s).zone z).d2 := by
    rw [← hpreload, hzone]
    rfl
  have hout : ((periodStep s).zone z).output = slew w[z] (s.zone z).output ((periodStep s).zone z).d3 := by
    rw [← hprev, hzone]
    rfl
  refine ⟨hd2, fun hnone hd1 => ?_, hd3, ?_⟩
  · have hnone' : failedAtPeriod s z = 0 := hnone
    rw [hd2, hnone']
    omega
  · have hslew := slew_spec w[z] (s.zone z).output ((periodStep s).zone z).d3
    rwa [← hout] at hslew

end Sys2Proof.Machine

/-! Settles the zone period (O49): the fans at the hand-over, the orders put in place and completed, the tests of a
bank, and the estimate. -/

namespace Sys2Proof.Machine

variable {s t : State}

/-! ### One fan at a hand-over (R119, R127) -/

/-- `t` is `s` but for fan `f`; what THC handed FANU stands. -/
structure OnlyFan (f : FanId) (s t : State) : Prop where
  others : ∀ g, g ≠ f → t.fan g = s.fan g ∧ t.fanWork g = s.fanWork g
  output : t.fanu.output = s.fanu.output
  d3 : t.fanu.d3 = s.fanu.d3
  member : t.fanu.member = s.fanu.member

theorem OnlyFan.of_fanu (f : FanId) (h : t.fanu = s.fanu) : OnlyFan f s t := by
  refine ⟨fun g _ => ⟨?_, ?_⟩, by rw [h], by rw [h], by rw [h]⟩
  · rw [State.fan, h, State.fan]
  · rw [State.fanWork, h, State.fanWork]

theorem OnlyFan.trans {f : FanId} {u : State} (h : OnlyFan f s t) (h' : OnlyFan f t u) : OnlyFan f s u :=
  ⟨fun g hg => ⟨(h'.others g hg).1.trans (h.others g hg).1, (h'.others g hg).2.trans (h.others g hg).2⟩,
    h'.output.trans h.output, h'.d3.trans h.d3, h'.member.trans h.member⟩

/-- The stored output and d3 of each fan's zone stand. -/
theorem OnlyFan.stored {f : FanId} (h : OnlyFan f s t) (g : FanId) :
    zoneOutput t g = zoneOutput s g ∧ zoneD3 t g = zoneD3 s g := by
  simp only [zoneOutput, zoneD3, h.output, h.d3, h.member, and_self]

theorem fanWork_updFan (f g : FanId) (act : FanRec → FanRec) (s : State) :
    (updFan f act s).fanWork g = s.fanWork g := by
  rw [State.fanWork, updFan_fanu, State.fanWork]

theorem fan_updWork (f g : FanId) (act : FanWork → FanWork) (s : State) : (updWork f act s).fan g = s.fan g := rfl

theorem OnlyFan.updFan (f : FanId) (act : FanRec → FanRec) (s : State) : OnlyFan f s (updFan f act s) :=
  ⟨fun g hg => ⟨by rw [fan_updFan, if_neg hg], fanWork_updFan f g act s⟩, by simp, by simp, by simp⟩

theorem OnlyFan.updWork (f : FanId) (act : FanWork → FanWork) (s : State) : OnlyFan f s (updWork f act s) :=
  ⟨fun g hg => ⟨rfl, by rw [fanWork_updWork, if_neg hg]⟩, rfl, rfl, rfl⟩

theorem OnlyFan.zoneControl (f : FanId) (s : State) : OnlyFan f s (zoneControl f s) :=
  (OnlyFan.updFan f _ s).trans (OnlyFan.updWork f _ _)

theorem OnlyFan.stopLearn (f : FanId) (l : Learn) (r : Result) (s : State) : OnlyFan f s (stopLearn f l r s) :=
  ((OnlyFan.updWork f _ s).trans (OnlyFan.zoneControl f _)).trans
    (OnlyFan.of_fanu f (completeOpt_keeps _ _ _ _).2.2.2.2.2.1)

theorem fan_zoneControl (f : FanId) (s : State) : (zoneControl f s).fan f = (s.fan f).driven (zoneOutput s f) := by
  rw [Machine.zoneControl, fan_updWork, fan_updFan, if_pos rfl]

theorem learn_zoneControl (f : FanId) (s : State) : ((zoneControl f s).fanWork f).learn = (s.fanWork f).learn := by
  rw [Machine.zoneControl, fanWork_updWork, if_pos rfl, fanWork_updFan]
  split <;> rfl

/-- A learn that stops leaves the fan in zone control and no learn (R127). -/
theorem stopLearn_own (f : FanId) (l : Learn) (r : Result) (s : State) :
    (stopLearn f l r s).fan f = (s.fan f).driven (zoneOutput s f) ∧ ((stopLearn f l r s).fanWork f).learn = none := by
  have hfanu : (stopLearn f l r s).fanu = (zoneControl f (updWork f (fun w => { w with learn := none }) s)).fanu :=
    (completeOpt_keeps _ _ _ _).2.2.2.2.2.1
  refine ⟨?_, ?_⟩
  · rw [State.fan, hfanu]
    exact fan_zoneControl f _
  · rw [State.fanWork, hfanu]
    refine (learn_zoneControl f _).trans ?_
    rw [fanWork_updWork, if_pos rfl]

theorem handFan_stopped {f : FanId} (h : (s.fan f).state = .stopped) : handFan s f = zoneControl f s := by
  simp only [handFan, applyOutput, h]

theorem handFan_running {f : FanId} (h : (s.fan f).state = .running) :
    handFan s f = updFan f (fun r => r.driven (zoneOutput s f)) s := by
  simp only [handFan, applyOutput, h]

theorem handFan_idle {f : FanId}
    (h : (s.fan f).state = .stalled ∨ (s.fan f).state = .failed ∨ (s.fan f).state = .absent) : handFan s f = s := by
  rcases h with h | h | h <;> simp only [handFan, applyOutput, h]

theorem handFan_unlearned {f : FanId} (h : (s.fan f).state = .learning) (hl : (s.fanWork f).learn = none) :
    handFan s f = s := by
  simp only [handFan, applyOutput, h, hl]

theorem handFan_hot {f : FanId} {l : Learn} (h : (s.fan f).state = .learning) (hl : (s.fanWork f).learn = some l)
    (hd : 896 ≤ zoneD3 s f) : handFan s f = stopLearn f l .abortedHot s := by
  simp only [handFan, h, hl]
  exact if_pos hd

theorem handFan_cool {f : FanId} {l : Learn} (h : (s.fan f).state = .learning) (hl : (s.fanWork f).learn = some l)
    (hd : zoneD3 s f < 896) : handFan s f = s := by
  simp only [handFan, h, hl]
  exact if_neg (Nat.not_le.mpr hd)

theorem OnlyFan.handFan (f : FanId) (s : State) : OnlyFan f s (handFan s f) := by
  cases h : (s.fan f).state with
  | stopped => rw [handFan_stopped h]; exact OnlyFan.zoneControl f s
  | running => rw [handFan_running h]; exact OnlyFan.updFan f _ s
  | stalled => rw [handFan_idle (Or.inl h)]; exact OnlyFan.of_fanu f rfl
  | failed => rw [handFan_idle (Or.inr (Or.inl h))]; exact OnlyFan.of_fanu f rfl
  | absent => rw [handFan_idle (Or.inr (Or.inr h))]; exact OnlyFan.of_fanu f rfl
  | learning =>
    cases hl : (s.fanWork f).learn with
    | none => rw [handFan_unlearned h hl]; exact OnlyFan.of_fanu f rfl
    | some l =>
      rcases Nat.lt_or_ge (zoneD3 s f) 896 with hd | hd
      · rw [handFan_cool h hl hd]; exact OnlyFan.of_fanu f rfl
      · rw [handFan_hot h hl hd]; exact OnlyFan.stopLearn f l _ s

/-- What a hand-over of an output and a d3 makes of a fan's record and its learn (R119, R127). -/
structure FanHanded (output d3 : Nat) (r r' : FanRec) (w w' : FanWork) : Prop where
  driven : r.state = .stopped ∨ r.state = .running → r' = r.driven output
  kept : r.state = .stalled ∨ r.state = .failed ∨ r.state = .absent → r' = r
  hot : ∀ l, r.state = .learning → w.learn = some l → 896 ≤ d3 → w'.learn = none ∧ r' = r.driven output
  cool : ∀ l, r.state = .learning → w.learn = some l → d3 < 896 → r' = r ∧ w' = w

theorem handFan_handed (f : FanId) (s : State) : FanHanded (zoneOutput s f) (zoneD3 s f) (s.fan f)
    ((handFan s f).fan f) (s.fanWork f) ((handFan s f).fanWork f) := by
  refine ⟨fun h => ?_, fun h => by rw [handFan_idle h], fun l h hl hd => ?_, fun l h hl hd => ?_⟩
  · rcases h with h | h
    · rw [handFan_stopped h, fan_zoneControl]
    · rw [handFan_running h, fan_updFan, if_pos rfl]
  · rw [handFan_hot h hl hd]
    exact (stopLearn_own f l _ s).symm
  · rw [handFan_cool h hl hd]
    exact ⟨rfl, rfl⟩

/-! ### The eight fans, one after the other -/

/-- Fans of a list hand over one by one: each acts once, on its own, and the others stand. -/
theorem foldl_handFan (l : List FanId) (hl : l.Nodup) (s : State) :
    ((l.foldl handFan s).fanu.output = s.fanu.output ∧ (l.foldl handFan s).fanu.d3 = s.fanu.d3 ∧
      (l.foldl handFan s).fanu.member = s.fanu.member) ∧
    (∀ f, f ∉ l → (l.foldl handFan s).fan f = s.fan f ∧ (l.foldl handFan s).fanWork f = s.fanWork f) ∧
    (∀ f ∈ l, FanHanded (zoneOutput s f) (zoneD3 s f) (s.fan f) ((l.foldl handFan s).fan f) (s.fanWork f)
      ((l.foldl handFan s).fanWork f)) := by
  induction l generalizing s with
  | nil => exact ⟨⟨rfl, rfl, rfl⟩, fun _ _ => ⟨rfl, rfl⟩, nofun⟩
  | cons g rest ih =>
    obtain ⟨hg, hrest⟩ := List.nodup_cons.mp hl
    have hone := OnlyFan.handFan g s
    obtain ⟨⟨houtput, hd3, hmember⟩, hother, hown⟩ := ih hrest (handFan s g)
    rw [List.foldl_cons]
    refine ⟨⟨houtput.trans hone.output, hd3.trans hone.d3, hmember.trans hone.member⟩, fun f hf => ?_, fun f hf => ?_⟩
    · obtain ⟨hne, hnot⟩ := not_or.mp (mt List.mem_cons.mpr hf)
      exact ⟨(hother f hnot).1.trans (hone.others f hne).1, (hother f hnot).2.trans (hone.others f hne).2⟩
    · by_cases hfg : f = g
      · subst hfg
        rw [(hother f hg).1, (hother f hg).2]
        exact handFan_handed f s
      · have hhanded := hown f ((List.mem_cons.mp hf).resolve_left hfg)
        rwa [(hone.stored f).1, (hone.stored f).2, (hone.others f hfg).1, (hone.others f hfg).2] at hhanded

/-! ### FANU after the period -/

theorem periodStep_fanu (s : State) : (periodStep s).fanu = (fansHanded s).fanu := by
  rw [periodStep, (finishStep_keeps _).2.2.2.2.2.1, zonePeriod_eq, (markFans_keeps _).2.2.2.2.2.1,
    (deliverFans_keeps _).2.1]

theorem outputsStored_fans (s : State) (f : FanId) : (outputsStored s).fan f = s.fan f ∧
    (outputsStored s).fanWork f = s.fanWork f ∧ zoneOutput (outputsStored s) f = (s.zone s.thc.fanZone[f]).output ∧
    zoneD3 (outputsStored s) f = (s.zone s.thc.fanZone[f]).d3 :=
  ⟨rfl, rfl, getFin_ofFn _ _, getFin_ofFn _ _⟩

/-- The orders and the zones leave FANU (R97). -/
theorem zonesFigured_fanu (s : State) : (computeZones (ordersPlaced s)).fanu = s.fanu := by
  rw [(computeZones_keeps _).2.2.2.2.1, ordersPlaced, (applySelect_keeps _).2.2.2.2.1, (applyMap_keeps _).2.2.2.2.1,
    periodBegun]

/-- A zone's figures at the end of the period are those handed over (R108). -/
theorem zone_handed (s : State) (z : ZoneId) :
    ((periodStep s).zone z).output = ((computeZones (ordersPlaced s)).zone z).output ∧
    ((periodStep s).zone z).d3 = ((computeZones (ordersPlaced s)).zone z).d3 := by
  have hz : (periodStep s).zone z = { (computeZones (ordersPlaced s)).zone z with
      preloadActive := ((periodStep s).zone z).preloadActive } := (thcKept_periodStep s).zones z
  rw [hz]
  exact ⟨rfl, rfl⟩

theorem fanZone_handed (s : State) : (periodStep s).thc.fanZone = (computeZones (ordersPlaced s)).thc.fanZone := by
  rw [(thcKept_periodStep s).rest]

/-- FANU stores every zone's output and d3 and every fan's zone (R108, R116). -/
theorem fanu_stored (s : State) :
    (∀ z : ZoneId, (periodStep s).fanu.output[z] = ((periodStep s).zone z).output ∧
      (periodStep s).fanu.d3[z] = ((periodStep s).zone z).d3) ∧
    (periodStep s).fanu.member = (periodStep s).thc.fanZone := by
  obtain ⟨⟨houtput, hd3, hmember⟩, _⟩ := foldl_handFan (List.finRange 8) (List.nodup_finRange 8) (outputsHanded s)
  rw [periodStep_fanu, fansHanded, houtput, hd3, hmember, fanZone_handed]
  refine ⟨fun z => ?_, rfl⟩
  rw [(zone_handed s z).1, (zone_handed s z).2]
  exact ⟨getFin_ofFn _ z, getFin_ofFn _ z⟩

/-- Each fan takes the output and the d3 of its zone (R119, R127). -/
theorem fan_handed (s : State) (f : FanId) : FanHanded ((periodStep s).zone (periodStep s).thc.fanZone[f]).output
    ((periodStep s).zone (periodStep s).thc.fanZone[f]).d3 (s.fan f) ((periodStep s).fan f) (s.fanWork f)
    ((periodStep s).fanWork f) := by
  obtain ⟨_, _, hown⟩ := foldl_handFan (List.finRange 8) (List.nodup_finRange 8) (outputsHanded s)
  have hhanded := hown f (List.mem_finRange f)
  obtain ⟨hfan, hwork, houtput, hd3⟩ := outputsStored_fans (computeZones (ordersPlaced s)) f
  rw [← outputsHanded] at hfan hwork houtput hd3
  have hsame : (computeZones (ordersPlaced s)).fan f = s.fan f ∧
      (computeZones (ordersPlaced s)).fanWork f = s.fanWork f := by
    simp only [State.fan, State.fanWork, zonesFigured_fanu, and_self]
  have hdone : (periodStep s).fan f = (fansHanded s).fan f ∧ (periodStep s).fanWork f = (fansHanded s).fanWork f := by
    simp only [State.fan, State.fanWork, periodStep_fanu, and_self]
  rw [houtput, hd3, hfan, hwork, hsame.1, hsame.2, ← fansHanded, ← hdone.1, ← hdone.2] at hhanded
  rwa [(zone_handed s _).1, (zone_handed s _).2, fanZone_handed]

theorem FanRec.driven_eq (r : FanRec) (n : Nat) : (r.driven n).state = (if n = 0 then .stopped else .running) ∧
    (r.driven n).duty = (if n = 0 then 0 else max n r.learnedMin) ∧ (r.driven n).learnedMin = r.learnedMin := by
  unfold FanRec.driven
  split_ifs <;> exact ⟨rfl, rfl, rfl⟩

/-! ### The orders the period completes (R95, R112, R113) -/

/-- Completing a TAKEN slot in a state with the orders and the memory of the command's start. -/
theorem completed_completeOpt {o : Option SlotId} {n : SlotId} (hslots : t.exp.slots = s.exp.slots)
    (hmem : t.mem = s.mem) (hclock : t.clock = s.clock) (hw : s.mem.wf = true) (ho : o = some n)
    (ht : (s.slot n).state = .taken) (r : Result) (d : List Byte) :
    Completed (completeOpt o r d t) n r (s.slot n).tag s.clock.uptime d := by
  have hslot := slot_of_slots hslots n
  have hdone := completed_complete (s := t) (hmem ▸ hw) (hslot ▸ ht) r d
  rw [hslot, hclock] at hdone
  rw [ho]
  exact hdone

/-- A completion of the pending orders stays through the rest of the period (R156). -/
theorem completed_periodStep {n : SlotId} {r : Result} {tag : Half} {u : Word} {d : List Byte}
    (hw : s.mem.wf = true) (h : Completed (ordersPlaced s) n r tag u d) : Completed (periodStep s) n r tag u d := by
  have hwf : (ordersPlaced s).mem.wf = true :=
    ((Changes.refl (s := periodBegun s)).applyMap.applySelect.written hw).wf
  exact Changes.completed_finishStep (Changes.handOutputs (Changes.computeZones .refl)) hwf h

theorem map_completed {p : PendingMap} {n : SlotId} (hw : s.mem.wf = true) (hp : s.thc.pendingMap = some p)
    (hn : p.slot = some n) (ht : (s.slot n).state = .taken) :
    Completed (periodStep s) n .ok (s.slot n).tag s.clock.uptime [] := by
  obtain ⟨hslots, hmem, hclock⟩ := mapPlaced_keeps p (periodBegun s)
  have hdone := completed_completeOpt (s := s) hslots hmem hclock hw hn ht .ok []
  rw [← applyMap_some (s := periodBegun s) hp] at hdone
  have hwf : (applyMap (periodBegun s)).mem.wf = true := ((Changes.refl (s := periodBegun s)).applyMap.written hw).wf
  exact completed_periodStep hw (Changes.refl.applySelect.completed hwf hdone)

/-! ### The pending select at the period's start (R109 to R113) -/

/-- A bank is accepted where every record passes (R110). -/
theorem bankFault_none {w : Vector CurveRec 4} (h : ∀ z : ZoneId, curveFault w[z] = none) : bankFault w = none := by
  rw [bankFault, List.findSome?_eq_none_iff]
  intro z _
  rw [h z]
  rfl

/-- A bank is refused for the first zone whose record fails (R110). -/
theorem bankFault_first {w : Vector CurveRec 4} {z : ZoneId} {x : CurveFault} (h : curveFault w[z] = some x)
    (hbefore : ∀ y : ZoneId, y < z → curveFault w[y] = none) : bankFault w = some (z, x) := by
  have hlen : z.val < (List.finRange 4).length := by simp
  rw [bankFault, List.findSome?_eq_some_iff]
  refine ⟨(List.finRange 4).take z.val, z, (List.finRange 4).drop (z.val + 1), ?_, by rw [h]; rfl, fun y hy => ?_⟩
  · have hdrop := List.cons_getElem_drop_succ (h := hlen)
    rw [List.getElem_finRange] at hdrop
    have hz : Fin.cast (by simp) (⟨z.val, hlen⟩ : Fin _) = z := rfl
    rw [hz] at hdrop
    rw [hdrop, List.take_append_drop]
  · obtain ⟨j, hj, rfl⟩ := List.mem_take_iff_getElem.mp hy
    rw [hbefore _ (by rw [Fin.lt_def]; simp; omega)]
    rfl

theorem ordersPlaced_accepted {p : PendingSelect} (hm : s.thc.pendingMap = none) (hp : s.thc.pendingSelect = some p)
    (hb : bankFault (readBank s.mem p.bank) = none) : ordersPlaced s =
      acceptSelect p (readBank s.mem p.bank) (selectGone (periodBegun s)) := by
  rw [ordersPlaced_noMap hm]
  exact applySelect_accepted (s := periodBegun s) hp hb

theorem ordersPlaced_refused {p : PendingSelect} {z : ZoneId} {x : CurveFault} (hm : s.thc.pendingMap = none)
    (hp : s.thc.pendingSelect = some p) (hb : bankFault (readBank s.mem p.bank) = some (z, x)) : ordersPlaced s =
      completeOpt p.slot .badCurve [p.bank.code, 0, byte z.val, x.field, x.segment] (selectGone (periodBegun s)) := by
  rw [ordersPlaced_noMap hm]
  exact applySelect_refused (s := periodBegun s) hp hb

/-- The working copy, its bank and the failsafe flags are as the pending select leaves them. -/
theorem curves_periodStep (s : State) : (periodStep s).thc.working = (ordersPlaced s).thc.working ∧
    (periodStep s).thc.bank = (ordersPlaced s).thc.bank ∧
    ∀ z : ZoneId, ((periodStep s).zone z).failsafe = ((ordersPlaced s).thc.zones[z]).failsafe := by
  refine ⟨working_periodStep s, by rw [thc_periodStep], fun z => ?_⟩
  have hz := congrArg ZoneRec.failsafe (zone_periodStep s z)
  dsimp only at hz
  rw [hz, (periodZone_keeps _ z).1]

theorem inFailsafe_detail (x : Thc) :
    byte (bit (inFailsafe x)) = if ∃ z : ZoneId, x.zones[z].failsafe = true then 1 else 0 := by
  by_cases h : ∃ z : ZoneId, x.zones[z].failsafe = true
  · have hany : inFailsafe x = true := by simpa [inFailsafe] using h
    rw [hany, if_pos h]
    rfl
  · have hnone : inFailsafe x = false := by
      rw [← Bool.not_eq_true]
      simpa [inFailsafe] using h
    rw [hnone, if_neg h]
    rfl

/-- A bank that passes is in force, failsafe has ended, and the order is OK (R112). -/
theorem select_accepted {p : PendingSelect} (hw : s.mem.wf = true) (hm : s.thc.pendingMap = none)
    (hp : s.thc.pendingSelect = some p) (hb : ∀ z : ZoneId, curveFault (readBank s.mem p.bank)[z] = none) :
    (periodStep s).thc.working = some (readBank s.mem p.bank) ∧ (periodStep s).thc.bank = some p.bank ∧
    (∀ z, ((periodStep s).zone z).failsafe = false) ∧
    ∀ n, p.slot = some n → (s.slot n).state = .taken →
      Completed (periodStep s) n .ok (s.slot n).tag s.clock.uptime
        [p.bank.code, if ∃ z, (s.zone z).failsafe = true then 1 else 0] := by
  have hplaced := ordersPlaced_accepted hm hp (bankFault_none hb)
  have hthc : (ordersPlaced s).thc = (selectGone (periodBegun s)).thc.selected p.bank (readBank s.mem p.bank) := by
    rw [hplaced, acceptSelect_thc]
  obtain ⟨hworking, hbank, hfailsafe⟩ := curves_periodStep s
  rw [hthc] at hworking hbank hfailsafe
  refine ⟨hworking, hbank, fun z => ?_, fun n hn ht => completed_periodStep hw ?_⟩
  · rw [hfailsafe z, Thc.selected, getFin_ofFn]
  · obtain ⟨_, hslots, hmem, hclock⟩ := bankPlaced_keeps p (readBank s.mem p.bank) (selectGone (periodBegun s))
    rw [hplaced, acceptSelect_eq, inFailsafe_detail]
    exact completed_completeOpt (s := s) hslots hmem hclock hw hn ht .ok _

/-- A bank that fails leaves the curves in force, and the order names the first failure (R113). -/
theorem select_refused {p : PendingSelect} {z : ZoneId} {x : CurveFault} (hw : s.mem.wf = true)
    (hm : s.thc.pendingMap = none) (hp : s.thc.pendingSelect = some p)
    (hb : bankFault (readBank s.mem p.bank) = some (z, x)) :
    (periodStep s).thc.working = s.thc.working ∧ (periodStep s).thc.bank = s.thc.bank ∧
    (∀ y, ((periodStep s).zone y).failsafe = (s.zone y).failsafe) ∧
    ∀ n, p.slot = some n → (s.slot n).state = .taken →
      Completed (periodStep s) n .badCurve (s.slot n).tag s.clock.uptime
        [p.bank.code, 0, byte z.val, x.field, x.segment] := by
  have hplaced := ordersPlaced_refused hm hp hb
  have hthc : (ordersPlaced s).thc = (selectGone (periodBegun s)).thc := by
    rw [hplaced, (completeOpt_keeps _ _ _ _).2.2.2.2.1]
  obtain ⟨hworking, hbank, hfailsafe⟩ := curves_periodStep s
  rw [hthc] at hworking hbank hfailsafe
  refine ⟨hworking, hbank, hfailsafe, fun n hn ht => completed_periodStep hw ?_⟩
  rw [hplaced]
  exact completed_completeOpt (s := s) (t := selectGone (periodBegun s)) rfl rfl rfl hw hn ht .badCurve _

/-! ### The tests of a record (R110) -/

/-- The field of the first test that fails. -/
def firstFault (l : List (Bool × CurveFault)) : Option CurveFault := (l.find? fun t => !t.1).map Prod.snd

theorem firstFault_cons (P : Prop) [Decidable P] (f : CurveFault) (l : List (Bool × CurveFault)) :
    firstFault ((decide P, f) :: l) = if ¬ P then some f else firstFault l := by
  by_cases h : P <;> simp [firstFault, h]

/-- A test made of each of the four segments fails for the first segment that fails it. -/
theorem firstFault_segments (P : Fin 4 → Prop) [DecidablePred P] (f : Fin 4 → CurveFault)
    (l : List (Bool × CurveFault)) : firstFault (((List.finRange 4).map fun i => (decide (P i), f i)) ++ l) =
      match (List.finRange 4).find? fun i => decide (¬ P i) with
      | some i => some (f i)
      | none => firstFault l := by
  have hfind : ((List.finRange 4).map fun i => (decide (P i), f i)).find? (fun t => !t.1)
      = ((List.finRange 4).find? fun i => decide (¬ P i)).map fun i => (decide (P i), f i) := by
    simp [List.find?_map]
  rw [firstFault, List.find?_append, hfind]
  cases (List.finRange 4).find? fun i => decide (¬ P i) <;> rfl

/-- The tests of R110 in their order. -/
theorem curveFault_eq (c : CurveRec) :
    let o := fun i : Fin 4 => c.segs[i].offset
    let base := (List.finRange 4).find? fun i => decide (1023 < c.segs[i].base)
    let shift := (List.finRange 4).find? fun i => decide (15 < c.segs[i].shift)
    curveFault c =
      if o 0 ≠ 0 then some ⟨0, 0⟩ else if o 1 ≤ o 0 then some ⟨0, 1⟩ else if o 2 ≤ o 1 then some ⟨0, 2⟩
      else if o 3 ≤ o 2 then some ⟨0, 3⟩ else if 1023 < o 3 then some ⟨0, 3⟩
      else match base, shift with
        | some i, _ => some ⟨1, byte i.val⟩
        | none, some i => some ⟨2, byte i.val⟩
        | none, none =>
          if c.ceiling < c.floor then some ⟨3, 0xFF⟩ else if 1023 < c.ceiling then some ⟨4, 0xFF⟩
          else if 1023 < c.preload then some ⟨5, 0xFF⟩ else if 1023 < c.boost then some ⟨6, 0xFF⟩
          else if c.rise = 0 ∨ 1023 < c.rise then some ⟨7, 0xFF⟩ else if c.fall = 0 ∨ 1023 < c.fall then some ⟨8, 0xFF⟩
          else none := by
  have hfirst : curveFault c = firstFault (curveTests c) := rfl
  have hempty : firstFault [] = none := rfl
  rw [hfirst, curveTests]
  simp only [List.append_assoc, List.cons_append, List.nil_append, firstFault_cons, firstFault_segments, hempty]
  simp only [fullDuty, not_and_or, Nat.not_le, Nat.not_lt, Nat.lt_one_iff, ne_eq]
  cases (List.finRange 4).find? fun i => decide (1023 < c.segs[i].base) with
  | some i => rfl
  | none => cases (List.finRange 4).find? fun i => decide (15 < c.segs[i].shift) <;> rfl

/-! ### The estimate and the admissions it starts (R27, R130) -/

/-- Until the estimate is delivered the period changes neither PSEQ nor a bay. -/
theorem fansHanded_keeps (s : State) : (fansHanded s).pseq = s.pseq ∧ (fansHanded s).bmon = s.bmon := by
  have hfold := foldl_keeps (fun s : State => (s.pseq, s.bmon)) handFan (by simp) (List.finRange 8) (outputsHanded s)
  rw [Prod.mk.injEq] at hfold
  have hfigured : (computeZones (ordersPlaced s)).pseq = s.pseq ∧ (computeZones (ordersPlaced s)).bmon = s.bmon := by
    simp [ordersPlaced, periodBegun]
  exact ⟨hfold.1.trans hfigured.1, hfold.2.trans hfigured.2⟩

theorem baySame_fansHanded (s : State) (b : Bay) : BaySame s (fansHanded s) b :=
  BaySame.of_bmon_paths (fansHanded_keeps s).2 (by rw [(fansHanded_keeps s).1]) b

theorem account_fansHanded (s : State) : (fansHanded s).account = s.account :=
  account_of_pseq_eq (fansHanded_keeps s).1

/-- After the estimate is delivered the period changes neither PSEQ nor a bay. -/
theorem periodStep_delivered (s : State) : (periodStep s).pseq = (deliverFans (fansHanded s)).pseq ∧
    (periodStep s).bmon = (deliverFans (fansHanded s)).bmon := by
  simp [periodStep, zonePeriod_eq]

theorem baySame_periodStep (s : State) (b : Bay) : BaySame (deliverFans (fansHanded s)) (periodStep s) b :=
  BaySame.of_bmon_paths (periodStep_delivered s).2 (by rw [(periodStep_delivered s).1]) b

theorem estimate_eq (h : t.fanu = s.fanu) : estimate t = estimate s := by
  unfold estimate State.fan
  rw [h]

/-- E_fan is what the fans draw at the duties they have been given (R130). -/
theorem fanEstimate_periodStep (s : State) : (periodStep s).account.fanEstimate = estimate (periodStep s) := by
  rw [account_of_pseq_eq (periodStep_delivered s).1, estimate_eq (periodStep_fanu s)]
  exact deliverEstimate_fanEstimate _ _

/-- Whether the candidate waits is read off PSEQ and the bay records. -/
theorem Waiting.of_same (h : Waiting s) (hpseq : t.pseq = s.pseq) (hbmon : t.bmon = s.bmon) : Waiting t := by
  intro e he
  have hfits : fits t e.bay = fits s e.bay := by
    unfold fits staggerElapsed placeFree budgetFits pairNow
    rw [account_of_pseq_eq hpseq, bay_of_bmon_eq hbmon]
  rw [hpseq] at he
  exact hfits.trans (h e he)

/-- Where E_fan falls an evaluation is made, so the candidate waits (R27, R33). -/
theorem waiting_periodStep (h : (periodStep s).account.fanEstimate < s.account.fanEstimate) :
    Waiting (periodStep s) := by
  obtain ⟨hpseq, hbmon⟩ := periodStep_delivered s
  rw [fanEstimate_periodStep, estimate_eq (periodStep_fanu s), ← account_fansHanded s] at h
  exact (waiting_deliverEstimate h).of_same hpseq hbmon

theorem baySame_of_not_lower (h : s.account.fanEstimate ≤ (periodStep s).account.fanEstimate) (b : Bay) :
    BaySame s (periodStep s) b := by
  rw [fanEstimate_periodStep, estimate_eq (periodStep_fanu s), ← account_fansHanded s] at h
  exact ((baySame_fansHanded s b).trans (baySame_deliverEstimate h b)).trans (baySame_periodStep s b)

/-- A bay changes only by an admission the estimate's delivery starts (R33). -/
theorem othersKept_periodStep (s : State) : OthersKept (fun _ => False) s (periodStep s) :=
  ((deliverEstimate_othersKept _ _ _).after_baySame (baySame_fansHanded s)).of_same (baySame_periodStep s)

/-! ### The statement -/

/-- In failsafe for want of a working copy every zone stands at full duty (R98, R99). -/
theorem zone_held (hw : s.thc.working = none) (hp : s.thc.pendingSelect = none) (z : ZoneId) :
    ((periodStep s).zone z).excess = -1 ∧ ((periodStep s).zone z).d1 = 1023 ∧ ((periodStep s).zone z).d2 = 1023 ∧
    ((periodStep s).zone z).d3 = 1023 ∧ ((periodStep s).zone z).output = 1023 ∧
    ((periodStep s).zone z).clamped = false := by
  have hmap : (applyMap (periodBegun s)).thc.working = none ∧ (applyMap (periodBegun s)).thc.pendingSelect = none := by
    cases h : s.thc.pendingMap with
    | none =>
      rw [applyMap_none (s := periodBegun s) h]
      exact ⟨hw, hp⟩
    | some p =>
      rw [(mapInPlace h).rest]
      exact ⟨hw, hp⟩
  have hplaced : (ordersPlaced s).thc.working = none := by
    rw [ordersPlaced, applySelect_none hmap.2]
    exact hmap.1
  rw [zone_periodStep, periodZone_held hplaced]
  exact ⟨rfl, rfl, rfl, rfl, rfl, rfl⟩

/-- The period's timer and its pending orders (R95, R97, R109). -/
theorem orders_periodStep (s : State) : (periodStep s).thc.periodTimer = some 1000 ∧
    (periodStep s).thc.pendingMap = none ∧ (periodStep s).thc.pendingSelect = none := by
  rw [thc_periodStep, (ordersPlaced_select s).rest]
  cases h : s.thc.pendingMap with
  | none =>
    rw [applyMap_none (s := periodBegun s) h]
    exact ⟨rfl, h, rfl⟩
  | some p =>
    rw [(mapInPlace h).rest]
    exact ⟨rfl, rfl, rfl⟩

theorem membership_noMap (h : s.thc.pendingMap = none) :
    (periodStep s).thc.fanZone = s.thc.fanZone ∧ (periodStep s).thc.fitted = s.thc.fitted := by
  rw [thc_periodStep, (ordersPlaced_select s).rest, applyMap_none (s := periodBegun s) h]
  exact ⟨rfl, rfl⟩

/-- A pending map is in force (R95). -/
theorem membership_mapped {p : PendingMap} (h : s.thc.pendingMap = some p) :
    (periodStep s).thc.fanZone = p.fanZone ∧ (∀ z : ZoneId, ((periodStep s).zone z).sensors = p.sensors[z]) ∧
    ∀ k : Fin 8, (periodStep s).thc.fitted[k] = p.fitted.getLsbD k.val := by
  have hplaced := mapInPlace h
  refine ⟨?_, fun z => ?_, fun k => ?_⟩
  · rw [thc_periodStep, (ordersPlaced_select s).rest, hplaced.rest]
  · have hz := congrArg ZoneRec.sensors (zone_periodStep s z)
    dsimp only at hz
    rw [hz, (periodZone_keeps _ z).2, zone_mapped h]
    rfl
  · rw [thc_periodStep, (ordersPlaced_select s).rest]
    exact hplaced.fitted k

/-- Settles O49: the orders in place, the zones handed over, each fan on its own, then the estimate's delivery. -/
theorem periodPutsOrdersInPlaceAndDrivesTheFans : Obligations.PeriodPutsOrdersInPlaceAndDrivesTheFans := by
  refine ⟨fun s hw => answers_zonePeriodStart ?_, fun s p hw hm hp => answers_zonePeriodStart ?_, curveFault_eq,
    fun s => answers_zonePeriodStart ⟨fanEstimate_periodStep s, waiting_periodStep, baySame_of_not_lower⟩⟩
  · obtain ⟨htimer, hmap, hselect⟩ := orders_periodStep s
    obtain ⟨hstored, hmember⟩ := fanu_stored s
    refine ⟨htimer, zone_held, hstored, hmember, hmap, hselect, membership_noMap, fun p hp => ?_, fun f hf => ?_,
      fun f hf => (fan_handed s f).kept hf, fun f l hf hl => ⟨fun hd => ?_, (fan_handed s f).cool l hf hl⟩,
      othersKept_periodStep s, by simp [periodStep], by simp [periodStep]⟩
    · obtain ⟨hzone, hsensors, hfitted⟩ := membership_mapped hp
      exact ⟨hzone, hsensors, hfitted, fun n hn ht => map_completed hw hp hn ht⟩
    · obtain ⟨hstate, hduty, _⟩ := FanRec.driven_eq (s.fan f)
        ((periodStep s).zone (periodStep s).thc.fanZone[f]).output
      rw [(fan_handed s f).driven hf]
      exact ⟨hstate, hduty⟩
    · obtain ⟨hnone, hdriven⟩ := (fan_handed s f).hot l hf hl hd
      obtain ⟨hstate, _, hmin⟩ := FanRec.driven_eq (s.fan f)
        ((periodStep s).zone (periodStep s).thc.fanZone[f]).output
      rw [hdriven]
      exact ⟨hnone, hmin, hstate⟩
  · exact ⟨select_accepted hw hm hp, fun z x hx hbefore => select_refused hw hm hp (bankFault_first hx hbefore)⟩

end Sys2Proof.Machine

/-! SUPPORT. What FANU's operations write of one fan, and what a chain of them leaves: the other fans, the zones'
figures, the bays but for admissions, and the orders but for one. -/

namespace Sys2Proof.Machine

variable {f : FanId} {o : Option SlotId} {s t : State}

/-! ### One fan through the operations that deliver, complete or mark -/

theorem fan_of_fanu (h : t.fanu = s.fanu) (g : FanId) : t.fan g = s.fan g ∧ t.fanWork g = s.fanWork g := by
  simp only [State.fan, State.fanWork, h, and_self]

@[simp] theorem fan_deliverFans (s : State) (g : FanId) : (deliverFans s).fan g = s.fan g :=
  (fan_of_fanu (deliverFans_keeps s).2.1 g).1

@[simp] theorem fanWork_deliverFans (s : State) (g : FanId) : (deliverFans s).fanWork g = s.fanWork g :=
  (fan_of_fanu (deliverFans_keeps s).2.1 g).2

theorem deliverFailed_fanu (f : FanId) (x : Bool) (s : State) : (deliverFailed f x s).fanu = s.fanu := by simp

@[simp] theorem fan_deliverFailed (f g : FanId) (x : Bool) (s : State) : (deliverFailed f x s).fan g = s.fan g :=
  (fan_of_fanu (deliverFailed_fanu f x s) g).1

@[simp] theorem fanWork_deliverFailed (f g : FanId) (x : Bool) (s : State) :
    (deliverFailed f x s).fanWork g = s.fanWork g :=
  (fan_of_fanu (deliverFailed_fanu f x s) g).2

theorem completeOpt_fanu (o : Option SlotId) (r : Result) (d : List Byte) (s : State) :
    (completeOpt o r d s).fanu = s.fanu := by simp

@[simp] theorem fan_completeOpt (o : Option SlotId) (r : Result) (d : List Byte) (s : State) (g : FanId) :
    (completeOpt o r d s).fan g = s.fan g :=
  (fan_of_fanu (completeOpt_fanu o r d s) g).1

@[simp] theorem fanWork_completeOpt (o : Option SlotId) (r : Result) (d : List Byte) (s : State) (g : FanId) :
    (completeOpt o r d s).fanWork g = s.fanWork g :=
  (fan_of_fanu (completeOpt_fanu o r d s) g).2

theorem leftFailed_fanu (f : FanId) (x : FanState) (s : State) : (leftFailed f x s).fanu = s.fanu := by simp

@[simp] theorem fan_leftFailed (f g : FanId) (x : FanState) (s : State) : (leftFailed f x s).fan g = s.fan g :=
  (fan_of_fanu (leftFailed_fanu f x s) g).1

/-- The counts of a fan whose zone's output is applied: an entry to RUNNING begins the low gates again (R119). -/
theorem fanWork_zoneControl (f : FanId) (s : State) : (zoneControl f s).fanWork f =
    if zoneOutput s f = 0 then s.fanWork f else { s.fanWork f with lowGates := 0 } := by
  rw [zoneControl, fanWork_updWork, if_pos rfl, fanWork_updFan]

/-- What a drive at an output leaves of a fan's record (R118, R119). -/
@[simp] theorem FanRec.driven_rest (r : FanRec) (n : Nat) : (r.driven n).installed = r.installed ∧
    (r.driven n).ppr = r.ppr ∧ (r.driven n).maxUnits = r.maxUnits ∧ (r.driven n).threshold = r.threshold ∧
    (r.driven n).learnedMin = r.learnedMin ∧ (r.driven n).fullSpeed = r.fullSpeed ∧ (r.driven n).table = r.table ∧
    (r.driven n).learnMask = r.learnMask ∧ (r.driven n).kicks = r.kicks := by
  unfold FanRec.driven
  split <;> exact ⟨rfl, rfl, rfl, rfl, rfl, rfl, rfl, rfl, rfl⟩

/-! ### The failed set and the zones' figures (R92) -/

theorem deliverFailed_thc (f : FanId) (x : Bool) (s : State) : (deliverFailed f x s).thc =
    { s.thc with failedFans := s.thc.failedFans.set f x }.refreshFailed :=
  (markFailedCounts_keeps _ _).2.2.2.2.1

theorem failedFans_deliverFailed (f g : FanId) (x : Bool) (s : State) :
    (deliverFailed f x s).thc.failedFans[g] = if g = f then x else s.thc.failedFans[g] := by
  rw [deliverFailed_thc]
  exact getFin_set _ _ _ _

theorem zone_deliverFailed (f : FanId) (x : Bool) (s : State) (z : ZoneId) :
    ((deliverFailed f x s).zone z).output = (s.zone z).output ∧ ((deliverFailed f x s).zone z).d3 = (s.zone z).d3 := by
  simp only [State.zone, deliverFailed_thc, Thc.refreshFailed, getFin_ofFn, and_self]

theorem thcKept_deliverFans (s : State) : ThcKept s.thc (deliverFans s).thc := ThcKept.deliverEstimate _ s

@[simp] theorem failedFans_deliverFans (s : State) : (deliverFans s).thc.failedFans = s.thc.failedFans := by
  rw [(thcKept_deliverFans s).rest]

theorem zone_deliverFans (s : State) (z : ZoneId) :
    ((deliverFans s).zone z).output = (s.zone z).output ∧ ((deliverFans s).zone z).d3 = (s.zone z).d3 := by
  have hz : (deliverFans s).zone z = { s.zone z with preloadActive := ((deliverFans s).zone z).preloadActive } :=
    (thcKept_deliverFans s).zones z
  rw [hz]
  exact ⟨rfl, rfl⟩

/-! ### The slots and the bays -/

theorem updFan_slots (f : FanId) (g : FanRec → FanRec) (s : State) : (updFan f g s).exp.slots = s.exp.slots :=
  markIf_slots _ _ _ _

theorem deliverFailed_slots (f : FanId) (x : Bool) (s : State) : (deliverFailed f x s).exp.slots = s.exp.slots := by
  unfold deliverFailed
  rw [markFailedCounts_slots]

theorem estimateNoted_slots (n : Nat) (s : State) : (estimateNoted n s).exp.slots = s.exp.slots :=
  updAccount_slots _ s

theorem deliverEstimate_slots (n : Nat) (s : State) : (deliverEstimate n s).exp.slots = s.exp.slots := by
  rcases Nat.lt_or_ge n s.account.fanEstimate with h | h
  · rw [deliverEstimate_lower h, (Admissions.evaluate _).slots, estimateNoted_slots]
  · rcases deliverEstimate_not_lower h with he | he
    · rw [he, (Admissions.updateBlocked _).slots, estimateNoted_slots]
    · rw [he, estimateNoted_slots]

theorem OthersKept.refl (own : Bay → Prop) (s : State) : OthersKept own s s := fun _ _ => Or.inl ⟨rfl, rfl⟩

/-- A bay admitted once is not QUEUED any more, so a later evaluation leaves it (R30, R36). -/
theorem OthersKept.trans {own : Bay → Prop} {u : State} (h : OthersKept own s t) (h' : OthersKept own t u) :
    OthersKept own s u := by
  intro d hd
  rcases h' d hd with hsame | ⟨hq, hst, hkept⟩
  · rcases h d hd with hbefore | ⟨hq, hst, hkept⟩
    · exact Or.inl (hbefore.trans hsame)
    · exact Or.inr ⟨hq, hsame.1 ▸ hst, hsame.1 ▸ hkept⟩
  · rcases h d hd with hbefore | ⟨_, hstarts, _⟩
    · exact Or.inr ⟨hbefore.1 ▸ hq, hst, hbefore.1 ▸ hkept⟩
    · rw [hq] at hstarts
      cases hstarts

theorem baySame_of_blocks (hbmon : t.bmon = s.bmon) (hpseq : t.pseq = s.pseq) (b : Bay) : BaySame s t b :=
  BaySame.of_bmon_paths hbmon (by rw [hpseq]) b

/-! ### A chain of operations on one fan -/

/-- What the tach gate read (R117). -/
def FanRec.reading (r : FanRec) : Nat × Bool × Nat := (r.lastCount, r.saturated, r.rpm)

theorem FanRec.driven_reading (r : FanRec) (n : Nat) : (r.driven n).reading = r.reading := by
  unfold FanRec.driven
  split <;> rfl

/-- `t` is `s` after FANU has acted on fan `f`: the other fans, the readings and the zones' figures stand, a bay
changes by an admission alone, and no slot but `o` completes. -/
structure FanActs (f : FanId) (o : Option SlotId) (s t : State) : Prop where
  fans : OnlyFan f s t
  timer : t.fanu.gateTimer = s.fanu.gateTimer
  reading : (t.fan f).reading = (s.fan f).reading
  edges : (t.fanWork f).edges = (s.fanWork f).edges
  failed : ∀ g : FanId, g ≠ f → t.thc.failedFans[g] = s.thc.failedFans[g]
  zones : ∀ z, (t.zone z).output = (s.zone z).output ∧ (t.zone z).d3 = (s.zone z).d3
  bays : OthersKept (fun _ => False) s t
  slots : ∀ n, o ≠ some n → t.slot n = s.slot n

theorem FanActs.refl (f : FanId) (o : Option SlotId) (s : State) : FanActs f o s s :=
  ⟨OnlyFan.of_fanu f rfl, rfl, rfl, rfl, fun _ _ => rfl, fun _ => ⟨rfl, rfl⟩, OthersKept.refl _ s, fun _ _ => rfl⟩

theorem FanActs.trans {u : State} (h : FanActs f o s t) (h' : FanActs f o t u) : FanActs f o s u :=
  ⟨h.fans.trans h'.fans, h'.timer.trans h.timer, h'.reading.trans h.reading, h'.edges.trans h.edges,
    fun g hg => (h'.failed g hg).trans (h.failed g hg),
    fun z => ⟨(h'.zones z).1.trans (h.zones z).1, (h'.zones z).2.trans (h.zones z).2⟩,
    h.bays.trans h'.bays, fun n hn => (h'.slots n hn).trans (h.slots n hn)⟩

/-- A change of fan `f` alone that keeps its reading. -/
theorem FanActs.of_onlyFan (hfans : OnlyFan f s t) (htimer : t.fanu.gateTimer = s.fanu.gateTimer)
    (hreading : (t.fan f).reading = (s.fan f).reading) (hedges : (t.fanWork f).edges = (s.fanWork f).edges)
    (hthc : t.thc = s.thc) (hbmon : t.bmon = s.bmon) (hpseq : t.pseq = s.pseq)
    (hslots : t.exp.slots = s.exp.slots) : FanActs f o s t :=
  ⟨hfans, htimer, hreading, hedges, fun _ _ => by rw [hthc],
    fun z => by rw [State.zone, State.zone, hthc]; exact ⟨rfl, rfl⟩,
    fun b _ => Or.inl (baySame_of_blocks hbmon hpseq b), fun n _ => slot_of_slots hslots n⟩

/-- An operation that leaves FANU. -/
theorem FanActs.of_fanu (hfanu : t.fanu = s.fanu)
    (hfailed : ∀ g : FanId, g ≠ f → t.thc.failedFans[g] = s.thc.failedFans[g])
    (hzones : ∀ z, (t.zone z).output = (s.zone z).output ∧ (t.zone z).d3 = (s.zone z).d3)
    (hbays : OthersKept (fun _ => False) s t) (hslots : ∀ n, o ≠ some n → t.slot n = s.slot n) : FanActs f o s t :=
  ⟨OnlyFan.of_fanu f hfanu, by rw [hfanu], by rw [(fan_of_fanu hfanu f).1], by rw [(fan_of_fanu hfanu f).2], hfailed,
    hzones, hbays, hslots⟩

theorem FanActs.updFan (h : FanActs f o s t) {g : FanRec → FanRec}
    (hg : ∀ r, (g r).reading = r.reading := by exact fun _ => rfl) :
    FanActs f o s (updFan f g t) :=
  h.trans (FanActs.of_onlyFan (OnlyFan.updFan f g t) (by simp) (by rw [fan_updFan, if_pos rfl, hg])
    (by rw [fanWork_updFan]) (by simp) (by simp) (by simp) (updFan_slots f g t))

theorem FanActs.updWork (h : FanActs f o s t) {g : FanWork → FanWork}
    (hg : ∀ w, (g w).edges = w.edges := by exact fun _ => rfl) :
    FanActs f o s (updWork f g t) :=
  h.trans (FanActs.of_onlyFan (OnlyFan.updWork f g t) rfl rfl (by rw [fanWork_updWork, if_pos rfl, hg]) rfl rfl rfl rfl)

theorem FanActs.mark (h : FanActs f o s t) (r : MirrorRec) (n : Bool) : FanActs f o s (mark r n t) :=
  h.trans (FanActs.of_onlyFan (OnlyFan.of_fanu f rfl) rfl rfl rfl rfl rfl rfl rfl)

theorem FanActs.deliverFailed (h : FanActs f o s t) (x : Bool) : FanActs f o s (deliverFailed f x t) :=
  h.trans (FanActs.of_fanu (deliverFailed_fanu f x t)
    (fun g hg => by rw [failedFans_deliverFailed, if_neg hg]) (zone_deliverFailed f x t)
    (fun b _ => Or.inl (baySame_of_blocks (by simp) (by simp) b)) fun n _ => slot_of_slots (deliverFailed_slots f x t) n)

theorem FanActs.deliverFans (h : FanActs f o s t) : FanActs f o s (deliverFans t) :=
  h.trans (FanActs.of_fanu (deliverFans_keeps t).2.1 (fun _ _ => by rw [failedFans_deliverFans]) (zone_deliverFans t)
    (deliverEstimate_othersKept _ _ t) fun n _ => slot_of_slots (deliverEstimate_slots _ t) n)

theorem FanActs.completeOpt (h : FanActs f o s t) (r : Result) (d : List Byte) :
    FanActs f o s (completeOpt o r d t) :=
  h.trans (FanActs.of_fanu (completeOpt_fanu o r d t) (fun _ _ => by simp) (fun z => by simp [State.zone])
    (fun b _ => Or.inl (baySame_of_blocks (by simp) (by simp) b)) fun n hn => slot_completeOpt_other hn r d t)

theorem FanActs.complete (n : SlotId) (r : Result) (d : List Byte) (s : State) :
    FanActs f (some n) s (complete n r d s) :=
  (FanActs.refl f (some n) s).completeOpt r d

theorem FanActs.zoneControl (h : FanActs f o s t) : FanActs f o s (zoneControl f t) :=
  (h.updFan fun r => r.driven_reading _).updWork fun _ => by split <;> rfl

theorem FanActs.leftFailed (h : FanActs f o s t) (x : FanState) : FanActs f o s (leftFailed f x t) := by
  unfold Machine.leftFailed
  split
  · exact h.deliverFailed false
  · exact h

theorem FanActs.enterFailed (h : FanActs f o s t) : FanActs f o s (enterFailed f t) := by
  unfold Machine.enterFailed
  exact h.updFan.updWork.deliverFailed true

theorem FanActs.visitLevel (h : FanActs f o s t) (l : Learn) (n : Fin 8) : FanActs f o s (visitLevel f l n t) := by
  unfold Machine.visitLevel
  exact h.updWork.updFan.deliverFans

/-! ### The estimate (R27, R130) -/

/-- E_fan is what the fans draw at their present duties (R130). -/
def Drawn (s : State) : Prop := s.account.fanEstimate = estimate s

theorem drawn_deliverFans (s : State) : Drawn (deliverFans s) := by
  rw [Drawn, estimate_eq (deliverFans_keeps s).2.1]
  exact deliverEstimate_fanEstimate _ s

theorem Drawn.of_same (h : Drawn s) (hpseq : t.pseq = s.pseq) (hfans : ∀ g, fanUnits (t.fan g) = fanUnits (s.fan g)) :
    Drawn t := by
  rw [Drawn, account_of_pseq_eq hpseq, h, estimate, estimate]
  simp only [hfans]

/-- The end of a step that closes with the estimate's delivery: E_fan is the fans' draw, an evaluation has been made
where it fell, and no bay has changed where it did not (R27, R33). -/
theorem delivered_answer (hpseq : t.pseq = s.pseq) (hbmon : t.bmon = s.bmon) :
    let u := finishStep (deliverFans t)
    u.account.fanEstimate = estimate u ∧ (u.account.fanEstimate < s.account.fanEstimate → Waiting u) ∧
    (s.account.fanEstimate ≤ u.account.fanEstimate → ∀ b, BaySame s u b) := by
  have hfanu : (finishStep (deliverFans t)).fanu = (deliverFans t).fanu := by simp
  have hunits : (finishStep (deliverFans t)).account.fanEstimate = estimate t :=
    (congrArg Account.fanEstimate (finishStep_account _)).trans (deliverEstimate_fanEstimate _ t)
  dsimp only
  rw [hunits, ← account_of_pseq_eq hpseq]
  refine ⟨((estimate_eq hfanu).trans (estimate_eq (deliverFans_keeps t).2.1)).symm, fun h => ?_, fun h b => ?_⟩
  · exact (waiting_deliverEstimate h).of_same (finishStep_pseq _) (by simp [deliverFans])
  · exact ((baySame_of_blocks hbmon hpseq b).trans (baySame_deliverEstimate h b)).trans (baySame_finishStep _ b)

end Sys2Proof.Machine

/-! Settles FAN LEARN (O53) and FAN CONFIG (O52). -/

namespace Sys2Proof.Machine

variable {f : FanId} {n : SlotId} {s t : State}

/-! ### The fan an order names (R123, R124) -/

theorem fanOf_val (f : FanId) {c : Byte} (h : f.val = c.toNat) : fanOf c = some f := by
  have hlt : c.toNat < 8 := h ▸ f.isLt
  unfold fanOf
  rw [dif_pos hlt, Option.some.injEq, Fin.ext_iff]
  exact h.symm

theorem fanOf_none {c : Byte} (h : 8 ≤ c.toNat) : fanOf c = none := dif_neg (Nat.not_lt.mpr h)

/-- A fan number above 7 is refused with no fan changed, or the order acts on the fan it names: the other fans stand,
and a bay changes by an admission alone. -/
theorem fanOrder_others {c : Byte} {r : Result} {d : List Byte}
    (hnone : fanOf c = none → t = complete n r d (takeSlot n s))
    (hsome : ∀ g, fanOf c = some g → FanActs g (some n) (takeSlot n s) t) :
    (∀ g : FanId, g.val ≠ c.toNat → (finishStep t).fan g = s.fan g) ∧
    OthersKept (fun _ => False) s (finishStep t) := by
  have hend : ∀ g, (finishStep t).fan g = t.fan g := fun g => (fan_of_fanu (by simp) g).1
  rcases Nat.lt_or_ge c.toNat 8 with h | h
  · have hacts := hsome ⟨c.toNat, h⟩ (fanOf_val _ rfl)
    refine ⟨fun g hg => (hend g).trans (hacts.fans.others g fun e => hg (congrArg Fin.val e)).1, ?_⟩
    exact OthersKept.finishStep (hacts.bays.after_baySame fun _ => ⟨rfl, rfl⟩)
  · rw [hnone (fanOf_none h)] at hend ⊢
    refine ⟨fun g _ => (hend g).trans (fan_completeOpt (some n) r d (takeSlot n s) g), ?_⟩
    exact OthersKept.finishStep fun b _ => Or.inl (baySame_of_blocks (by simp) (by simp) b)

/-- An order refused at its take leaves FANU. -/
theorem fanOrder_refused (n : SlotId) (hw : s.mem.wf = true) (r : Result) (d : List Byte) :
    TakeCompleted s (finishStep (complete n r d (takeSlot n s))) n r d ∧
    (finishStep (complete n r d (takeSlot n s))).fanu = s.fanu :=
  ⟨(take_answered n hw r d).1, by simp⟩

/-! ### The levels of a mask (R124, R125) -/

/-- The search goes down from the last level, so it finds the highest that passes. -/
theorem findHighest_some {p : Fin 8 → Bool} {l : Fin 8} (h : p l = true) (hmax : ∀ k, l < k → p k = false) :
    (List.finRange 8).reverse.find? p = some l := by
  rw [List.find?_eq_some_iff_getElem]
  refine ⟨h, 7 - l.val, by simp; omega, ?_, fun j hj => ?_⟩
  · rw [List.getElem_reverse, List.getElem_finRange]
    ext
    simp
    omega
  · rw [List.getElem_reverse, List.getElem_finRange, hmax _ (by rw [Fin.lt_def]; simp; omega)]
    rfl

theorem highestLevel_some {mask : Byte} {l : Fin 8} (h : mask.getLsbD l.val = true)
    (hmax : ∀ k : Fin 8, l < k → mask.getLsbD k.val = false) : highestLevel mask = some l :=
  findHighest_some (p := fun k : Fin 8 => mask.getLsbD k.val) h hmax

theorem highestLevel_eq_none_iff (mask : Byte) : highestLevel mask = none ↔ mask = 0 := by
  unfold highestLevel
  rw [List.find?_eq_none]
  refine ⟨fun h => BitVec.eq_of_getLsbD_eq fun i hi => ?_, fun h => by simp [h]⟩
  simpa using h ⟨i, hi⟩ (by simp)

/-! ### FAN CONFIG (R123) -/

/-- An accepted FAN CONFIG up to its completion: the values stored, the record marked, the state set (R123). -/
def configStored (n : SlotId) (f : FanId) (s : State) : State :=
  configuredState f (s.fan f).state (mark (.fan f) false (updFan f (configured s n) s))

theorem applyConfig_eq (n : SlotId) (f : FanId) (s : State) : applyConfig n f s =
    deliverFans (complete n .ok (configDetail f ((configStored n f s).fan f)) (configStored n f s)) := rfl

/-- The tests of R123 in their order: the fan, the ppr, a learn under way. -/
theorem configOrder_noFan (h : fanOf (argByte s n 0) = none) :
    configOrder n s = complete n .badArg (absent 10 ++ [0]) s := by
  unfold configOrder
  rw [h]

theorem configOrder_badPpr (hf : fanOf (argByte s n 0) = some f)
    (h : (argByte s n 2).toNat = 0 ∨ 5 ≤ (argByte s n 2).toNat) :
    configOrder n s = complete n .badArg (absent 10 ++ [1]) s := by
  unfold configOrder
  rw [hf]
  exact if_neg (by omega)

theorem configOrder_busy (hf : fanOf (argByte s n 0) = some f) (h1 : 1 ≤ (argByte s n 2).toNat)
    (h4 : (argByte s n 2).toNat ≤ 4) (h : (s.fan f).state = .learning) :
    configOrder n s = complete n .busy [] s := by
  unfold configOrder
  rw [hf]
  dsimp only
  rw [if_pos ⟨h1, h4⟩, if_pos h]

theorem configOrder_accepted (hf : fanOf (argByte s n 0) = some f) (h1 : 1 ≤ (argByte s n 2).toNat)
    (h4 : (argByte s n 2).toNat ≤ 4) (h : (s.fan f).state ≠ .learning) :
    configOrder n s = applyConfig n f s := by
  unfold configOrder
  rw [hf]
  dsimp only
  rw [if_pos ⟨h1, h4⟩, if_neg h]

/-- A fan's record as an accepted FAN CONFIG leaves its state, by the state before and the output of its zone
(R123). -/
def FanRec.reconfigured (r : FanRec) (before : FanState) (output : Nat) : FanRec :=
  if r.installed then
    match before with
    | .running => { r with duty := max r.duty r.learnedMin }
    | .stopped => r
    | .absent | .stalled | .failed | .learning => { r.driven output with kicks := 0 }
  else { r with state := .absent, duty := 0 }

theorem fan_configuredState (f : FanId) (before : FanState) (s : State) :
    (configuredState f before s).fan f = (s.fan f).reconfigured before (zoneOutput s f) := by
  unfold configuredState FanRec.reconfigured
  split
  · cases before <;>
      simp only [fan_leftFailed, fan_updFan, fan_updWork, fan_zoneControl, if_true]
  · simp only [fan_leftFailed, fan_updFan, if_true]

/-- A RUNNING fan that stays installed begins its low gates again (R123). -/
theorem lowGates_configuredState (h : (s.fan f).installed = true) :
    ((configuredState f .running s).fanWork f).lowGates = 0 := by
  unfold configuredState
  rw [if_pos h]
  dsimp only
  rw [fanWork_updWork, if_pos rfl]

theorem FanRec.reconfigured_rest (r : FanRec) (before : FanState) (output : Nat) :
    (r.reconfigured before output).settings = r.settings ∧ (r.reconfigured before output).learnedMin = r.learnedMin := by
  unfold FanRec.reconfigured
  split
  · cases before <;> simp
  · exact ⟨rfl, rfl⟩

/-- The cases of R123: not installed any more, RUNNING, STOPPED, and any state that returns to zone control. -/
theorem FanRec.reconfigured_off {r : FanRec} (h : r.installed = false) (before : FanState) (output : Nat) :
    r.reconfigured before output = { r with state := .absent, duty := 0 } := by
  unfold FanRec.reconfigured
  rw [h]
  rfl

theorem FanRec.reconfigured_running {r : FanRec} (h : r.installed = true) (output : Nat) :
    r.reconfigured .running output = { r with duty := max r.duty r.learnedMin } := if_pos h

theorem FanRec.reconfigured_stopped {r : FanRec} (h : r.installed = true) (output : Nat) :
    r.reconfigured .stopped output = r := if_pos h

theorem FanRec.reconfigured_driven {r : FanRec} {before : FanState} (h : r.installed = true)
    (hb : before = .absent ∨ before = .stalled ∨ before = .failed) (output : Nat) :
    r.reconfigured before output = { r.driven output with kicks := 0 } := by
  unfold FanRec.reconfigured
  rw [if_pos h]
  rcases hb with rfl | rfl | rfl <;> rfl

theorem configuredState_acts {o : Option SlotId} (h : FanActs f o s t) (before : FanState) :
    FanActs f o s (configuredState f before t) := by
  unfold configuredState
  split
  · cases before with
    | running => exact h.updFan.updWork
    | stopped => exact h.updWork
    | absent | stalled | failed | learning => exact h.zoneControl.updFan.leftFailed _
  · exact h.updFan.leftFailed _

theorem configStored_acts (n : SlotId) (f : FanId) (o : Option SlotId) (s : State) :
    FanActs f o s (configStored n f s) :=
  configuredState_acts ((FanActs.refl f o s).updFan.mark _ _) _

theorem applyConfig_acts (n : SlotId) (f : FanId) (s : State) : FanActs f (some n) s (applyConfig n f s) :=
  ((configStored_acts n f (some n) s).completeOpt .ok _).deliverFans

theorem configOrder_acts (hf : fanOf (argByte s n 0) = some f) : FanActs f (some n) s (configOrder n s) := by
  unfold configOrder
  rw [hf]
  dsimp only
  split_ifs
  · exact FanActs.complete n _ _ s
  · exact applyConfig_acts n f s
  · exact FanActs.complete n _ _ s

/-- The fan's record after the values are stored and its state is set. -/
theorem fan_configStored (n : SlotId) (f : FanId) (s : State) : (configStored n f s).fan f =
    (configured s n (s.fan f)).reconfigured (s.fan f).state (zoneOutput s f) := by
  have hstored : (mark (.fan f) false (updFan f (configured s n) s)).fan f = configured s n (s.fan f) :=
    (fan_updFan f f _ s).trans (if_pos rfl)
  have houtput : zoneOutput (mark (.fan f) false (updFan f (configured s n) s)) f = zoneOutput s f :=
    ((OnlyFan.updFan f (configured s n) s).stored f).1
  rw [configStored, fan_configuredState, hstored, houtput]

theorem lowGates_configStored (hon : (argByte s n 1).getLsbD 0 = true) (h : (s.fan f).state = .running) :
    ((configStored n f s).fanWork f).lowGates = 0 := by
  rw [configStored, h]
  refine lowGates_configuredState ?_
  exact (congrArg FanRec.installed ((fan_updFan f f _ s).trans (if_pos rfl))).trans hon

theorem answers_fanConfig {P : State → Prop} (h : takeKind .fanConfig s = some n)
    (hP : P (finishStep (configOrder n (takeSlot n s)))) : Answers .fanConfig s P := by
  have hbody : body .fanConfig s = configOrder n (takeSlot n s) := take_of_takeKind configOrder h
  exact answers_of_body (hbody ▸ hP)

/-- The fan and its order at the end of an accepted FAN CONFIG (R123). -/
theorem applyConfig_answer (n : SlotId) (f : FanId) (hw : s.mem.wf = true) :
    let t := finishStep (applyConfig n f (takeSlot n s))
    t.fan f = (configured s n (s.fan f)).reconfigured (s.fan f).state (zoneOutput s f) ∧
    t.fanWork f = (configStored n f (takeSlot n s)).fanWork f ∧
    (t.slot n).state = .done ∧ t.mem.readBytes (resultBase n) 1 = [Result.ok.code] := by
  have hstored : ((configStored n f (takeSlot n s)).slot n).state = .taken := by
    rw [(configStored_acts n f none (takeSlot n s)).slots n nofun, slot_takeSlot, if_pos rfl]
  have hmem : (configStored n f (takeSlot n s)).mem.wf = true := by
    rw [show (configStored n f (takeSlot n s)).mem = s.mem by simp [configStored]]
    exact hw
  have hdone := completed_complete hmem hstored .ok (configDetail f ((configStored n f (takeSlot n s)).fan f))
  have hwritten := (complete_written n .ok (configDetail f ((configStored n f (takeSlot n s)).fan f)) _ hmem).wf
  have hend := Changes.completed_finishStep (Changes.refl.deliverFans) hwritten hdone
  rw [← applyConfig_eq] at hend
  obtain ⟨hfan, hwork⟩ := fan_of_fanu (finishStep_keeps (applyConfig n f (takeSlot n s))).2.2.2.2.2.1 f
  dsimp only
  rw [hfan, hwork, applyConfig_eq, fan_deliverFans, fanWork_deliverFans, ← applyConfig_eq]
  exact ⟨(fan_completeOpt (some n) _ _ _ f).trans (fan_configStored n f (takeSlot n s)),
    fanWork_completeOpt (some n) _ _ _ f, hend.done, hend.code⟩

/-- Settles O52: a FAN CONFIG is refused by the tests of R123 in their order, or its values are stored and the estimate
is delivered. -/
theorem fanConfigStoresItsValues : Obligations.FanConfigStoresItsValues := by
  constructor
  · intro s n ⟨⟨hw, _⟩, hk⟩ ppr m
    have hothers := fanOrder_others (t := configOrder n (takeSlot n s)) configOrder_noFan fun _ => configOrder_acts
    refine answers_fanConfig hk ⟨fun f hf h1 h4 hst => ?_, fun f hf h1 h4 hst => ?_, fun f hf hppr => ?_,
      fun hbad => ?_, hothers.1, hothers.2, by simp⟩
    · intro learned on out
      rw [configOrder_accepted (s := takeSlot n s) (fanOf_val f hf) h1 h4 hst]
      obtain ⟨hfan, hwork, hdone, hcode⟩ := applyConfig_answer n f hw
      obtain ⟨hsettings, hmin⟩ := FanRec.reconfigured_rest (configured s n (s.fan f)) (s.fan f).state (zoneOutput s f)
      obtain ⟨hinstalled, hppr, hunits, hthreshold⟩ := (FanRec.settings_eq_iff _ _).mp hsettings
      rw [hfan, hwork]
      refine ⟨hdone, hcode, hinstalled, hppr, hunits, hthreshold, hmin, fun hoff => ?_, fun hon hrun => ?_,
        fun hon hstop => ?_, fun hon hback => ?_⟩
      · rw [FanRec.reconfigured_off hoff]
        exact ⟨rfl, rfl⟩
      · rw [hrun, FanRec.reconfigured_running hon]
        exact ⟨hrun, rfl, lowGates_configStored (s := takeSlot n s) hon hrun⟩
      · rw [hstop, FanRec.reconfigured_stopped hon]
        exact ⟨hstop, rfl⟩
      · rw [FanRec.reconfigured_driven hon hback]
        obtain ⟨hstate, hduty, _⟩ := FanRec.driven_eq (configured s n (s.fan f)) (zoneOutput s f)
        exact ⟨hstate, hduty, rfl⟩
    · rw [configOrder_busy (s := takeSlot n s) (fanOf_val f hf) h1 h4 hst]
      exact fanOrder_refused n hw _ _
    · rw [configOrder_badPpr (s := takeSlot n s) (fanOf_val f hf) hppr]
      exact fanOrder_refused n hw _ _
    · rw [configOrder_noFan (s := takeSlot n s) (fanOf_none hbad)]
      exact fanOrder_refused n hw _ _
  · intro s n ⟨_, hk⟩
    refine answers_fanConfig hk fun f hf h1 h4 hst => ?_
    rw [configOrder_accepted (s := takeSlot n s) (fanOf_val f hf) h1 h4 hst, applyConfig_eq]
    exact delivered_answer (by simp [configStored]) (by simp [configStored])

/-! ### FAN LEARN (R124) -/

theorem learnOrder_fan (hf : f.val = (argByte s n 0).toNat) : learnOrder n s = learnFan n f (argByte s n 1) s := by
  unfold learnOrder
  rw [fanOf_val f hf]

theorem learnOrder_noFan (h : fanOf (argByte s n 0) = none) :
    learnOrder n s = complete n .badArg [argByte s n 0, argByte s n 1, 0] s := by
  unfold learnOrder
  rw [h]

/-- The tests of R124 in their order: the mask and the fan, a learn under way, a hot zone. -/
theorem learnFan_badArg {mask : Byte} (h : mask = 0 ∨ (s.fan f).state = .absent) :
    learnFan n f mask s = complete n .badArg (learnRefused s f mask) s := by
  unfold learnFan
  cases hl : highestLevel mask with
  | none => rfl
  | some l =>
    have hmask : mask ≠ 0 := fun e => by simp [(highestLevel_eq_none_iff mask).mpr e] at hl
    exact if_pos (h.resolve_left hmask)

theorem learnFan_level {mask : Byte} {l : Fin 8} (hl : highestLevel mask = some l) (ha : (s.fan f).state ≠ .absent) :
    learnFan n f mask s =
      if (s.fan f).state = .learning then complete n .busy (learnRefused s f mask) s
      else if learnHotDuty ≤ zoneD3 s f then complete n .abortedHot (learnRefused s f mask) s
      else startLearn n f mask l s := by
  unfold learnFan
  rw [hl]
  exact if_neg ha

theorem highestLevel_of_ne_zero {mask : Byte} (h : mask ≠ 0) : ∃ l, highestLevel mask = some l :=
  Option.ne_none_iff_exists'.mp (mt (highestLevel_eq_none_iff mask).mp h)

theorem learnFan_busy {mask : Byte} (hmask : mask ≠ 0) (h : (s.fan f).state = .learning) :
    learnFan n f mask s = complete n .busy (learnRefused s f mask) s := by
  obtain ⟨l, hl⟩ := highestLevel_of_ne_zero hmask
  rw [learnFan_level hl (by rw [h]; nofun), if_pos h]

theorem learnFan_hot {mask : Byte} (hmask : mask ≠ 0) (ha : (s.fan f).state ≠ .absent)
    (h : (s.fan f).state ≠ .learning) (hhot : 896 ≤ zoneD3 s f) :
    learnFan n f mask s = complete n .abortedHot (learnRefused s f mask) s := by
  obtain ⟨l, hl⟩ := highestLevel_of_ne_zero hmask
  rw [learnFan_level hl ha, if_neg h]
  exact if_pos hhot

theorem learnFan_starts {mask : Byte} {l : Fin 8} (hl : highestLevel mask = some l) (ha : (s.fan f).state ≠ .absent)
    (h : (s.fan f).state ≠ .learning) (hcool : ¬ 896 ≤ zoneD3 s f) :
    learnFan n f mask s = startLearn n f mask l s := by
  rw [learnFan_level hl ha, if_neg h]
  exact if_neg hcool

/-- The fan and its learn as a learn begins (R124, R125). -/
theorem startLearn_own (n : SlotId) (f : FanId) (mask : Byte) (l : Fin 8) (s : State) :
    (startLearn n f mask l s).fan f = { s.fan f with
      state := .learning, duty := levelDuty l
      kicks := if (s.fan f).state = .stalled then 0 else (s.fan f).kicks } ∧
    ((startLearn n f mask l s).fanWork f).learn = some (Learn.fresh n mask l (s.fan f).learnedMin) := by
  unfold startLearn visitLevel
  constructor
  · simp only [fan_deliverFans, fan_updFan, fan_updWork, fan_leftFailed, if_true]
  · simp only [fanWork_deliverFans, fanWork_updFan, fanWork_updWork, if_true, Learn.fresh]

/-- A learn begins on its fan alone, and no slot completes (R124). -/
theorem startLearn_acts (n : SlotId) (f : FanId) (mask : Byte) (l : Fin 8) (o : Option SlotId) (s : State) :
    FanActs f o s (startLearn n f mask l s) := by
  unfold startLearn
  exact ((FanActs.refl f o s).updFan.leftFailed _).visitLevel _ l

theorem learnFan_acts (n : SlotId) (f : FanId) (mask : Byte) (s : State) :
    FanActs f (some n) s (learnFan n f mask s) := by
  by_cases hrefused : mask = 0 ∨ (s.fan f).state = .absent
  · rw [learnFan_badArg hrefused]
    exact FanActs.complete n _ _ s
  · obtain ⟨hmask, ha⟩ := not_or.mp hrefused
    obtain ⟨l, hl⟩ := highestLevel_of_ne_zero hmask
    rw [learnFan_level hl ha]
    split_ifs
    · exact FanActs.complete n _ _ s
    · exact FanActs.complete n _ _ s
    · exact startLearn_acts n f mask l _ s

theorem answers_fanLearn {P : State → Prop} (h : takeKind .fanLearn s = some n)
    (hP : P (finishStep (learnOrder n (takeSlot n s)))) : Answers .fanLearn s P := by
  have hbody : body .fanLearn s = learnOrder n (takeSlot n s) := take_of_takeKind learnOrder h
  exact answers_of_body (hbody ▸ hP)

/-- A learn that begins: its order stays open, its fan is LEARNING at the highest level (R124, R125). -/
theorem startLearn_answer (n : SlotId) (f : FanId) (mask : Byte) (l : Fin 8) (s : State) :
    let t := finishStep (startLearn n f mask l (takeSlot n s))
    (t.slot n).state = .taken ∧ (t.fan f).state = .learning ∧
    (t.fan f).duty = (if l = 7 then 1023 else 128 * (l.val + 1)) ∧ (t.fan f).learnedMin = (s.fan f).learnedMin ∧
    (t.fan f).kicks = (if (s.fan f).state = .stalled then 0 else (s.fan f).kicks) ∧
    ∃ x, (t.fanWork f).learn = some x ∧ x.slot = some n ∧ x.mask = mask ∧ x.level = l ∧ x.list = [] := by
  have hslot := (startLearn_acts n f mask l none (takeSlot n s)).slots n nofun
  obtain ⟨hfan, hlearn⟩ := startLearn_own n f mask l (takeSlot n s)
  obtain ⟨hfan', hwork'⟩ := fan_of_fanu (finishStep_keeps (startLearn n f mask l (takeSlot n s))).2.2.2.2.2.1 f
  dsimp only
  rw [slot_of_slots (finishStep_slots _), hslot, slot_takeSlot, if_pos rfl, hfan', hwork', hfan, hlearn]
  exact ⟨rfl, rfl, rfl, rfl, rfl, _, rfl, rfl, rfl, rfl, rfl⟩

/-- Settles O53: a learn begins, or is refused by the tests of R124 in their order. -/
theorem fanLearnStartsOrIsRefused : Obligations.FanLearnStartsOrIsRefused := by
  intro s n ⟨⟨hw, _⟩, hk⟩ mask
  have hothers := fanOrder_others (t := learnOrder n (takeSlot n s)) learnOrder_noFan fun g hg => by
    unfold learnOrder
    rw [hg]
    exact learnFan_acts n g _ _
  refine answers_fanLearn hk ⟨fun f hf => ?_, fun hbad => ?_, hothers.1, hothers.2, by simp⟩
  · have hlearn : learnOrder n (takeSlot n s) = learnFan n f mask (takeSlot n s) := learnOrder_fan hf
    rw [hlearn]
    refine ⟨fun l hl hmax ha hlearning hhot => ?_, fun hrefused => ?_, fun hmask hlearning => ?_,
      fun hmask ha hlearning hhot => ?_⟩
    · rw [learnFan_starts (s := takeSlot n s) (highestLevel_some hl hmax) ha hlearning hhot]
      exact startLearn_answer n f mask l s
    · rw [learnFan_badArg (s := takeSlot n s) hrefused]
      exact fanOrder_refused n hw _ _
    · rw [learnFan_busy (s := takeSlot n s) hmask hlearning]
      exact fanOrder_refused n hw _ _
    · rw [learnFan_hot (s := takeSlot n s) hmask ha hlearning hhot]
      exact fanOrder_refused n hw _ _
  · rw [learnOrder_noFan (s := takeSlot n s) (fanOf_none hbad)]
    exact fanOrder_refused n hw _ _

end Sys2Proof.Machine

/-! Settles the tach gate (O51): the readings of all fans, then each fan judged on its own. -/

namespace Sys2Proof.Machine

variable {f : FanId} {o : Option SlotId} {s t : State}

/-! ### What a judgement leaves (R120 to R126, R130) -/

/-- `t` is `s` after fan `f` has been judged at a gate: where the duty changed, the estimate has been delivered. -/
structure GateActs (f : FanId) (o : Option SlotId) (s t : State) : Prop extends FanActs f o s t where
  drawn : Drawn s → Drawn t

theorem GateActs.refl (f : FanId) (o : Option SlotId) (s : State) : GateActs f o s s := ⟨FanActs.refl f o s, id⟩

/-- A judgement that delivers the estimate last. -/
theorem GateActs.delivered (h : FanActs f o s t) : GateActs f o s (deliverFans t) :=
  ⟨h.deliverFans, fun _ => drawn_deliverFans t⟩

/-- A judgement that only counts. -/
theorem GateActs.counts (f : FanId) (o : Option SlotId) (s : State) {g : FanWork → FanWork}
    (hg : ∀ w, (g w).edges = w.edges := by exact fun _ => rfl) : GateActs f o s (updWork f g s) :=
  ⟨(FanActs.refl f o s).updWork hg, fun h => h.of_same rfl fun _ => rfl⟩

theorem runningGate_acts (f : FanId) (o : Option SlotId) (s : State) : GateActs f o s (runningGate f s) := by
  unfold runningGate
  dsimp only
  split_ifs
  · exact GateActs.delivered (FanActs.refl f o s).updFan.updWork
  · exact GateActs.counts f o s
  · exact GateActs.counts f o s
  · exact GateActs.refl f o s

theorem kickGate_acts (f : FanId) (o : Option SlotId) (s : State) : GateActs f o s (kickGate f s) := by
  unfold kickGate
  dsimp only
  split_ifs
  · exact GateActs.counts f o s
  · exact GateActs.delivered (FanActs.refl f o s).updWork.zoneControl
  · exact GateActs.delivered (FanActs.refl f o s).updWork.updFan.updWork
  · exact GateActs.delivered (FanActs.refl f o s).updWork.updFan.enterFailed

theorem failedGate_acts (f : FanId) (o : Option SlotId) (s : State) : GateActs f o s (failedGate f s) := by
  unfold failedGate
  dsimp only
  split_ifs
  · exact GateActs.delivered ((FanActs.refl f o s).updWork.zoneControl.updFan.deliverFailed false)
  · exact GateActs.counts f o s
  · exact GateActs.counts f o s

theorem endLearn_acts (f : FanId) (l : Learn) (r : Result) (m : Nat) (s : State) :
    GateActs f l.slot s (endLearn f l r m s) := by
  unfold endLearn
  exact GateActs.delivered ((FanActs.refl f l.slot s).updWork.updFan.zoneControl.completeOpt r _)

theorem noSpin_acts (f : FanId) (l : Learn) (s : State) : GateActs f l.slot s (noSpin f l s) := by
  unfold noSpin
  exact GateActs.delivered ((FanActs.refl f l.slot s).updWork.updFan.enterFailed.completeOpt .noSpin _)

theorem visitLevel_acts (f : FanId) (o : Option SlotId) (l : Learn) (n : Fin 8) (s : State) :
    GateActs f o s (visitLevel f l n s) := by
  unfold visitLevel
  exact GateActs.delivered (FanActs.refl f o s).updWork.updFan

theorem judgeLevel_acts (f : FanId) (l : Learn) (rpm : Nat) (s : State) :
    GateActs f l.slot s (judgeLevel f l rpm s) := by
  unfold judgeLevel
  split
  · split
    · exact visitLevel_acts f _ l _ s
    · exact endLearn_acts f l _ _ s
  · split
    · exact noSpin_acts f l s
    · exact endLearn_acts f l _ _ s

/-- A learn after one gate more, after a reading, and with its level complete (R125, R129). -/
def Learn.gated (l : Learn) : Learn := { l with gates := min (l.gates + 1) 65535 }
def Learn.read (l : Learn) (rpm : Nat) : Learn := { l.gated with readings := l.readings + 1, last := rpm }
def Learn.levelDone (l : Learn) (rpm : Nat) : Learn := { l.read rpm with list := l.list ++ [(l.level, rpm)] }

theorem learnGate_acts (f : FanId) (l : Learn) (s : State) : GateActs f l.slot s (learnGate f l s) := by
  unfold learnGate
  dsimp only
  split_ifs
  · exact GateActs.counts f _ s
  · exact judgeLevel_acts f (l.levelDone (s.fan f).rpm) _ s
  · exact endLearn_acts f (l.read (s.fan f).rpm) _ _ s
  · exact GateActs.counts f _ s

/-- A gate's judgement of a fan completes no slot but its learn's (R117). -/
theorem actGate_acts (f : FanId) (s : State) :
    GateActs f ((s.fanWork f).learn.bind Learn.slot) s (actGate s f) := by
  unfold actGate
  split
  · exact runningGate_acts f _ s
  · exact kickGate_acts f _ s
  · exact failedGate_acts f _ s
  · split
    · exact GateActs.refl f _ s
    · next l hl =>
      rw [hl]
      exact learnGate_acts f l s
  all_goals exact GateActs.refl f _ s

/-! ### One fan among the eight -/

/-- Fan `f`, its zone's stored output and its place in the failed set stand. -/
structure FanStands (f : FanId) (s t : State) : Prop where
  fan : t.fan f = s.fan f
  work : t.fanWork f = s.fanWork f
  output : zoneOutput t f = zoneOutput s f
  failed : t.thc.failedFans[f] = s.thc.failedFans[f]

theorem FanStands.refl (f : FanId) (s : State) : FanStands f s s := ⟨rfl, rfl, rfl, rfl⟩

theorem FanStands.trans {u : State} (h : FanStands f s t) (h' : FanStands f t u) : FanStands f s u :=
  ⟨h'.fan.trans h.fan, h'.work.trans h.work, h'.output.trans h.output, h'.failed.trans h.failed⟩

theorem FanStands.of_blocks (hfanu : t.fanu = s.fanu) (hthc : t.thc = s.thc) : FanStands f s t := by
  exact ⟨(fan_of_fanu hfanu f).1, (fan_of_fanu hfanu f).2, by simp only [zoneOutput, hfanu], by rw [hthc]⟩

/-- Acts on other fans leave a fan. -/
theorem FanStands.foldl {act : State → FanId → State} (h : ∀ u g, f ≠ g → FanStands f u (act u g)) (l : List FanId)
    (hl : f ∉ l) (s : State) : FanStands f s (l.foldl act s) := by
  induction l generalizing s with
  | nil => exact FanStands.refl f s
  | cons g rest ih =>
    obtain ⟨hg, hrest⟩ := not_or.mp (mt List.mem_cons.mpr hl)
    exact (h s g hg).trans (ih hrest _)

/-- The eight fans come in order, each once. -/
theorem fans_split (f : FanId) : ∃ a b, List.finRange 8 = a ++ f :: b ∧ f ∉ a ∧ f ∉ b ∧ a.Nodup := by
  obtain ⟨a, b, h⟩ := List.append_of_mem (List.mem_finRange f)
  have hnodup := List.nodup_finRange 8
  rw [h] at hnodup
  obtain ⟨hnot, hrest⟩ := List.nodup_cons.mp (List.nodup_middle.mp hnodup)
  exact ⟨a, b, h, fun ha => hnot (List.mem_append_left _ ha), fun hb => hnot (List.mem_append_right _ hb),
    (List.nodup_append.mp hrest).1⟩

theorem FanStands.actGate (g : FanId) (hg : f ≠ g) (s : State) : FanStands f s (actGate s g) := by
  have h := actGate_acts g s
  exact ⟨(h.fans.others f hg).1, (h.fans.others f hg).2, (h.fans.stored f).1, h.failed f hg⟩

/-! ### The readings (R117) -/

theorem OnlyFan.storeReading (f : FanId) (s : State) : OnlyFan f s (storeReading s f) :=
  (OnlyFan.updFan f _ s).trans (OnlyFan.updWork f _ _)

theorem storeReading_own (f : FanId) (s : State) :
    (storeReading s f).fan f = (s.fan f).measured (s.fanWork f).edges ∧
    (storeReading s f).fanWork f = { s.fanWork f with edges := 0 } := by
  unfold storeReading
  rw [fan_updWork, fan_updFan, fanWork_updWork, fanWork_updFan, if_pos rfl, if_pos rfl]
  exact ⟨rfl, rfl⟩

theorem FanStands.storeReading (g : FanId) (hg : f ≠ g) (s : State) : FanStands f s (storeReading s g) := by
  have h := OnlyFan.storeReading g s
  exact ⟨(h.others f hg).1, (h.others f hg).2, (h.stored f).1, by simp⟩

/-- The gate's timer started again (R117). -/
def gateBegun (s : State) : State := { s with fanu := { s.fanu with gateTimer := some tachGateMs } }

/-- Every fan's reading stored, no fan judged yet (R117). -/
def gateRead (s : State) : State := (List.finRange 8).foldl storeReading (gateBegun s)

/-- Every fan judged (R117). -/
def gateJudged (s : State) : State := (List.finRange 8).foldl actGate (gateRead s)

/-- What a TACH_GATE_EXPIRY answers. -/
def gateStep (s : State) : State := finishStep (gateExpiry s)

theorem gateExpiry_eq (s : State) : gateExpiry s = markFans (gateJudged s) := rfl

theorem answers_tachGateExpiry {P : State → Prop} (h : P (gateStep s)) : Answers .tachGateExpiry s P :=
  answers_of_body h

/-- The readings change FANU, and of EXP the marks alone. -/
theorem gateRead_keeps (s : State) : (gateRead s).thc = s.thc ∧ (gateRead s).bmon = s.bmon ∧
    (gateRead s).pseq = s.pseq ∧ (gateRead s).exp.slots = s.exp.slots ∧ (gateRead s).mem = s.mem ∧
    (gateRead s).clock = s.clock ∧ (gateRead s).fanu.gateTimer = some tachGateMs := by
  have h := foldl_keeps
    (fun s : State => (s.thc, s.bmon, s.pseq, s.exp.slots, s.mem, s.clock, s.fanu.gateTimer)) storeReading
    (fun u g => by simp [storeReading, updFan_slots]) (List.finRange 8) (gateBegun s)
  simp only [Prod.mk.injEq] at h
  exact h

/-- Each fan's reading stored, its count begun again (R117). -/
theorem gateRead_own (f : FanId) (s : State) :
    (gateRead s).fan f = (s.fan f).measured (s.fanWork f).edges ∧
    (gateRead s).fanWork f = { s.fanWork f with edges := 0 } ∧ zoneOutput (gateRead s) f = zoneOutput s f := by
  obtain ⟨a, b, hsplit, ha, hb, _⟩ := fans_split f
  have hbefore := FanStands.foldl (fun u g hg => FanStands.storeReading g hg u) a ha (gateBegun s)
  have hafter := FanStands.foldl (fun u g hg => FanStands.storeReading g hg u) b hb
    (storeReading (a.foldl storeReading (gateBegun s)) f)
  obtain ⟨hfan, hwork⟩ := storeReading_own f (a.foldl storeReading (gateBegun s))
  rw [hbefore.fan, hbefore.work] at hfan
  rw [hbefore.work] at hwork
  have houtput := ((OnlyFan.storeReading f (a.foldl storeReading (gateBegun s))).stored f).1
  rw [gateRead, hsplit, List.foldl_append, List.foldl_cons]
  exact ⟨hafter.fan.trans hfan, hafter.work.trans hwork, hafter.output.trans (houtput.trans hbefore.output)⟩

/-- No learn but that of fan `f` holds slot `n`. -/
def NoOtherLearn (f : FanId) (n : SlotId) (s : State) : Prop :=
  ∀ g y, g ≠ f → (s.fanWork g).learn = some y → y.slot ≠ some n

/-- A slot no learn of a list of fans holds stands while those fans are judged. -/
theorem foldl_actGate_slot {n : SlotId} (l : List FanId) (hl : l.Nodup) (s : State)
    (h : ∀ g ∈ l, ∀ y, (s.fanWork g).learn = some y → y.slot ≠ some n) : (l.foldl actGate s).slot n = s.slot n := by
  induction l generalizing s with
  | nil => rfl
  | cons g rest ih =>
    obtain ⟨hg, hrest⟩ := List.nodup_cons.mp hl
    have hacts := actGate_acts g s
    have hhead : (s.fanWork g).learn.bind Learn.slot ≠ some n := fun e => by
      obtain ⟨y, hy, hslot⟩ := Option.bind_eq_some_iff.mp e
      exact h g List.mem_cons_self y hy hslot
    refine (ih hrest (actGate s g) fun k hk y hy => ?_).trans (hacts.slots n hhead)
    rw [(hacts.fans.others k (ne_of_mem_of_not_mem hk hg)).2] at hy
    exact h k (List.mem_cons_of_mem _ hk) y hy

/-- `u` is the state in which the gate judges fan `f`: its reading is stored, and nothing else has happened to it;
after its judgement it stands to the end of the step. -/
structure GateReached (f : FanId) (s u : State) : Prop where
  fan : u.fan f = (s.fan f).measured (s.fanWork f).edges
  work : u.fanWork f = { s.fanWork f with edges := 0 }
  output : zoneOutput u f = zoneOutput s f
  slot : ∀ n, NoOtherLearn f n s → u.slot n = s.slot n
  clock : u.clock = s.clock
  wf : s.mem.wf = true → u.mem.wf = true
  after : FanStands f (actGate u f) (gateStep s)
  rest : Changes (actGate u f) (gateExpiry s)

theorem gateStep_stands (f : FanId) (s : State) : FanStands f (gateJudged s) (gateStep s) :=
  FanStands.of_blocks (by simp [gateStep, gateExpiry_eq]) (by simp [gateStep, gateExpiry_eq])

theorem gate_reached (f : FanId) (s : State) : ∃ u, GateReached f s u := by
  obtain ⟨a, b, hsplit, ha, hb, hnodup⟩ := fans_split f
  have hjudged : gateJudged s = b.foldl actGate (actGate (a.foldl actGate (gateRead s)) f) := by
    rw [gateJudged, hsplit, List.foldl_append, List.foldl_cons]
  have hbefore := FanStands.foldl (fun u g hg => FanStands.actGate g hg u) a ha (gateRead s)
  have hafter := FanStands.foldl (fun u g hg => FanStands.actGate g hg u) b hb
    (actGate (a.foldl actGate (gateRead s)) f)
  rw [← hjudged] at hafter
  have hchanges : Changes (gateRead s) (a.foldl actGate (gateRead s)) :=
    Changes.foldl (fun _ g h => h.actGate g) a .refl
  obtain ⟨hfan, hwork, houtput⟩ := gateRead_own f s
  obtain ⟨-, -, -, hslots, hmem, hclock, -⟩ := gateRead_keeps s
  refine ⟨a.foldl actGate (gateRead s), hbefore.fan.trans hfan, hbefore.work.trans hwork,
    hbefore.output.trans houtput, fun n hn => ?_, ?_, fun hw => (hchanges.written (by rwa [hmem])).wf,
    hafter.trans (gateStep_stands f s), ?_⟩
  · refine (foldl_actGate_slot a hnodup (gateRead s) fun g hg y hy => ?_).trans (slot_of_slots hslots n)
    rw [(gateRead_own g s).2.1] at hy
    exact hn g y (ne_of_mem_of_not_mem hg ha) hy
  · exact (foldl_keeps State.clock actGate (fun u g => (actGate_keeps u g).2.1) a (gateRead s)).trans hclock
  · rw [gateExpiry_eq, hjudged]
    exact Changes.markFans (Changes.foldl (fun _ g h => h.actGate g) b .refl)

/-! ### The judgement by the fan's state (R117) -/

/-- The record of a fan that has come back to zone control, at an output of its zone and a learned min (R119). -/
def FanRec.BackAt (r : FanRec) (output learnedMin : Nat) : Prop :=
  r.state = (if output = 0 then .stopped else .running) ∧ r.duty = (if output = 0 then 0 else max output learnedMin)

theorem FanRec.driven_backAt (r : FanRec) (output : Nat) : (r.driven output).BackAt output r.learnedMin := by
  obtain ⟨hstate, hduty, -⟩ := FanRec.driven_eq r output
  exact ⟨hstate, hduty⟩

theorem actGate_running (h : (s.fan f).state = .running) : actGate s f = runningGate f s := by
  simp only [actGate, h]

theorem actGate_stalled (h : (s.fan f).state = .stalled) : actGate s f = kickGate f s := by
  simp only [actGate, h]

theorem actGate_failed (h : (s.fan f).state = .failed) : actGate s f = failedGate f s := by
  simp only [actGate, h]

theorem actGate_learning {l : Learn} (h : (s.fan f).state = .learning) (hl : (s.fanWork f).learn = some l) :
    actGate s f = learnGate f l s := by
  simp only [actGate, h, hl]

theorem actGate_idle (h : (s.fan f).state = .stopped ∨ (s.fan f).state = .absent) : actGate s f = s := by
  rcases h with h | h <;> simp only [actGate, h]

/-! ### A fan in RUNNING (R120) -/

/-- Low gates are counted, the third stalls the fan, a good one begins the count again (R120). -/
theorem runningGate_judged (hst : (s.fan f).state = .running) (hmin : (s.fan f).learnedMin ≤ (s.fan f).duty) :
    let t := runningGate f s
    let low := (s.fan f).rpm < (s.fan f).threshold
    (low → (s.fanWork f).lowGates < 2 → (t.fan f).state = .running ∧ (t.fan f).duty = (s.fan f).duty ∧
      (t.fanWork f).lowGates = (s.fanWork f).lowGates + 1) ∧
    (low → 2 ≤ (s.fanWork f).lowGates → (t.fan f).state = .stalled ∧ (t.fan f).duty = 1023 ∧ (t.fan f).kicks = 0 ∧
      (t.fanWork f).kickGates = 0) ∧
    (¬ low → (t.fan f).state = .running ∧ (t.fanWork f).lowGates = 0) := by
  unfold runningGate
  dsimp only
  rw [if_pos hmin]
  refine ⟨fun hlow hfew => ?_, fun hlow hthird => ?_, fun hgood => ?_⟩
  · rw [if_pos hlow, if_neg (by omega), fan_updWork, fanWork_updWork, if_pos rfl]
    exact ⟨hst, rfl, rfl⟩
  · rw [if_pos hlow, if_pos (by omega), fan_deliverFans, fanWork_deliverFans, fan_updWork, fan_updFan,
      fanWork_updWork, if_pos rfl, if_pos rfl]
    exact ⟨rfl, rfl, rfl, rfl⟩
  · rw [if_neg hgood, fan_updWork, fanWork_updWork, if_pos rfl]
    exact ⟨hst, rfl⟩

/-! ### A fan in STALLED (R121) -/

theorem kickGate_first (h : (s.fanWork f).kickGates = 0) :
    (kickGate f s).fan f = s.fan f ∧ ((kickGate f s).fanWork f).kickGates = 1 := by
  unfold kickGate
  dsimp only
  rw [if_pos (by omega), fan_updWork, fanWork_updWork, if_pos rfl]
  exact ⟨rfl, congrArg (· + 1) h⟩

/-- What a fan that enters FAILED shows (R122). -/
theorem enterFailed_own (f : FanId) (s : State) :
    (enterFailed f s).fan f = { s.fan f with state := .failed, duty := fullDuty } ∧
    ((enterFailed f s).fanWork f).learn = (s.fanWork f).learn ∧ (enterFailed f s).thc.failedFans[f] = true := by
  unfold enterFailed
  rw [fan_deliverFailed, fanWork_deliverFailed, fan_updWork, fan_updFan, fanWork_updWork, fanWork_updFan,
    failedFans_deliverFailed, if_pos rfl, if_pos rfl, if_pos rfl]
  exact ⟨rfl, rfl, rfl⟩

/-- The second gate of a kick: the fan turns and comes back, is kicked again, or has FAILED (R121, R122). -/
theorem kickGate_judged (hst : (s.fan f).state = .stalled) (hsecond : 1 ≤ (s.fanWork f).kickGates) :
    let t := kickGate f s
    let low := (s.fan f).rpm < (s.fan f).threshold
    (¬ low → (t.fan f).BackAt (zoneOutput s f) (s.fan f).learnedMin ∧ (t.fan f).kicks = (s.fan f).kicks) ∧
    (low → (s.fan f).kicks < 2 → (t.fan f).state = .stalled ∧ (t.fan f).kicks = (s.fan f).kicks + 1 ∧
      (t.fanWork f).kickGates = 0) ∧
    (low → 2 ≤ (s.fan f).kicks → (t.fan f).state = .failed ∧ (t.fan f).duty = 1023 ∧ (t.fan f).kicks = 3 ∧
      t.thc.failedFans[f] = true) := by
  unfold kickGate
  dsimp only
  rw [if_neg (by omega)]
  refine ⟨fun hgood => ?_, fun hlow hfew => ?_, fun hlow hthird => ?_⟩
  · rw [if_pos (Nat.not_lt.mp hgood), fan_deliverFans, fan_zoneControl]
    exact ⟨FanRec.driven_backAt _ _, by simp [fan_updWork]⟩
  · rw [if_neg (Nat.not_le.mpr hlow), if_pos hfew, fan_deliverFans, fanWork_deliverFans, fan_updWork, fan_updFan,
      fanWork_updWork, if_pos rfl, if_pos rfl]
    exact ⟨hst, rfl, rfl⟩
  · rw [if_neg (Nat.not_le.mpr hlow), if_neg (Nat.not_lt.mpr hthird), fan_deliverFans, failedFans_deliverFans,
      (enterFailed_own f _).1, (enterFailed_own f _).2.2, fan_updFan, if_pos rfl]
    exact ⟨rfl, rfl, rfl, rfl⟩

/-! ### A fan in FAILED (R122) -/

/-- Good gates in a row are counted, a low one begins the count again, the fifth brings the fan back (R122). -/
theorem failedGate_judged (hst : (s.fan f).state = .failed) :
    let t := failedGate f s
    let low := (s.fan f).rpm < (s.fan f).threshold
    (low → (t.fan f).state = .failed ∧ (t.fanWork f).goodGates = 0) ∧
    (¬ low → (s.fanWork f).goodGates < 4 → (t.fan f).state = .failed ∧
      (t.fanWork f).goodGates = (s.fanWork f).goodGates + 1) ∧
    (¬ low → 4 ≤ (s.fanWork f).goodGates → (t.fan f).BackAt (zoneOutput s f) (s.fan f).learnedMin ∧
      (t.fan f).kicks = 0 ∧ t.thc.failedFans[f] = false) := by
  unfold failedGate
  dsimp only
  refine ⟨fun hlow => ?_, fun hgood hfew => ?_, fun hgood hfifth => ?_⟩
  · rw [if_neg (Nat.not_le.mpr hlow), fan_updWork, fanWork_updWork, if_pos rfl]
    exact ⟨hst, rfl⟩
  · rw [if_pos (Nat.not_lt.mp hgood), if_neg (by omega), fan_updWork, fanWork_updWork, if_pos rfl]
    exact ⟨hst, rfl⟩
  · rw [if_pos (Nat.not_lt.mp hgood), if_pos (by omega), fan_deliverFans, failedFans_deliverFans, fan_deliverFailed,
      failedFans_deliverFailed, if_pos rfl, fan_updFan, if_pos rfl, fan_zoneControl]
    exact ⟨FanRec.driven_backAt _ _, rfl, rfl⟩

/-! ### A fan in LEARNING (R125, R126, R129) -/

/-- The full-speed RPM a learn leaves: its reading at the last level, if it completed it (R126). -/
def Learn.fullSpeed (l : Learn) (before : Option Nat) : Option Nat :=
  match l.list.find? fun p => p.1 = 7 with
  | some p => some p.2
  | none => before

theorem FanRec.committed_fullSpeed (r : FanRec) (l : Learn) (m : Nat) :
    (r.committed l m).fullSpeed = l.fullSpeed r.fullSpeed := rfl

/-- Between `s` and `t` fan `f` has ended its learn `l` with result `r` and learned min `m`: table, mask and full speed
are committed, and the order has completed (R126, R129). -/
structure LearnEnded (f : FanId) (l : Learn) (r : Result) (m : Nat) (s t : State) : Prop where
  learn : (t.fanWork f).learn = none
  learnedMin : (t.fan f).learnedMin = m
  table : (t.fan f).table = l.list
  mask : (t.fan f).learnMask = l.mask
  fullSpeed : (t.fan f).fullSpeed = l.fullSpeed (s.fan f).fullSpeed
  order : ∀ n, l.slot = some n → (s.slot n).state = .taken →
    Completed t n r (s.slot n).tag s.clock.uptime (learnDetail f l (t.fan f))

/-- The record with a learn committed and no learn under way (R126). -/
def learnCommitted (f : FanId) (l : Learn) (m : Nat) (s : State) : State :=
  updFan f (fun x => x.committed l m) (updWork f (fun w => { w with learn := none }) s)

theorem learnCommitted_own (f : FanId) (l : Learn) (m : Nat) (s : State) :
    (learnCommitted f l m s).fan f = (s.fan f).committed l m ∧
    (learnCommitted f l m s).fanWork f = { s.fanWork f with learn := none } ∧
    zoneOutput (learnCommitted f l m s) f = zoneOutput s f := by
  refine ⟨(fan_updFan _ _ _ _).trans (if_pos rfl), ?_, ?_⟩
  · rw [learnCommitted, fanWork_updFan, fanWork_updWork, if_pos rfl]
  · exact (((OnlyFan.updWork f _ s).trans (OnlyFan.updFan f _ _)).stored f).1

/-- A learn closed: its order completes with the fan's record as it stands, and the estimate is delivered (R126, R130). -/
def closeLearn (f : FanId) (l : Learn) (r : Result) (s : State) : State :=
  deliverFans (completeOpt l.slot r (learnDetail f l (s.fan f)) s)

theorem endLearn_eq (f : FanId) (l : Learn) (r : Result) (m : Nat) (s : State) :
    endLearn f l r m s = closeLearn f l r (zoneControl f (learnCommitted f l m s)) := rfl

theorem noSpin_eq (f : FanId) (l : Learn) (s : State) :
    noSpin f l s = closeLearn f l .noSpin (enterFailed f (learnCommitted f l (s.fan f).learnedMin s)) := rfl

theorem closeLearn_own (f : FanId) (l : Learn) (r : Result) (s : State) :
    (closeLearn f l r s).fan f = s.fan f ∧ (closeLearn f l r s).fanWork f = s.fanWork f ∧
    (closeLearn f l r s).thc.failedFans[f] = s.thc.failedFans[f] := by
  unfold closeLearn
  rw [fan_deliverFans, fan_completeOpt, fanWork_deliverFans, fanWork_completeOpt, failedFans_deliverFans,
    (completeOpt_keeps _ _ _ _).2.2.2.2.1]
  exact ⟨rfl, rfl, rfl⟩

/-- What has been committed when a learn is closed shows after it, and the order has completed (R126, R129). -/
theorem LearnEnded.close {l : Learn} {m : Nat} {u : State} (r : Result) (hw : s.mem.wf = true)
    (horders : u.exp.slots = s.exp.slots ∧ u.mem = s.mem ∧ u.clock = s.clock)
    (hlearn : (u.fanWork f).learn = none) (hmin : (u.fan f).learnedMin = m) (htable : (u.fan f).table = l.list)
    (hmask : (u.fan f).learnMask = l.mask) (hspeed : (u.fan f).fullSpeed = l.fullSpeed (s.fan f).fullSpeed) :
    LearnEnded f l r m s (closeLearn f l r u) := by
  obtain ⟨hslots, hmem, hclock⟩ := horders
  obtain ⟨hfan, hwork, -⟩ := closeLearn_own f l r u
  have hwf : (completeOpt l.slot r (learnDetail f l (u.fan f)) u).mem.wf = true :=
    ((Changes.refl.completeOpt l.slot r _).written (by rwa [hmem])).wf
  refine ⟨?_, ?_, ?_, ?_, ?_, fun n hn ht => ?_⟩
  · rw [hwork, hlearn]
  · rw [hfan, hmin]
  · rw [hfan, htable]
  · rw [hfan, hmask]
  · rw [hfan, hspeed]
  · rw [hfan]
    exact Changes.refl.deliverFans.completed hwf (completed_completeOpt hslots hmem hclock hw hn ht r _)

/-- A learn that ends OK or UNSTEADY returns its fan to zone control (R126). -/
theorem endLearn_ended (f : FanId) (l : Learn) (r : Result) (m : Nat) (hw : s.mem.wf = true) :
    let t := endLearn f l r m s
    LearnEnded f l r m s t ∧ (t.fan f).BackAt (zoneOutput s f) m ∧
    (zoneOutput s f ≠ 0 → (t.fanWork f).lowGates = 0) := by
  obtain ⟨hfan, hwork, hout⟩ := learnCommitted_own f l m s
  have hdriven : (zoneControl f (learnCommitted f l m s)).fan f = ((s.fan f).committed l m).driven (zoneOutput s f) := by
    rw [fan_zoneControl, hfan, hout]
  have hcounts := fanWork_zoneControl f (learnCommitted f l m s)
  rw [hout, hwork] at hcounts
  obtain ⟨-, -, -, -, hmin, hspeed, htable, hmask, -⟩ := FanRec.driven_rest ((s.fan f).committed l m) (zoneOutput s f)
  rw [← hdriven] at hmin hspeed htable hmask
  obtain ⟨hfan', hwork', -⟩ := closeLearn_own f l r (zoneControl f (learnCommitted f l m s))
  dsimp only
  rw [endLearn_eq, hfan', hwork', hdriven]
  refine ⟨LearnEnded.close r hw (by simp [zoneControl, learnCommitted, updFan_slots]) ?_ hmin htable hmask
    (hspeed.trans (FanRec.committed_fullSpeed _ l m)), FanRec.driven_backAt _ _, fun hne => ?_⟩
  · rw [hcounts]
    split <;> rfl
  · rw [hcounts, if_neg hne]

/-- A learn that ends NO_SPIN keeps the learned min and leaves its fan FAILED (R126). -/
theorem noSpin_ended (f : FanId) (l : Learn) (hw : s.mem.wf = true) :
    let t := noSpin f l s
    LearnEnded f l .noSpin (s.fan f).learnedMin s t ∧ (t.fan f).state = .failed ∧ (t.fan f).duty = 1023 ∧
    t.thc.failedFans[f] = true := by
  obtain ⟨hfan, hwork, -⟩ := learnCommitted_own f l (s.fan f).learnedMin s
  obtain ⟨hfailed, hlearn, hset⟩ := enterFailed_own f (learnCommitted f l (s.fan f).learnedMin s)
  rw [hfan] at hfailed
  rw [hwork] at hlearn
  obtain ⟨hfan', -, hset'⟩ := closeLearn_own f l .noSpin
    (enterFailed f (learnCommitted f l (s.fan f).learnedMin s))
  dsimp only
  rw [noSpin_eq, hset', hset, hfan', hfailed]
  refine ⟨LearnEnded.close .noSpin hw ?_ hlearn ?_ ?_ ?_ ?_, rfl, rfl, rfl⟩
  · simp [enterFailed, learnCommitted, updFan_slots, deliverFailed_slots]
  all_goals
    rw [hfailed]
    rfl

/-- A fan that goes to a level of its learn (R125). -/
theorem visitLevel_own (f : FanId) (l : Learn) (n : Fin 8) (s : State) :
    (visitLevel f l n s).fan f = { s.fan f with state := .learning, duty := levelDuty n } ∧
    ((visitLevel f l n s).fanWork f).learn = some { l with level := n, settled := 0, readings := 0 } := by
  unfold visitLevel
  rw [fan_deliverFans, fanWork_deliverFans, fan_updFan, fanWork_updFan, fanWork_updWork, if_pos rfl, if_pos rfl]
  exact ⟨rfl, rfl⟩

/-- The cases of a complete level: the next one below, the lowest one good, the one before, or none before (R126). -/
theorem judgeLevel_next {l : Learn} {rpm : Nat} {n : Fin 8} (h : (s.fan f).threshold ≤ rpm)
    (hn : nextLearnLevel l.mask l.level = some n) : judgeLevel f l rpm s = visitLevel f l n s := by
  rw [judgeLevel, if_pos h, hn]

theorem judgeLevel_lowest {l : Learn} {rpm : Nat} (h : (s.fan f).threshold ≤ rpm)
    (hn : nextLearnLevel l.mask l.level = none) :
    judgeLevel f l rpm s = endLearn f l .ok (levelDuty l.level) s := by
  rw [judgeLevel, if_pos h, hn]

theorem judgeLevel_before {l : Learn} {rpm : Nat} {n : Fin 8} (h : ¬ (s.fan f).threshold ≤ rpm)
    (hn : levelBefore l = some n) : judgeLevel f l rpm s = endLearn f l .ok (levelDuty n) s := by
  rw [judgeLevel, if_neg h, hn]

theorem judgeLevel_first {l : Learn} {rpm : Nat} (h : ¬ (s.fan f).threshold ≤ rpm) (hn : levelBefore l = none) :
    judgeLevel f l rpm s = noSpin f l s := by
  rw [judgeLevel, if_neg h, hn]

/-- The cases of a learning fan's gate: it settles, a reading agrees with the one before, five do not, or another
follows (R125, R126). -/
theorem learnGate_settles {l : Learn} (h : l.settled < 3) : learnGate f l s =
    updWork f (fun w => { w with learn := some { l.gated with settled := l.settled + 1 } }) s := if_pos h

/-- A reading with one before it at the level that it agrees with (R125). -/
def Learn.Agrees (l : Learn) (rpm : Nat) : Prop :=
  1 ≤ l.readings ∧ (l.last - rpm + (rpm - l.last)) * 16 ≤ max l.last rpm

theorem Learn.agrees_iff (l : Learn) (rpm : Nat) : 1 ≤ l.readings ∧ agree l.last rpm = true ↔ l.Agrees rpm := by
  rw [agree, decide_eq_true_iff, Learn.Agrees]

theorem learnGate_agrees {l : Learn} {rpm : Nat} (hrpm : (s.fan f).rpm = rpm) (h : ¬ l.settled < 3)
    (ha : l.Agrees rpm) : learnGate f l s = judgeLevel f (l.levelDone rpm) rpm s := by
  unfold learnGate
  dsimp only
  rw [hrpm, if_neg h, if_pos ((l.agrees_iff rpm).mpr ha)]
  rfl

theorem learnGate_unsteady {l : Learn} {rpm : Nat} (hrpm : (s.fan f).rpm = rpm) (h : ¬ l.settled < 3)
    (ha : ¬ l.Agrees rpm) (h5 : 5 ≤ l.readings + 1) :
    learnGate f l s = endLearn f (l.read rpm) .unsteady (unsteadyMin l (s.fan f).learnedMin) s := by
  unfold learnGate
  dsimp only
  rw [hrpm, if_neg h, if_neg (mt (l.agrees_iff rpm).mp ha), if_pos h5]
  rfl

theorem learnGate_reads {l : Learn} {rpm : Nat} (hrpm : (s.fan f).rpm = rpm) (h : ¬ l.settled < 3)
    (ha : ¬ l.Agrees rpm) (h5 : ¬ 5 ≤ l.readings + 1) :
    learnGate f l s = updWork f (fun w => { w with learn := some (l.read rpm) }) s := by
  unfold learnGate
  dsimp only
  rw [hrpm, if_neg h, if_neg (mt (l.agrees_iff rpm).mp ha), if_neg h5]
  rfl

/-- The level visited before the one just completed is the last of the list so far (R126). -/
theorem levelBefore_levelDone (l : Learn) (rpm : Nat) :
    levelBefore (l.levelDone rpm) = l.list.getLast?.map Prod.fst := by
  unfold levelBefore Learn.levelDone
  dsimp only
  rw [List.dropLast_concat]

/-! ### The end of the step -/

theorem LearnEnded.completed {l : Learn} {r : Result} {m : Nat} {n : SlotId} (h : LearnEnded f l r m s t)
    (hn : l.slot = some n) (ht : (s.slot n).state = .taken) :
    Completed t n r (s.slot n).tag s.clock.uptime
      ([byte f.val, l.mask, byte l.list.length, byte l.readings, byte l.level.val, 0xFF] ++ le16 l.minBefore ++ le16 m ++
        optRpm (l.fullSpeed (s.fan f).fullSpeed) ++ le16 l.gates ++
        l.list.flatMap fun p => byte p.1.val :: le16 (p.2 / 5)) := by
  have hdone := h.order n hn ht
  rwa [learnDetail, h.learnedMin, h.fullSpeed] at hdone

/-- A learn that ends at its fan's judgement has ended at the end of the step, no other learn holding its slot. -/
theorem LearnEnded.at_gateStep {l : Learn} {r : Result} {m : Nat} {u : State} (hu : GateReached f s u)
    (hw : s.mem.wf = true)
    (hother : ∀ n, l.slot = some n → NoOtherLearn f n s)
    (h : LearnEnded f l r m u (actGate u f)) : LearnEnded f l r m s (gateStep s) := by
  obtain ⟨hlearn, hmin, htable, hmask, hspeed, horder⟩ := h
  rw [hu.fan] at hspeed
  refine ⟨?_, ?_, ?_, ?_, ?_, fun n hn ht => ?_⟩
  · rw [hu.after.work, hlearn]
  · rw [hu.after.fan, hmin]
  · rw [hu.after.fan, htable]
  · rw [hu.after.fan, hmask]
  · rw [hu.after.fan, hspeed]
    rfl
  · have hslot := hu.slot n (hother n hn)
    have hdone := horder n hn (by rwa [hslot])
    rw [hslot, hu.clock] at hdone
    rw [hu.after.fan]
    exact hu.rest.completed_finishStep ((Changes.refl.actGate f).written (hu.wf hw)).wf hdone

/-- A learning fan's gate goes by the learn under way, the gate's reading and the fan's settings (R125). -/
theorem gate_learning {l : Learn} {u : State} (hu : GateReached f s u) (h : (s.fan f).state = .learning)
    (hl : (s.fanWork f).learn = some l) : actGate u f = learnGate f l u ∧
    (u.fan f).rpm = (s.fanWork f).edges * 60 / (s.fan f).ppr ∧ (u.fan f).threshold = (s.fan f).threshold ∧
    (u.fan f).learnedMin = (s.fan f).learnedMin := by
  refine ⟨actGate_learning (by rw [hu.fan]; exact h) (by rw [hu.work]; exact hl), ?_⟩
  rw [hu.fan]
  exact ⟨rfl, rfl, rfl⟩

/-- A learn that goes on at its level. -/
theorem gate_counted {y : Learn} {u : State} (hu : GateReached f s u)
    (h : actGate u f = updWork f (fun w => { w with learn := some y }) u) :
    (gateStep s).fan f = (s.fan f).measured (s.fanWork f).edges ∧ ((gateStep s).fanWork f).learn = some y := by
  rw [hu.after.fan, hu.after.work, h, fan_updWork, fanWork_updWork, if_pos rfl]
  exact ⟨hu.fan, rfl⟩

/-- A learn that goes on at another level. -/
theorem gate_visited {y : Learn} {n : Fin 8} {u : State} (hu : GateReached f s u)
    (h : actGate u f = visitLevel f y n u) :
    ((gateStep s).fan f).state = .learning ∧ ((gateStep s).fan f).duty = levelDuty n ∧
    ((gateStep s).fan f).learnedMin = (s.fan f).learnedMin ∧
    ((gateStep s).fanWork f).learn = some { y with level := n, settled := 0, readings := 0 } := by
  obtain ⟨hfan, hlearn⟩ := visitLevel_own f y n u
  rw [hu.after.fan, hu.after.work, h, hfan, hu.fan]
  exact ⟨rfl, rfl, rfl, hlearn⟩

/-- A learn that ends with its fan back in zone control. -/
theorem gate_ended {y : Learn} {r : Result} {m : Nat} {u : State} (hu : GateReached f s u) (hw : s.mem.wf = true)
    (hother : ∀ n, y.slot = some n → NoOtherLearn f n s)
    (h : actGate u f = endLearn f y r m u) :
    LearnEnded f y r m s (gateStep s) ∧
    ((gateStep s).fan f).BackAt (zoneOutput s f) ((gateStep s).fan f).learnedMin ∧
    (zoneOutput s f ≠ 0 → ((gateStep s).fanWork f).lowGates = 0) := by
  obtain ⟨hended, hback, hcounts⟩ := endLearn_ended f y r m (hu.wf hw)
  rw [← h, hu.output] at hback hcounts
  rw [← h] at hended
  rw [← hended.learnedMin] at hback
  refine ⟨hended.at_gateStep hu hw hother, ?_⟩
  rw [hu.after.fan, hu.after.work]
  exact ⟨hback, hcounts⟩

/-- A learn that ends NO_SPIN. -/
theorem gate_noSpin {y : Learn} {u : State} (hu : GateReached f s u) (hw : s.mem.wf = true)
    (hother : ∀ n, y.slot = some n → NoOtherLearn f n s)
    (h : actGate u f = noSpin f y u) :
    LearnEnded f y .noSpin (u.fan f).learnedMin s (gateStep s) ∧ ((gateStep s).fan f).state = .failed ∧
    ((gateStep s).fan f).duty = 1023 ∧ (gateStep s).thc.failedFans[f] = true := by
  obtain ⟨hended, hfailed⟩ := noSpin_ended f y (hu.wf hw)
  rw [← h] at hended hfailed
  refine ⟨hended.at_gateStep hu hw hother, ?_⟩
  rw [hu.after.fan, hu.after.failed]
  exact hfailed

/-- The gate's own fields and the readings (R117). -/
theorem gateStep_readings (f : FanId) (s : State) : ((gateStep s).fan f).lastCount = (s.fanWork f).edges ∧
    ((gateStep s).fan f).saturated = decide ((s.fanWork f).edges = 4095) ∧
    ((gateStep s).fan f).rpm = (s.fanWork f).edges * 60 / (s.fan f).ppr ∧ ((gateStep s).fanWork f).edges = 0 := by
  obtain ⟨u, hu⟩ := gate_reached f s
  have hacts := actGate_acts f u
  have hreading := hacts.reading
  have hedges := hacts.edges
  rw [hu.fan] at hreading
  rw [hu.work] at hedges
  simp only [FanRec.reading, Prod.mk.injEq] at hreading
  obtain ⟨hcount, hsaturated, hrpm⟩ := hreading
  rw [hu.after.fan, hu.after.work]
  exact ⟨hcount, hsaturated, hrpm, hedges⟩

/-- What the gate leaves between the readings and the end of the judgements, whichever fans have been judged. -/
structure GateUnderway (s t : State) : Prop where
  timer : t.fanu.gateTimer = some 1000
  zones : ∀ z, (t.zone z).output = (s.zone z).output ∧ (t.zone z).d3 = (s.zone z).d3
  bays : OthersKept (fun _ => False) s t
  drawn : Drawn s → Drawn t

theorem GateUnderway.begin (s : State) : GateUnderway s (gateRead s) := by
  obtain ⟨hthc, hbmon, hpseq, -, -, -, htimer⟩ := gateRead_keeps s
  refine ⟨htimer, fun z => ?_, fun b _ => Or.inl (baySame_of_blocks hbmon hpseq b),
    fun h => h.of_same hpseq fun g => ?_⟩
  · rw [State.zone, State.zone, hthc]
    exact ⟨rfl, rfl⟩
  · rw [(gateRead_own g s).1]
    rfl

theorem GateUnderway.judge (h : GateUnderway s t) (g : FanId) : GateUnderway s (actGate t g) := by
  have hacts := actGate_acts g t
  exact ⟨hacts.timer.trans h.timer,
    fun z => ⟨(hacts.zones z).1.trans (h.zones z).1, (hacts.zones z).2.trans (h.zones z).2⟩,
    h.bays.trans hacts.bays, fun hs => hacts.drawn (h.drawn hs)⟩

theorem gateJudged_underway (s : State) : GateUnderway s (gateJudged s) :=
  List.foldlRecOn _ actGate (GateUnderway.begin s) fun _ hu g _ => hu.judge g

theorem gateStep_blocks (s : State) : (gateStep s).fanu = (gateJudged s).fanu ∧ (gateStep s).thc = (gateJudged s).thc ∧
    (gateStep s).bmon = (gateJudged s).bmon ∧ (gateStep s).pseq = (gateJudged s).pseq := by
  simp [gateStep, gateExpiry_eq]

/-- Settles O51: the readings, the judgement of a fan by its state, the learn's ladder, and the estimate. -/
theorem gateMeasuresAndJudgesEveryFan : Obligations.GateMeasuresAndJudgesEveryFan := by
  refine ⟨fun s => answers_tachGateExpiry ?_, fun s f => answers_tachGateExpiry ?_,
    fun s f l hw hst hl hother => answers_tachGateExpiry ?_, fun s => answers_tachGateExpiry ?_⟩
  · obtain ⟨hfanu, hthc, hbmon, hpseq⟩ := gateStep_blocks s
    obtain ⟨htimer, hzones, hbays, -⟩ := gateJudged_underway s
    refine ⟨by rw [hfanu, htimer], fun f => gateStep_readings f s, fun z => ?_,
      hbays.of_same fun b => baySame_of_blocks hbmon hpseq b, by simp [gateStep], by simp [gateStep]⟩
    rw [State.zone, hthc]
    exact hzones z
  · obtain ⟨u, hu⟩ := gate_reached f s
    intro rpm low out back
    have hstate : (u.fan f).state = (s.fan f).state := by rw [hu.fan]; rfl
    dsimp only [back]
    rw [hu.after.fan, hu.after.work, hu.after.failed]
    refine ⟨fun hst hmin => ?_, fun hst hfirst => ?_, fun hst hsecond => ?_, fun hst => ?_, fun hst => ?_⟩
    · have hjudged := runningGate_judged (s := u) (hstate.trans hst) (by rw [hu.fan]; exact hmin)
      rw [← actGate_running (hstate.trans hst), hu.fan, hu.work] at hjudged
      exact hjudged
    · have hjudged := kickGate_first (s := u) (f := f) (by rw [hu.work]; exact hfirst)
      rw [← actGate_stalled (hstate.trans hst)] at hjudged
      rw [hjudged.1]
      exact ⟨hstate.trans hst, hjudged.2⟩
    · have hjudged := kickGate_judged (s := u) (hstate.trans hst) (by rw [hu.work]; exact hsecond)
      rw [← actGate_stalled (hstate.trans hst), hu.fan, hu.output] at hjudged
      exact hjudged
    · have hjudged := failedGate_judged (s := u) (hstate.trans hst)
      rw [← actGate_failed (hstate.trans hst), hu.fan, hu.work, hu.output] at hjudged
      exact hjudged
    · rw [actGate_idle (by rwa [hstate]), hu.fan]
      exact ⟨rfl, rfl⟩
  · obtain ⟨u, hu⟩ := gate_reached f s
    intro rpm g read agrees done stays ends out back duty below
    obtain ⟨hgate, hrpm, hthreshold, hmin⟩ := gate_learning hu hst hl
    have hslot : ∀ n, l.slot = some n → NoOtherLearn f n s := fun n hn g y hg hy hyn => hg (hother g y n hy hyn hn)
    have hstays : ∀ {y}, actGate u f = updWork f (fun w => { w with learn := some y }) u →
        stays ∧ ((gateStep s).fanWork f).learn = some y := fun h => by
      obtain ⟨hfan, hlearn⟩ := gate_counted hu h
      dsimp only [stays]
      rw [hfan]
      exact ⟨⟨hst, rfl, rfl, rfl⟩, hlearn⟩
    have hends : ∀ {x r m}, LearnEnded f { read with list := x } r m s (gateStep s) → ends { read with list := x } r m :=
      fun h => ⟨h.learn, h.learnedMin, h.table, h.mask, h.fullSpeed, fun _ hn ht => h.completed hn ht⟩
    have hback : ∀ {x r m}, actGate u f = endLearn f { read with list := x } r m u →
        ends { read with list := x } r m ∧ back := fun {x r m} h => by
      obtain ⟨hended, ⟨hstate, hduty⟩, hcounts⟩ := gate_ended (y := { read with list := x }) hu hw hslot h
      exact ⟨hends hended, hstate, hduty, hcounts⟩
    split_ifs with hsettled hagree hturns hfifth
    · exact hstays (hgate.trans (learnGate_settles hsettled))
    · have hlevel := hgate.trans (learnGate_agrees hrpm hsettled hagree)
      rw [← hthreshold] at hturns
      rw [show below = nextLearnLevel l.mask l.level from rfl]
      cases hn : nextLearnLevel l.mask l.level with
      | some n => exact gate_visited hu (hlevel.trans (judgeLevel_next hturns hn))
      | none => exact hback (hlevel.trans (judgeLevel_lowest hturns hn))
    · have hlevel := hgate.trans (learnGate_agrees hrpm hsettled hagree)
      have hbefore := levelBefore_levelDone l rpm
      rw [← hthreshold] at hturns
      cases hp : l.list.getLast? with
      | some p =>
        rw [hp] at hbefore
        exact hback (hlevel.trans (judgeLevel_before hturns hbefore))
      | none =>
        rw [hp] at hbefore
        obtain ⟨hended, hfailed⟩ := gate_noSpin (y := done) hu hw hslot (hlevel.trans (judgeLevel_first hturns hbefore))
        rw [hmin] at hended
        exact ⟨hends (x := done.list) hended, hfailed⟩
    · have hunsteady := hgate.trans (learnGate_unsteady hrpm hsettled hagree hfifth)
      rw [unsteadyMin, hmin] at hunsteady
      cases hp : l.list.getLast? <;> rw [hp] at hunsteady <;> exact hback hunsteady
    · exact hstays (hgate.trans (learnGate_reads hrpm hsettled hagree hfifth))
  · obtain ⟨hfanu, -, -, hpseq⟩ := gateStep_blocks s
    intro h
    exact ((gateJudged_underway s).drawn h).of_same hpseq fun g => congrArg fanUnits (fan_of_fanu hfanu g).1

end Sys2Proof.Machine

/-! SUPPORT. The Light Engine channel by channel: an operation on one channel gives that channel a value worked out from
its own record and the pattern table, and to the other channels does no more than the sync restarts of its gate. -/

namespace Sys2Proof.Machine

variable {p : Pattern} {ch x y : Channel} {l m : Lgt} {c d : Chan} {i : PatId} {r : Lgt × List Chan}

/-! ### What envelopes and gates leave of a channel

`darken` wipes the running state of a channel; two records that darken alike have the same layers, drive, LOCATE timer,
deadline and group. -/

@[simp] theorem darken_beginDecay : darken (beginDecay p ch) = darken ch := by
  unfold beginDecay
  split <;> rfl

@[simp] theorem darken_beginAttack : darken (beginAttack p ch) = darken ch := by
  unfold beginAttack
  split
  · exact darken_beginDecay
  · rfl

@[simp] theorem darken_beginRelease : darken (beginRelease p ch) = darken ch := by
  unfold beginRelease
  split <;> rfl

@[simp] theorem darken_moveLevel : darken (moveLevel p ch) = darken ch := by
  unfold moveLevel
  split
  · split
    · exact darken_beginDecay
    · rfl
  · split <;> rfl
  · split <;> rfl
  · rfl
  · rfl

@[simp] theorem darken_newOpening : darken (newOpening p ch) = darken ch := darken_beginAttack

theorem darken_eq_iff : darken x = darken ch ↔ SameDrive ch x ∧ x.group = ch.group := by
  simp only [darken, Channel.mk.injEq, true_and]
  exact ⟨fun ⟨ha, ho, hl, hd, ht, hy, hp, hg⟩ => ⟨⟨ha, ho, hl, hy, hp, ht, hd⟩, hg⟩,
    fun ⟨⟨ha, ho, hl, hy, hp, ht, hd⟩, hg⟩ => ⟨ha, ho, hl, hd, ht, hy, hp, hg⟩⟩

theorem drive_of_darken (h : darken x = darken ch) : SameDrive ch x := (darken_eq_iff.mp h).1

theorem group_of_darken (h : darken x = darken ch) : x.group = ch.group := (darken_eq_iff.mp h).2

/-- The gate with its counts, which an envelope does not move (R137, R138). -/
def Channel.gating (ch : Channel) : Gate × Nat × Nat := (ch.gate, ch.count, ch.openings)

@[simp] theorem gating_beginDecay : (beginDecay p ch).gating = ch.gating := by
  unfold beginDecay
  split <;> rfl

@[simp] theorem gating_beginAttack : (beginAttack p ch).gating = ch.gating := by
  unfold beginAttack
  split
  · exact gating_beginDecay
  · rfl

@[simp] theorem gating_beginRelease : (beginRelease p ch).gating = ch.gating := by
  unfold beginRelease
  split <;> rfl

@[simp] theorem gating_moveLevel : (moveLevel p ch).gating = ch.gating := by
  unfold moveLevel
  split
  · split
    · exact gating_beginDecay
    · rfl
  · split <;> rfl
  · split <;> rfl
  · rfl
  · rfl

/-! ### One channel of LGT -/

theorem chan_setChan (l : Lgt) (c d : Chan) (ch : Channel) :
    (l.setChan c ch).chans[d] = if d = c then ch else l.chans[d] := getFin_set _ _ _ _

theorem chan_setChan_ne (h : d ≠ c) : (l.setChan c ch).chans[d] = l.chans[d] := by rw [chan_setChan, if_neg h]

theorem setChan_setChan : (l.setChan c x).setChan c y = l.setChan c y := by
  unfold Lgt.setChan
  congr 1
  exact vector_ext fun d => by simp only [getFin_set]; split <;> rfl

theorem setChan_eq_self (h : ch = l.chans[c]) : l.setChan c ch = l := by
  subst h
  have : l.chans.set c l.chans[c] = l.chans := vector_ext fun d => by rw [getFin_set]; split <;> simp_all
  unfold Lgt.setChan
  rw [this]

/-- LGT but for its channels. -/
def Lgt.fixed (l : Lgt) : (Vector Pattern 16 × Vector AutoEntry 8) × (Vector Condition 24 × Vector Bool 24) × Timer :=
  (l.tables, (l.cond, l.warn), l.stepTimer)

theorem fixed_tables (h : m.fixed = l.fixed) : m.tables = l.tables := congrArg Prod.fst h

theorem tables_patterns (h : m.tables = l.tables) : m.patterns = l.patterns := congrArg Prod.fst h

theorem tables_autoMap (h : m.tables = l.tables) : m.autoMap = l.autoMap := congrArg Prod.snd h

theorem fixed_patterns (h : m.fixed = l.fixed) : m.patterns = l.patterns := tables_patterns (fixed_tables h)

@[simp] theorem setChan_fixed (l : Lgt) (c : Chan) (ch : Channel) : (l.setChan c ch).fixed = l.fixed := rfl

/-- What holds of LGT through every step of a chain holds at its end. -/
theorem foldl_invariant {α β : Type} {I : β → Prop} {f : β → α → β} (as : List α)
    (hf : ∀ a ∈ as, ∀ l, I l → I (f l a)) {l : β} (h : I l) : I (as.foldl f l) :=
  List.foldlRecOn as f h fun l hl a ha => hf a ha l hl

/-! ### Sync restarts (R148) -/

/-- A channel after a sync restart. -/
def Channel.reopened (w : Vector Pattern 16) (ch : Channel) : Channel :=
  match ch.pattern with
  | none => ch
  | some i => newOpening w[i] ch

@[simp] theorem darken_reopened {w : Vector Pattern 16} : darken (ch.reopened w) = darken ch := by
  unfold Channel.reopened
  split <;> simp

theorem reopened_of_pattern {w : Vector Pattern 16} (h : ch.pattern = some i) :
    ch.reopened w = newOpening w[i] ch := by simp only [Channel.reopened, h]

theorem syncRestart_eq (l : Lgt) (c : Chan) : syncRestart l c = l.setChan c (l.chans[c].reopened l.patterns) := by
  unfold syncRestart
  split
  · rename_i h
    exact (setChan_eq_self (by simp only [Channel.reopened, h])).symm
  · rename_i i h
    rw [reopened_of_pattern h]

/-- Each channel of a list without repetition makes its own sync restart. -/
theorem chan_syncRestarts {ds : List Chan} (hn : ds.Nodup) :
    (ds.foldl syncRestart l).chans[d] = if d ∈ ds then l.chans[d].reopened l.patterns else l.chans[d] := by
  induction ds generalizing l with
  | nil => simp
  | cons e rest ih =>
    obtain ⟨he, hrest⟩ := List.nodup_cons.mp hn
    rw [List.foldl_cons, ih hrest, syncRestart_eq]
    by_cases hd : d = e
    · subst hd
      rw [if_neg he, setChan_self, if_pos List.mem_cons_self]
    · rw [chan_setChan_ne hd]
      simp only [List.mem_cons, hd, false_or]
      rfl

theorem syncRestarts_fixed (ds : List Chan) (l : Lgt) : (ds.foldl syncRestart l).fixed = l.fixed :=
  foldl_invariant (I := fun m : Lgt => m.fixed = l.fixed) ds
    (fun c _ m h => by rw [syncRestart_eq, setChan_fixed]; exact h) rfl

/-- A channel that follows `c` is another cycling member of its group, not in its last opening; and `c` leads. -/
theorem mem_followers : d ∈ followers l c ↔ leader l l.chans[c].group = some c ∧ d ≠ c ∧
    l.chans[d].group = l.chans[c].group ∧ cycling l d = true ∧
    ∃ i, l.chans[d].pattern = some i ∧ lastOpening l.patterns[i] l.chans[d] = false := by
  have last : (match l.chans[d].pattern with
      | none => false
      | some i => !lastOpening l.patterns[i] l.chans[d]) = true ↔
      ∃ i, l.chans[d].pattern = some i ∧ lastOpening l.patterns[i] l.chans[d] = false := by
    split <;> simp_all only [reduceCtorEq, false_and, exists_false, Option.some.injEq, Bool.not_eq_eq_eq_not,
      Bool.not_true, exists_eq_left', Bool.false_eq_true]
  unfold followers
  split
  · rename_i h
    rw [List.mem_filter, follows, Bool.and_eq_true, Bool.and_eq_true, Bool.and_eq_true, decide_eq_true_eq,
      decide_eq_true_eq, and_assoc, and_assoc]
    exact ⟨fun ⟨_, hne, hg, hc, hl⟩ => ⟨h, hne, hg, hc, last.mp hl⟩,
      fun ⟨_, hne, hg, hc, hl⟩ => ⟨List.mem_finRange d, hne, hg, hc, last.mpr hl⟩⟩
  · rename_i h
    exact ⟨fun hd => absurd hd List.not_mem_nil, fun hd => absurd hd.1 h⟩

theorem followers_nodup : (followers l c).Nodup := by
  unfold followers
  split
  · exact (List.nodup_finRange 48).filter _
  · exact List.nodup_nil

/-! ### The turn of one channel -/

/-- Channel `c` takes the value `ch`; where its gate opens by that, its followers restart, and are named (R148). -/
inductive Turns (l : Lgt) (c : Chan) (ch : Channel) : Lgt × List Chan → Prop where
  | quiet : Turns l c ch (l.setChan c ch, [])
  | opens : Turns l c ch (gateOpened (l.setChan c ch) c)

theorem Turns.stays (h : ch = l.chans[c]) : Turns l c ch (l, []) := by
  have := Turns.quiet (l := l) (c := c) (ch := ch)
  rwa [setChan_eq_self h] at this

/-- What the channel was before its turn does not count. -/
theorem Turns.of_setChan (h : Turns (l.setChan c x) c ch r) : Turns l c ch r := by
  cases h with
  | quiet => rw [setChan_setChan]; exact .quiet
  | opens => rw [setChan_setChan]; exact .opens

theorem Turns.named (h : Turns l c ch r) (hd : d ∈ r.2) : d ∈ followers (l.setChan c ch) c := by
  cases h with
  | quiet => cases hd
  | opens => exact hd

theorem Turns.chan (h : Turns l c ch r) (d : Chan) : r.1.chans[d] =
    if d = c then ch else if d ∈ r.2 then l.chans[d].reopened l.patterns else l.chans[d] := by
  cases h with
  | quiet => simpa using chan_setChan l c d ch
  | opens =>
    refine (chan_syncRestarts followers_nodup).trans ?_
    change (if d ∈ followers (l.setChan c ch) c then _ else _) =
      if d = c then ch else if d ∈ followers (l.setChan c ch) c then _ else _
    by_cases hd : d = c
    · subst hd
      rw [if_neg fun h => (mem_followers.mp h).2.1 rfl, if_pos rfl, setChan_self]
    · rw [if_neg hd, chan_setChan_ne hd]
      rfl

theorem Turns.self (h : Turns l c ch r) : r.1.chans[c] = ch := by rw [h.chan, if_pos rfl]

/-- Another channel keeps its layers, its drive and its group: at most its gate opens anew. -/
theorem Turns.darken_other (h : Turns l c ch r) (hd : d ≠ c) : darken r.1.chans[d] = darken l.chans[d] := by
  rw [h.chan, if_neg hd]
  split <;> simp

theorem Turns.fixed (h : Turns l c ch r) : r.1.fixed = l.fixed := by
  cases h with
  | quiet => rfl
  | opens => exact syncRestarts_fixed _ _

/-! ### Driving (R140, R141) -/

/-- A channel in a fresh cycle of a pattern (R141). -/
def Channel.fresh (p : Pattern) (ch : Channel) : Channel :=
  beginAttack p { ch with level := min ch.level (levelOf p.peak), gate := .opened, count := 0, openings := 1 }

@[simp] theorem darken_fresh : darken (ch.fresh p) = darken ch := darken_beginAttack

theorem gating_fresh : (ch.fresh p).gating = (.opened, 0, 1) := gating_beginAttack

/-- A channel driven by the layer that should drive it, in a fresh cycle or dark (R140, R141). -/
def Channel.driven (w : Vector Pattern 16) (ch : Channel) : Channel :=
  match (driving ch).2 with
  | none => darken { ch with layer := (driving ch).1, pattern := (driving ch).2 }
  | some i => Channel.fresh w[i] { ch with layer := (driving ch).1, pattern := (driving ch).2 }

/-- A channel driven anew where its driving layer or pattern has changed (R141). -/
def Channel.rechosen (w : Vector Pattern 16) (ch : Channel) : Channel :=
  if driving ch = (ch.layer, ch.pattern) then ch else ch.driven w

theorem driven_of_none {w : Vector Pattern 16} (h : (driving ch).2 = none) :
    ch.driven w = darken { ch with layer := (driving ch).1, pattern := (driving ch).2 } := by
  unfold Channel.driven
  split
  · rfl
  · rename_i hi
    cases h.symm.trans hi

theorem driven_of_some {w : Vector Pattern 16} (h : (driving ch).2 = some i) :
    ch.driven w = Channel.fresh w[i] { ch with layer := (driving ch).1, pattern := (driving ch).2 } := by
  unfold Channel.driven
  split
  · rename_i hn
    cases h.symm.trans hn
  · rename_i j hj
    cases h.symm.trans hj
    rfl

/-- A channel, driven by the layer it should be driven by, keeps its layers and its group. -/
theorem darken_driven (w : Vector Pattern 16) (ch : Channel) :
    darken (ch.driven w) = darken { ch with layer := (driving ch).1, pattern := (driving ch).2 } := by
  unfold Channel.driven
  split
  · rfl
  · exact darken_fresh

theorem darken_rechosen (w : Vector Pattern 16) (ch : Channel) :
    darken (ch.rechosen w) = darken { ch with layer := (driving ch).1, pattern := (driving ch).2 } := by
  unfold Channel.rechosen
  split
  · rename_i h
    rw [h]
  · exact darken_driven w ch

theorem freshCycle_turns (h : l.chans[c].pattern = some i) :
    Turns l c (l.chans[c].fresh l.patterns[i]) (freshCycle l c) := by
  unfold freshCycle
  split
  · rename_i hn
    cases h.symm.trans hn
  · rename_i j hj
    cases h.symm.trans hj
    exact .opens

/-- A channel takes a new record with a driving pattern, and begins a fresh cycle. -/
theorem freshCycle_set_turns (h : ch.pattern = some i) :
    Turns l c (ch.fresh l.patterns[i]) (freshCycle (l.setChan c ch) c) := by
  have h' := freshCycle_turns (l := l.setChan c ch) (c := c) (i := i) (by rw [setChan_self]; exact h)
  rw [setChan_self] at h'
  exact h'.of_setChan

theorem freshCycle_none (h : l.chans[c].pattern = none) : freshCycle l c = (l, []) := by simp only [freshCycle, h]

theorem startDriving_turns : Turns l c (l.chans[c].driven l.patterns) (startDriving l c) := by
  unfold startDriving
  dsimp only
  split
  · rename_i hn
    rw [driven_of_none hn]
    exact .quiet
  · rename_i i hi
    rw [driven_of_some hi]
    exact freshCycle_set_turns hi

theorem chooseDriving_turns : Turns l c (l.chans[c].rechosen l.patterns) (chooseDriving l c) := by
  unfold chooseDriving Channel.rechosen
  split
  · exact .stays rfl
  · exact startDriving_turns

/-- A channel takes new layers, and is driven by them. -/
theorem startDriving_set_turns : Turns l c (ch.driven l.patterns) (startDriving (l.setChan c ch) c) := by
  have h := startDriving_turns (l := l.setChan c ch) (c := c)
  rw [setChan_self] at h
  exact h.of_setChan

theorem chooseDriving_set_turns : Turns l c (ch.rechosen l.patterns) (chooseDriving (l.setChan c ch) c) := by
  have h := chooseDriving_turns (l := l.setChan c ch) (c := c)
  rw [setChan_self] at h
  exact h.of_setChan

/-- A pattern set on the ORDER layer, or on the LOCATE layer, that drives the channel. -/
theorem driving_locate (h : ch.locate = some i) : driving ch = (.locate, some i) := by simp only [driving, h]

theorem driving_order (h : ch.locate = none) (h' : ch.order = some i) : driving ch = (.order, some i) := by
  simp only [driving, h, h']

theorem driving_auto (h : ch.locate = none) (h' : ch.order = none) : driving ch = (.auto, ch.auto) := by
  simp only [driving, h, h']

/-! ### Turns one after another -/

section TurnByTurn

variable {α β : Type} {place : α → Chan} {f : Lgt → α → Lgt} {g : Channel → β}

/-- What `g` reads of a channel's layers, drive and group, another channel's turn leaves. -/
theorem Turns.reads_other (hg : ∀ x, g (darken x) = g x) (h : Turns l c ch r) (hd : d ≠ c) :
    g r.1.chans[d] = g l.chans[d] := by
  rw [← hg, h.darken_other hd, hg]

/-- What every turn leaves of a channel's layers, drive and group stays. -/
theorem foldl_turns_keeps (hg : ∀ x, g (darken x) = g x) (hf : ∀ m a, ∃ x ds, Turns m (place a) x (f m a, ds))
    (as : List α) (hkeep : ∀ m, ∀ a ∈ as, place a = d → g (f m a).chans[d] = g m.chans[d]) :
    g (as.foldl f l).chans[d] = g l.chans[d] := by
  refine foldl_invariant (I := fun m : Lgt => g m.chans[d] = g l.chans[d]) as (fun a ha m hm => ?_) rfl
  obtain ⟨_, _, hturn⟩ := hf m a
  by_cases h : place a = d
  · exact (hkeep m a ha h).trans hm
  · exact (hturn.reads_other hg (Ne.symm h)).trans hm

/-- What its own turn gives a channel's layers, drive and group, the turns of the others leave. -/
theorem foldl_turns_at (hg : ∀ x, g (darken x) = g x) (hf : ∀ m a, ∃ x ds, Turns m (place a) x (f m a, ds))
    {as : List α} {v : β} (hv : ∀ m a, m.fixed = l.fixed → place a = d → g (f m a).chans[d] = v)
    (hd : ∃ a ∈ as, place a = d) : g (as.foldl f l).chans[d] = v := by
  have hfixed : ∀ a, ∀ m : Lgt, m.fixed = l.fixed → (f m a).fixed = l.fixed := by
    intro a m hm
    obtain ⟨_, _, hturn⟩ := hf m a
    exact hturn.fixed.trans hm
  obtain ⟨a, ha, hplace⟩ := hd
  obtain ⟨before, after, rfl⟩ := List.append_of_mem ha
  rw [List.foldl_append, List.foldl_cons]
  have hbefore : (before.foldl f l).fixed = l.fixed := foldl_invariant before (fun a _ => hfixed a) rfl
  refine (foldl_invariant (I := fun m : Lgt => m.fixed = l.fixed ∧ g m.chans[d] = v) after
    (fun e _ m hm => ⟨hfixed e m hm.1, ?_⟩) ⟨hfixed a _ hbefore, hv _ a hbefore hplace⟩).2
  obtain ⟨_, _, hturn⟩ := hf m e
  by_cases h : place e = d
  · exact hv m e hm.1 h
  · exact (hturn.reads_other hg (Ne.symm h)).trans hm.2

end TurnByTurn

/-! ### The layers (R142, R144, R145, R146) -/

/-- A channel whose ORDER layer is emptied, or whose LOCATE layer is. -/
def Channel.unordered (ch : Channel) : Channel := { ch with order := none }
def Channel.unlocated (ch : Channel) : Channel := { ch with locate := none, locateTimer := none, deadline := none }

theorem emptyOrder_turns : Turns l c (l.chans[c].unordered.rechosen l.patterns) (emptyOrder l c) :=
  chooseDriving_set_turns

theorem emptyLocate_turns : Turns l c (l.chans[c].unlocated.rechosen l.patterns) (emptyLocate l c) :=
  chooseDriving_set_turns

theorem setLocate_turns (x : Timer) (u : Option Word) : ∃ ds, Turns l c
    ({ l.chans[c] with locate := some i, locateTimer := x, deadline := u }.driven l.patterns) (l.setLocate c i x u, ds) :=
  ⟨_, startDriving_set_turns⟩

theorem refreshAuto_turns : ∃ ds, Turns l c
    (Channel.rechosen l.patterns { l.chans[c] with auto := autoPattern l c }) (refreshAuto l c, ds) :=
  ⟨_, chooseDriving_set_turns⟩

/-- LIGHT SET of a pattern: driven anew where ORDER drives, even by the same index (R144). -/
def Channel.ordered (w : Vector Pattern 16) (i : PatId) (ch : Channel) : Channel :=
  if (driving { ch with order := some i }).1 = .order then Channel.driven w { ch with order := some i }
  else Channel.rechosen w { ch with order := some i }

theorem setOrder_turns : ∃ ds, Turns l c (l.chans[c].ordered l.patterns i) (l.setOrder c i, ds) := by
  unfold Lgt.setOrder Channel.ordered
  dsimp only
  rw [setChan_self]
  split
  · exact ⟨_, startDriving_set_turns⟩
  · exact ⟨_, chooseDriving_set_turns⟩

theorem darken_ordered (w : Vector Pattern 16) (i : PatId) (ch : Channel) : darken (ch.ordered w i) = darken
    { ch with order := some i, layer := (driving { ch with order := some i }).1,
              pattern := (driving { ch with order := some i }).2 } := by
  unfold Channel.ordered
  split
  · exact darken_driven w _
  · exact darken_rechosen w _

/-! ### The lights of a state -/

theorem chan_of_lgt {s : State} (h : s.lgt = l) (c : Chan) : s.chan c = l.chans[c] := by rw [← h]; rfl

end Sys2Proof.Machine

/-! Settles the light events and orders of one channel: ACTIVITY_EDGE (O54), the LOCATE timer's expiry (O56), LIGHT SET and
LIGHT SYNC (O57). -/

namespace Sys2Proof.Machine

variable {s : State} {n : SlotId} {l : Lgt} {c d : Chan} {ch : Channel} {p : Pattern} {i : PatId} {b : Bay}

/-! ### What a light command answers -/

@[simp] theorem setLgt_stepDone (l : Lgt) (s : State) : (setLgt l s).exp.stepDone = s.exp.stepDone :=
  foldl_keeps (fun s => s.exp.stepDone) _ (fun s b => by unfold markIf; split <;> rfl) _ _

/-- An event of LGT between steps: LGT's new state, and nothing else but marks (R149). -/
theorem lightEvent_answers (h : StepNoteEmpty s.exp) (l : Lgt) :
    (finishStep (setLgt l s)).lgt = l ∧ (finishStep (setLgt l s)).mem = s.mem ∧
    EnclosureKept s (finishStep (setLgt l s)) := by
  refine ⟨by simp, ?_, by constructor <;> simp⟩
  rw [finishStep_mem _ (Or.inl ((setLgt_stepDone l s).trans h.2))]
  simp

/-- An order of LGT completes at its take, with LGT's new state. -/
theorem lightOrder_completes (hw : s.mem.wf = true) (l : Lgt) (r : Result) (d : List Byte) :
    TakeCompleted s (finishStep (complete n r d (setLgt l (takeSlot n s)))) n r d ∧
    (finishStep (complete n r d (setLgt l (takeSlot n s)))).lgt = l :=
  ⟨takeCompleted_complete hw (setLgt_slots _ _) (by simp) (by simp) r d, by simp⟩

/-- An order that LGT refuses, or that asks for what is so already, completes and leaves the lights. -/
theorem lightOrder_leaves (hw : s.mem.wf = true) (r : Result) (d : List Byte) :
    TakeCompleted s (finishStep (complete n r d (takeSlot n s))) n r d ∧
    (finishStep (complete n r d (takeSlot n s))).lgt = s.lgt :=
  ⟨takeCompleted_complete hw rfl rfl rfl r d, by simp⟩

/-- A take of the next slot is its owner's order. -/
theorem answers_take {x : Instr} {k : Kind} {act : SlotId → State → State} {P : State → Prop}
    (hb : body x s = take k act s) (h : takeKind k s = some n) (hP : P (finishStep (act n (takeSlot n s)))) :
    Answers x s P :=
  answers_of_body (by rw [hb, take_of_takeKind act h]; exact hP)

/-- A command that writes no settings leaves the light tables. -/
theorem tables_of_setup {t : State} (h : t.setup = s.setup) :
    (finishStep t).lgt.patterns = s.lgt.patterns ∧ (finishStep t).lgt.autoMap = s.lgt.autoMap := by
  have hlgt : (finishStep t).lgt = t.lgt := by simp
  have htables : (finishStep t).lgt.tables = s.lgt.tables := hlgt ▸ congrArg Setup.tables h
  exact ⟨tables_patterns htables, tables_autoMap htables⟩

/-! ### ACTIVITY_EDGE (R139) -/

theorem lastOpening_true : lastOpening p ch = true ↔ p.repeats ≠ 0 ∧ p.repeats ≤ ch.openings := by
  simp [lastOpening]

theorem lastOpening_false : lastOpening p ch = false ↔ p.repeats = 0 ∨ ch.openings < p.repeats := by
  rw [← Bool.not_eq_true, lastOpening_true]
  omega

/-- A channel after an activity edge: its gate dips, or ATTACK begins again. -/
def Channel.dipped (p : Pattern) (ch : Channel) : Channel :=
  if p.offTime = 0 then beginAttack p { ch with gate := .opened, count := 0 }
  else beginRelease p { ch with gate := .dip, count := 0 }

/-- A channel after an activity edge that reaches it. -/
def Channel.edged (w : Vector Pattern 16) (ch : Channel) : Channel :=
  match ch.pattern with
  | none => ch
  | some i =>
    if w[i].activity = true ∧ ch.gate = .opened ∧ lastOpening w[i] ch = false then ch.dipped w[i] else ch

theorem edged_acts {w : Vector Pattern 16} (hi : ch.pattern = some i) (ha : w[i].activity = true)
    (hg : ch.gate = .opened) (hl : lastOpening w[i] ch = false) : ch.edged w = ch.dipped w[i] := by
  simp only [Channel.edged, hi]
  exact if_pos ⟨ha, hg, hl⟩

theorem edged_ignored {w : Vector Pattern 16} (h : ch.pattern = none ∨ ch.gate ≠ .opened ∨
      ∃ i, ch.pattern = some i ∧ (w[i].activity = false ∨ lastOpening w[i] ch = true)) : ch.edged w = ch := by
  rcases h with hn | hclosed | ⟨i, hi, hq⟩
  · simp only [Channel.edged, hn]
  · unfold Channel.edged
    split
    · rfl
    · exact if_neg fun h => hclosed h.2.1
  · simp only [Channel.edged, hi]
    refine if_neg fun ⟨ha, _, hl⟩ => ?_
    simp only [ha, hl, Bool.true_eq_false, Bool.false_eq_true, or_self] at hq

theorem activityDip_eq (l : Lgt) (c : Chan) : activityDip l c = l.setChan c (l.chans[c].edged l.patterns) := by
  unfold activityDip
  dsimp only
  split
  · rename_i hn
    exact (setChan_eq_self (edged_ignored (Or.inl hn))).symm
  · rename_i i hi
    split
    · rename_i h
      obtain ⟨ha, hg, hl⟩ := h
      rw [edged_acts hi ha hg hl, Channel.dipped]
      split <;> rfl
    · rename_i h
      refine (setChan_eq_self ?_).symm
      simp only [Channel.edged, hi]
      exact if_neg h

theorem chanBay_eq_iff : chanBay c = b ↔ c = statusChan b ∨ c = attentionChan b := by
  simp only [chanBay, statusChan, attentionChan, Fin.ext_iff]
  omega

theorem statusChan_ne_attentionChan (b b' : Bay) : statusChan b ≠ attentionChan b' := by
  simp only [statusChan, attentionChan, ne_eq, Fin.ext_iff]
  omega

/-- An edge reaches the two channels of its bay, each as it stood. -/
theorem chan_activity (s : State) (b : Bay) (c : Chan) :
    (activityDip (activityDip s.lgt (statusChan b)) (attentionChan b)).chans[c] =
      if chanBay c = b then (s.chan c).edged s.lgt.patterns else s.chan c := by
  rw [activityDip_eq, activityDip_eq, chan_setChan_ne (statusChan_ne_attentionChan b b).symm, chan_setChan, chan_setChan]
  by_cases hs : c = statusChan b
  · rw [if_neg (hs ▸ statusChan_ne_attentionChan b b), if_pos hs, if_pos (chanBay_eq_iff.mpr (Or.inl hs)), hs]
    rfl
  · by_cases ha : c = attentionChan b
    · rw [if_pos ha, if_pos (chanBay_eq_iff.mpr (Or.inr ha)), ha]
      rfl
    · rw [if_neg ha, if_neg hs, if_neg fun h => (chanBay_eq_iff.mp h).elim hs ha]
      rfl

/-- How ATTACK begins (R136, R137): an instant phase, or one at its target, ends as it begins. -/
theorem beginAttack_eq (p : Pattern) (ch : Channel) : beginAttack p ch =
    if p.attack ≠ 0 ∧ ch.level ≠ p.peak * 257 then { ch with phase := .attack }
    else if p.decay ≠ 0 ∧ p.peak * 257 ≠ p.sustain * 257 then { ch with level := p.peak * 257, phase := .decay }
    else { ch with level := p.sustain * 257, phase := .sustain } := by
  unfold beginAttack beginDecay levelOf
  dsimp only
  by_cases ha : p.attack = 0 ∨ ch.level = p.peak * 257
  · rw [if_pos ha, if_neg (not_and'.mpr fun hl h0 => ha.elim h0 hl)]
    by_cases hd : p.decay = 0 ∨ p.peak * 257 = p.sustain * 257
    · rw [if_pos hd, if_neg (not_and'.mpr fun hl h0 => hd.elim h0 hl)]
    · rw [if_neg hd, if_pos (not_or.mp hd)]
  · rw [if_neg ha, if_pos (not_or.mp ha)]

/-- A channel whose gate dips: its envelope is in RELEASE, or at rest at 0 (R139). -/
theorem dipped_offTime (h : p.offTime ≠ 0) : (ch.dipped p).gate = .dip ∧
    (if p.release = 0 ∨ ch.level = 0 then (ch.dipped p).level = 0 ∧ (ch.dipped p).phase = .rest
    else (ch.dipped p).level = ch.level ∧ (ch.dipped p).phase = .release) := by
  rw [Channel.dipped, if_neg h]
  refine ⟨congrArg Prod.fst gating_beginRelease, ?_⟩
  unfold beginRelease
  dsimp only
  split <;> exact ⟨rfl, rfl⟩

/-- An edge leaves the openings and the drive, and starts the gate's count again (R139). -/
theorem dipped_keeps (p : Pattern) (ch : Channel) :
    (ch.dipped p).count = 0 ∧ (ch.dipped p).openings = ch.openings ∧ (ch.dipped p).pattern = ch.pattern := by
  unfold Channel.dipped
  split
  · exact ⟨congrArg (·.2.1) gating_beginAttack, congrArg (·.2.2) gating_beginAttack,
      (drive_of_darken darken_beginAttack).pattern⟩
  · exact ⟨congrArg (·.2.1) gating_beginRelease, congrArg (·.2.2) gating_beginRelease,
      (drive_of_darken darken_beginRelease).pattern⟩

/-- Settles O54: a channel of the bay that acts on the edge dips or begins ATTACK again, every other one stays. -/
theorem activityEdgeDipsTheGate : Obligations.ActivityEdgeDipsTheGate := by
  refine ⟨fun s b hnote => ?_, beginAttack_eq⟩
  obtain ⟨hlgt, hmem, hkept⟩ := lightEvent_answers hnote (activityDip (activityDip s.lgt (statusChan b)) (attentionChan b))
  have htables := tables_of_setup (body_setup (.activityEdge b) s rfl)
  have hchan : ∀ c, (finishStep (activity b s)).chan c =
      if chanBay c = b then (s.chan c).edged s.lgt.patterns else s.chan c :=
    fun c => (chan_of_lgt hlgt c).trans (chan_activity s b c)
  refine answers_of_body ⟨fun c hc p hp ha hg hl => ?_, fun c hc => ?_, htables.1, htables.2, hkept, hmem⟩
  · have hdip := (hchan c).trans ((if_pos hc).trans (edged_acts hp ha hg (lastOpening_false.mpr hl)))
    obtain ⟨hcount, hopenings, hpattern⟩ := dipped_keeps s.lgt.patterns[p] (s.chan c)
    have hbody : (finishStep (body (.activityEdge b) s)).chan c = _ := hdip
    rw [hbody]
    exact ⟨hcount, hopenings, hpattern.trans hp, dipped_offTime, fun h0 => if_pos h0⟩
  · refine (hchan c).trans ?_
    split
    · rename_i hb
      refine edged_ignored (hc.resolve_left (absurd hb) |>.imp_right (Or.imp_right ?_))
      exact fun ⟨p, hp, hq⟩ => ⟨p, hp, hq.imp_right lastOpening_true.mpr⟩
    · rfl

/-! ### The LOCATE timer (R146) -/

/-- Settles O56: the LOCATE layer is emptied, and R140 chooses the layer that drives. -/
theorem locateTimerEndsTheLocateLayer : Obligations.LocateTimerEndsTheLocateLayer := by
  intro s b c hnote htimer
  obtain ⟨hlgt, hmem, hkept⟩ := lightEvent_answers hnote (emptyLocate s.lgt c).1
  have hbody : body (.locateTimerExpiry b) s = setLgt (emptyLocate s.lgt c).1 s := if_pos htimer
  have htables := tables_of_setup (body_setup (.locateTimerExpiry b) s rfl)
  rw [hbody] at htables
  have hchan : (finishStep (setLgt (emptyLocate s.lgt c).1 s)).chan c =
      (s.chan c).unlocated.rechosen s.lgt.patterns := (chan_of_lgt hlgt c).trans emptyLocate_turns.self
  refine answers_of_body (hbody ▸ ?_)
  rw [hchan]
  have hdark := darken_rechosen s.lgt.patterns (s.chan c).unlocated
  obtain ⟨⟨hauto, horder, hlocate, hlayer, hpattern, htimer', hdeadline⟩, hgroup⟩ := darken_eq_iff.mp hdark
  refine ⟨hlocate, htimer', hdeadline, horder, hauto, hgroup, ?_, htables.1, htables.2, hkept, hmem⟩
  rw [hlayer, hpattern]
  cases horder' : (s.chan c).order with
  | none => exact driving_auto (ch := (s.chan c).unlocated) rfl horder'
  | some i => exact driving_order (ch := (s.chan c).unlocated) rfl horder'

/-! ### LIGHT SET (R144) -/

theorem patternOf_index {x : Byte} (h : i.val = x.toNat) : patternOf x = some (some i) := by
  unfold patternOf
  rw [dif_pos (h ▸ i.isLt)]
  exact congrArg (fun k => some (some k)) (Fin.ext h.symm)

theorem patternOf_none {x : Byte} (h : 16 ≤ x.toNat) (h' : x ≠ 255) : patternOf x = none := by
  unfold patternOf
  rw [dif_neg (Nat.not_lt.mpr h), if_neg h']

theorem patternOf_release {x : Byte} (h : x = 255) : patternOf x = some none := by rw [h]; rfl

/-- The channel a LIGHT SET names. -/
def lightSetChan (n : SlotId) (s : State) : Option Chan :=
  (bayOf (argByte s n 0)).bind fun b => lightChan b (argByte s n 1)

theorem lightSetChan_some (hb : (argByte s n 0).toNat < 24) (hx : (argByte s n 1).toNat < 2)
    (hc : c.val = 2 * (argByte s n 0).toNat + (argByte s n 1).toNat) : lightSetChan n s = some c := by
  have hbay : bayOf (argByte s n 0) = some ⟨(argByte s n 0).toNat, hb⟩ := dif_pos hb
  unfold lightSetChan
  rw [hbay, Option.bind_some, lightChan]
  by_cases h0 : argByte s n 1 = 0
  · rw [if_pos h0, Option.some.injEq, Fin.ext_iff, hc, h0]
    rfl
  · have h1 : argByte s n 1 = 1 := by bv_omega
    rw [if_neg h0, if_pos h1, Option.some.injEq, Fin.ext_iff, hc, h1]
    rfl

theorem lightSetChan_none (h : 24 ≤ (argByte s n 0).toNat ∨ 2 ≤ (argByte s n 1).toNat) : lightSetChan n s = none := by
  unfold lightSetChan bayOf
  by_cases hb : (argByte s n 0).toNat < 24
  · have h2 := h.resolve_left (Nat.not_le.mpr hb)
    have h0 : argByte s n 1 ≠ 0 := by bv_omega
    have h1 : argByte s n 1 ≠ 1 := by bv_omega
    rw [dif_pos hb, Option.bind_some, lightChan, if_neg h0, if_neg h1]
  · rw [dif_neg hb, Option.bind_none]

theorem lightSetOrder_valid {o : Option PatId} (hc : lightSetChan n s = some c)
    (hp : patternOf (argByte s n 2) = some o) : lightSetOrder n s = lightSet n c o s := by
  unfold lightSetOrder
  rw [show (bayOf (argByte s n 0)).bind (fun b => lightChan b (argByte s n 1)) = some c from hc, hp]

theorem lightSetOrder_refused (h : lightSetChan n s = none ∨ patternOf (argByte s n 2) = none) :
    lightSetOrder n s = complete n .badArg [] s := by
  unfold lightSetOrder
  rcases h with hc | hp
  · rw [show (bayOf (argByte s n 0)).bind (fun b => lightChan b (argByte s n 1)) = none from hc]
  · rw [hp]
    split
    · rename_i h
      cases h
    · rfl

/-- What a LIGHT SET makes of the lights (R144): a pattern sets the layer, a release empties one that is set. -/
theorem lightSet_releases (ho : (s.chan c).order.isSome = true) :
    lightSet n c none s = complete n .ok [] (setLgt (emptyOrder s.lgt c).1 s) := if_pos ho

theorem lightSet_already (ho : (s.chan c).order = none) : lightSet n c none s = complete n .already [] s :=
  if_neg (by rw [ho]; nofun)

/-- A LIGHT SET leaves the layers, the drive and the group of every other channel. -/
theorem lightSet_others (hd : d ≠ c) (o : Option PatId) :
    darken (finishStep (lightSet n c o s)).lgt.chans[d] = darken s.lgt.chans[d] := by
  cases o with
  | some i =>
    obtain ⟨_, hturn⟩ := setOrder_turns (l := s.lgt) (c := c) (i := i)
    simpa [lightSet] using hturn.darken_other hd
  | none =>
    cases ho : (s.chan c).order with
    | some j =>
      rw [lightSet_releases (by rw [ho]; rfl)]
      simpa using emptyOrder_turns.darken_other hd
    | none =>
      rw [lightSet_already ho]
      simp

/-- A channel whose ORDER layer a LIGHT SET sets, with no LOCATE layer over it (R144). -/
theorem ordered_drives (w : Vector Pattern 16) (h : ch.locate = none) :
    ch.ordered w i = Channel.fresh w[i] { ch with order := some i, layer := .order, pattern := some i } := by
  have hd : driving { ch with order := some i } = (.order, some i) := driving_order h rfl
  rw [Channel.ordered, if_pos (congrArg Prod.fst hd), driven_of_some (i := i) (congrArg Prod.snd hd), hd]

theorem setOrder_self (s : State) (c : Chan) (i : PatId) :
    (s.lgt.setOrder c i).chans[c] = (s.chan c).ordered s.lgt.patterns i := by
  obtain ⟨_, hturn⟩ := setOrder_turns (l := s.lgt) (c := c) (i := i)
  exact hturn.self

/-! ### LIGHT SYNC (R147) -/

theorem lightSyncOrder_valid {g : Fin 5} (hc : c.val = (argByte s n 0).toNat) (hg : g.val = (argByte s n 1).toNat) :
    lightSyncOrder n s = lightSync n c g s := by
  unfold lightSyncOrder
  rw [dif_pos ⟨hc ▸ c.isLt, hg ▸ g.isLt⟩]
  congr 1
  · exact Fin.ext hc.symm
  · exact Fin.ext hg.symm

theorem lightSyncOrder_refused (h : 48 ≤ (argByte s n 0).toNat ∨ 5 ≤ (argByte s n 1).toNat) :
    lightSyncOrder n s = complete n .badArg [] s := by
  unfold lightSyncOrder
  rw [dif_neg fun hv => h.elim (Nat.not_le.mpr hv.1) (Nat.not_le.mpr hv.2)]

/-- Settles O57: each order by its arguments. -/
theorem lightSetAndLightSync : Obligations.LightSetAndLightSync := by
  constructor
  · intro s n ⟨⟨hw, _⟩, hk⟩ p
    have htables := tables_of_setup (body_setup .lightSet s rfl)
    rw [show body .lightSet s = lightSetOrder n (takeSlot n s) from take_of_takeKind lightSetOrder hk] at htables
    refine answers_take rfl hk ⟨fun c hb hx hc => ?_, fun hbad => ?_, htables.1, htables.2, by constructor <;> simp⟩
    · have hchan : lightSetChan n (takeSlot n s) = some c := lightSetChan_some (s := takeSlot n s) hb hx hc
      refine ⟨fun i hi => ?_, fun hp ho => ?_, fun hp ho => ?_, fun d hd => ?_⟩
      · rw [lightSetOrder_valid (s := takeSlot n s) hchan (patternOf_index hi)]
        obtain ⟨hdone, hlgt⟩ : TakeCompleted s (finishStep (lightSet n c (some i) (takeSlot n s))) n .ok [] ∧ _ :=
          lightOrder_completes hw (s.lgt.setOrder c i) .ok []
        have hself := (chan_of_lgt hlgt c).trans (setOrder_self s c i)
        obtain ⟨⟨-, horder, hlocate, -⟩, -⟩ := darken_eq_iff.mp (darken_ordered s.lgt.patterns i (s.chan c))
        refine ⟨hdone, (congrArg Channel.order hself).trans horder, (congrArg Channel.locate hself).trans hlocate,
          fun hno => ?_⟩
        rw [ordered_drives _ hno] at hself
        obtain ⟨⟨-, -, -, hlayer, hpattern, -⟩, -⟩ := darken_eq_iff.mp ((congrArg darken hself).trans darken_fresh)
        have hgating := (congrArg Channel.gating hself).trans gating_fresh
        exact ⟨hlayer, hpattern, congrArg (·.1) hgating, congrArg (·.2.1) hgating, congrArg (·.2.2) hgating⟩
      · rw [lightSetOrder_valid (s := takeSlot n s) hchan (patternOf_release hp), lightSet_releases (s := takeSlot n s) ho]
        obtain ⟨hdone, hlgt⟩ := lightOrder_completes (n := n) hw (emptyOrder s.lgt c).1 .ok []
        have hself := (chan_of_lgt hlgt c).trans emptyOrder_turns.self
        exact ⟨hdone, (congrArg Channel.order hself).trans (drive_of_darken (darken_rechosen _ _)).order⟩
      · rw [lightSetOrder_valid (s := takeSlot n s) hchan (patternOf_release hp), lightSet_already (s := takeSlot n s) ho]
        exact lightOrder_leaves hw _ _
      · have hothers : darken ((finishStep (lightSetOrder n (takeSlot n s))).chan d) = darken (s.chan d) := by
          cases hp : patternOf p with
          | none =>
            rw [lightSetOrder_refused (s := takeSlot n s) (Or.inr hp)]
            exact congrArg darken (chan_of_lgt (lightOrder_leaves hw _ _).2 d)
          | some o =>
            rw [lightSetOrder_valid (s := takeSlot n s) hchan hp]
            exact lightSet_others hd o
        obtain ⟨⟨hauto, horder, hlocate, -⟩, hgroup⟩ := darken_eq_iff.mp hothers
        exact ⟨horder, hlocate, hauto, hgroup⟩
    · rw [lightSetOrder_refused (s := takeSlot n s)]
      · exact lightOrder_leaves hw _ _
      · rcases hbad with hb | hx | ⟨hp, hp'⟩
        · exact Or.inl (lightSetChan_none (s := takeSlot n s) (Or.inl hb))
        · exact Or.inl (lightSetChan_none (s := takeSlot n s) (Or.inr hx))
        · exact Or.inr (patternOf_none hp hp')
  · intro s n ⟨⟨hw, _⟩, hk⟩
    refine answers_take rfl hk ⟨fun c g hc hg => ?_, fun hbad => ?_, by constructor <;> simp⟩
    · rw [lightSyncOrder_valid (s := takeSlot n s) hc hg]
      obtain ⟨hdone, hlgt⟩ := lightOrder_completes (n := n) hw (s.lgt.setGroup c g)
        (if (s.chan c).group = g then .already else .ok)
        [byte (s.chan c).group.val, optByte ((leader (s.lgt.setGroup c g) g).map fun x => byte x.val)]
      have horder : lightSync n c g (takeSlot n s) = complete n (if (s.chan c).group = g then .already else .ok)
          [byte (s.chan c).group.val, optByte ((leader (s.lgt.setGroup c g) g).map fun x => byte x.val)]
          (setLgt (s.lgt.setGroup c g) (takeSlot n s)) := by
        unfold lightSync
        dsimp only
        rw [setLgt_lgt]
        rfl
      rw [horder, hlgt]
      exact ⟨rfl, hdone⟩
    · rw [lightSyncOrder_refused (s := takeSlot n s) hbad]
      exact lightOrder_leaves hw _ _

end Sys2Proof.Machine

/-! Settles LOCATE (O58), and PATTERN LOAD and AUTO MAP (O59): the orders that concern many channels. -/

namespace Sys2Proof.Machine

variable {s : State} {n : SlotId} {l : Lgt} {c d : Chan} {ch : Channel} {i : PatId} {b : Bay}

/-! ### The bays a LOCATE names (R145) -/

/-- The bays a bay byte names: one, or all by 255. -/
def namedBays (x : Byte) : List Bay := (List.finRange 24).filter fun b => decide (x = 255 ∨ b.val = x.toNat)

theorem mem_namedBays {x : Byte} : b ∈ namedBays x ↔ x = 255 ∨ b.val = x.toNat := by simp [namedBays]

theorem namedBays_all : namedBays 255 = List.finRange 24 := by simp [namedBays]

theorem namedBays_one {x : Byte} (h : x.toNat < 24) (h' : x ≠ 255) : namedBays x = [⟨x.toNat, h⟩] := by
  have hpred : (fun b : Bay => decide (x = 255 ∨ b.val = x.toNat)) = fun b => decide (b = ⟨x.toNat, h⟩) := by
    funext b
    simp only [h', false_or, Fin.ext_iff]
  rw [namedBays, hpred, List.filter_eq, List.count_eq_one_of_mem (List.nodup_finRange 24) (List.mem_finRange _)]
  rfl

theorem baysOf_named {x : Byte} (h : x.toNat < 24 ∨ x = 255) : baysOf x = some (namedBays x) := by
  by_cases hx : x = 255
  · rw [hx, namedBays_all]
    rfl
  · have hlt := h.resolve_right hx
    rw [namedBays_one hlt hx, baysOf, if_neg hx, bayOf, dif_pos hlt, Option.map_some]

theorem length_namedBays {x : Byte} (h : x.toNat < 24 ∨ x = 255) :
    byte (namedBays x).length = if x = 255 then 24 else 1 := by
  by_cases hx : x = 255
  · rw [hx, namedBays_all, List.length_finRange, if_pos rfl]
    rfl
  · rw [namedBays_one (h.resolve_right hx) hx, if_neg hx]
    rfl

theorem length_located (x : Byte) (l : Lgt) : (located (namedBays x) l).length = (List.finRange 24).countP fun b =>
    decide (x = 255 ∨ b.val = x.toNat) && l.chans[attentionChan b].locate.isSome := by
  rw [located, namedBays, List.filter_filter, List.countP_eq_length_filter]
  simp only [Bool.and_comm]

/-! ### LOCATE, bay by bay -/

theorem attentionChan_injective {b b' : Bay} (h : attentionChan b = attentionChan b') : b = b' := by
  simp only [attentionChan, Fin.mk.injEq] at h
  exact Fin.ext (by omega)

theorem locateAll_turns (p : PatId) (x : Timer) (u : Option Word) (m : Lgt) (b : Bay) :
    ∃ y ds, Turns m (attentionChan b) y (m.setLocate (attentionChan b) p x u, ds) :=
  ⟨_, setLocate_turns x u⟩

theorem clearLocate_turns (m : Lgt) (b : Bay) :
    ∃ y ds, Turns m (attentionChan b) y ((emptyLocate m (attentionChan b)).1, ds) :=
  ⟨_, _, emptyLocate_turns⟩

/-- A channel whose LOCATE layer is set is driven by it (R140, R145). -/
theorem darken_setLocate (l : Lgt) (c : Chan) (i : PatId) (x : Timer) (u : Option Word) :
    darken (l.setLocate c i x u).chans[c] = darken { l.chans[c] with
      locate := some i, locateTimer := x, deadline := u, layer := .locate, pattern := some i } := by
  obtain ⟨_, hturn⟩ := setLocate_turns (l := l) (c := c) (i := i) x u
  rw [hturn.self, darken_driven, driving_locate rfl]

theorem darken_emptyLocate (l : Lgt) (c : Chan) : darken (emptyLocate l c).1.chans[c] =
    darken { l.chans[c].unlocated with layer := (driving l.chans[c].unlocated).1,
                                       pattern := (driving l.chans[c].unlocated).2 } := by
  rw [emptyLocate_turns.self, darken_rechosen]

theorem locateAll_order (bs : List Bay) (p : PatId) (k : Nat) (u : Word) (l : Lgt) (c : Chan) :
    (locateAll bs p k u l).chans[c].order = l.chans[c].order :=
  foldl_turns_keeps (g := Channel.order) (fun _ => rfl) (locateAll_turns p _ _) bs fun m b _ h => by
    rw [← h, (drive_of_darken (darken_setLocate _ _ _ _ _)).order]

theorem locateAll_others {bs : List Bay} (h : ∀ b ∈ bs, c ≠ attentionChan b) (p : PatId) (k : Nat) (u : Word)
    (l : Lgt) : (locateAll bs p k u l).chans[c].locate = l.chans[c].locate :=
  foldl_turns_keeps (g := Channel.locate) (fun _ => rfl) (locateAll_turns p _ _) bs
    fun _ b hb hc => absurd hc.symm (h b hb)

/-- The LOCATE layer of a channel, and what drives it. -/
def Channel.locating (ch : Channel) : (Option PatId × Timer × Option Word) × Layer × Option PatId :=
  ((ch.locate, ch.locateTimer, ch.deadline), ch.layer, ch.pattern)

/-- Each channel named shows the pattern on its LOCATE layer, which drives it (R145). -/
theorem locateAll_named {bs : List Bay} (h : b ∈ bs) (p : PatId) (k : Nat) (u : Word) (l : Lgt) :
    (locateAll bs p k u l).chans[attentionChan b].locating =
      ((some p, locateTimerOf k, deadlineOf k u), .locate, some p) :=
  foldl_turns_at (g := Channel.locating) (fun _ => rfl) (locateAll_turns p _ _) (fun m e _ he => by
    rw [attentionChan_injective he]
    exact congrArg Channel.locating (darken_setLocate m (attentionChan b) p (locateTimerOf k) (deadlineOf k u) :)) ⟨b, h, rfl⟩

theorem clearLocate_order (bs : List Bay) (l : Lgt) (c : Chan) :
    (clearLocate bs l).chans[c].order = l.chans[c].order :=
  foldl_turns_keeps (g := Channel.order) (fun _ => rfl) clearLocate_turns _ fun m b _ h => by
    rw [← h, (drive_of_darken (darken_emptyLocate _ _)).order]
    rfl

/-- A channel that a LOCATE does not name, or whose LOCATE layer is not set, a clearing LOCATE leaves (R145). -/
theorem clearLocate_others {bs : List Bay} (h : ∀ b ∈ located bs l, c ≠ attentionChan b) :
    (clearLocate bs l).chans[c].locate = l.chans[c].locate :=
  foldl_turns_keeps (g := Channel.locate) (fun _ => rfl) clearLocate_turns _
    fun _ b hb hc => absurd hc.symm (h b hb)

theorem clearLocate_named {bs : List Bay} (h : b ∈ bs) (l : Lgt) :
    (clearLocate bs l).chans[attentionChan b].locate = none := by
  by_cases hset : l.chans[attentionChan b].locate.isSome = true
  · exact foldl_turns_at (g := Channel.locate) (fun _ => rfl) clearLocate_turns (fun m e _ he => by
      rw [attentionChan_injective he, (drive_of_darken (darken_emptyLocate _ _)).locate]
      rfl) ⟨b, List.mem_filter.mpr ⟨h, hset⟩, rfl⟩
  · rw [clearLocate_others fun e he heq => ?_]
    · exact Option.not_isSome_iff_eq_none.mp hset
    · rw [attentionChan_injective heq] at hset
      exact hset (List.mem_filter.mp he).2

/-! ### LOCATE (R145) -/

theorem locateOrder_valid {o : Option PatId} (hb : (argByte s n 0).toNat < 24 ∨ argByte s n 0 = 255)
    (hp : patternOf (argByte s n 1) = some o) :
    locateOrder n s = locate n (namedBays (argByte s n 0)) o (min (arg16 s n 2) 255) s := by
  unfold locateOrder
  rw [baysOf_named hb, hp]

theorem locateOrder_refused (h : baysOf (argByte s n 0) = none ∨ patternOf (argByte s n 1) = none) :
    locateOrder n s = complete n .badArg [] s := by
  unfold locateOrder
  rcases h with hb | hp
  · rw [hb]
  · rw [hp]
    split
    · rename_i h
      cases h
    · rfl

theorem locate_sets (hw : s.mem.wf = true) (bs : List Bay) (i : PatId) (k : Nat) :
    TakeCompleted s (finishStep (locate n bs (some i) k (takeSlot n s))) n .ok (le16 k ++ [byte bs.length]) ∧
    (finishStep (locate n bs (some i) k (takeSlot n s))).lgt = locateAll bs i k s.clock.uptime s.lgt :=
  lightOrder_completes hw _ _ _

theorem locate_clears (hw : s.mem.wf = true) (bs : List Bay) (k : Nat) :
    TakeCompleted s (finishStep (locate n bs none k (takeSlot n s))) n
      (if (located bs s.lgt).length = 0 then .already else .ok) (le16 k ++ [byte (located bs s.lgt).length]) ∧
    (finishStep (locate n bs none k (takeSlot n s))).lgt = clearLocate bs s.lgt :=
  lightOrder_completes hw _ _ _

/-- A LOCATE leaves every ORDER layer, and every LOCATE layer it does not name (R145). -/
theorem locate_others (bs : List Bay) (o : Option PatId) (k : Nat) (c : Chan) :
    ((finishStep (locate n bs o k s)).chan c).order = (s.chan c).order ∧
    ((∀ b ∈ bs, c ≠ attentionChan b) → ((finishStep (locate n bs o k s)).chan c).locate = (s.chan c).locate) := by
  cases o with
  | some i =>
    have hlgt : (finishStep (locate n bs (some i) k s)).lgt = locateAll bs i k s.clock.uptime s.lgt := by simp [locate]
    rw [chan_of_lgt hlgt]
    exact ⟨locateAll_order bs i k _ _ c, fun h => locateAll_others h i k _ _⟩
  | none =>
    have hlgt : (finishStep (locate n bs none k s)).lgt = clearLocate bs s.lgt := by simp [locate]
    rw [chan_of_lgt hlgt]
    exact ⟨clearLocate_order bs _ c,
      fun h => clearLocate_others fun b hb => h b (List.mem_filter.mp hb).1⟩

/-- Settles O58: LOCATE of a pattern, of a release, and with an argument out of range. -/
theorem locateSetsOrClearsTheLocateLayer : Obligations.LocateSetsOrClearsTheLocateLayer := by
  intro s n ⟨⟨hw, _⟩, hk⟩ named p timeout chosen found
  have htables := tables_of_setup (body_setup .locate s rfl)
  rw [show body .locate s = locateOrder n (takeSlot n s) from take_of_takeKind locateOrder hk] at htables
  have valid : ∀ o, (named.toNat < 24 ∨ named = 255) → patternOf p = some o →
      locateOrder n (takeSlot n s) = locate n (namedBays named) o timeout (takeSlot n s) :=
    fun o => locateOrder_valid (s := takeSlot n s)
  refine answers_take rfl hk ⟨fun hb i hi => ?_, fun hb hp => ?_, fun hbad => ?_, fun c => ?_, htables.1, htables.2,
    by constructor <;> simp⟩
  · rw [valid _ hb (patternOf_index hi)]
    obtain ⟨hdone, hlgt⟩ := locate_sets (n := n) hw (namedBays named) i timeout
    rw [length_namedBays hb] at hdone
    refine ⟨hdone, fun b hchosen => ?_⟩
    rw [chan_of_lgt hlgt]
    have hnamed := locateAll_named (mem_namedBays.mpr hchosen) i timeout s.clock.uptime s.lgt
    simp only [Channel.locating, Prod.mk.injEq] at hnamed
    obtain ⟨⟨hlocate, htimer, hdeadline⟩, hlayer, hpattern⟩ := hnamed
    exact ⟨hlocate, hlayer, hpattern, htimer, hdeadline⟩
  · rw [valid _ hb (patternOf_release hp)]
    obtain ⟨hdone, hlgt⟩ := locate_clears (n := n) hw (namedBays named) timeout
    rw [length_located] at hdone
    refine ⟨hdone, fun b hchosen => ?_⟩
    rw [chan_of_lgt hlgt]
    exact clearLocate_named (mem_namedBays.mpr hchosen) _
  · rw [locateOrder_refused (s := takeSlot n s)]
    · exact lightOrder_leaves hw _ _
    · exact hbad.imp (fun h => baysOf_none h.1 h.2) fun h => patternOf_none h.1 h.2
  · by_cases hvalid : (named.toNat < 24 ∨ named = 255) ∧ (patternOf p).isSome = true
    · obtain ⟨o, ho⟩ := Option.isSome_iff_exists.mp hvalid.2
      rw [valid o hvalid.1 ho]
      obtain ⟨horder, hlocate⟩ := locate_others (s := takeSlot n s) (n := n) (namedBays named) o timeout c
      exact ⟨horder, fun h => hlocate fun b hb => h b (mem_namedBays.mp hb)⟩
    · rw [locateOrder_refused (s := takeSlot n s), chan_of_lgt (lightOrder_leaves hw _ _).2]
      · exact ⟨rfl, fun _ => rfl⟩
      · rcases not_and_or.mp hvalid with hb | hp
        · obtain ⟨hlow, hall⟩ := not_or.mp hb
          exact Or.inl (baysOf_none (Nat.not_lt.mp hlow) hall)
        · exact Or.inr (Option.not_isSome_iff_eq_none.mp hp)

/-! ### PATTERN LOAD (R135) -/

/-- The first index, ascending, of which a test holds. -/
theorem find?_finRange_first {k : Nat} {q : Fin k → Bool} {j : Fin k} (hj : q j = true)
    (hbefore : ∀ a, a < j → q a = false) : (List.finRange k).find? q = some j := by
  rw [List.find?_eq_some_iff_getElem]
  refine ⟨hj, j.val, by simp, by simp, fun a ha => ?_⟩
  simpa using hbefore ⟨a, ha.trans j.isLt⟩ ha

theorem find?_finRange_none {k : Nat} {q : Fin k → Bool} (h : ∀ a, q a = false) : (List.finRange k).find? q = none :=
  List.find?_eq_none.mpr fun a _ => by rw [h a]; nofun

theorem readPattern_peak (m : Memory) (i : PatId) : (readPattern m i).peak = (m.read (patternBase i + 2)).toNat := rfl

theorem readPattern_peak_zero {m : Memory} : (readPattern m i).peak = 0 ↔ m.read (patternBase i + 2) = 0 := by
  rw [readPattern_peak]
  exact ⟨fun h => BitVec.eq_of_toNat_eq h, fun h => by rw [h]; rfl⟩

/-- The records a load finds without a peak. -/
theorem find?_loadRange (m : Memory) (first count : Nat) :
    (loadRange first count).find? (fun i => decide ((readPattern m i).peak = 0)) = (List.finRange 16).find? fun i =>
      decide (first ≤ i.val ∧ i.val < first + count) && decide (m.read (patternBase i + 2) = 0) := by
  rw [loadRange, List.find?_filter]
  refine congrArg (fun q => List.find? q _) (funext fun i => ?_)
  rw [Bool.decide_and, Bool.decide_eq_true, Bool.decide_eq_true]
  exact congrArg _ (decide_eq_decide.mpr readPattern_peak_zero)

theorem clampedCount_eq (m : Memory) (first count : Nat) : clampedCount m first count =
    (List.finRange 16).countP fun i => decide (first ≤ i.val ∧ i.val < first + count) &&
      decide ((m.read (patternBase i + 2)).toNat < (m.read (patternBase i + 3)).toNat) := by
  rw [clampedCount, loadRange, List.countP_filter]
  refine List.countP_congr fun i _ => ?_
  rw [Bool.and_comm]
  rfl

/-- The three answers of a PATTERN LOAD (R135). -/
theorem patternOrder_loads {first count : Nat} (hf : (argByte s n 0).toNat = first) (hc : (argByte s n 1).toNat = count)
    (hr : first ≤ 15 ∧ 1 ≤ count ∧ first + count ≤ 16)
    (hpeak : ∀ i : PatId, first ≤ i.val ∧ i.val < first + count → s.mem.read (patternBase i + 2) ≠ 0) :
    patternOrder n s = complete n .ok [byte first, byte count, byte (clampedCount s.mem first count)]
      (setLgt (s.lgt.loadPatterns first count (loadedTable s first count)) s) := by
  have hnone : (loadRange first count).find? (fun i => decide ((readPattern s.mem i).peak = 0)) = none := by
    rw [find?_loadRange]
    refine find?_finRange_none fun i => ?_
    by_cases hi : first ≤ i.val ∧ i.val < first + count
    · simp only [hpeak i hi, decide_false, Bool.and_false]
    · simp only [hi, decide_false, Bool.false_and]
  subst hf hc
  unfold patternOrder
  dsimp only
  rw [if_pos hr, hnone]

theorem patternOrder_noPeak {first count : Nat} (hf : (argByte s n 0).toNat = first) (hc : (argByte s n 1).toNat = count)
    (hr : first ≤ 15 ∧ 1 ≤ count ∧ first + count ≤ 16) (hi : first ≤ i.val ∧ i.val < first + count)
    (hpeak : s.mem.read (patternBase i + 2) = 0)
    (hbefore : ∀ k : PatId, first ≤ k.val ∧ k.val < first + count → k < i → s.mem.read (patternBase k + 2) ≠ 0) :
    patternOrder n s = complete n .badArg (absent 3 ++ [byte i.val]) s := by
  have hfirst : (loadRange first count).find? (fun i => decide ((readPattern s.mem i).peak = 0)) = some i := by
    rw [find?_loadRange]
    refine find?_finRange_first (by simp only [hi, hpeak, and_self, decide_true, Bool.and_self]) fun k hk => ?_
    by_cases hin : first ≤ k.val ∧ k.val < first + count
    · simp only [hbefore k hin hk, decide_false, Bool.and_false]
    · simp only [hin, decide_false, Bool.false_and]
  subst hf hc
  unfold patternOrder
  dsimp only
  rw [if_pos hr, hfirst]

theorem patternOrder_outOfRange (hr : ¬ ((argByte s n 0).toNat ≤ 15 ∧ 1 ≤ (argByte s n 1).toNat ∧
    (argByte s n 0).toNat + (argByte s n 1).toNat ≤ 16)) : patternOrder n s = complete n .badArg [] s := if_neg hr

/-- A restart for a load gives a channel a fresh cycle at most: its layers, drive and group stay (R135). -/
theorem restartLoaded_turns (first count : Nat) (m : Lgt) (c : Chan) : ∃ x ds,
    Turns m c x (restartLoaded first count m c, ds) ∧ darken x = darken m.chans[c] := by
  have stays : ∃ x ds, Turns m c x (m, ds) ∧ darken x = darken m.chans[c] := ⟨_, _, .stays rfl, rfl⟩
  unfold restartLoaded
  split
  · exact stays
  · rename_i i hi
    split
    · exact ⟨_, _, freshCycle_turns hi, darken_fresh⟩
    · exact stays

theorem darken_loadPatterns (l : Lgt) (first count : Nat) (table : Vector Pattern 16) (c : Chan) :
    darken (l.loadPatterns first count table).chans[c] = darken l.chans[c] := by
  unfold Lgt.loadPatterns
  refine foldl_turns_keeps (place := id) (g := darken) (fun _ => rfl) (fun m e => ?_) _ fun m e _ he => ?_
  · obtain ⟨x, ds, hturn, _⟩ := restartLoaded_turns first count m e
    exact ⟨x, ds, hturn⟩
  · obtain ⟨x, _, hturn, hdark⟩ := restartLoaded_turns first count m e
    rw [← show e = c from he, hturn.self]
    exact hdark

theorem loadPatterns_patterns (l : Lgt) (first count : Nat) (table : Vector Pattern 16) :
    (l.loadPatterns first count table).patterns = table :=
  tables_patterns (l := { l with patterns := table }) (loadPatterns_tables l first count table)

theorem loadPatterns_autoMap (l : Lgt) (first count : Nat) (table : Vector Pattern 16) :
    (l.loadPatterns first count table).autoMap = l.autoMap :=
  tables_autoMap (l := { l with patterns := table }) (loadPatterns_tables l first count table)

/-- A PATTERN LOAD leaves the layers, the drive and the group of every channel, and the AUTO map (R135). -/
theorem patternOrder_leaves (n : SlotId) (s : State) (c : Chan) :
    darken ((finishStep (patternOrder n s)).chan c) = darken (s.chan c) ∧
    (finishStep (patternOrder n s)).lgt.autoMap = s.lgt.autoMap := by
  have refused : ∀ r d, darken ((finishStep (complete n r d s)).chan c) = darken (s.chan c) ∧
      (finishStep (complete n r d s)).lgt.autoMap = s.lgt.autoMap := by
    intro r d
    have hlgt : (finishStep (complete n r d s)).lgt = s.lgt := by simp
    exact ⟨congrArg darken (chan_of_lgt hlgt c), congrArg Lgt.autoMap hlgt⟩
  have loads : ∀ r d a k w, darken ((finishStep (complete n r d (setLgt (s.lgt.loadPatterns a k w) s))).chan c) =
        darken (s.chan c) ∧
      (finishStep (complete n r d (setLgt (s.lgt.loadPatterns a k w) s))).lgt.autoMap = s.lgt.autoMap := by
    intro r d a k w
    have hlgt : (finishStep (complete n r d (setLgt (s.lgt.loadPatterns a k w) s))).lgt = s.lgt.loadPatterns a k w := by
      simp
    rw [chan_of_lgt hlgt, hlgt]
    exact ⟨darken_loadPatterns _ _ _ _ c, loadPatterns_autoMap _ _ _ _⟩
  unfold patternOrder
  dsimp only
  split
  · split
    · exact refused _ _
    · exact loads _ _ _ _ _
  · exact refused _ _

/-! ### AUTO MAP (R143) -/

theorem patternOf_isNone {x : Byte} : (patternOf x).isNone = true ↔ ¬ (x.toNat < 16 ∨ x = 255) := by
  unfold patternOf
  by_cases h : x.toNat < 16
  · simp [h]
  · by_cases h' : x = 255 <;> simp [h, h']

/-- A byte in range is the byte of the pattern it names, or of none (R171). -/
theorem patByte_patOf {x : Byte} (h : x.toNat < 16 ∨ x = 255) : patByte (patOf x) = x := by
  unfold patOf
  by_cases hx : x.toNat < 16
  · rw [patternOf_index (i := ⟨x.toNat, hx⟩) rfl]
    exact BitVec.eq_of_toNat_eq (BitVec.toNat_ofNat _ _ |>.trans (Nat.mod_eq_of_lt x.isLt))
  · rw [h.resolve_left hx]
    rfl

theorem autoPattern_of_fixed {m : Lgt} (h : m.fixed = l.fixed) (c : Chan) : autoPattern m c = autoPattern l c := by
  obtain ⟨_, _, _, _, _, _⟩ := m
  obtain ⟨_, _, _, _, _, _⟩ := l
  simp only [Lgt.fixed, Lgt.tables, Prod.mk.injEq] at h
  obtain ⟨⟨rfl, rfl⟩, ⟨rfl, rfl⟩, rfl⟩ := h
  rfl

theorem darken_refreshAuto (l : Lgt) (c : Chan) : ∃ y q, darken (refreshAuto l c).chans[c] =
    darken { l.chans[c] with auto := autoPattern l c, layer := y, pattern := q } := by
  obtain ⟨_, hturn⟩ := refreshAuto_turns (l := l) (c := c)
  exact ⟨_, _, by rw [hturn.self, darken_rechosen]⟩

theorem setAutoMap_turns (m : Lgt) (c : Chan) : ∃ x ds, Turns m (id c) x (refreshAuto m c, ds) :=
  ⟨_, refreshAuto_turns⟩

/-- Each channel takes the AUTO pattern of its condition (R142, R143). -/
theorem setAutoMap_auto (l : Lgt) (w : Vector AutoEntry 8) (c : Chan) :
    (l.setAutoMap w).chans[c].auto = autoPattern { l with autoMap := w } c := by
  unfold Lgt.setAutoMap
  refine foldl_turns_at (place := id) (g := Channel.auto) (fun _ => rfl) setAutoMap_turns (fun m e hm he => ?_)
    ⟨c, List.mem_finRange c, rfl⟩
  obtain ⟨_, _, hdark⟩ := darken_refreshAuto m c
  rw [show e = c from he, (drive_of_darken hdark).auto, ← autoPattern_of_fixed hm]

theorem setAutoMap_patterns (l : Lgt) (w : Vector AutoEntry 8) : (l.setAutoMap w).patterns = l.patterns :=
  tables_patterns (l := { l with autoMap := w }) (setAutoMap_tables l w)

theorem setAutoMap_autoMap (l : Lgt) (w : Vector AutoEntry 8) : (l.setAutoMap w).autoMap = w :=
  tables_autoMap (l := { l with autoMap := w }) (setAutoMap_tables l w)

/-- The layers of a channel that an order sets, and its group. -/
def Channel.orders (ch : Channel) : Option PatId × Option PatId × Fin 5 := (ch.order, ch.locate, ch.group)

theorem setAutoMap_orders (l : Lgt) (w : Vector AutoEntry 8) (c : Chan) :
    (l.setAutoMap w).chans[c].orders = l.chans[c].orders := by
  unfold Lgt.setAutoMap
  refine foldl_turns_keeps (place := id) (g := Channel.orders) (fun _ => rfl) setAutoMap_turns _ fun m e _ he => ?_
  obtain ⟨_, _, hdark⟩ := darken_refreshAuto m c
  rw [show e = c from he]
  exact (congrArg Channel.orders hdark :)

/-- The AUTO pattern of a bay's channels (R142). -/
theorem autoPattern_of_bay (l : Lgt) (h : chanBay c = b) : autoPattern l c =
    if isAttention c = true then
      if l.cond[b] = .active ∧ l.warn[b] = true then l.autoMap[(7 : Fin 8)].attention
      else l.autoMap[(l.cond[b]).index].attention
    else l.autoMap[(l.cond[b]).index].status := by
  subst h
  rfl

theorem autoPattern_status (l : Lgt) (b : Bay) :
    autoPattern l (statusChan b) = l.autoMap[(l.cond[b]).index].status := by
  rw [autoPattern_of_bay l (chanBay_eq_iff.mpr (Or.inl rfl)), if_neg]
  simp [isAttention, statusChan]

theorem autoPattern_attention (l : Lgt) (b : Bay) : autoPattern l (attentionChan b) =
    if l.cond[b] = .active ∧ l.warn[b] = true then l.autoMap[(7 : Fin 8)].attention
    else l.autoMap[(l.cond[b]).index].attention := by
  rw [autoPattern_of_bay l (chanBay_eq_iff.mpr (Or.inr rfl)), if_pos]
  simp only [isAttention, attentionChan, beq_iff_eq]
  omega

theorem badAutoByte_none {m : Memory} (h : ∀ k : Fin 16, (autoByte m k).toNat < 16 ∨ autoByte m k = 255) :
    badAutoByte m = none :=
  find?_finRange_none fun k => Bool.eq_false_iff.mpr fun hk => patternOf_isNone.mp hk (h k)

theorem badAutoByte_first {m : Memory} {k : Fin 16} (hk : ¬ ((autoByte m k).toNat < 16 ∨ autoByte m k = 255))
    (hbefore : ∀ j, j < k → ((autoByte m j).toNat < 16 ∨ autoByte m j = 255)) : badAutoByte m = some k :=
  find?_finRange_first (patternOf_isNone.mpr hk) fun j hj =>
    Bool.eq_false_iff.mpr fun h => patternOf_isNone.mp h (hbefore j hj)

theorem autoMapOrder_valid (h : badAutoByte s.mem = none) :
    autoMapOrder n s = complete n .ok [] (setLgt (s.lgt.setAutoMap (readAutoMap s.mem)) s) := by
  rw [autoMapOrder, h]

theorem autoMapOrder_refused {k : Fin 16} (h : badAutoByte s.mem = some k) :
    autoMapOrder n s = complete n .badArg [byte (k.val / 2), byte (k.val % 2)] s := by
  rw [autoMapOrder, h]

/-- An AUTO MAP leaves the orders' layers and the group of every channel, and the pattern table (R143). -/
theorem autoMapOrder_leaves (n : SlotId) (s : State) (c : Chan) :
    ((finishStep (autoMapOrder n s)).chan c).orders = (s.chan c).orders ∧
    (finishStep (autoMapOrder n s)).lgt.patterns = s.lgt.patterns := by
  cases h : badAutoByte s.mem with
  | some k =>
    have hlgt : (finishStep (autoMapOrder n s)).lgt = s.lgt := by simp [autoMapOrder_refused h]
    exact ⟨congrArg Channel.orders (chan_of_lgt hlgt c), congrArg Lgt.patterns hlgt⟩
  | none =>
    have hlgt : (finishStep (autoMapOrder n s)).lgt = s.lgt.setAutoMap (readAutoMap s.mem) := by
      simp [autoMapOrder_valid h]
    rw [chan_of_lgt hlgt, hlgt]
    exact ⟨setAutoMap_orders _ _ c, setAutoMap_patterns _ _⟩

/-- Settles O59: each order by what its area holds. -/
theorem patternLoadAndAutoMapReadTheirAreas : Obligations.PatternLoadAndAutoMapReadTheirAreas := by
  constructor
  · intro s n ⟨⟨hw, _⟩, hk⟩ first count inRange peakOf within
    have hleaves := patternOrder_leaves n (takeSlot n s)
    refine answers_take rfl hk ⟨fun hr hpeak => ?_, fun hr i hi hpeak hbefore => ?_, fun hr => ?_, fun c => ?_,
      (hleaves 0).2, by constructor <;> simp⟩
    · rw [patternOrder_loads (s := takeSlot n s) rfl rfl hr hpeak]
      obtain ⟨hdone, hlgt⟩ := lightOrder_completes (n := n) hw
        (s.lgt.loadPatterns first count (loadedTable (takeSlot n s) first count)) .ok
        [byte first, byte count, byte (clampedCount s.mem first count)]
      have htable := (congrArg Lgt.patterns hlgt).trans (loadPatterns_patterns _ _ _ _)
      have hread : ∀ i : PatId, (loadedTable (takeSlot n s) first count)[i] =
          if within i then readPattern s.mem i else s.lgt.patterns[i] := getFin_ofFn _
      refine ⟨fun i hi => ?_, fun i hi => ?_, by rw [← clampedCount_eq]; exact hdone⟩
      · exact (congrArg (fun w : Vector Pattern 16 => w[i]) htable).trans ((hread i).trans (if_pos hi))
      · exact (congrArg (fun w : Vector Pattern 16 => w[i]) htable).trans ((hread i).trans (if_neg hi))
    · rw [patternOrder_noPeak (s := takeSlot n s) rfl rfl hr hi hpeak hbefore]
      exact lightOrder_leaves hw _ _
    · rw [patternOrder_outOfRange (s := takeSlot n s) hr]
      exact lightOrder_leaves hw _ _
    · obtain ⟨⟨-, horder, hlocate, -, hpattern, -⟩, hgroup⟩ := darken_eq_iff.mp (hleaves c).1
      exact ⟨horder, hlocate, hpattern, hgroup⟩
  · intro s n ⟨⟨hw, _⟩, hk⟩ area good
    have hleaves := autoMapOrder_leaves n (takeSlot n s)
    refine answers_take rfl hk ⟨fun hgood => ?_, fun k hbad hbefore => ?_, fun c => ?_, (hleaves 0).2,
      by constructor <;> simp⟩
    · rw [autoMapOrder_valid (s := takeSlot n s) (badAutoByte_none hgood)]
      obtain ⟨hdone, hlgt⟩ := lightOrder_completes (n := n) hw (s.lgt.setAutoMap (readAutoMap s.mem)) .ok []
      have hmap := (congrArg Lgt.autoMap hlgt).trans (setAutoMap_autoMap _ _)
      have hentry : ∀ i : Fin 8, (readAutoMap s.mem)[i] =
          ⟨patOf (s.mem.read (autoMapBase + 2 * i.val)), patOf (s.mem.read (autoMapBase + 2 * i.val + 1))⟩ :=
        getFin_ofFn _
      refine ⟨hdone, fun k i hk => ?_, fun k i hk => ?_, fun b => ?_⟩
      · have harea : area k = s.mem.read (autoMapBase + 2 * i.val) := congrArg (fun a => s.mem.read (0x1E00 + a)) hk
        refine (congrArg (fun w : Vector AutoEntry 8 => patByte w[i].status) hmap).trans ?_
        rw [hentry i, ← harea]
        exact patByte_patOf (hgood k)
      · have harea : area k = s.mem.read (autoMapBase + 2 * i.val + 1) := congrArg (fun a => s.mem.read (0x1E00 + a)) hk
        refine (congrArg (fun w : Vector AutoEntry 8 => patByte w[i].attention) hmap).trans ?_
        rw [hentry i, ← harea]
        exact patByte_patOf (hgood k)
      · have hauto : ∀ c, ((finishStep (complete n .ok [] (setLgt (s.lgt.setAutoMap (readAutoMap s.mem))
            (takeSlot n s)))).chan c).auto = autoPattern { s.lgt with autoMap := readAutoMap s.mem } c := fun c =>
          (congrArg Channel.auto (chan_of_lgt hlgt c)).trans (setAutoMap_auto _ _ c)
        refine ⟨(hauto _).trans ((autoPattern_status _ b).trans ?_), (hauto _).trans ((autoPattern_attention _ b).trans ?_)⟩
        · exact congrArg (fun w : Vector AutoEntry 8 => w[(s.lgt.cond[b]).index].status) hmap.symm
        · exact congrArg (fun w : Vector AutoEntry 8 => if s.lgt.cond[b] = .active ∧ s.lgt.warn[b] = true
            then w[(7 : Fin 8)].attention else w[(s.lgt.cond[b]).index].attention) hmap.symm
    · rw [autoMapOrder_refused (s := takeSlot n s) (badAutoByte_first hbad hbefore)]
      exact lightOrder_leaves hw _ _
    · have horders := (hleaves c).1
      simp only [Channel.orders, Prod.mk.injEq] at horders
      exact horders

end Sys2Proof.Machine

/-! SUPPORT. The envelope step (R136): each channel takes its turn by its own record, and the turns of the others reach it
only as sync restarts of its group (R148). -/

namespace Sys2Proof.Machine

variable {p : Pattern} {ch x : Channel} {l m : Lgt} {c d e : Chan} {i k : PatId} {w : Vector Pattern 16}
  {acc acc₀ : Lgt × List Chan}

/-! ### The value a channel's turn gives it (R136 to R139, R146) -/

/-- A channel whose pattern has ended: a fresh cycle under AUTO, else its layer emptied and the next one driving. -/
def Channel.ended (w : Vector Pattern 16) (ch : Channel) : Channel :=
  match ch.layer with
  | .auto =>
    match ch.pattern with
    | none => ch
    | some i => ch.fresh w[i]
  | .order => ch.unordered.rechosen w
  | .locate => ch.unlocated.rechosen w

/-- A channel whose gate has closed for the last time (R138). -/
def Channel.lastClosed (w : Vector Pattern 16) (ch : Channel) : Channel := if ch.level = 0 then ch.ended w else ch

/-- A channel with one more step counted, and one whose gate closes (R138). -/
def Channel.counted (ch : Channel) : Channel := { ch with count := ch.count + 1 }
def Channel.shut (p : Pattern) (ch : Channel) : Channel := beginRelease p { ch with gate := .closed, count := 0 }

/-- A channel after an envelope step of its own under a pattern. -/
def Channel.stepped (w : Vector Pattern 16) (p : Pattern) (ch : Channel) : Channel :=
  match ch.gate with
  | .opened =>
    if p.onTime = 0 then moveLevel p ch
    else if ch.count + 1 < 5 * p.onTime then moveLevel p ch.counted
    else if lastOpening p ch then (ch.shut p).lastClosed w
    else if p.offTime = 0 then newOpening p ch
    else ch.shut p
  | .closed =>
    if lastOpening p ch then (moveLevel p ch).lastClosed w
    else if ch.count + 1 < 5 * p.offTime then moveLevel p ch.counted
    else newOpening p ch
  | .dip =>
    if ch.count + 1 < 5 * p.offTime then moveLevel p ch.counted
    else beginAttack p { ch with gate := .opened, count := 0 }

/-- A channel after its turn in an envelope step. -/
def Channel.turned (w : Vector Pattern 16) (ch : Channel) : Channel :=
  match ch.pattern with
  | none => ch
  | some i => ch.stepped w w[i]

theorem ended_auto (hl : ch.layer = .auto) (hi : ch.pattern = some i) : ch.ended w = ch.fresh w[i] := by
  simp only [Channel.ended, hl, hi]

theorem ended_order (hl : ch.layer = .order) : ch.ended w = ch.unordered.rechosen w := by
  simp only [Channel.ended, hl]

theorem ended_locate (hl : ch.layer = .locate) : ch.ended w = ch.unlocated.rechosen w := by
  simp only [Channel.ended, hl]

theorem stepped_opened (h : ch.gate = .opened) : ch.stepped w p =
    if p.onTime = 0 then moveLevel p ch
    else if ch.count + 1 < 5 * p.onTime then moveLevel p ch.counted
    else if lastOpening p ch then (ch.shut p).lastClosed w
    else if p.offTime = 0 then newOpening p ch
    else ch.shut p := by
  simp only [Channel.stepped, h]

theorem stepped_closed (h : ch.gate = .closed) : ch.stepped w p =
    if lastOpening p ch then (moveLevel p ch).lastClosed w
    else if ch.count + 1 < 5 * p.offTime then moveLevel p ch.counted
    else newOpening p ch := by
  simp only [Channel.stepped, h]

theorem stepped_dip (h : ch.gate = .dip) : ch.stepped w p =
    if ch.count + 1 < 5 * p.offTime then moveLevel p ch.counted
    else beginAttack p { ch with gate := .opened, count := 0 } := by
  simp only [Channel.stepped, h]

theorem turned_dark (h : ch.pattern = none) : ch.turned w = ch := by simp only [Channel.turned, h]

theorem turned_of_pattern (h : ch.pattern = some i) : ch.turned w = ch.stepped w w[i] := by
  simp only [Channel.turned, h]

@[simp] theorem darken_shut : darken (ch.shut p) = darken ch := darken_beginRelease

/-! A channel's turn leaves its group. -/

@[simp] theorem rechosen_group : (ch.rechosen w).group = ch.group := by
  rw [group_of_darken (darken_rechosen w ch)]

@[simp] theorem ended_group : (ch.ended w).group = ch.group := by
  unfold Channel.ended
  split
  · split
    · rfl
    · exact group_of_darken darken_fresh
  · exact rechosen_group
  · exact rechosen_group

@[simp] theorem lastClosed_group : (ch.lastClosed w).group = ch.group := by
  unfold Channel.lastClosed
  split
  · exact ended_group
  · rfl

@[simp] theorem moveLevel_group : (moveLevel p ch).group = ch.group := group_of_darken darken_moveLevel

@[simp] theorem newOpening_group : (newOpening p ch).group = ch.group := group_of_darken darken_newOpening

@[simp] theorem shut_group : (ch.shut p).group = ch.group := group_of_darken darken_shut

theorem stepped_group : (ch.stepped w p).group = ch.group := by
  cases h : ch.gate with
  | opened =>
    rw [stepped_opened h]
    (repeat' split) <;> simp [Channel.counted]
  | closed =>
    rw [stepped_closed h]
    (repeat' split) <;> simp [Channel.counted]
  | dip =>
    rw [stepped_dip h]
    split
    · exact moveLevel_group
    · exact group_of_darken darken_beginAttack

theorem turned_group : (ch.turned w).group = ch.group := by
  unfold Channel.turned
  split
  · rfl
  · exact stepped_group

/-! ### The turn of one channel (R136, R138) -/

theorem patternEnd_set_turns : Turns l c (x.ended l.patterns) (patternEnd (l.setChan c x) c) := by
  have hread := setChan_self l c x
  have horder := emptyOrder_turns (l := l.setChan c x) (c := c)
  have hlocate := emptyLocate_turns (l := l.setChan c x) (c := c)
  rw [hread] at horder hlocate
  unfold patternEnd
  rw [hread]
  cases hl : x.layer with
  | auto =>
    cases hp : x.pattern with
    | none =>
      have hstays : x.ended l.patterns = x := by simp only [Channel.ended, hl, hp]
      rw [hstays, freshCycle_none (by rw [hread]; exact hp)]
      exact .quiet
    | some i =>
      rw [ended_auto hl hp]
      exact freshCycle_set_turns hp
  | order =>
    rw [ended_order hl]
    exact horder.of_setChan
  | locate =>
    rw [ended_locate hl]
    exact hlocate.of_setChan

theorem closedLast_turns : Turns l c (x.lastClosed l.patterns) (closedLast l c x) := by
  unfold closedLast Channel.lastClosed
  split
  · exact patternEnd_set_turns
  · exact .quiet

theorem stepChannel_turns : Turns l c (l.chans[c].stepped l.patterns p) (stepChannel l c p) := by
  unfold stepChannel
  dsimp only
  split
  · rename_i h
    rw [stepped_opened h]
    (repeat' split)
    · exact .quiet
    · exact .quiet
    · exact closedLast_turns
    · exact .opens
    · exact .quiet
  · rename_i h
    rw [stepped_closed h]
    (repeat' split)
    · exact closedLast_turns
    · exact .quiet
    · exact .opens
  · rename_i h
    rw [stepped_dip h]
    split
    · exact .quiet
    · exact .quiet

theorem stepOne_skips (h : c ∈ acc.2) : stepOne acc c = acc := if_pos h

theorem stepOne_turns (h : c ∉ acc.2) : ∃ ds,
    Turns acc.1 c (acc.1.chans[c].turned acc.1.patterns) ((stepOne acc c).1, ds) ∧
    (stepOne acc c).2 = acc.2 ++ ds := by
  unfold stepOne
  rw [if_neg h]
  split
  · rename_i hn
    exact ⟨[], .stays (turned_dark hn), (List.append_nil _).symm⟩
  · rename_i i hi
    rw [turned_of_pattern hi]
    exact ⟨_, stepChannel_turns, rfl⟩

/-- A turn leaves the pattern table and every channel's group. -/
theorem stepOne_patterns (acc : Lgt × List Chan) (c : Chan) : (stepOne acc c).1.patterns = acc.1.patterns := by
  by_cases h : c ∈ acc.2
  · rw [stepOne_skips h]
  · obtain ⟨_, hturn, -⟩ := stepOne_turns h
    exact fixed_patterns hturn.fixed

theorem stepOne_group (acc : Lgt × List Chan) (c d : Chan) :
    (stepOne acc c).1.chans[d].group = acc.1.chans[d].group := by
  by_cases h : c ∈ acc.2
  · rw [stepOne_skips h]
  · obtain ⟨_, hturn, -⟩ := stepOne_turns h
    by_cases hd : d = c
    · rw [hd, hturn.self, turned_group]
    · exact group_of_darken (hturn.darken_other hd)

/-! ### The leader (R148) -/

/-- The lowest-numbered member of a group leads it where it cycles. -/
theorem leader_lowest (hg : l.chans[c].group ≠ 0) (hc : cycling l c = true)
    (hlow : ∀ d, l.chans[d].group = l.chans[c].group → c ≤ d) : leader l l.chans[c].group = some c := by
  unfold leader
  rw [if_neg hg]
  refine find?_finRange_first (by simp only [hc, and_self, decide_true]) fun d hd => ?_
  simp only [show l.chans[d].group ≠ l.chans[c].group from fun h => absurd (hlow d h) (not_le.mpr hd), false_and,
    decide_false]

theorem cycling_of_pattern (h : l.chans[c].pattern = some i) : cycling l c = l.patterns[i].cycles := by
  simp only [cycling, h]

theorem cycles_iff : p.cycles = true ↔ 1 ≤ p.onTime ∧ 1 ≤ p.offTime ∧ p.activity = false := by
  simp [Pattern.cycles, and_assoc]

/-- What the turn of a channel restarts: cycling members of its group, and only if it leads (R148). -/
theorem mem_followers_set (hg : x.group = m.chans[e].group) (h : d ∈ followers (m.setChan e x) e) :
    d ≠ e ∧ m.chans[d].group = m.chans[e].group ∧ m.chans[e].group ≠ 0 ∧
    (∃ i, m.chans[d].pattern = some i ∧ m.patterns[i].cycles = true) ∧
    leader (m.setChan e x) m.chans[e].group = some e := by
  obtain ⟨hlead, hne, hgroup, hcycles, i, hi, -⟩ := mem_followers.mp h
  rw [cycling_of_pattern hi] at hcycles
  rw [setChan_self, hg] at hlead hgroup
  rw [chan_setChan_ne hne] at hgroup hi
  refine ⟨hne, hgroup, fun h0 => ?_, ⟨i, hi, hcycles⟩, hlead⟩
  rw [leader, if_pos h0] at hlead
  cases hlead

/-! ### The turns of an envelope step, one after another -/

/-- Steps that leave the pattern table, every group, and each channel of a set, and name no further one of the set. -/
structure Spares (D : Chan → Prop) (acc₀ acc : Lgt × List Chan) : Prop where
  patterns : acc.1.patterns = acc₀.1.patterns
  group : ∀ d : Chan, acc.1.chans[d].group = acc₀.1.chans[d].group
  chan : ∀ d : Chan, D d → acc.1.chans[d] = acc₀.1.chans[d]
  named : ∀ d, D d → (d ∈ acc.2 ↔ d ∈ acc₀.2)

/-- The turns of channels outside a set, none of which restarts a channel of the set, leave the set. -/
theorem foldl_stepOne_spares {D : Chan → Prop} {es : List Chan} (hown : ∀ e ∈ es, D e → e ∈ acc₀.2)
    (hnot : ∀ e ∈ es, ∀ acc, Spares D acc₀ acc → ∀ x : Channel, x.group = acc.1.chans[e].group →
      ∀ d, D d → d ∉ followers (acc.1.setChan e x) e) : Spares D acc₀ (es.foldl stepOne acc₀) := by
  refine foldl_invariant es (fun e he acc hq => ?_) ⟨rfl, fun _ => rfl, fun _ _ => rfl, fun _ _ => Iff.rfl⟩
  by_cases hskip : e ∈ acc.2
  · rwa [stepOne_skips hskip]
  have hout : ¬ D e := fun hD => hskip ((hq.named e hD).mpr (hown e he hD))
  obtain ⟨ds, hturn, hnames⟩ := stepOne_turns hskip
  have hfree : ∀ d, D d → d ∉ ds := fun d hD hd => hnot e he acc hq _ turned_group d hD (hturn.named hd)
  refine ⟨(stepOne_patterns acc e).trans hq.patterns, fun d => (stepOne_group acc e d).trans (hq.group d),
    fun d hD => ?_, fun d hD => ?_⟩
  · have hne : d ≠ e := fun h => hout (h ▸ hD)
    rw [hturn.chan, if_neg hne, if_neg (hfree d hD)]
    exact hq.chan d hD
  · rw [hnames, List.mem_append, or_iff_left (hfree d hD)]
    exact hq.named d hD

/-- The channels before and after one, in ascending order. -/
theorem finRange_split {k : Nat} (c : Fin k) : ∃ before after, List.finRange k = before ++ c :: after ∧
    (∀ e ∈ before, e < c) ∧ ∀ e ∈ after, c < e := by
  obtain ⟨before, after, hsplit⟩ := List.append_of_mem (List.mem_finRange c)
  have hsorted := List.pairwise_lt_finRange k
  rw [hsplit, List.pairwise_append, List.pairwise_cons] at hsorted
  exact ⟨before, after, hsplit, fun e he => hsorted.2.2 e he c List.mem_cons_self, hsorted.2.1.1⟩

/-- A channel no other's gate restarts: out of any group, or with a pattern that does not cycle. -/
def Unfollowed (w : Vector Pattern 16) (ch : Channel) : Prop :=
  ch.group = 0 ∨ ∀ i, ch.pattern = some i → w[i].cycles = false

theorem spares_unfollowed {es : List Chan} (hes : c ∉ es) (hu : Unfollowed acc₀.1.patterns acc₀.1.chans[c]) :
    Spares (· = c) acc₀ (es.foldl stepOne acc₀) := by
  refine foldl_stepOne_spares (fun e he h => absurd (h ▸ he) hes) fun e he acc hq x hx d hd hmem => ?_
  subst hd
  obtain ⟨-, hgroup, hg0, ⟨i, hi, hcycles⟩, -⟩ := mem_followers_set hx hmem
  rw [hq.chan d rfl] at hi hgroup
  rw [hq.patterns] at hcycles
  rcases hu with h0 | hstill
  · exact hg0 (hgroup.symm.trans h0)
  · rw [hstill i hi] at hcycles
    cases hcycles

/-- Such a channel takes its own turn, and nothing else reaches it. -/
theorem envelopeStep_unfollowed (h₀ : Unfollowed l.patterns l.chans[c])
    (h₁ : Unfollowed l.patterns (l.chans[c].turned l.patterns)) :
    l.envelopeStep.chans[c] = l.chans[c].turned l.patterns := by
  obtain ⟨before, after, hsplit, hbefore, hafter⟩ := finRange_split c
  have hq := spares_unfollowed (c := c) (es := before) (acc₀ := (l, [])) (fun h => lt_irrefl c (hbefore c h)) h₀
  obtain ⟨ds, hturn, -⟩ := stepOne_turns (acc := before.foldl stepOne (l, [])) (c := c)
    (fun h => List.not_mem_nil ((hq.named c rfl).mp h))
  rw [hq.chan c rfl, hq.patterns] at hturn
  have hself := hturn.self
  have hpatterns := (fixed_patterns hturn.fixed).trans hq.patterns
  have hq' := spares_unfollowed (c := c) (es := after) (acc₀ := stepOne (before.foldl stepOne (l, [])) c)
    (fun h => lt_irrefl c (hafter c h)) (by rw [hself, hpatterns]; exact h₁)
  unfold Lgt.envelopeStep
  rw [hsplit, List.foldl_append, List.foldl_cons, hq'.chan c rfl, hself]

end Sys2Proof.Machine

/-! Settles ENVELOPE_STEP (O55): the level's move, the gate's changes and the pattern's end, the sync restarts of a leader's
opening, and the fresh cycle of a LIGHT SET. -/

namespace Sys2Proof.Machine

variable {s : State} {n : SlotId} {p : Pattern} {ch x : Channel} {l m : Lgt} {c d : Chan} {i k : PatId}
  {w : Vector Pattern 16} {acc : Lgt × List Chan}

/-! ### A leader's opening (R148) -/

/-- A cycling channel that is not in its last opening. -/
structure CyclesOn (l : Lgt) (c : Chan) (i : PatId) : Prop where
  pattern : l.chans[c].pattern = some i
  cycles : l.patterns[i].cycles = true
  more : lastOpening l.patterns[i] l.chans[c] = false

/-- Such a channel at the end of its off time. -/
structure Reopens (l : Lgt) (c : Chan) (i : PatId) : Prop extends CyclesOn l c i where
  gate : l.chans[c].gate = .closed
  due : 5 * l.patterns[i].offTime ≤ l.chans[c].count + 1

/-- The lowest-numbered member of a group. -/
structure Lowest (l : Lgt) (c : Chan) : Prop where
  grouped : l.chans[c].group ≠ 0
  lowest : ∀ d : Chan, l.chans[d].group = l.chans[c].group → c ≤ d

theorem CyclesOn.of_same (h : CyclesOn l c i) (hw : m.patterns = l.patterns) (hc : m.chans[c] = l.chans[c]) :
    CyclesOn m c i := by
  obtain ⟨hpattern, hcycles, hmore⟩ := h
  exact ⟨by rw [hc]; exact hpattern, by rw [hw]; exact hcycles, by rw [hw, hc]; exact hmore⟩

theorem Reopens.of_same (h : Reopens l c i) (hw : m.patterns = l.patterns) (hc : m.chans[c] = l.chans[c]) :
    Reopens m c i :=
  ⟨h.toCyclesOn.of_same hw hc, by rw [hc]; exact h.gate, by rw [hw, hc]; exact h.due⟩

theorem Lowest.of_groups (h : Lowest l c) (hg : ∀ d : Chan, m.chans[d].group = l.chans[d].group) : Lowest m c :=
  ⟨by rw [hg]; exact h.grouped, fun d hd => h.lowest d (by rwa [hg, hg] at hd)⟩

/-- Where the lowest-numbered member of a group cycles, it leads the group (R148). -/
theorem Lowest.leads (h : Lowest l c) (hi : l.chans[c].pattern = some i) (hc : l.patterns[i].cycles = true) :
    leader l l.chans[c].group = some c :=
  leader_lowest h.grouped ((cycling_of_pattern hi).trans hc) h.lowest

theorem setChan_group (h : x.group = l.chans[c].group) (d : Chan) :
    (l.setChan c x).chans[d].group = l.chans[d].group := by
  rw [chan_setChan]
  split
  · rename_i hd
    rw [h, hd]
  · rfl

/-- The turn of a channel whose gate opens anew: its followers restart, and are named. -/
theorem stepOne_reopens (hskip : c ∉ acc.2) (hc : Reopens acc.1 c i) :
    stepOne acc c = ((gateOpened (acc.1.setChan c (newOpening acc.1.patterns[i] acc.1.chans[c])) c).1,
      acc.2 ++ followers (acc.1.setChan c (newOpening acc.1.patterns[i] acc.1.chans[c])) c) := by
  have hstep : stepChannel acc.1 c acc.1.patterns[i] =
      gateOpened (acc.1.setChan c (newOpening acc.1.patterns[i] acc.1.chans[c])) c := by
    unfold stepChannel
    dsimp only
    split
    · rename_i h
      cases hc.gate.symm.trans h
    · rw [hc.more, if_neg Bool.false_ne_true, if_neg (Nat.not_lt.mpr hc.due)]
    · rename_i h
      cases hc.gate.symm.trans h
  unfold stepOne
  rw [if_neg hskip]
  split
  · rename_i hn
    cases hc.pattern.symm.trans hn
  · rename_i j hj
    cases hc.pattern.symm.trans hj
    rw [hstep]
    rfl

/-- The leader's own turn: it opens anew, and so does each cycling member not in its last opening. -/
theorem stepOne_restarts (hskip : c ∉ acc.2) (hlow : Lowest acc.1 c) (hc : Reopens acc.1 c i)
    (hgroup : acc.1.chans[d].group = acc.1.chans[c].group) (hd : CyclesOn acc.1 d k) :
    (stepOne acc c).1.chans[d] = newOpening acc.1.patterns[k] acc.1.chans[d] ∧
    (d = c ∨ d ∈ (stepOne acc c).2) := by
  have hturn := Turns.opens (l := acc.1) (c := c) (ch := newOpening acc.1.patterns[i] acc.1.chans[c])
  rw [stepOne_reopens hskip hc]
  by_cases hdc : d = c
  · subst hdc
    cases hc.pattern.symm.trans hd.pattern
    exact ⟨hturn.self, Or.inl rfl⟩
  · have hgroups := setChan_group (newOpening_group (p := acc.1.patterns[i]) (ch := acc.1.chans[c]))
    have hlead := (hlow.of_groups hgroups).leads (i := i)
      (by rw [setChan_self]; exact (drive_of_darken darken_newOpening).pattern.trans hc.pattern) hc.cycles
    have hother := chan_setChan_ne (l := acc.1) (ch := newOpening acc.1.patterns[i] acc.1.chans[c]) hdc
    obtain ⟨hpattern, hcycles, hmore⟩ := hd.of_same (m := acc.1.setChan c (newOpening acc.1.patterns[i] acc.1.chans[c]))
      rfl hother
    have hmem : d ∈ (gateOpened (acc.1.setChan c (newOpening acc.1.patterns[i] acc.1.chans[c])) c).2 :=
      mem_followers.mpr ⟨hlead, hdc, (hgroups d).trans (hgroup.trans (hgroups c).symm),
        (cycling_of_pattern hpattern).trans hcycles, k, hpattern, hmore⟩
    refine ⟨?_, Or.inr (List.mem_append_right _ hmem)⟩
    rw [hturn.chan, if_neg hdc, if_pos hmem, reopened_of_pattern hd.pattern]

/-- After the leader's turn no other turn reaches it or the members it has restarted. -/
theorem spares_led {es : List Chan} (hes : ∀ e ∈ es, c < e) (hlow : Lowest acc.1 c)
    (hi : acc.1.chans[c].pattern = some i) (hc : acc.1.patterns[i].cycles = true) :
    Spares (fun d => acc.1.chans[d].group = acc.1.chans[c].group ∧ (d = c ∨ d ∈ acc.2)) acc (es.foldl stepOne acc) := by
  refine foldl_stepOne_spares (fun e he h => h.2.resolve_left (hes e he).ne') fun e he acc' hq x hx d hd hmem => ?_
  obtain ⟨-, hsame, -, -, hlead⟩ := mem_followers_set hx hmem
  have hgroups : ∀ b : Chan, (acc'.1.setChan e x).chans[b].group = acc.1.chans[b].group :=
    fun b => (setChan_group hx b).trans (hq.group b)
  have hsub : (acc'.1.setChan e x).chans[c] = acc.1.chans[c] :=
    (chan_setChan_ne (hes e he).ne).trans (hq.chan c ⟨rfl, Or.inl rfl⟩)
  have hleads := (hlow.of_groups hgroups).leads (by rw [hsub]; exact hi)
    ((congrArg (fun w : Vector Pattern 16 => w[i].cycles) hq.patterns).trans hc)
  rw [hgroups, ← hd.1, ← hq.group, hsame, hlead] at hleads
  exact absurd (Option.some.inj hleads) (hes e he).ne'

/-- In an envelope step the members of a group restart with the opening of their lowest-numbered member (R148). -/
theorem envelopeStep_restarts (hlow : Lowest l c) (hc : Reopens l c i)
    (hgroup : l.chans[d].group = l.chans[c].group) (hd : CyclesOn l d k) :
    l.envelopeStep.chans[d] = newOpening l.patterns[k] l.chans[d] := by
  obtain ⟨before, after, hsplit, hbefore, hafter⟩ := finRange_split c
  have hq : Spares (fun d => l.chans[d].group = l.chans[c].group) (l, []) (before.foldl stepOne (l, [])) := by
    refine foldl_stepOne_spares (fun e he h => absurd (hlow.lowest e h) (not_le.mpr (hbefore e he))) ?_
    intro e he acc hq x hx d hd hmem
    obtain ⟨-, hsame, -⟩ := mem_followers_set hx hmem
    rw [hq.group, hq.group] at hsame
    exact absurd (hlow.lowest e (hsame.symm.trans hd)) (not_le.mpr (hbefore e he))
  have hskip : c ∉ (before.foldl stepOne (l, [])).2 := fun h => List.not_mem_nil ((hq.named c rfl).mp h)
  have hlow' := hlow.of_groups hq.group
  have hc' := hc.of_same hq.patterns (hq.chan c rfl)
  have hgroup' := (hq.group d).trans (hgroup.trans (hq.group c).symm)
  obtain ⟨hopened, hnamed⟩ := stepOne_restarts hskip hlow' hc' hgroup' (hd.of_same hq.patterns (hq.chan d hgroup))
  obtain ⟨hleader, -⟩ := stepOne_restarts hskip hlow' hc' rfl hc'.toCyclesOn
  have hgroups := stepOne_group (before.foldl stepOne (l, [])) c
  have hq' := spares_led (i := i) hafter (hlow'.of_groups hgroups)
    (by rw [hleader]; exact (drive_of_darken darken_newOpening).pattern.trans hc'.pattern)
    (by rw [stepOne_patterns]; exact hc'.cycles)
  unfold Lgt.envelopeStep
  rw [hsplit, List.foldl_append, List.foldl_cons,
    hq'.chan d ⟨(hgroups d).trans (hgroup'.trans (hgroups c).symm), hnamed⟩, hopened, hq.patterns, hq.chan d hgroup]

/-! ### The level's move (R136, R137) -/

theorem moveLevel_attack (h : ch.phase = .attack) : let up := ch.level + 65536 / 2 ^ (p.attack.val - 1)
    if up < p.peak * 257 then (moveLevel p ch).level = up ∧ (moveLevel p ch).phase = .attack
    else if p.decay ≠ 0 ∧ p.sustain ≠ p.peak then
      (moveLevel p ch).level = p.peak * 257 ∧ (moveLevel p ch).phase = .decay
    else (moveLevel p ch).level = p.sustain * 257 ∧ (moveLevel p ch).phase = .sustain := by
  have hmove : moveLevel p ch = if p.peak * 257 ≤ ch.level + 65536 / 2 ^ (p.attack.val - 1) then
      beginDecay p { ch with level := p.peak * 257 }
      else { ch with level := ch.level + 65536 / 2 ^ (p.attack.val - 1) } := by
    simp only [moveLevel, h]
    rfl
  dsimp only
  rw [hmove]
  by_cases hup : ch.level + 65536 / 2 ^ (p.attack.val - 1) < p.peak * 257
  · rw [if_pos hup, if_neg (Nat.not_le.mpr hup)]
    exact ⟨rfl, h⟩
  · rw [if_neg hup, if_pos (Nat.not_lt.mp hup), beginDecay]
    by_cases hd : p.decay = 0 ∨ p.peak * 257 = levelOf p.sustain
    · rw [if_pos hd, if_neg]
      · exact ⟨rfl, rfl⟩
      · rintro ⟨h0, hne⟩
        exact hne (Nat.eq_of_mul_eq_mul_right (by decide) (hd.resolve_left h0)).symm
    · obtain ⟨h0, hne⟩ := not_or.mp hd
      rw [if_neg hd, if_pos ⟨h0, fun h => hne (congrArg levelOf h.symm)⟩]
      exact ⟨rfl, rfl⟩

theorem moveLevel_decay (h : ch.phase = .decay) : let down := 65536 / 2 ^ (p.decay.val - 1)
    if p.sustain * 257 + down < ch.level then
      (moveLevel p ch).level = ch.level - down ∧ (moveLevel p ch).phase = .decay
    else (moveLevel p ch).level = p.sustain * 257 ∧ (moveLevel p ch).phase = .sustain := by
  have hmove : moveLevel p ch = if ch.level ≤ p.sustain * 257 + 65536 / 2 ^ (p.decay.val - 1) then
      { ch with level := p.sustain * 257, phase := .sustain }
      else { ch with level := ch.level - 65536 / 2 ^ (p.decay.val - 1) } := by
    simp only [moveLevel, h]
    rfl
  dsimp only
  rw [hmove]
  by_cases hdown : p.sustain * 257 + 65536 / 2 ^ (p.decay.val - 1) < ch.level
  · rw [if_pos hdown, if_neg (Nat.not_le.mpr hdown)]
    exact ⟨rfl, h⟩
  · rw [if_neg hdown, if_pos (Nat.not_lt.mp hdown)]
    exact ⟨rfl, rfl⟩

theorem moveLevel_release (h : ch.phase = .release) : moveLevel p ch =
    if ch.level ≤ 65536 / 2 ^ (p.release.val - 1) then { ch with level := 0, phase := .rest }
    else { ch with level := ch.level - 65536 / 2 ^ (p.release.val - 1) } := by
  simp only [moveLevel, h]
  rfl

theorem moveLevel_releases (h : ch.phase = .release) : let down := 65536 / 2 ^ (p.release.val - 1)
    if down < ch.level then (moveLevel p ch).level = ch.level - down ∧ (moveLevel p ch).phase = .release
    else (moveLevel p ch).level = 0 ∧ (moveLevel p ch).phase = .rest := by
  dsimp only
  rw [moveLevel_release h]
  by_cases hdown : 65536 / 2 ^ (p.release.val - 1) < ch.level
  · rw [if_pos hdown, if_neg (Nat.not_le.mpr hdown)]
    exact ⟨rfl, h⟩
  · rw [if_neg hdown, if_pos (Nat.not_lt.mp hdown)]
    exact ⟨rfl, rfl⟩

theorem moveLevel_sustain (h : ch.phase = .sustain) : moveLevel p ch = ch := by simp only [moveLevel, h]

theorem moveLevel_rest (h : ch.phase = .rest) : moveLevel p ch = ch := by simp only [moveLevel, h]

/-- A channel within its on time counts one step, unless the on time has no end (R138). -/
def Channel.timed (p : Pattern) (ch : Channel) : Channel :=
  { ch with count := if p.onTime = 0 then ch.count else ch.count + 1 }

/-- Within its on time a channel that no other's gate restarts moves its level (R136, R138). -/
theorem envelopeStep_moves (hi : l.chans[c].pattern = some i) (hg : l.chans[c].gate = .opened)
    (hon : l.patterns[i].onTime = 0 ∨ (l.chans[c].group = 0 ∧ l.chans[c].count + 1 < 5 * l.patterns[i].onTime)) :
    l.envelopeStep.chans[c] = moveLevel l.patterns[i] (l.chans[c].timed l.patterns[i]) := by
  have hturned : l.chans[c].turned l.patterns = moveLevel l.patterns[i] (l.chans[c].timed l.patterns[i]) := by
    rw [turned_of_pattern hi, stepped_opened hg, Channel.timed]
    by_cases h0 : l.patterns[i].onTime = 0
    · rw [if_pos h0, if_pos h0]
    · rw [if_neg h0, if_neg h0, if_pos (hon.resolve_left h0).2]
      rfl
  have hunfollowed : ∀ x, darken x = darken l.chans[c] → Unfollowed l.patterns x := by
    intro x hx
    refine hon.symm.imp (fun h => (group_of_darken hx).trans h.1) fun h0 j hj => ?_
    cases (hj.symm.trans ((drive_of_darken hx).pattern.trans hi))
    rw [Bool.eq_false_iff, ne_eq, cycles_iff, h0]
    exact fun h => absurd h.1 (by decide)
  rw [← hturned]
  refine envelopeStep_unfollowed (hunfollowed _ rfl) (hunfollowed _ ?_)
  rw [hturned, darken_moveLevel]
  rfl

/-! ### The pattern's end (R138, R146) -/

/-- Another layer than the present one drives, or none. -/
theorem rechosen_of_driving {y : Layer} (hd : driving ch = (y, some k)) (hne : y ≠ ch.layer) :
    ch.rechosen w = Channel.fresh w[k] { ch with layer := y, pattern := some k } := by
  rw [Channel.rechosen, if_neg fun h => hne (congrArg Prod.fst (hd.symm.trans h)),
    driven_of_some (i := k) (congrArg Prod.snd hd), hd]

theorem rechosen_dark {y : Layer} (hd : driving ch = (y, none)) (hne : y ≠ ch.layer) :
    ch.rechosen w = darken { ch with layer := y, pattern := none } := by
  rw [Channel.rechosen, if_neg fun h => hne (congrArg Prod.fst (hd.symm.trans h)),
    driven_of_none (congrArg Prod.snd hd), hd]

/-! The ORDER layer ends: LOCATE drives, or AUTO, or the channel is dark. -/

theorem ended_order_locate (hl : x.layer = .order) (hk : x.locate = some k) : x.ended w =
    Channel.fresh w[k] { x with order := none, layer := .locate, pattern := some k } := by
  rw [ended_order hl]
  exact rechosen_of_driving (driving_locate hk) (hl ▸ nofun)

theorem ended_order_auto (hl : x.layer = .order) (hno : x.locate = none) (hk : x.auto = some k) : x.ended w =
    Channel.fresh w[k] { x with order := none, layer := .auto, pattern := some k } := by
  rw [ended_order hl]
  exact rechosen_of_driving ((driving_auto (ch := x.unordered) hno rfl).trans (congrArg (Prod.mk Layer.auto) hk)) (hl ▸ nofun)

theorem ended_order_dark (hl : x.layer = .order) (hno : x.locate = none) (hk : x.auto = none) : x.ended w =
    darken { x with order := none, layer := .auto, pattern := none } := by
  rw [ended_order hl]
  exact rechosen_dark ((driving_auto (ch := x.unordered) hno rfl).trans (congrArg (Prod.mk Layer.auto) hk)) (hl ▸ nofun)

/-! The LOCATE layer ends: ORDER drives, or AUTO, or the channel is dark. -/

theorem ended_locate_order (hl : x.layer = .locate) (hk : x.order = some k) : x.ended w =
    Channel.fresh w[k] { x.unlocated with layer := .order, pattern := some k } := by
  rw [ended_locate hl]
  exact rechosen_of_driving (driving_order rfl hk) (hl ▸ nofun)

theorem ended_locate_auto (hl : x.layer = .locate) (hno : x.order = none) (hk : x.auto = some k) : x.ended w =
    Channel.fresh w[k] { x.unlocated with layer := .auto, pattern := some k } := by
  rw [ended_locate hl]
  exact rechosen_of_driving ((driving_auto (ch := x.unlocated) rfl hno).trans (congrArg (Prod.mk Layer.auto) hk)) (hl ▸ nofun)

theorem ended_locate_dark (hl : x.layer = .locate) (hno : x.order = none) (hk : x.auto = none) : x.ended w =
    darken { x.unlocated with layer := .auto, pattern := none } := by
  rw [ended_locate hl]
  exact rechosen_dark ((driving_auto (ch := x.unlocated) rfl hno).trans (congrArg (Prod.mk Layer.auto) hk)) (hl ▸ nofun)

theorem envelopeStep_dark (h : l.chans[c].pattern = none) : l.envelopeStep.chans[c] = l.chans[c] := by
  have hu : Unfollowed l.patterns l.chans[c] := Or.inr fun i hi => nomatch h.symm.trans hi
  have hturned : l.chans[c].turned l.patterns = l.chans[c] := turned_dark h
  rw [envelopeStep_unfollowed hu (by rwa [hturned]), hturned]

/-- A channel out of any group takes its own turn in an envelope step. -/
theorem envelopeStep_alone (h : l.chans[c].group = 0) : l.envelopeStep.chans[c] = l.chans[c].turned l.patterns :=
  envelopeStep_unfollowed (Or.inl h) (Or.inl (turned_group.trans h))

/-! ### The command -/

theorem chan_lightStep (s : State) (c : Chan) : (finishStep (lightStep s)).chan c = s.lgt.envelopeStep.chans[c] := by
  have hlgt : (finishStep (lightStep s)).lgt = { s.lgt.envelopeStep with stepTimer := some envelopeStepMs } := by
    simp [lightStep]
  have hchans : (finishStep (lightStep s)).lgt.chans = s.lgt.envelopeStep.chans := by rw [hlgt]
  rw [State.chan, hchans]

/-- Settles O55: the move within the on time, the gate's changes by the gate as it stands, the restarts of a leader's
opening, the fresh cycle of a LIGHT SET, and how RELEASE begins and moves. -/
theorem envelopeStepMovesTheLevel : Obligations.EnvelopeStepMovesTheLevel := by
  refine ⟨fun s hnote => ?_, fun s => ?_, ?_, ?_, ?_⟩
  · obtain ⟨hlgt, hmem, hkept⟩ := lightEvent_answers hnote { s.lgt.envelopeStep with stepTimer := some envelopeStepMs }
    have htables := tables_of_setup (body_setup .envelopeStep s rfl)
    refine answers_of_body ⟨congrArg Lgt.stepTimer hlgt, fun c hn => ?_, fun c i hi hg => ?_, htables.1, htables.2,
      hkept, hmem⟩
    · exact (chan_lightStep s c).trans (envelopeStep_dark hn)
    · intro p ch hon
      have hchan : (finishStep (body .envelopeStep s)).chan c = moveLevel p (ch.timed p) :=
        (chan_lightStep s c).trans (envelopeStep_moves hi hg hon)
      rw [hchan]
      obtain ⟨⟨hauto, horder, hlocate, hlayer, hpattern, -⟩, hgroup⟩ :=
        darken_eq_iff.mp (darken_moveLevel (p := p) (ch := ch.timed p))
      have hgating := gating_moveLevel (p := p) (ch := ch.timed p)
      refine ⟨congrArg (·.2.1) hgating, (congrArg (·.1) hgating).trans hg, congrArg (·.2.2) hgating, hlayer,
        hpattern.trans hi, hauto, horder, hlocate, hgroup, ?_⟩
      split
      · rename_i h
        exact moveLevel_attack (ch := ch.timed p) h
      · rename_i h
        exact moveLevel_decay (ch := ch.timed p) h
      · rename_i h
        rw [moveLevel_sustain (ch := ch.timed p) h]
        exact ⟨rfl, h⟩
      · rename_i h
        exact moveLevel_releases (ch := ch.timed p) h
      · rename_i h
        rw [moveLevel_rest (ch := ch.timed p) h]
        exact ⟨rfl, h⟩
  · refine answers_of_body fun c i hi h0 => ?_
    intro p ch last shut opens fresh dark ended hd
    have hchan : (finishStep (body .envelopeStep s)).chan c = ch.stepped s.lgt.patterns p :=
      (chan_lightStep s c).trans ((envelopeStep_alone h0).trans (turned_of_pattern hi))
    have hended : ∀ x, darken x = darken ch → x.ended s.lgt.patterns = ended x := by
      intro x hx
      obtain ⟨-, -, -, hlayer, hpattern, -⟩ := drive_of_darken hx
      cases hl : ch.layer with
      | auto =>
        simp only [ended, hl]
        exact ended_auto (hlayer.trans hl) (hpattern.trans hi)
      | order =>
        simp only [ended, hl]
        split
        · rename_i k _ hk
          exact ended_order_locate (hlayer.trans hl) hk
        · rename_i k hno hk
          exact ended_order_auto (hlayer.trans hl) hno hk
        · rename_i hno hk
          exact ended_order_dark (hlayer.trans hl) hno hk
      | locate =>
        simp only [ended, hl]
        split
        · rename_i k _ hk
          exact ended_locate_order (hlayer.trans hl) hk
        · rename_i k hno hk
          exact ended_locate_auto (hlayer.trans hl) hno hk
        · rename_i hno hk
          exact ended_locate_dark (hlayer.trans hl) hno hk
    have hlastClosed : ∀ x, darken x = darken ch →
        x.lastClosed s.lgt.patterns = if x.level = 0 then ended x else x := by
      intro x hx
      rw [Channel.lastClosed, hended x hx]
    rw [hchan]
    refine ⟨fun hg hon hdue => ?_, fun hg hlast => ?_, fun hg hmore => ?_, fun hg => stepped_dip hg⟩
    · rw [stepped_opened hg, if_neg hon, if_neg (Nat.not_lt.mpr hdue)]
      by_cases hlast : last
      · rw [if_pos hlast, if_pos (lastOpening_true.mpr hlast), hlastClosed _ darken_shut]
        rfl
      · rw [if_neg hlast, if_neg fun h => hlast (lastOpening_true.mp h)]
        rfl
    · rw [stepped_closed hg, if_pos (lastOpening_true.mpr hlast), hlastClosed _ darken_moveLevel]
    · rw [stepped_closed hg, if_neg fun h => hmore (lastOpening_true.mp h)]
      rfl
  · intro s c i hg0 hlow hi hon hoff hact hgate hmore hdue
    have hc : Reopens s.lgt c i := ⟨⟨hi, cycles_iff.mpr ⟨hon, hoff, hact⟩, lastOpening_false.mpr hmore⟩, hgate, hdue⟩
    refine answers_of_body fun d k hgroup hk hon hoff hact hmore => (chan_lightStep s d).trans ?_
    exact envelopeStep_restarts ⟨hg0, hlow⟩ hc hgroup
      ⟨hk, cycles_iff.mpr ⟨hon, hoff, hact⟩, lastOpening_false.mpr hmore⟩
  · intro s n c i ⟨⟨hw, _⟩, hk⟩ hb hx hc hi hno
    have horder : lightSetOrder n (takeSlot n s) = lightSet n c (some i) (takeSlot n s) :=
      lightSetOrder_valid (lightSetChan_some (s := takeSlot n s) hb hx hc) (patternOf_index hi)
    refine answers_take rfl hk ?_
    rw [horder]
    have hlgt : (finishStep (lightSet n c (some i) (takeSlot n s))).lgt = s.lgt.setOrder c i :=
      (lightOrder_completes hw _ _ _).2
    rw [chan_of_lgt hlgt, setOrder_self, ordered_drives _ hno]
    rfl
  · intro p ch
    exact ⟨rfl, moveLevel_release, moveLevel_rest⟩

end Sys2Proof.Machine

/-! Settles the writes of ORDER DONE (O15) and ORDER POST (O16). -/

namespace Sys2Proof.Machine

variable {s t : State}

/-- A command whose body leaves the note of the step empty answers its body's state. -/
theorem exec_of_note {c : Instr} (hb : body c s = t) (h : StepNoteEmpty t.exp) : exec c s = .next t := by
  rw [exec_eq, hb, finishStep_of_note h]

/-- The note of a step is empty where its two fields are as in a state with an empty note. -/
theorem StepNoteEmpty.of_same {e e' : Exp} (h : StepNoteEmpty e) (hm : e'.stepMarks = e.stepMarks)
    (hd : e'.stepDone = e.stepDone) : StepNoteEmpty e' := by
  obtain ⟨hmarks, hdone⟩ := h
  exact ⟨hm.trans hmarks, hd.trans hdone⟩

/-! ### The slots one by one (R153, R154) -/

/-- Each slot of a list changed by its own rule. -/
def slotsEach (g : SlotId → Slot → Slot) (l : List SlotId) (v : Vector Slot 32) : Vector Slot 32 :=
  l.foldl (fun (v : Vector Slot 32) (n : SlotId) => v.set n (g n v[n])) v

theorem slotsEach_get (g : SlotId → Slot → Slot) {l : List SlotId} (hl : l.Nodup) (v : Vector Slot 32) (m : SlotId) :
    (slotsEach g l v)[m] = if m ∈ l then g m v[m] else v[m] := by
  induction l generalizing v with
  | nil => rfl
  | cons n rest ih =>
    obtain ⟨hn, hrest⟩ := List.nodup_cons.mp hl
    have hstep : (slotsEach g (n :: rest) v)[m] = (slotsEach g rest (v.set n (g n v[n])))[m] := rfl
    rw [hstep, ih hrest, getFin_set]
    by_cases hm : m = n
    · subst hm
      simp [hn]
    · simp [hm]

theorem slotsEach_all (g : SlotId → Slot → Slot) (v : Vector Slot 32) :
    slotsEach g (List.finRange 32) v = Vector.ofFn fun n => g n v[n] :=
  vector_ext fun m => by rw [slotsEach_get g (List.nodup_finRange 32), if_pos (List.mem_finRange m), getFin_ofFn]

theorem set_own (v : Vector Slot 32) (n : SlotId) : v.set n v[n] = v :=
  vector_ext fun m => by
    rw [getFin_set]
    split
    · rename_i h; rw [h]
    · rfl

/-- A slot's bit in the bitmap of the slots in a state (R151). -/
theorem slotSet_bit (e : Exp) (st : SlotState) (n : SlotId) :
    (slotSet e st).getLsbD n.val = decide (e.slots[n].state = st) := by
  have fold : ∀ (l : List SlotId) (acc : Word),
      (l.foldl (fun acc m => if e.slots[m].state = st then acc ||| (1#32 <<< m.val) else acc) acc).getLsbD n.val
        = (acc.getLsbD n.val || (decide (n ∈ l) && decide (e.slots[n].state = st))) := by
    intro l
    induction l with
    | nil => simp
    | cons m rest ih =>
      intro acc
      have hbit : (1#32 <<< m.val).getLsbD n.val = decide (n = m) := by
        have := n.isLt
        simp only [BitVec.getLsbD_shiftLeft, BitVec.getLsbD_one, Fin.ext_iff]
        by_cases h : n.val = m.val
        · simp [h]
        · by_cases h' : n.val < m.val
          · simp [h, h']
          · simp [h, show n.val - m.val ≠ 0 by omega]
      rw [List.foldl_cons, ih]
      by_cases hs : e.slots[m].state = st
      · rw [if_pos hs, BitVec.getLsbD_or, hbit]
        by_cases hm : n = m
        · subst hm
          simp only [hs, decide_true, Bool.or_true, Bool.true_or, Bool.and_true, List.mem_cons, true_or]
        · simp only [hm, decide_false, Bool.or_false, List.mem_cons, false_or]
      · rw [if_neg hs]
        by_cases hm : n = m
        · subst hm
          simp only [hs, decide_false, Bool.and_false]
        · simp only [hm, List.mem_cons, false_or]
  refine (fold (List.finRange 32) 0).trans ?_
  rw [show BitVec.getLsbD (0 : Word) n.val = false from BitVec.getLsbD_zero, Bool.false_or, decide_eq_true (List.mem_finRange n), Bool.true_and]

/-! ### ORDER DONE (R154) -/

/-- A slot after a DONE write with the bits `w`. -/
def doneSlot (w : Word) (n : SlotId) (x : Slot) : Slot :=
  if w.getLsbD n.val = true ∧ x.state = .done then { x with state := .free } else x

theorem doneBit_eq (w : Word) (e : Exp) (n : SlotId) :
    doneBit w e n = { e with slots := e.slots.set n (doneSlot w n e.slots[n]) } := by
  unfold doneBit doneSlot
  split
  · rfl
  · rw [set_own]

theorem doneBits_eq (w : Word) (l : List SlotId) (e : Exp) :
    l.foldl (doneBit w) e = { e with slots := slotsEach (doneSlot w) l e.slots } := by
  induction l generalizing e with
  | nil => rfl
  | cons n rest ih => rw [List.foldl_cons, ih, doneBit_eq]; rfl

theorem doneWrite_eq (half : RegHalf) (bits : Half) (s : State) : doneWrite half bits s =
    { s with exp := { s.exp with slots := Vector.ofFn fun n => doneSlot (placed half bits) n (s.slot n) } } := by
  unfold doneWrite updExp
  dsimp only
  rw [doneBits_eq, slotsEach_all]
  rfl

theorem exec_orderDone (h : StepNoteEmpty s.exp) (half : RegHalf) (bits : Half) :
    exec (.orderDone half bits) s = .next (doneWrite half bits s) :=
  exec_of_note rfl (by rw [doneWrite_eq]; exact h.of_same rfl rfl)

/-- A bit of ORDER DONE stays where its slot's bit was not written 1 (R154). -/
theorem orderDoneReg_doneWrite (half : RegHalf) (bits : Half) (n : SlotId) :
    (orderDoneReg (doneWrite half bits s)).getLsbD n.val =
      ((orderDoneReg s).getLsbD n.val && !(placed half bits).getLsbD n.val) := by
  unfold orderDoneReg
  rw [slotSet_bit, slotSet_bit, doneWrite_eq]
  dsimp only
  rw [getFin_ofFn]
  show decide ((doneSlot (placed half bits) n s.exp.slots[n]).state = .done) = _
  unfold doneSlot
  generalize s.exp.slots[n] = x
  generalize (placed half bits).getLsbD n.val = w
  by_cases hx : x.state = .done
  · cases w <;> simp [hx]
  · simp [hx]

/-- Settles O15: a DONE write slot by slot, and what a completion does by the state of its slot. -/
theorem doneWriteFreesDoneSlots : Obligations.DoneWriteFreesDoneSlots := by
  refine fun s hnote => ⟨fun half bits => ?_, fun half bits t ht n => ?_, fun n r d => ⟨fun h => if_neg h, fun h => ?_⟩⟩
  · rw [exec_orderDone hnote, doneWrite_eq]
    rfl
  · rw [exec_orderDone hnote] at ht
    cases ht
    exact orderDoneReg_doneWrite half bits n
  · rw [slot_complete, if_pos ⟨rfl, h⟩]

/-! ### ORDER POST (R153) -/

/-- A slot after a POST write with the bits `w`. -/
def postSlot (w : Word) (n : SlotId) (x : Slot) : Slot :=
  if w.getLsbD n.val = true ∧ x.state = .free then { x with state := .posted } else x

/-- Whether a POST write with the bits `w` collides at a slot. -/
def collides (w : Word) (n : SlotId) (x : Slot) : Bool := w.getLsbD n.val && decide (x.state ≠ .free)

/-- The collision count after `k` more collisions: it stops at 255. -/
def collisionsAfter (c k : Nat) : Nat := if k = 0 then c else min (c + k) 255

theorem collisionsAfter_succ (c k : Nat) : collisionsAfter (min (c + 1) 255) k = collisionsAfter c (k + 1) := by
  unfold collisionsAfter
  split <;> simp <;> omega

theorem postBit_collides {w : Word} {e : Exp} {n : SlotId} (h : collides w n e.slots[n] = true) :
    postBit w e n = { e with collisions := min (e.collisions + 1) 255 } := by
  simp only [collides, Bool.and_eq_true, decide_eq_true_eq] at h
  rw [postBit, if_pos h.1, if_neg h.2]

theorem postBit_posts {w : Word} {e : Exp} {n : SlotId} (h : collides w n e.slots[n] = false) :
    postBit w e n = { e with slots := e.slots.set n (postSlot w n e.slots[n]) } := by
  unfold postBit postSlot
  by_cases hb : w.getLsbD n.val = true
  · by_cases hs : e.slots[n].state = .free
    · rw [if_pos hb, if_pos hs, if_pos ⟨hb, hs⟩]
    · rw [collides, hb, decide_eq_true hs] at h
      cases h
  · rw [if_neg hb, if_neg fun x => hb x.1, set_own]

theorem postSlot_collides {w : Word} {n : SlotId} {x : Slot} (h : collides w n x = true) : postSlot w n x = x := by
  simp only [collides, Bool.and_eq_true, decide_eq_true_eq] at h
  exact if_neg fun e => h.2 e.2

theorem postBits_eq (w : Word) {l : List SlotId} (hl : l.Nodup) (e : Exp) : l.foldl (postBit w) e =
    { e with
      slots := slotsEach (postSlot w) l e.slots
      collisions := collisionsAfter e.collisions (l.countP fun n => collides w n e.slots[n]) } := by
  induction l generalizing e with
  | nil => rfl
  | cons n rest ih =>
    obtain ⟨hn, hrest⟩ := List.nodup_cons.mp hl
    rw [List.foldl_cons, ih hrest]
    cases hc : collides w n e.slots[n] with
    | true =>
      rw [postBit_collides hc, List.countP_cons_of_pos (p := fun m => collides w m e.slots[m]) hc]
      dsimp only
      rw [collisionsAfter_succ]
      show _ = { e with slots := slotsEach (postSlot w) rest (e.slots.set n (postSlot w n e.slots[n])), collisions := _ }
      rw [postSlot_collides hc, set_own]
    | false =>
      rw [postBit_posts hc, List.countP_cons_of_neg (p := fun m => collides w m e.slots[m]) (fun e => Bool.noConfusion (hc.symm.trans e))]
      have hcount : rest.countP (fun m => collides w m (e.slots.set n (postSlot w n e.slots[n]))[m])
          = rest.countP fun m => collides w m e.slots[m] := by
        refine List.countP_congr fun m hm => ?_
        rw [getFin_set, if_neg]
        rintro rfl
        exact hn hm
      dsimp only
      rw [hcount]
      rfl

theorem postWrite_ready (h : s.exp.ready = true) (half : RegHalf) (bits : Half) : postWrite half bits s =
    { s with exp := { s.exp with
      slots := Vector.ofFn fun n => postSlot (placed half bits) n (s.slot n)
      collisions := collisionsAfter s.exp.collisions
        ((List.finRange 32).countP fun n => collides (placed half bits) n (s.slot n)) } } := by
  unfold postWrite updExp
  rw [if_pos h]
  dsimp only
  rw [postBits_eq _ (List.nodup_finRange 32), slotsEach_all]
  rfl

theorem postWrite_not_ready (h : s.exp.ready ≠ true) (half : RegHalf) (bits : Half) : postWrite half bits s = s :=
  if_neg h

theorem postWrite_note (half : RegHalf) (bits : Half) (h : StepNoteEmpty s.exp) :
    StepNoteEmpty (postWrite half bits s).exp := by
  by_cases hr : s.exp.ready = true
  · rw [postWrite_ready hr]
    exact h.of_same rfl rfl
  · rwa [postWrite_not_ready hr]

/-- Settles O16: the host's memory writes, then the POST write slot by slot. -/
theorem postWritePostsFreeSlots : Obligations.PostWritePostsFreeSlots := by
  intro s ws half bits hnote
  have hbody : body (.orderPost ws half bits) s = postWrite half bits (hostWrites ws s) := rfl
  rw [exec_of_note hbody (postWrite_note half bits (s := hostWrites ws s) hnote)]
  by_cases hr : s.exp.ready = true
  · rw [postWrite_ready (s := hostWrites ws s) hr, if_pos hr]
    rfl
  · rw [postWrite_not_ready (s := hostWrites ws s) hr, if_neg hr]
    rfl

end Sys2Proof.Machine

/-! Settles the register block on the local bus and the freeze (O17). -/

namespace Sys2Proof.Machine

variable {s t : State}

/-! ### The change registers (R151, R160) -/

/-- A write of the unused bits of an upper half names none of bits 0 to 28 (R151). -/
theorem placed_unused_and (v : Half) : placed .upper (v &&& changeUnused) &&& changeBits = 0 := by
  have unused : ∀ j : Fin 16, (changeUnused.getLsbD j.val && changeBits.getLsbD (16 + j.val)) = false := by decide
  refine BitVec.eq_of_getLsbD_eq fun i hi => ?_
  simp only [placed, BitVec.getLsbD_and, BitVec.getLsbD_shiftLeft, BitVec.getLsbD_setWidth]
  by_cases h16 : i < 16
  · simp [h16]
  · have hbit : (changeUnused.getLsbD (i - 16) && changeBits.getLsbD i) = false := by
      have := unused ⟨i - 16, by omega⟩
      rwa [show 16 + (i - 16) = i by omega] at this
    rw [Bool.and_assoc, Bool.and_assoc, Bool.and_assoc, Bool.and_assoc, hbit]
    simp

/-- Where bits 29 to 31 read 0, a write of the unused bits clears nothing (R160). -/
theorem clear_unused {x : Word} (h : x &&& 0xE0000000 = 0) (v : Half) :
    x &&& ~~~(placed .upper (v &&& changeUnused)) = x := by
  refine BitVec.eq_of_getLsbD_eq fun i hi => ?_
  have hhigh : ∀ j : Fin 32, ((0xE0000000 : Word).getLsbD j.val || changeBits.getLsbD j.val) = true := by decide
  have hx := congrArg (fun w : Word => w.getLsbD i) h
  have hp := congrArg (fun w : Word => w.getLsbD i) (placed_unused_and v)
  have hi' := hhigh ⟨i, hi⟩
  simp only [BitVec.getLsbD_and, BitVec.getLsbD_not, hi, decide_true, Bool.true_and] at hx hp hi' ⊢
  rw [show BitVec.getLsbD (0 : Word) i = false from BitVec.getLsbD_zero] at hx hp
  revert hx hp hi'
  generalize BitVec.getLsbD x i = a
  generalize (placed .upper (v &&& changeUnused)).getLsbD i = b
  generalize BitVec.getLsbD (0xE0000000 : Word) i = c
  generalize changeBits.getLsbD i = d
  revert a b c d
  decide

/-- A write of the unused bits of CHANGE ENABLE clears the used bits of its half (R151). -/
theorem enable_unused (x : Word) (v : Half) :
    ((x &&& otherHalf .upper) ||| placed .upper (v &&& changeUnused)) &&& changeBits = x &&& 0x0000FFFF := by
  have hlow : otherHalf .upper &&& changeBits = 0x0000FFFF := by decide
  rw [BitVec.and_comm, BitVec.and_or_distrib_left, BitVec.and_comm changeBits, BitVec.and_comm changeBits,
    placed_unused_and, BitVec.and_assoc, hlow]
  exact BitVec.or_zero

/-! ### The freeze (R163 to R165) -/

/-- What the end of a freeze leaves: freeze active stays up exactly while records are dirty (R164). -/
def Exp.thawed (e : Exp) : Exp :=
  { e with
    freezeBit := false, freezeTimer := none, thawLeft := dirtyRecords e.dirty
    freezeActive := e.freezeActive && !e.dirty.isEmpty }

theorem endFreeze_eq (s : State) : endFreeze s = { s with exp := s.exp.thawed } := by
  unfold endFreeze settleThaw updExp Exp.thawed
  dsimp only
  have hempty : (s.exp.dirty.map DirtyEntry.record).isEmpty = s.exp.dirty.isEmpty := by
    cases s.exp.dirty <;> rfl
  rw [hempty]
  cases hd : s.exp.dirty.isEmpty
  · simp [dirtyRecords]
  · cases hf : s.exp.freezeActive <;> simp [dirtyRecords]

theorem freezeOff_eq (s : State) :
    freezeOff s = if s.exp.freezeBit = true then { s with exp := s.exp.thawed } else s := by
  unfold freezeOff
  rw [endFreeze_eq]

theorem freezeOff_note (h : StepNoteEmpty s.exp) : StepNoteEmpty (freezeOff s).exp := by
  rw [freezeOff_eq]
  split
  · exact h.of_same rfl rfl
  · exact h

theorem freezeOn_note (h : StepNoteEmpty s.exp) : StepNoteEmpty (freezeOn s).exp := by
  unfold freezeOn
  split
  · exact h.of_same rfl rfl
  · exact h

theorem freezeOn_eq (s : State) : freezeOn s =
    if s.exp.ready = true ∧ s.exp.freezeBit = false then
      { s with exp := { s.exp with
        freezeBit := true, freezeActive := true, freezeExpired := false, freezeTimer := some 250 } }
    else s := by
  unfold freezeOn
  simp only [Bool.and_eq_true, Bool.not_eq_true']
  rfl

theorem freezeExpiry_eq (s : State) : freezeExpiry s =
    if s.exp.freezeTimer.isSome = true then
      { s with exp := { s.exp.thawed with freezeExpired := true, summary := s.exp.summary ||| 0x10000000 } }
    else s := by
  unfold freezeExpiry
  rw [endFreeze_eq]
  rfl

theorem freezeExpiry_note (h : StepNoteEmpty s.exp) : StepNoteEmpty (freezeExpiry s).exp := by
  rw [freezeExpiry_eq]
  split
  · exact h.of_same rfl rfl
  · exact h

/-- The done-interrupt enable as a write of PORT CONTROL sets it (R152). -/
def setDoneEnable (on : Bool) (s : State) : State := updExp (fun e => { e with doneEnable := on }) s

theorem registerWritesBetweenSteps (h : StepNoteEmpty s.exp) :
    (∀ half bits, exec (.changeSummary half bits) s = .next (summaryWrite half bits s)) ∧
    (∀ half mask, exec (.changeEnable half mask) s = .next (enableWrite half mask s)) ∧
    (∀ on, exec (.doneInterruptEnable on) s = .next (setDoneEnable on s)) ∧
    (exec .freeze s = .next (freezeOn s)) ∧ (exec .thaw s = .next (freezeOff s)) ∧
    (exec .autoThaw s = .next (freezeExpiry s)) :=
  ⟨fun _ _ => exec_of_note rfl (h.of_same rfl rfl), fun _ _ => exec_of_note rfl (h.of_same rfl rfl),
    fun _ => exec_of_note rfl (h.of_same rfl rfl), exec_of_note rfl (freezeOn_note h),
    exec_of_note rfl (freezeOff_note h), exec_of_note rfl (freezeExpiry_note h)⟩

/-- A write of what a half does not use, by its target (R151, R152). -/
theorem otherWritesBetweenSteps (h : StepNoteEmpty s.exp) :
    (∀ half v, exec (.registerWriteOther (.portStatus half v)) s = .next s) ∧
    (∀ v, exec (.registerWriteOther (.portControlUpper v)) s = .next s) ∧
    (∀ v, exec (.registerWriteOther (.changeSummaryUnused v)) s = .next (summaryWrite .upper (v &&& changeUnused) s)) ∧
    (∀ v, exec (.registerWriteOther (.changeEnableUnused v)) s = .next (enableWrite .upper (v &&& changeUnused) s)) ∧
    ∀ v, exec (.registerWriteOther (.portControlUnused v)) s = .next (freezeOff (setDoneEnable false s)) :=
  ⟨fun _ _ => exec_of_note rfl h, fun _ => exec_of_note rfl h, fun _ => exec_of_note rfl (h.of_same rfl rfl),
    fun _ => exec_of_note rfl (h.of_same rfl rfl),
    fun v => exec_of_note (otherWrite_control v s) (freezeOff_note (h.of_same rfl rfl))⟩

/-! ### The local bus (R151, R152) -/

/-- Each register stands at its base and 2 above (R151). -/
theorem registerAt_base (r : Register) :
    registerAt r.base = some (r, .lower) ∧ registerAt (r.base + 2) = some (r, .upper) := by
  cases r <;> exact ⟨rfl, rfl⟩

theorem registerAt_none {a : Nat} (h : 0x4018 ≤ a) : registerAt a = none := by
  refine List.findSome?_eq_none_iff.mpr fun r _ => ?_
  have hr : r.base ≤ 0x4014 := by cases r <;> decide
  rw [if_neg (by omega), if_neg (by omega)]

theorem Register.base_outside (r : Register) : ¬ r.base < Memory.size ∧ ¬ r.base + 2 < Memory.size := by
  cases r <;> decide

/-- A bus read of the two halves of a register (R151). -/
theorem busRead_register (s : State) (r : Register) :
    busRead s r.base = some (regHalf (registerWord s r) .lower) ∧
    busRead s (r.base + 2) = some (regHalf (registerWord s r) .upper) := by
  obtain ⟨hlow, hhigh⟩ := r.base_outside
  obtain ⟨hl, hu⟩ := registerAt_base r
  unfold busRead
  rw [if_neg hlow, if_neg hhigh, hl, hu]
  exact ⟨rfl, rfl⟩

/-- A bus write of the two halves of a register (R151). -/
theorem busWrite_register (s : State) (r : Register) (v : Half) :
    busWrite r.base v s = registerWrite r .lower v s ∧ busWrite (r.base + 2) v s = registerWrite r .upper v s := by
  obtain ⟨hlow, hhigh⟩ := r.base_outside
  obtain ⟨hl, hu⟩ := registerAt_base r
  unfold busWrite
  rw [if_neg hlow, if_neg hhigh, hl, hu]
  exact ⟨rfl, rfl⟩

theorem busRead_memory {a : Nat} (h : a < 0x4000) (h' : a % 2 = 0) :
    busRead s a = some (BitVec.ofNat 16 ((s.mem.read a).toNat + 256 * (s.mem.read (a + 1)).toNat)) := by
  rw [busRead, if_pos (show a < Memory.size from h), if_pos h']
  rfl

theorem busRead_nothing {a : Nat} (h : 0x4018 ≤ a) : busRead s a = none := by
  rw [busRead, if_neg (by unfold Memory.size; omega), registerAt_none h]
  rfl

theorem busWrite_memory {a : Nat} (h : a < 0x4000) (h' : a % 2 = 0) (v : Half) :
    busWrite a v s = { s with mem := s.mem.writeBytes a (le16 v.toNat) } := by
  rw [busWrite, if_pos (show a < Memory.size from h), if_pos h']

/-- A write of PORT CONTROL's lower half with the port reset bit set (R152). -/
theorem busWrite_portReset {v : Half} (h : v.getLsbD 2 = true) : busWrite 0x4010 v s = portResetAll s := by
  rw [show (0x4010 : Nat) = Register.base .portControl from rfl, (busWrite_register s .portControl v).1]
  exact if_pos h

/-- A write of PORT CONTROL's lower half with the port reset bit clear (R152). -/
theorem busWrite_control {v : Half} (h : v.getLsbD 2 = false) : busWrite 0x4010 v s =
    if v.getLsbD 1 = true then freezeOn (setDoneEnable (v.getLsbD 0) s)
    else freezeOff (setDoneEnable (v.getLsbD 0) s) := by
  rw [show (0x4010 : Nat) = Register.base .portControl from rfl, (busWrite_register s .portControl v).1]
  exact if_neg (by rw [h]; exact Bool.false_ne_true)

/-- DONE_INTERRUPT_ENABLE, then FREEZE or THAW, is the write of PORT CONTROL's lower half without bit 2 (R152). -/
theorem control_in_two_commands (h : StepNoteEmpty s.exp) {v : Half} (hv : v.getLsbD 2 = false) :
    Answers (.doneInterruptEnable (v.getLsbD 0)) s fun u =>
      exec (if v.getLsbD 1 = true then .freeze else .thaw) u = .next (busWrite 0x4010 v s) := by
  obtain ⟨-, -, hdone, -⟩ := registerWritesBetweenSteps h
  have hu : StepNoteEmpty (setDoneEnable (v.getLsbD 0) s).exp := h.of_same rfl rfl
  obtain ⟨-, -, -, hfreeze, hthaw, -⟩ := registerWritesBetweenSteps hu
  refine ⟨_, hdone _, ?_⟩
  rw [busWrite_control hv]
  split
  · exact hfreeze
  · exact hthaw

/-- Settles O17: each register write and the freeze as its command makes it, and the same through the local bus. -/
theorem registerWritesAndTheFreeze : Obligations.RegisterWritesAndTheFreeze := by
  refine ⟨fun s hnote => ?_, fun s hnote => ?_, fun s => ⟨fun a => busRead_memory, fun r hr => ?_, fun a => busRead_nothing⟩,
    fun s v hnote => ?_⟩
  · obtain ⟨hsummary, henable, hdone, -⟩ := registerWritesBetweenSteps hnote
    obtain ⟨hstatus, hupper, hunused, heunused, hcontrol⟩ := otherWritesBetweenSteps hnote
    refine ⟨hsummary, henable, hdone, hstatus, hupper, hunused, fun h v => ?_, fun v => ?_, fun v => ?_⟩
    · rw [hunused, summaryWrite, updExp, clear_unused h]
    · rw [heunused, enableWrite, updExp, enable_unused]
    · rw [hcontrol, freezeOff_eq]
      rfl
  · obtain ⟨-, -, -, hfreeze, hthaw, hexpiry⟩ := registerWritesBetweenSteps hnote
    rw [hfreeze, hthaw, hexpiry, freezeOn_eq, freezeOff_eq, freezeExpiry_eq]
    exact ⟨rfl, rfl, rfl⟩
  · have hread := busRead_register s
    simp only [List.mem_cons, List.not_mem_nil, or_false] at hr
    rcases hr with rfl | rfl | rfl | rfl | rfl | rfl
    · exact hread .orderPost
    · exact hread .orderDone
    · exact hread .changeSummary
    · exact hread .changeEnable
    · exact hread .portControl
    · exact hread .portStatus
  · obtain ⟨hsummary, henable, -⟩ := registerWritesBetweenSteps hnote
    obtain ⟨hstatus, hupper, -⟩ := otherWritesBetweenSteps hnote
    have hpost : ∀ half, exec (.orderPost [] half v) s = .next (postWrite half v s) := fun half =>
      exec_of_note rfl (postWrite_note half v hnote)
    have hwrite := fun r => busWrite_register s r v
    refine ⟨fun a ha ha' => busWrite_memory ha ha' v, ?_, ?_, ?_, ?_, ?_, ?_, ?_, ?_, fun h => ?_,
      fun h => control_in_two_commands hnote h, ?_, ?_, ?_⟩
    · exact (hpost .lower).trans (congrArg _ (hwrite .orderPost).1.symm)
    · exact (hpost .upper).trans (congrArg _ (hwrite .orderPost).2.symm)
    · exact (exec_orderDone hnote .lower v).trans (congrArg _ (hwrite .orderDone).1.symm)
    · exact (exec_orderDone hnote .upper v).trans (congrArg _ (hwrite .orderDone).2.symm)
    · exact (hsummary .lower v).trans (congrArg _ (hwrite .changeSummary).1.symm)
    · exact (hsummary .upper v).trans (congrArg _ (hwrite .changeSummary).2.symm)
    · exact (henable .lower v).trans (congrArg _ (hwrite .changeEnable).1.symm)
    · exact (henable .upper v).trans (congrArg _ (hwrite .changeEnable).2.symm)
    · rw [busWrite_portReset h]
      rfl
    · exact (hupper v).trans (congrArg _ (hwrite .portControl).2.symm)
    · exact (hstatus .lower v).trans (congrArg _ (hwrite .portStatus).1.symm)
    · exact (hstatus .upper v).trans (congrArg _ (hwrite .portStatus).2.symm)

end Sys2Proof.Machine

/-! Settles PORT_RESET (O18) and the interrupt line (O19). -/

namespace Sys2Proof.Machine

variable {s t : State}

/-! ### The owners drop their slots (R166) -/

/-- A bay record without its power order (R24). -/
def BayRec.orderless (r : BayRec) : BayRec := { r with powerOrder := none }

theorem clearPowerOrders_eq (s : State) :
    clearPowerOrders s = (List.finRange 24).foldl (fun s b => updBay b BayRec.orderless s) s := rfl

theorem bay_clearOrders (l : List Bay) (s : State) (d : Bay) :
    (l.foldl (fun s b => updBay b BayRec.orderless s) s).bay d = if d ∈ l then (s.bay d).orderless else s.bay d := by
  induction l generalizing s with
  | nil => rfl
  | cons b rest ih =>
    rw [List.foldl_cons, ih, bay_updBay]
    by_cases hd : d = b
    · subst hd
      simp [BayRec.orderless]
    · simp [hd]

theorem bay_clearPowerOrders (s : State) (d : Bay) : (clearPowerOrders s).bay d = (s.bay d).orderless := by
  rw [clearPowerOrders_eq, bay_clearOrders, if_pos (List.mem_finRange d)]

/-- Clearing the power orders leaves BMON's timers, the slots, and the history still to write (R24). -/
theorem clearPowerOrders_leaves (s : State) :
    (clearPowerOrders s).bmon.debounce = s.bmon.debounce ∧ (clearPowerOrders s).bmon.replug = s.bmon.replug ∧
    (clearPowerOrders s).exp.slots = s.exp.slots ∧ (clearPowerOrders s).exp.histPending = s.exp.histPending := by
  have hpending : ∀ (u : State) (b : Bay), (updBay b BayRec.orderless u).exp.histPending = u.exp.histPending := fun u b => by
    obtain ⟨d, m, h⟩ := markIf_exp_fields (decide (BayRec.orderless (u.bay b) ≠ u.bay b)) (.bay b) true
      { u with bmon := { u.bmon with bays := u.bmon.bays.set b (BayRec.orderless (u.bay b)) } }
    rw [updBay, h]
  rw [clearPowerOrders_eq]
  exact ⟨foldl_keeps (fun s : State => s.bmon.debounce) _ (fun u b => by rw [updBay_bmon]) _ s,
    foldl_keeps (fun s : State => s.bmon.replug) _ (fun u b => by rw [updBay_bmon]) _ s,
    foldl_keeps (fun s : State => s.exp.slots) _ (fun u b => updBay_slots b _ u) _ s,
    foldl_keeps (fun s : State => s.exp.histPending) _ hpending _ s⟩

theorem dropSlots_exp (s : State) : (dropSlots s).exp = (clearPowerOrders s).exp := by
  unfold dropSlots
  generalize clearPowerOrders s = u
  rfl

/-- What the owners hold after they have dropped their slots (R45, R81, R94, R113, R128). -/
theorem dropSlots_owners (s : State) : (dropSlots s).pseq = s.pseq.slotless ∧ (dropSlots s).sbe = s.sbe.slotless ∧
    (dropSlots s).thc = s.thc.slotless ∧ (dropSlots s).fanu = s.fanu.slotless := by
  unfold dropSlots
  simp

/-! ### The whole mirror to write (R161, R166) -/

theorem mem_allRecords (r : MirrorRec) : r ∈ allRecords := by
  cases r <;> simp [allRecords]

theorem mem_foldl_addMark (as : List MirrorRec) (l : List DirtyEntry) {r : MirrorRec}
    (h : r ∈ as ∨ r ∈ dirtyRecords l) : r ∈ dirtyRecords (as.foldl (fun l r => addMark r false l) l) := by
  induction as generalizing l with
  | nil => exact h.resolve_left List.not_mem_nil
  | cons a rest ih =>
    refine ih _ ?_
    rw [mem_addMark]
    rcases h with h | h
    · rcases List.mem_cons.mp h with h | h
      · exact Or.inr (Or.inl h)
      · exact Or.inl h
    · exact Or.inr (Or.inr h)

/-- Every record waits in the writing a port reset begins (R166). -/
theorem mem_wholeMirror (e : Exp) (r : MirrorRec) : r ∈ dirtyRecords (wholeMirror e) :=
  mem_foldl_addMark allRecords _ (Or.inl (mem_allRecords r))

/-! ### The command (R166) -/

/-- With no record waiting, the end of a step only clears its note. -/
theorem finishStep_of_clean (h : s.exp.dirty = []) :
    finishStep s = { s with exp := { s.exp with stepMarks := [], stepDone := false } } := by
  have hwrite : ∀ r, writeStepRecord s r = s := fun r => by unfold writeStepRecord; rw [h]; rfl
  have hfold : ∀ l : List MirrorRec, l.foldl writeStepRecord s = s := fun l => List.foldl_fixed' hwrite l
  unfold finishStep
  dsimp only
  rw [hfold, ite_self]

/-- EXP at the end of PORT_RESET. -/
def Exp.portResetDone (e : Exp) : Exp := { e.portReset with stepMarks := [], stepDone := false }

/-- The state PORT_RESET answers. -/
def portResetStep (s : State) : State := { dropSlots s with exp := (dropSlots s).exp.portResetDone }

/-- A port reset begins the writing of the whole mirror, with change bits to follow (R166). -/
theorem portResetDone_writes (e : Exp) : ∃ w, e.portResetDone.resetWrite = some w ∧ w.setBits = true ∧
    ∀ r, r ∈ dirtyRecords w.left := by
  have hall := mem_wholeMirror e
  have hwrite : e.portResetDone.resetWrite = some ⟨wholeMirror e, true⟩ := by
    simp only [Exp.portResetDone, Exp.portReset]
  generalize wholeMirror e = l at hall hwrite
  exact ⟨⟨l, true⟩, hwrite, rfl, hall⟩

/-- A port reset leaves the update counts and the history still to write (R166). -/
theorem portResetDone_kept (e : Exp) :
    e.portResetDone.counts = e.counts ∧ e.portResetDone.histPending = e.histPending := by
  simp only [Exp.portResetDone, Exp.portReset, and_self]

theorem finishStep_resetPort (u : State) :
    finishStep (updExp Exp.portReset u) = { u with exp := u.exp.portResetDone } := by
  rw [finishStep_of_clean (s := updExp Exp.portReset u) rfl]
  simp only [updExp, Exp.portResetDone]

theorem answers_portReset {P : State → Prop} (h : P (portResetStep s)) : Answers .portReset s P :=
  ⟨_, (exec_eq .portReset s).trans (congrArg _ (finishStep_resetPort (dropSlots s))), h⟩

theorem portResetDone_slots (e : Exp) (n : SlotId) : e.portResetDone.slots[n] = { e.slots[n] with state := .free } :=
  getFin_ofFn _ n

theorem slot_portReset (s : State) (n : SlotId) : (portResetStep s).slot n = { s.slot n with state := .free } := by
  obtain ⟨-, -, hslots, -⟩ := clearPowerOrders_leaves s
  rw [portResetStep, State.slot, portResetDone_slots, dropSlots_exp, hslots]
  rfl

theorem fanWork_portReset (s : State) (f : FanId) : (portResetStep s).fanWork f = (s.fanWork f).slotless := by
  obtain ⟨-, -, -, hfanu⟩ := dropSlots_owners s
  rw [portResetStep, State.fanWork, hfanu]
  exact getFin_ofFn (fun i => s.fanu.work[i].slotless) f

theorem bay_dropSlots (s : State) (b : Bay) : (dropSlots s).bay b = (s.bay b).orderless := by
  rw [← bay_clearPowerOrders]
  unfold dropSlots
  generalize clearPowerOrders s = u
  rfl

theorem bay_portReset (s : State) (b : Bay) : (portResetStep s).bay b = (s.bay b).orderless := by
  rw [← bay_dropSlots]
  unfold portResetStep
  generalize dropSlots s = u
  generalize u.exp.portResetDone = e
  rfl

theorem dropSlots_timers (s : State) :
    (dropSlots s).bmon.debounce = s.bmon.debounce ∧ (dropSlots s).bmon.replug = s.bmon.replug := by
  obtain ⟨hdebounce, hreplug, -⟩ := clearPowerOrders_leaves s
  rw [← hdebounce, ← hreplug]
  unfold dropSlots
  generalize clearPowerOrders s = u
  exact ⟨rfl, rfl⟩

/-- Settles O18: the exchange as a port reset returns it, and what each owner drops and keeps. -/
theorem portResetReturnsTheExchange : Obligations.PortResetReturnsTheExchange := by
  refine fun s => answers_portReset ?_
  have hslot := slot_portReset s
  have hwork := fanWork_portReset s
  have hbay := bay_portReset s
  have hcounts := (portReset_changes s).portKept.counts
  have hpending : (dropSlots s).exp.histPending = s.exp.histPending := by
    obtain ⟨-, -, -, hleft⟩ := clearPowerOrders_leaves s
    rw [dropSlots_exp, hleft]
  obtain ⟨hdebounce, hreplug⟩ := dropSlots_timers s
  obtain ⟨hpseq, hsbe, hthc, hfanu⟩ := dropSlots_owners s
  obtain ⟨hpins, hlgt, hmem, hclock, -, -⟩ := dropSlots_keeps s
  revert hslot hwork hbay
  unfold portResetStep
  generalize dropSlots s = u at *
  intro hslot hwork hbay
  obtain ⟨hcounts', hpending'⟩ := portResetDone_kept u.exp
  have hfans : u.fanu.fans = s.fanu.fans := by rw [hfanu]; rfl
  have houtput : u.fanu.output = s.fanu.output := by rw [hfanu]; rfl
  have hd3 : u.fanu.d3 = s.fanu.d3 := by rw [hfanu]; rfl
  have hmember : u.fanu.member = s.fanu.member := by rw [hfanu]; rfl
  have hgate : u.fanu.gateTimer = s.fanu.gateTimer := by rw [hfanu]; rfl
  refine ⟨hslot, rfl, rfl, rfl, rfl, rfl, rfl, rfl, rfl, rfl, rfl, hcounts'.trans hcounts, hpending'.trans hpending,
    portResetDone_writes u.exp, hbay, hdebounce, hreplug, hpseq, hsbe, hthc, hfans, hwork,
    houtput, hd3, hmember, hgate, hlgt, hmem, hpins, hclock⟩

/-! ### The interrupt line (R158) -/

theorem word_ne_zero_iff (w : Word) : w ≠ 0 ↔ ∃ i, i < 32 ∧ w.getLsbD i = true := by
  constructor
  · intro h
    by_contra hno
    refine h (BitVec.eq_of_getLsbD_eq fun i hi => ?_)
    have : w.getLsbD i = false := Bool.eq_false_iff.mpr fun hbit => hno ⟨i, hi, hbit⟩
    rw [this]
    exact BitVec.getLsbD_zero.symm
  · rintro ⟨i, -, hbit⟩ rfl
    rw [show BitVec.getLsbD (0 : Word) i = false from BitVec.getLsbD_zero] at hbit
    cases hbit

theorem orderDoneReg_ne_zero_iff (s : State) : orderDoneReg s ≠ 0 ↔ ∃ n, (s.slot n).state = .done := by
  rw [word_ne_zero_iff]
  constructor
  · rintro ⟨i, hi, hbit⟩
    exact ⟨⟨i, hi⟩, of_decide_eq_true ((slotSet_bit s.exp .done ⟨i, hi⟩).symm.trans hbit)⟩
  · rintro ⟨n, hn⟩
    exact ⟨n.val, n.isLt, (slotSet_bit s.exp .done n).trans (decide_eq_true hn)⟩

/-- The line is asserted exactly while one of its two terms holds (R158). -/
theorem interruptLine_iff (s : State) : interruptLine s = true ↔
    (orderDoneReg s ≠ 0 ∧ s.exp.doneEnable = true) ∨
      ∃ i, i < 32 ∧ (changeSummaryReg s).getLsbD i = true ∧ (changeEnableReg s).getLsbD i = true := by
  have hdone : (List.finRange 32).any (fun n => (s.slot n).state == .done) = true ↔ orderDoneReg s ≠ 0 := by
    rw [orderDoneReg_ne_zero_iff]
    simp [List.any_eq_true]
  have hchange : ((s.exp.summary &&& s.exp.enable) != 0) = true ↔
      ∃ i, i < 32 ∧ s.exp.summary.getLsbD i = true ∧ s.exp.enable.getLsbD i = true := by
    rw [bne_iff_ne, word_ne_zero_iff]
    simp only [BitVec.getLsbD_and, Bool.and_eq_true]
  unfold interruptLine
  rw [Bool.or_eq_true, Bool.and_eq_true, hdone, hchange, and_comm]
  rfl

/-- With its registers at 0 the line is released. -/
theorem interruptLine_released (h : orderDoneReg s = 0) (h' : changeSummaryReg s = 0) : interruptLine s = false := by
  refine Bool.eq_false_iff.mpr fun hline => ?_
  rcases (interruptLine_iff s).mp hline with ⟨hne, -⟩ | ⟨i, -, hbit, -⟩
  · exact hne h
  · rw [h', show BitVec.getLsbD (0 : Word) i = false from BitVec.getLsbD_zero] at hbit
    cases hbit

theorem orderDoneReg_free (h : ∀ n, (s.slot n).state = .free) : orderDoneReg s = 0 :=
  slotSet_eq_zero fun n e => by cases (h n).symm.trans e

/-- Settles O19: the line's two terms, and the registers that feed it after either reset. -/
theorem interruptLineFollowsItsTerms : Obligations.InterruptLineFollowsItsTerms := by
  refine ⟨interruptLine_iff, fun c s hc => ?_⟩
  rcases hc with rfl | rfl
  · refine answers_of_body ?_
    have hexp : (finishStep (body .powerOnReset s)).exp = _ := powerOn_exp s
    generalize finishStep (body .powerOnReset s) = u at hexp ⊢
    have hdone : orderDoneReg u = 0 := orderDoneReg_free fun n => by
      show u.exp.slots[n].state = .free
      rw [hexp]
      exact congrArg Slot.state (getFin_replicate _ n)
    have hsummary : changeSummaryReg u = 0 := congrArg Exp.summary hexp
    exact ⟨hdone, congrArg Exp.doneEnable hexp, hsummary, congrArg Exp.enable hexp,
      interruptLine_released hdone hsummary⟩
  · refine answers_portReset ?_
    have hdone : orderDoneReg (portResetStep s) = 0 := orderDoneReg_free fun n => by rw [slot_portReset]
    exact ⟨hdone, rfl, rfl, rfl, interruptLine_released hdone rfl⟩

end Sys2Proof.Machine

/-! Settles the writing of one mirror record (O20). -/

namespace Sys2Proof.Machine

variable {s t : State}

/-! ### The history a bay record takes along (R162) -/

/-- The write of one ring position, where it waits. -/
def histWrite (b : Bay) (s : State) (m : Memory) (p : Fin 8) : Memory :=
  if (s.exp.histPending[b]).getLsbD p.val then m.writeBytes (historyBase b p) (encodeHist (s.bay b).ring[p]) else m

theorem writeHistory_eq (b : Bay) (s : State) (m : Memory) :
    writeHistory b s m = (ringOrder (s.bay b).head).foldl (histWrite b s) m := rfl

theorem mem_ringOrder (head p : Fin 8) : p ∈ ringOrder head :=
  List.mem_map.mpr ⟨p - head, List.mem_finRange _, add_sub_cancel head p⟩

theorem histWrite_wf (b : Bay) (s : State) (p : Fin 8) {m : Memory} (h : m.wf = true) :
    (histWrite b s m p).wf = true := by
  have hrange := historyBase_range b p
  unfold histWrite
  split
  · exact Memory.wf_writeBytes h (by simp only [encodeHist_length, Memory.size]; omega)
  · exact h

/-- The write of a waiting position leaves every byte outside it. -/
theorem histWrite_outside (b : Bay) (s : State) (p : Fin 8) {m : Memory} (h : m.wf = true) {a : Nat}
    (ha : s.exp.histPending[b].getLsbD p.val = true → ¬ (historyBase b p ≤ a ∧ a < historyBase b p + 8)) :
    (histWrite b s m p).read a = m.read a := by
  have hrange := historyBase_range b p
  unfold histWrite
  split
  · rename_i hp
    have hout := ha hp
    exact Memory.read_writeBytes_outside h (by simp only [encodeHist_length, Memory.size]; omega)
      (by simp only [encodeHist_length]; omega)
  · rfl

/-- A waiting position holds its ring entry once it is written, whatever other positions are written after it. -/
theorem histWrite_holds (b : Bay) (s : State) (p q : Fin 8) {m : Memory} (h : m.wf = true)
    (hp : s.exp.histPending[b].getLsbD p.val = true)
    (hq : q = p ∨ m.readBytes (historyBase b p) 8 = encodeHist (s.bay b).ring[p]) :
    (histWrite b s m q).readBytes (historyBase b p) 8 = encodeHist (s.bay b).ring[p] := by
  have hrange := historyBase_range b p
  by_cases heq : q = p
  · subst heq
    have hroom : historyBase b q + (encodeHist (s.bay b).ring[q]).length ≤ Memory.size := by
      simp only [encodeHist_length, Memory.size]
      omega
    have hread := Memory.readBytes_writeBytes h hroom
    rw [encodeHist_length] at hread
    rwa [histWrite, if_pos hp]
  · have hne : q.val ≠ p.val := fun e => heq (Fin.ext e)
    rw [Memory.readBytes_congr fun x hx hx' => histWrite_outside b s q h fun _ => by unfold historyBase at *; omega]
    exact hq.resolve_left heq

theorem foldl_histWrite_wf (b : Bay) (s : State) (l : List (Fin 8)) {m : Memory} (h : m.wf = true) :
    (l.foldl (histWrite b s) m).wf = true :=
  List.foldlRecOn (motive := fun m : Memory => m.wf = true) l _ h fun _ hm q _ => histWrite_wf b s q hm

theorem foldl_histWrite_holds (b : Bay) (s : State) (p : Fin 8) (l : List (Fin 8)) {m : Memory} (h : m.wf = true)
    (hp : s.exp.histPending[b].getLsbD p.val = true)
    (hl : p ∈ l ∨ m.readBytes (historyBase b p) 8 = encodeHist (s.bay b).ring[p]) :
    (l.foldl (histWrite b s) m).readBytes (historyBase b p) 8 = encodeHist (s.bay b).ring[p] := by
  induction l generalizing m with
  | nil => exact hl.resolve_left List.not_mem_nil
  | cons q rest ih =>
    refine ih (histWrite_wf b s q h) ?_
    rcases hl with hl | hl
    · rcases List.mem_cons.mp hl with hl | hl
      · exact Or.inr (histWrite_holds b s p q h hp (Or.inl hl.symm))
      · exact Or.inl hl
    · exact Or.inr (histWrite_holds b s p q h hp (Or.inr hl))

theorem foldl_histWrite_outside (b : Bay) (s : State) (l : List (Fin 8)) {m : Memory} (h : m.wf = true) {a : Nat}
    (ha : ∀ p : Fin 8, s.exp.histPending[b].getLsbD p.val = true → ¬ (historyBase b p ≤ a ∧ a < historyBase b p + 8)) :
    (l.foldl (histWrite b s) m).read a = m.read a := by
  induction l generalizing m with
  | nil => rfl
  | cons q rest ih => exact (ih (histWrite_wf b s q h)).trans (histWrite_outside b s q h (ha q))

/-! ### The memory after a record is written (R161) -/

/-- The exchange memory after one record is written. -/
def memAfterRecord (r : MirrorRec) (s : State) : Memory :=
  (writeRecordHistory r s s.mem).writeBytes r.base (encodeRecord s r ++ [s.exp.counts[r.index] + 1])

theorem writeRecordHistory_wf (r : MirrorRec) (s : State) (h : s.mem.wf = true) :
    (writeRecordHistory r s s.mem).wf = true := by
  cases r with
  | bay b => exact foldl_histWrite_wf b s _ h
  | _ => exact h

theorem record_room (r : MirrorRec) (s : State) (n : Byte) : r.base + (encodeRecord s r ++ [n]).length ≤ Memory.size := by
  have hrange := r.base_range
  have hlength := encodeRecord_length s r
  simp only [List.length_append, List.length_singleton, Memory.size]
  omega

/-- The record and its update count stand at its base. -/
theorem memAfterRecord_record (r : MirrorRec) (s : State) (h : s.mem.wf = true) :
    (memAfterRecord r s).readBytes r.base ((encodeRecord s r).length + 1) =
      encodeRecord s r ++ [s.exp.counts[r.index] + 1] := by
  have hread := Memory.readBytes_writeBytes (writeRecordHistory_wf r s h) (record_room r s (s.exp.counts[r.index] + 1))
  rwa [List.length_append, List.length_singleton] at hread

/-- Outside the record only its history was written. -/
theorem memAfterRecord_outside (r : MirrorRec) (s : State) (h : s.mem.wf = true) {a : Nat}
    (ha : ¬ (r.base ≤ a ∧ a < r.base + ((encodeRecord s r).length + 1))) :
    (memAfterRecord r s).read a = (writeRecordHistory r s s.mem).read a := by
  refine Memory.read_writeBytes_outside (writeRecordHistory_wf r s h) (record_room r s _) ?_
  simp only [List.length_append, List.length_singleton]
  omega

/-- A waiting position of the bay's history is written with its record (R162). -/
theorem memAfterRecord_history (b : Bay) (s : State) (p : Fin 8) (h : s.mem.wf = true)
    (hp : s.exp.histPending[b].getLsbD p.val = true) :
    (memAfterRecord (.bay b) s).readBytes (historyBase b p) 8 = encodeHist (s.bay b).ring[p] := by
  have hhistory := historyBase_range b p
  have hrecord := (MirrorRec.bay b).base_range
  have hlength := encodeRecord_length s (.bay b)
  rw [Memory.readBytes_congr fun x hx hx' => memAfterRecord_outside (.bay b) s h (by omega)]
  exact foldl_histWrite_holds b s p _ h hp (Or.inl (mem_ringOrder _ p))

/-- Every byte outside the record and its waiting history stays. -/
theorem memAfterRecord_kept (r : MirrorRec) (s : State) (h : s.mem.wf = true) {a : Nat}
    (ha : ¬ (r.base ≤ a ∧ a < r.base + ((encodeRecord s r).length + 1)))
    (hh : ∀ (b : Bay) (p : Fin 8), r = .bay b → s.exp.histPending[b].getLsbD p.val = true →
      ¬ (historyBase b p ≤ a ∧ a < historyBase b p + 8)) :
    (memAfterRecord r s).read a = s.mem.read a := by
  rw [memAfterRecord_outside r s h ha]
  cases r with
  | bay b => exact foldl_histWrite_outside b s _ h fun p => hh b p rfl
  | _ => rfl

theorem clearHistPending_get (r : MirrorRec) (v : Vector Byte 24) (b : Bay) :
    (clearHistPending r v)[b] = if r = .bay b then 0 else v[b] := by
  cases r with
  | bay d =>
    refine (getFin_set v d b 0).trans ?_
    simp only [MirrorRec.bay.injEq, eq_comm]
  | _ => rfl

/-! ### One record written (R161, R164, R166) -/

/-- `t` is `s` with one record written. -/
structure RecordWritten (r : MirrorRec) (s t : State) : Prop where
  mem : t.mem = memAfterRecord r s
  counts : t.exp.counts = s.exp.counts.set r.index (s.exp.counts[r.index] + 1)
  histPending : t.exp.histPending = clearHistPending r s.exp.histPending
  slots : t.exp.slots = s.exp.slots
  note : StepNoteEmpty t.exp
  enclosure : EnclosureKept s t
  lgt : t.lgt = s.lgt

theorem encodeRecord_updExp (f : Exp → Exp) (s : State) (r : MirrorRec) : encodeRecord (updExp f s) r = encodeRecord s r := by
  cases r <;> rfl

theorem histWrite_updExp (f : Exp → Exp) (hf : (f s.exp).histPending = s.exp.histPending) (b : Bay) :
    histWrite b (updExp f s) = histWrite b s := by
  funext m p
  unfold histWrite
  rw [show (updExp f s).exp.histPending = s.exp.histPending from hf]
  rfl

theorem writeRecordHistory_updExp (f : Exp → Exp) (hf : (f s.exp).histPending = s.exp.histPending) (r : MirrorRec)
    (m : Memory) : writeRecordHistory r (updExp f s) m = writeRecordHistory r s m := by
  cases r with
  | bay b =>
    show (ringOrder (s.bay b).head).foldl (histWrite b (updExp f s)) m = _
    rw [histWrite_updExp f hf b]
    rfl
  | _ => rfl

/-- The record itself, before the thaw and the reset are settled. -/
theorem recordWritten (r : MirrorRec) (notice : Bool) (s : State) (w : Option ResetWriting) (d : List DirtyEntry)
    (h : StepNoteEmpty s.exp) :
    RecordWritten r s (writeRecord r notice (updExp (fun e => { e with resetWrite := w, dirty := d }) s)) where
  mem := by
    show Memory.writeBytes (writeRecordHistory r (updExp _ s) s.mem) r.base (encodeRecord (updExp _ s) r ++ _) = _
    rw [writeRecordHistory_updExp _ rfl, encodeRecord_updExp]
    rfl
  counts := rfl
  histPending := rfl
  slots := rfl
  note := h.of_same rfl rfl
  enclosure := ⟨rfl, rfl, rfl, rfl, rfl, rfl, rfl⟩
  lgt := rfl

theorem RecordWritten.settleThaw {r : MirrorRec} (h : RecordWritten r s t) : RecordWritten r s (settleThaw t) := by
  unfold Machine.settleThaw
  split
  · obtain ⟨hmem, hcounts, hpending, hslots, hnote, ⟨h1, h2, h3, h4, h5, h6, h7⟩, hlgt⟩ := h
    exact ⟨hmem, hcounts, hpending, hslots, hnote.of_same rfl rfl, ⟨h1, h2, h3, h4, h5, h6, h7⟩, hlgt⟩
  · exact h

theorem RecordWritten.settleReset {r : MirrorRec} (h : RecordWritten r s t) : RecordWritten r s (settleReset t) := by
  unfold Machine.settleReset
  split
  · obtain ⟨hmem, hcounts, hpending, hslots, hnote, ⟨h1, h2, h3, h4, h5, h6, h7⟩, hlgt⟩ := h
    exact ⟨hmem, hcounts, hpending, hslots, hnote.of_same rfl rfl, ⟨h1, h2, h3, h4, h5, h6, h7⟩, hlgt⟩
  · exact h
  · exact h

/-- Settling a thaw changes freeze active alone. -/
theorem settleThaw_fields (s : State) : (settleThaw s).exp.dirty = s.exp.dirty ∧
    (settleThaw s).exp.summary = s.exp.summary ∧ (settleThaw s).exp.thawLeft = s.exp.thawLeft ∧
    (settleThaw s).exp.ready = s.exp.ready ∧ (settleThaw s).exp.resetWrite = s.exp.resetWrite := by
  unfold settleThaw
  split <;> exact ⟨rfl, rfl, rfl, rfl, rfl⟩

/-- Freeze active falls with the last record that was dirty at the thaw (R164). -/
theorem settleThaw_freezeActive (h : s.exp.freezeActive = true) :
    (settleThaw s).exp.freezeActive = false ↔ s.exp.freezeBit = false ∧ (settleThaw s).exp.thawLeft = [] := by
  have hcond : (s.exp.freezeActive && !s.exp.freezeBit && s.exp.thawLeft.isEmpty) = true ↔
      s.exp.freezeBit = false ∧ s.exp.thawLeft = [] := by
    simp [h]
  obtain ⟨-, -, hthaw, -, -⟩ := settleThaw_fields s
  rw [hthaw, ← hcond]
  unfold settleThaw
  split
  · rename_i hc
    exact iff_of_true rfl hc
  · rename_i hc
    exact iff_of_false (by simp [h]) hc

/-- The next record of the dirty set is written (R161). -/
def writeDirty (e : DirtyEntry) (rest : List DirtyEntry) (s : State) : State :=
  settleThaw (writeRecord e.record e.notice { s with exp := { s.exp with dirty := rest } })

/-- The next record of a reset's writing is written (R166, R167). -/
def writeReset (e : DirtyEntry) (w : ResetWriting) (s : State) : State :=
  settleReset (settleThaw (writeRecord e.record e.notice { s with exp := { s.exp with resetWrite := some w } }))

theorem writeDirty_recordWritten (e : DirtyEntry) (rest : List DirtyEntry) (h : StepNoteEmpty s.exp) :
    RecordWritten e.record s (writeDirty e rest s) :=
  (recordWritten e.record e.notice s s.exp.resetWrite rest h).settleThaw

theorem writeReset_recordWritten (e : DirtyEntry) (w : ResetWriting) (h : StepNoteEmpty s.exp) :
    RecordWritten e.record s (writeReset e w s) :=
  (recordWritten e.record e.notice s (some w) s.exp.dirty h).settleThaw.settleReset

theorem writeDirty_freezeActive (e : DirtyEntry) (rest : List DirtyEntry) (h : s.exp.freezeActive = true) :
    (writeDirty e rest s).exp.freezeActive = false ↔ s.exp.freezeBit = false ∧ (writeDirty e rest s).exp.thawLeft = [] :=
  settleThaw_freezeActive (s := writeRecord e.record e.notice { s with exp := { s.exp with dirty := rest } }) h

theorem mirrorWrite_dirty {e : DirtyEntry} {rest : List DirtyEntry} (hf : freezeHolds s = false)
    (hr : s.exp.resetWrite = none) (hd : s.exp.dirty = e :: rest) : mirrorWrite s = writeDirty e rest s := by
  rw [mirrorWrite, if_neg (by simp [hf]), writeNext, hr, hd]
  rfl

theorem mirrorWrite_reset {e : DirtyEntry} {left : List DirtyEntry} {bits : Bool} (hf : freezeHolds s = false)
    (hr : s.exp.resetWrite = some ⟨e :: left, bits⟩) : mirrorWrite s = writeReset e ⟨left, bits⟩ s := by
  rw [mirrorWrite, if_neg (by simp [hf]), writeNext, hr]
  rfl

theorem mirrorWrite_clean (hr : s.exp.resetWrite = none) (hd : s.exp.dirty = []) : mirrorWrite s = s := by
  unfold mirrorWrite writeNext
  rw [hr, hd]
  exact ite_self s

/-- The end of a reset's writing, and what it leaves before its last record (R166, R167). -/
theorem writeReset_ready (e : DirtyEntry) (left : List DirtyEntry) (bits : Bool) (s : State) :
    let written := summaryAfter e.record e.notice s.exp.summary
    let t := writeReset e ⟨left, bits⟩ s
    if left = [] then
      t.exp.resetWrite = none ∧ t.exp.ready = true ∧ t.exp.summary = (if bits = true then written ||| 0x0FFFFFFF else written)
    else t.exp.resetWrite = some ⟨left, bits⟩ ∧ t.exp.ready = s.exp.ready ∧ t.exp.summary = written := by
  intro written t
  obtain ⟨-, hsummary, -, hready, hreset⟩ :=
    settleThaw_fields (writeRecord e.record e.notice { s with exp := { s.exp with resetWrite := some ⟨left, bits⟩ } })
  have ht : t = settleReset (settleThaw (writeRecord e.record e.notice
    { s with exp := { s.exp with resetWrite := some ⟨left, bits⟩ } })) := rfl
  rw [settleReset, hreset] at ht
  cases left with
  | nil =>
    rw [if_pos rfl, ht]
    refine ⟨rfl, rfl, ?_⟩
    show (if bits = true then _ ||| recordBits else _) = _
    rw [hsummary]
    rfl
  | cons a l =>
    rw [if_neg (List.cons_ne_nil a l), ht]
    exact ⟨hreset, hready, hsummary⟩

theorem writeReset_dirty (e : DirtyEntry) (w : ResetWriting) (s : State) : (writeReset e w s).exp.dirty = s.exp.dirty := by
  unfold writeReset settleReset
  (repeat' split) <;> exact (settleThaw_fields _).1

/-- What the record's bytes, its history and the rest of the memory read after it is written (R161, R162). -/
theorem RecordWritten.reads {r : MirrorRec} (h : RecordWritten r s t) (hwf : s.mem.wf = true) :
    (∀ (b : Bay) (p : Fin 8), r = .bay b → s.exp.histPending[b].getLsbD p.val = true →
      t.mem.readBytes (historyBase b p) 8 = encodeHist (s.bay b).ring[p]) ∧
    (∀ b : Bay, t.exp.histPending[b] = if r = .bay b then 0 else s.exp.histPending[b]) ∧
    ∀ a, ¬ (r.base ≤ a ∧ a < r.base + ((encodeRecord s r).length + 1)) →
      (∀ (b : Bay) (p : Fin 8), r = .bay b → s.exp.histPending[b].getLsbD p.val = true →
        ¬ (historyBase b p ≤ a ∧ a < historyBase b p + 8)) →
      t.mem.read a = s.mem.read a := by
  obtain ⟨hmem, -, hpending, -, -, -, -⟩ := h
  rw [hmem, hpending]
  refine ⟨fun b p hr hp => ?_, clearHistPending_get r _, fun a => memAfterRecord_kept r s hwf⟩
  subst hr
  exact memAfterRecord_history b s p hwf hp

theorem RecordWritten.record {r : MirrorRec} (h : RecordWritten r s t) (hwf : s.mem.wf = true) :
    t.mem.readBytes r.base ((encodeRecord s r).length + 1) = encodeRecord s r ++ [s.exp.counts[r.index] + 1] := by
  rw [h.mem, memAfterRecord_record r s hwf]

theorem answers_mirrorWrite {P : State → Prop} (hb : mirrorWrite s = t) (hn : StepNoteEmpty t.exp) (h : P t) :
    Answers .mirrorRecordWrite s P := ⟨t, exec_of_note hb hn, h⟩

/-- Settles O20: the record a mirror write takes, its bytes and count, and what follows its writing. -/
theorem mirrorRecordIsWrittenWhole : Obligations.MirrorRecordIsWrittenWhole := by
  refine fun s hs => ⟨fun e rest hf hr hd => ?_, fun e left bits hf hr => ?_, fun e hf he => ?_, fun hr hd => ?_,
    fun hf => ?_⟩
  · have hw := writeDirty_recordWritten e rest hs.note
    obtain ⟨hdirty, hsummary, hthaw, hready, -⟩ :=
      settleThaw_fields (writeRecord e.record e.notice { s with exp := { s.exp with dirty := rest } })
    exact answers_mirrorWrite (mirrorWrite_dirty hf hr hd) hw.note ⟨hw.record hs.mem, hdirty, hw.counts, hsummary, hthaw,
      writeDirty_freezeActive e rest, hw.slots, hready, hw.enclosure, hw.lgt⟩
  · have hw := writeReset_recordWritten e ⟨left, bits⟩ hs.note
    exact answers_mirrorWrite (mirrorWrite_reset hf hr) hw.note ⟨hw.record hs.mem, writeReset_dirty _ _ _, hw.counts,
      writeReset_ready e left bits s, hw.slots, hw.enclosure, hw.lgt⟩
  · rcases he with ⟨hr, hhead⟩ | ⟨⟨left, bits⟩, hr, hhead⟩
    · obtain ⟨rest, hd⟩ := List.head?_eq_some_iff.mp hhead
      have hw := writeDirty_recordWritten e rest hs.note
      exact answers_mirrorWrite (mirrorWrite_dirty hf hr hd) hw.note (hw.reads hs.mem)
    · obtain ⟨rest, rfl⟩ := List.head?_eq_some_iff.mp hhead
      have hw := writeReset_recordWritten e ⟨rest, bits⟩ hs.note
      exact answers_mirrorWrite (mirrorWrite_reset hf hr) hw.note (hw.reads hs.mem)
  · exact exec_of_note (mirrorWrite_clean hr hd) hs.note
  · exact exec_of_note (if_pos hf) hs.note

end Sys2Proof.Machine

/-! Settles what the exchange memory keeps, during a freeze (O21) and at any time (O22). -/

namespace Sys2Proof.Machine

variable {s t : State}

/-! ### The commands of the registers write no memory (R151 to R154, R163 to R166) -/

/-- A command that writes registers alone. -/
def writesRegistersAlone (c : Instr) : Prop :=
  portOwn c = true ∧ c ≠ .powerOnReset ∧ c ≠ .mirrorRecordWrite ∧ ∀ ws half bits, c ≠ .orderPost ws half bits

theorem freezeExpiry_mem (s : State) : (freezeExpiry s).mem = s.mem := by
  rw [freezeExpiry_eq]
  split <;> rfl

theorem freezeOff_mem (s : State) : (freezeOff s).mem = s.mem := by
  rw [freezeOff_eq]
  split <;> rfl

theorem freezeOn_mem (s : State) : (freezeOn s).mem = s.mem := by
  rw [freezeOn_eq]
  split <;> rfl

theorem finishStep_mem_of_note (hn : StepNoteEmpty t.exp) (hm : t.mem = s.mem) : (finishStep t).mem = s.mem := by
  rw [finishStep_of_note hn, hm]

theorem otherWrite_note (h : StepNoteEmpty s.exp) (w : OtherWrite) : StepNoteEmpty (otherWrite w s).exp := by
  cases w with
  | portControlUnused v =>
    rw [otherWrite_control]
    exact freezeOff_note (h.of_same rfl rfl)
  | portStatus half v => exact h
  | portControlUpper v => exact h
  | changeSummaryUnused v => exact h.of_same rfl rfl
  | changeEnableUnused v => exact h.of_same rfl rfl

theorem finishStep_portReset_mem (s : State) : (finishStep (body .portReset s)).mem = s.mem := by
  obtain ⟨-, -, hmem, -⟩ := dropSlots_keeps s
  show (finishStep (updExp Exp.portReset (dropSlots s))).mem = s.mem
  rw [finishStep_resetPort]
  revert hmem
  generalize dropSlots s = u
  intro hmem
  exact hmem

/-- The whole step of such a command leaves the exchange memory. -/
theorem registerCommand_mem {c : Instr} (hc : writesRegistersAlone c) (h : StepNoteEmpty s.exp) :
    (finishStep (body c s)).mem = s.mem := by
  obtain ⟨hown, hreset, hmirror, hpost⟩ := hc
  cases c
  case powerOnReset => exact absurd rfl hreset
  case mirrorRecordWrite => exact absurd rfl hmirror
  case orderPost ws half bits => exact absurd rfl (hpost ws half bits)
  case orderDone half bits =>
    show (finishStep (doneWrite half bits s)).mem = s.mem
    rw [doneWrite_eq]
    exact finishStep_mem_of_note (h.of_same rfl rfl) rfl
  case changeSummary half bits => exact finishStep_mem_of_note (h.of_same rfl rfl) rfl
  case changeEnable half mask => exact finishStep_mem_of_note (h.of_same rfl rfl) rfl
  case doneInterruptEnable on => exact finishStep_mem_of_note (h.of_same rfl rfl) rfl
  case freeze => exact finishStep_mem_of_note (freezeOn_note h) (freezeOn_mem s)
  case thaw => exact finishStep_mem_of_note (freezeOff_note h) (freezeOff_mem s)
  case autoThaw => exact finishStep_mem_of_note (freezeExpiry_note h) (freezeExpiry_mem s)
  case portReset => exact finishStep_portReset_mem s
  case registerWriteOther w =>
    have hmem : (otherWrite w s).mem = s.mem := by rw [otherWrite_keeps]
    exact finishStep_mem_of_note (otherWrite_note h w) hmem
  all_goals exact absurd (show false = true from hown) nofun

/-! ### A freeze holds the mirror (R163) -/

theorem PortKept.freezeHolds (h : PortKept s.exp t.exp) : freezeHolds t = freezeHolds s := by
  unfold Machine.freezeHolds
  rw [h.freezeBit, h.freezeActive]

theorem not_inResults_of_inMirror {a : Nat} (h : inMirror a) : ¬ inResults a := by
  rintro ⟨n, hlow, hhigh⟩
  have hrange := resultBase_range n
  unfold inMirror at h
  omega

theorem not_inLightAreas_of_inMirror {a : Nat} (h : inMirror a) : ¬ inLightAreas a := by
  unfold inMirror at h
  unfold inLightAreas
  omega

/-- Settles O21: while a freeze holds no step writes the mirror or the history. -/
theorem freezeHoldsTheMirror : Obligations.FreezeHoldsTheMirror := by
  refine fun c s hs hf hpost => answers_of_body fun a ha => ?_
  by_cases hown : portOwn c = false
  · have hchanges := body_changes c s hown
    rw [finishStep_mem _ (Or.inr (hchanges.portKept.freezeHolds.trans hf))]
    exact (hchanges.written hs.mem).same a (not_inResults_of_inMirror ha)
  by_cases hreset : c = .powerOnReset
  · subst hreset
    rw [show (finishStep (body .powerOnReset s)).mem = _ from powerOn_mem s]
    exact (writeLightDefaults_written s.mem hs.mem).same a (not_inLightAreas_of_inMirror ha)
  by_cases hmirror : c = .mirrorRecordWrite
  · subst hmirror
    have hbody : body .mirrorRecordWrite s = s := if_pos hf
    rw [hbody, finishStep_of_note hs.note]
  by_cases horder : ∃ ws half bits, c = .orderPost ws half bits
  · obtain ⟨ws, half, bits, rfl⟩ := horder
    obtain rfl := hpost ws half bits rfl
    have hmem : (postWrite half bits s).mem = s.mem := by simp
    exact congrArg (·.read a) (finishStep_mem_of_note (postWrite_note half bits hs.note) hmem)
  · have halone : writesRegistersAlone c :=
      ⟨Bool.eq_true_of_not_eq_false hown, hreset, hmirror, fun ws half bits e => horder ⟨ws, half, bits, e⟩⟩
    rw [registerCommand_mem halone hs.note]

/-! ### The result areas a step can write (R156) -/

/-- The slots whose orders a step can complete: those that are not FREE or DONE at its beginning. -/
def SlotOpen (s : State) (n : SlotId) : Prop := ¬ ((s.slot n).state = .free ∨ (s.slot n).state = .done)

/-- The result areas of those slots. -/
def inOpenResults (s : State) (a : Nat) : Prop := ∃ n, SlotOpen s n ∧ resultBase n ≤ a ∧ a < resultBase n + 64

/-- A completion writes the result area of its slot, which was TAKEN. -/
theorem complete_writtenIn {p : Nat → Prop} (n : SlotId) (r : Result) (d : List Byte) (h : s.mem.wf = true)
    (hp : (s.slot n).state = .taken → ∀ a, resultBase n ≤ a → a < resultBase n + 64 → p a) :
    WrittenIn p s.mem (complete n r d s).mem := by
  have hrange := resultBase_range n
  unfold complete
  split
  · rename_i htaken
    refine WrittenIn.writeBytes h (by rw [resultArea_length]; simp only [Memory.size]; omega) fun a hlow hhigh => ?_
    rw [resultArea_length] at hhigh
    exact hp htaken a hlow hhigh
  · exact WrittenIn.rfl h

/-- A chain of changes leaves the slots that were FREE or DONE at its beginning. -/
theorem Changes.slotClosed (h : Changes s t) {n : SlotId} (hn : ¬ SlotOpen s n) : t.slot n = s.slot n := by
  have hclosed : (s.slot n).state = .free ∨ (s.slot n).state = .done := not_not.mp hn
  induction h with
  | refl => rfl
  | @complete u m r d _ ih =>
    rw [slot_complete, if_neg, ih]
    rintro ⟨rfl, htaken⟩
    rw [ih] at htaken
    rcases hclosed with h | h <;> cases h.symm.trans htaken
  | @takeSlot u m _ hposted ih =>
    rw [slot_takeSlot, if_neg, ih]
    rintro rfl
    rw [ih] at hposted
    rcases hclosed with h | h <;> cases h.symm.trans hposted
  | turn b j f _ _ ih => exact (slot_of_slots (turnBay_slots b j f _) n).trans ih
  | drop b _ _ ih => exact (slot_of_slots (dropEntry_slots b _) n).trans ih
  | mark _ _ _ ih | histPending _ _ ih | timers _ _ _ ih | settings _ _ _ _ ih | record _ _ _ _ ih
  | pseq _ _ _ ih | sbe _ _ _ ih | thc _ _ _ ih | fanu _ _ _ ih | lgt _ _ _ ih | pins _ _ ih | clock _ _ ih
  | free _ _ ih => exact ih

/-- It writes the result areas of the others only. -/
theorem Changes.writtenOpen (h : Changes s t) (hs : s.mem.wf = true) : WrittenIn (inOpenResults s) s.mem t.mem := by
  induction h with
  | refl => exact WrittenIn.rfl hs
  | @complete u n r d hu ih =>
    refine ih.trans (complete_writtenIn n r d ih.wf fun htaken a hlow hhigh => ⟨n, fun hclosed => ?_, hlow, hhigh⟩)
    rw [hu.slotClosed (not_not_intro hclosed)] at htaken
    rcases hclosed with h | h <;> cases h.symm.trans htaken
  | turn b j f _ _ ih => simpa using ih
  | drop b _ _ ih => simpa using ih
  | mark _ _ _ ih | histPending _ _ ih | takeSlot _ _ _ ih | timers _ _ _ ih | settings _ _ _ _ ih | record _ _ _ _ ih
  | pseq _ _ _ ih | sbe _ _ _ ih | thc _ _ _ ih | fanu _ _ _ ih | lgt _ _ _ ih | pins _ _ ih | clock _ _ ih
  | free _ _ ih => exact ih

/-- Settles O22: the areas a step can write, and those of a power-on reset. -/
theorem memoryChangesOnlyInThePartsAreas : Obligations.MemoryChangesOnlyInThePartsAreas := by
  refine fun s hs => ⟨fun c hreset hpost => answers_of_body fun a hmirror hresults => ?_,
    answers_of_body fun a ha => ?_⟩
  · have hclosed : ¬ inOpenResults s a := fun ⟨n, hopen, hlow, hhigh⟩ => hopen (hresults n hlow hhigh)
    by_cases hown : portOwn c = false
    · have hbody := (body_changes c s hown).writtenOpen hs.mem
      exact ((finishStep_written _ hbody.wf).same a hmirror).trans (hbody.same a hclosed)
    by_cases hwrite : c = .mirrorRecordWrite
    · subst hwrite
      have hbody : WrittenIn inMirror s.mem (mirrorWrite s).mem := by
        unfold mirrorWrite
        split
        · exact WrittenIn.rfl hs.mem
        · exact writeNext_written s hs.mem
      exact (hbody.trans (finishStep_written _ hbody.wf)).same a hmirror
    · have halone : writesRegistersAlone c := ⟨Bool.eq_true_of_not_eq_false hown, hreset, hwrite, hpost⟩
      rw [registerCommand_mem halone hs.note]
  · rw [show (finishStep (body .powerOnReset s)).mem = _ from powerOn_mem s]
    exact (writeLightDefaults_written s.mem hs.mem).same a ha

end Sys2Proof.Machine

/-! What an owner shows and what it marks: one relation that every operation of the model keeps, for the marks (O14)
and for the slots of an order in progress (O60). -/

namespace Sys2Proof.Machine

variable {s t u : State}

/-! ### A record that waits (R156, R161) -/

/-- A record waits to be written, and the entry that is written for it carries a notice where one is asked for. -/
def Waits (l : List DirtyEntry) (r : MirrorRec) (notice : Bool) : Prop :=
  ∃ e, l.find? (fun e => e.record = r) = some e ∧ (notice = true → e.notice = true)

/-- The entry of a record after a mark: the marked one gains the notice, the others stay. -/
theorem find?_addMark (r q : MirrorRec) (n : Bool) (l : List DirtyEntry) :
    (addMark r n l).find? (fun e => e.record = q) =
      if q = r then some ⟨r, ((l.find? fun e => e.record = r).map DirtyEntry.notice).getD false || n⟩
      else l.find? fun e => e.record = q := by
  induction l with
  | nil => by_cases hq : q = r <;> simp [addMark, hq, Ne.symm]
  | cons e rest ih =>
    by_cases he : e.record = r
    · subst he
      by_cases hq : q = e.record
      · simp [addMark, hq]
      · have hne : e.record ≠ q := fun h => hq h.symm
        simp [addMark, hq, hne]
    · by_cases hq : q = r
      · subst hq
        simp [addMark, he, ih]
      · simp only [addMark, if_neg he, List.find?_cons, ih, if_neg hq]

theorem waits_addMark_self (r : MirrorRec) (n : Bool) (l : List DirtyEntry) : Waits (addMark r n l) r n := by
  refine ⟨_, (find?_addMark r r n l).trans (if_pos rfl), fun h => ?_⟩
  simp [h]

theorem Waits.addMark {l : List DirtyEntry} {q : MirrorRec} {m : Bool} (h : Waits l q m) (r : MirrorRec) (n : Bool) :
    Waits (addMark r n l) q m := by
  obtain ⟨e, he, hn⟩ := h
  unfold Waits
  rw [find?_addMark]
  split
  · rename_i hq
    subst hq
    exact ⟨_, rfl, fun hm => by simp [he, hn hm]⟩
  · exact ⟨e, he, hn⟩

theorem Waits.weaken {l : List DirtyEntry} {r : MirrorRec} {n m : Bool} (h : Waits l r n) (hm : m = true → n = true) :
    Waits l r m := by
  obtain ⟨e, he, hn⟩ := h
  exact ⟨e, he, fun h => hn (hm h)⟩

/-! ### What a record shows (R23, R44, R90 to R92, R131, R149, R159) -/

/-- The part of a record whose change its owner marks: all it shows, or with `true` the part whose change carries a
notice. -/
def Alike (s t : State) : MirrorRec → Bool → Prop
  | .bay b, _ => t.bay b = s.bay b ∧ sensorState t.thc (driveSensor b) = sensorState s.thc (driveSensor b) ∧
      lightsDiffer s.lgt t.lgt b = false
  | .budget, _ => t.pseq.shown = s.pseq.shown
  | .fan f, false => t.fan f = s.fan f
  | .fan f, true => (t.fan f).state = (s.fan f).state
  | .sensor i, false => t.sensor i = s.sensor i ∧ sensorState t.thc i = sensorState s.thc i
  | .sensor i, true => 24 ≤ i.val → sensorState t.thc i = sensorState s.thc i
  | .zone z, _ => (t.zone z).failedCount = (s.zone z).failedCount ∧ (t.zone z).failsafe = (s.zone z).failsafe ∧
      t.thc.bank = s.thc.bank

theorem lightsDiffer_eq_false_iff {l l' : Lgt} {b : Bay} : lightsDiffer l l' b = false ↔
    l.chans[statusChan b].shown = l'.chans[statusChan b].shown ∧
      l.chans[attentionChan b].shown = l'.chans[attentionChan b].shown := by
  simp [lightsDiffer]

theorem Alike.refl (s : State) (r : MirrorRec) (n : Bool) : Alike s s r n := by
  have hlights : ∀ b, lightsDiffer s.lgt s.lgt b = false := fun b => lightsDiffer_eq_false_iff.mpr ⟨rfl, rfl⟩
  cases r <;> cases n <;> simp [Alike, hlights]

theorem Alike.trans {r : MirrorRec} {n : Bool} (h : Alike s t r n) (h' : Alike t u r n) : Alike s u r n := by
  cases r with
  | bay b =>
    obtain ⟨hbay, hsensor, hlights⟩ := h
    obtain ⟨hbay', hsensor', hlights'⟩ := h'
    obtain ⟨hstatus, hattention⟩ := lightsDiffer_eq_false_iff.mp hlights
    obtain ⟨hstatus', hattention'⟩ := lightsDiffer_eq_false_iff.mp hlights'
    exact ⟨hbay'.trans hbay, hsensor'.trans hsensor,
      lightsDiffer_eq_false_iff.mpr ⟨hstatus.trans hstatus', hattention.trans hattention'⟩⟩
  | budget => exact Eq.trans h' h
  | fan f => cases n <;> exact Eq.trans h' h
  | sensor i =>
    cases n with
    | false => exact ⟨h'.1.trans h.1, h'.2.trans h.2⟩
    | true => exact fun hi => (h' hi).trans (h hi)
  | zone z =>
    obtain ⟨hcount, hsafe, hbank⟩ := h
    obtain ⟨hcount', hsafe', hbank'⟩ := h'
    exact ⟨hcount'.trans hcount, hsafe'.trans hsafe, hbank'.trans hbank⟩

/-- What all records show, with the marks and what an order changes of the exchange beside its marks. -/
def State.face (s : State) : (Vector BayRec 24 × Thc × Account × List QEntry × List QEntry) × (Vector FanRec 8 × Lgt) ×
    (List DirtyEntry × SlotId × Vector Slot 32) :=
  ((s.bmon.bays, s.thc, s.pseq.shown), (s.fanu.fans, s.lgt), (s.exp.dirty, s.exp.pointer, s.exp.slots))

/-- States that differ in no block a record shows are alike. -/
theorem Alike.of_blocks (hbays : t.bmon.bays = s.bmon.bays) (hthc : t.thc = s.thc) (hpseq : t.pseq.shown = s.pseq.shown)
    (hfans : t.fanu.fans = s.fanu.fans) (hlgt : t.lgt = s.lgt) (r : MirrorRec) (n : Bool) : Alike s t r n := by
  cases r <;> cases n <;>
    simp [Alike, State.bay, State.fan, State.sensor, State.zone, lightsDiffer_eq_false_iff, hbays, hthc, hpseq, hfans, hlgt]

/-- Only the records whose block changed can differ; EXP's own state is no part of it. -/
theorem Alike.withExp {r : MirrorRec} {n : Bool} (h : Alike s t r n) (e : Exp) : Alike s { t with exp := e } r n := by
  cases r <;> cases n <;> exact h

/-! ### The relation -/

/-- A slot while an order runs: it stays, or from TAKEN it becomes DONE with its kind and tag (R156). -/
def SlotRuns (x y : Slot) : Prop := y = x ∨ (x.state = .taken ∧ y = { x with state := .done })

theorem SlotRuns.trans {x y z : Slot} (h : SlotRuns x y) (h' : SlotRuns y z) : SlotRuns x z := by
  rcases h with rfl | ⟨hx, rfl⟩
  · exact h'
  · rcases h' with rfl | ⟨hy, -⟩
    · exact Or.inr ⟨hx, rfl⟩
    · cases hy

/-- From `s` to `t` no order was taken, slots at most completed, no mark was lost, and every change of a shown field
was marked. -/
structure Runs (s t : State) : Prop where
  pointer : t.exp.pointer = s.exp.pointer
  slots : ∀ m, SlotRuns (s.slot m) (t.slot m)
  waits : ∀ r n, Waits s.exp.dirty r n → Waits t.exp.dirty r n
  told : ∀ r n, Alike s t r n ∨ Waits t.exp.dirty r n

theorem Runs.refl (s : State) : Runs s s :=
  ⟨rfl, fun _ => Or.inl rfl, fun _ _ h => h, fun r n => Or.inl (Alike.refl s r n)⟩

theorem Runs.trans (h : Runs s t) (h' : Runs t u) : Runs s u where
  pointer := h'.pointer.trans h.pointer
  slots m := (h.slots m).trans (h'.slots m)
  waits r n hw := h'.waits r n (h.waits r n hw)
  told r n := by
    rcases h.told r n with hsame | hwait
    · rcases h'.told r n with hsame' | hwait'
      · exact Or.inl (hsame.trans hsame')
      · exact Or.inr hwait'
    · exact Or.inr (h'.waits r n hwait)

/-- A change of what no record shows. -/
theorem Runs.same (h : Runs s t) (hu : u.face = t.face) : Runs s u := by
  simp only [State.face, Prod.mk.injEq] at hu
  obtain ⟨⟨hbays, hthc, hpseq⟩, ⟨hfans, hlgt⟩, hdirty, hpointer, hslots⟩ := hu
  refine h.trans ⟨hpointer, fun m => Or.inl (slot_of_slots hslots m), fun r n => by rw [hdirty]; exact id,
    fun r n => Or.inl (Alike.of_blocks hbays hthc hpseq hfans hlgt r n)⟩

theorem Runs.foldl {α : Type} {f : State → α → State} (h : ∀ t a, Runs s t → Runs s (f t a)) (l : List α)
    (ht : Runs s t) : Runs s (l.foldl f t) :=
  List.foldlRecOn l f ht fun t ht a _ => h t a ht

/-! ### A change together with its marks -/

/-- Marks in their order, each where its condition holds. -/
def marks (l : List (Bool × MirrorRec × Bool)) (s : State) : State := l.foldl (fun s a => markIf a.1 a.2.1 a.2.2 s) s

theorem markIf_waits {c : Bool} {r q : MirrorRec} {n m : Bool} (h : Waits s.exp.dirty q m) :
    Waits (markIf c r n s).exp.dirty q m := by
  cases c with
  | false => exact h
  | true => exact h.addMark r n

theorem marks_waits (l : List (Bool × MirrorRec × Bool)) {q : MirrorRec} {m : Bool} (h : Waits s.exp.dirty q m) :
    Waits (marks l s).exp.dirty q m := by
  induction l generalizing s with
  | nil => exact h
  | cons a rest ih => exact ih (markIf_waits h)

theorem marks_waits_of_mem {l : List (Bool × MirrorRec × Bool)} {q : MirrorRec} {n : Bool} (h : (true, q, n) ∈ l)
    (s : State) : Waits (marks l s).exp.dirty q n := by
  induction l generalizing s with
  | nil => cases h
  | cons a rest ih =>
    rcases List.mem_cons.mp h with rfl | h
    · exact marks_waits rest (waits_addMark_self q n s.exp.dirty)
    · exact ih h _

/-- Marks change the list of the dirty records and the note of the step alone. -/
theorem marks_eq (l : List (Bool × MirrorRec × Bool)) (s : State) :
    ∃ d m, marks l s = { s with exp := { s.exp with dirty := d, stepMarks := m } } := by
  induction l generalizing s with
  | nil => exact ⟨_, _, rfl⟩
  | cons a rest ih =>
    have hone : ∃ d m, markIf a.1 a.2.1 a.2.2 s = { s with exp := { s.exp with dirty := d, stepMarks := m } } := by
      unfold markIf
      split <;> exact ⟨_, _, rfl⟩
    obtain ⟨d, m, hone⟩ := hone
    obtain ⟨d', m', hrest⟩ := ih (markIf a.1 a.2.1 a.2.2 s)
    refine ⟨d', m', ?_⟩
    rw [show marks (a :: rest) s = marks rest (markIf a.1 a.2.1 a.2.2 s) from rfl, hrest, hone]

/-- A change whose shown parts are all marked. -/
theorem Runs.marks (h : Runs s t) (l : List (Bool × MirrorRec × Bool)) (hexp : u.exp = t.exp)
    (htold : ∀ r n, Alike t u r n ∨ ∃ m, (true, r, m) ∈ l ∧ (n = true → m = true)) : Runs s (marks l u) := by
  refine h.trans ⟨?_, fun m => Or.inl ?_, fun r n hw => marks_waits l (by rw [hexp]; exact hw), fun r n => ?_⟩
  · obtain ⟨d, m, heq⟩ := marks_eq l u
    rw [heq]
    exact (congrArg Exp.pointer hexp :)
  · obtain ⟨d, m', heq⟩ := marks_eq l u
    refine slot_of_slots ?_ m
    rw [heq]
    exact (congrArg Exp.slots hexp :)
  · rcases htold r n with hsame | ⟨m, hmem, hn⟩
    · obtain ⟨d, m', heq⟩ := marks_eq l u
      rw [heq]
      exact Or.inl (hsame.withExp _)
    · exact Or.inr ((marks_waits_of_mem hmem u).weaken hn)

/-- A change of nothing a record shows, with any marks. -/
theorem Runs.marksOnly (h : Runs s t) (l : List (Bool × MirrorRec × Bool)) : Runs s (Machine.marks l t) :=
  h.marks l rfl fun r n => Or.inl (Alike.refl t r n)

theorem Runs.mark (h : Runs s t) (r : MirrorRec) (n : Bool) : Runs s (mark r n t) := h.marksOnly [(true, r, n)]

theorem Runs.markIf (h : Runs s t) (c : Bool) (r : MirrorRec) (n : Bool) : Runs s (markIf c r n t) :=
  h.marksOnly [(c, r, n)]

/-! ### The primitive operations -/

theorem Runs.complete (h : Runs s t) (n : SlotId) (r : Result) (d : List Byte) : Runs s (complete n r d t) := by
  have hslots : ∀ m, SlotRuns (t.slot m) ((Machine.complete n r d t).slot m) := fun m => by
    rw [slot_complete]
    split
    · rename_i hm
      obtain ⟨rfl, htaken⟩ := hm
      exact Or.inr ⟨htaken, rfl⟩
    · exact Or.inl rfl
  refine h.trans ⟨?_, hslots, fun r n => ?_, fun q m => Or.inl ?_⟩ <;> unfold Machine.complete <;> split
  · rfl
  · rfl
  · exact id
  · exact id
  · exact Alike.of_blocks rfl rfl rfl rfl rfl q m
  · exact Alike.refl t q m

theorem Runs.completeOpt (h : Runs s t) (o : Option SlotId) (r : Result) (d : List Byte) : Runs s (completeOpt o r d t) := by
  cases o with
  | none => exact h
  | some n => exact h.complete n r d

theorem Runs.useFree (h : Runs s t) : Runs s (useFree t) := h.same rfl

theorem Runs.updBay (h : Runs s t) (b : Bay) (f : BayRec → BayRec) : Runs s (updBay b f t) := by
  refine h.marks (u := { t with bmon := { t.bmon with bays := t.bmon.bays.set b (f (t.bay b)) } })
    [(decide (f (t.bay b) ≠ t.bay b), .bay b, true)] rfl fun r n => ?_
  by_cases hr : r = .bay b ∧ f (t.bay b) ≠ t.bay b
  · obtain ⟨rfl, hne⟩ := hr
    exact Or.inr ⟨true, by simp [hne], fun _ => rfl⟩
  · left
    cases r
    case bay d =>
      refine ⟨(getFin_set t.bmon.bays b d (f (t.bay b))).trans ?_, rfl, lightsDiffer_eq_false_iff.mpr ⟨rfl, rfl⟩⟩
      split
      · rename_i hd
        subst hd
        exact not_not.mp fun hne => hr ⟨rfl, hne⟩
      · rfl
    all_goals cases n <;> simp [Alike, State.fan, State.sensor, State.zone]

theorem Runs.updPseq (h : Runs s t) (f : Pseq → Pseq) : Runs s (updPseq f t) := by
  refine h.marks (u := { t with pseq := f t.pseq }) [(decide ((f t.pseq).shown ≠ t.pseq.shown), .budget, true)] rfl
    fun r n => ?_
  by_cases hr : r = .budget ∧ (f t.pseq).shown ≠ t.pseq.shown
  · obtain ⟨rfl, hne⟩ := hr
    exact Or.inr ⟨true, by simp [hne], fun _ => rfl⟩
  · left
    cases r
    case budget => exact not_not.mp fun hne => hr ⟨rfl, hne⟩
    all_goals cases n <;> simp [Alike, State.fan, State.sensor, State.zone, State.bay, lightsDiffer_eq_false_iff]

theorem Runs.updFan (h : Runs s t) (f : FanId) (g : FanRec → FanRec) : Runs s (updFan f g t) := by
  refine h.marks (u := { t with fanu := { t.fanu with fans := t.fanu.fans.set f (g (t.fan f)) } })
    [(decide (g (t.fan f) ≠ t.fan f), .fan f, decide ((g (t.fan f)).state ≠ (t.fan f).state))] rfl fun r n => ?_
  cases r
  case fan d =>
    have hget : ({ t with fanu := { t.fanu with fans := t.fanu.fans.set f (g (t.fan f)) } } : State).fan d =
        if d = f then g (t.fan f) else t.fan d := getFin_set t.fanu.fans f d _
    by_cases hd : d = f
    · subst hd
      rw [if_pos rfl] at hget
      by_cases hne : g (t.fan d) = t.fan d
      · cases n
        · exact Or.inl (hget.trans hne)
        · exact Or.inl (congrArg FanRec.state (hget.trans hne))
      · by_cases hstate : (g (t.fan d)).state = (t.fan d).state
        · cases n
          · exact Or.inr ⟨false, by simp [hne, hstate], id⟩
          · exact Or.inl ((congrArg FanRec.state hget).trans hstate)
        · exact Or.inr ⟨true, by simp [hne, hstate], fun _ => rfl⟩
    · rw [if_neg hd] at hget
      cases n
      · exact Or.inl hget
      · exact Or.inl (congrArg FanRec.state hget)
  all_goals cases n <;> simp [Alike, State.fan, State.sensor, State.zone, State.bay, lightsDiffer_eq_false_iff]

/-- A change of LGT, each bay's channels compared (R149). -/
theorem Runs.setLgt (h : Runs s t) (l : Lgt) : Runs s (setLgt l t) := by
  have heq : Machine.setLgt l t = Machine.marks ((List.finRange 24).map fun b => (lightsDiffer t.lgt l b, .bay b, true))
      { t with lgt := l } := by
    unfold Machine.setLgt Machine.marks
    rw [List.foldl_map]
  rw [heq]
  refine h.marks _ rfl fun r n => ?_
  cases r
  case bay b =>
    cases hdiffer : lightsDiffer t.lgt l b with
    | false => exact Or.inl ⟨rfl, rfl, hdiffer⟩
    | true => exact Or.inr ⟨true, List.mem_map.mpr ⟨b, List.mem_finRange b, by rw [hdiffer]⟩, fun _ => rfl⟩
  all_goals cases n <;> simp [Alike, State.fan, State.sensor, State.zone]

/-! ### THC (R23, R85 to R95, R99, R112) -/

/-- Two states of THC that show the same in every sensor but one, and in every zone. -/
structure SensorAlone (i : SensorId) (x y : Thc) : Prop where
  sensors : ∀ j, j ≠ i → y.sensors[j] = x.sensors[j]
  states : ∀ j, j ≠ i → sensorState y j = sensorState x j
  zones : y.zones = x.zones
  bank : y.bank = x.bank

/-- Two states of THC that show the same, but for what the zone records of the next period will. -/
structure ThcAlike (x y : Thc) : Prop where
  sensors : y.sensors = x.sensors
  facts : ∀ b : Bay, y.facts[b].active = x.facts[b].active
  fitted : y.fitted = x.fitted
  zones : ∀ z : ZoneId, y.zones[z].failedCount = x.zones[z].failedCount ∧ y.zones[z].failsafe = x.zones[z].failsafe
  bank : y.bank = x.bank

/-- Two states of THC that show the same in every sensor. -/
structure SensorsAlike (x y : Thc) : Prop where
  sensors : y.sensors = x.sensors
  facts : ∀ b : Bay, y.facts[b].active = x.facts[b].active
  fitted : y.fitted = x.fitted

theorem SensorsAlike.state {x y : Thc} (h : SensorsAlike x y) (i : SensorId) : sensorState y i = sensorState x i := by
  unfold sensorState
  split
  · rw [h.facts, h.sensors]
  · rw [h.fitted, h.sensors]

theorem ThcAlike.sensorsAlike {x y : Thc} (h : ThcAlike x y) : SensorsAlike x y := ⟨h.sensors, h.facts, h.fitted⟩

/-- Only the zone records can tell such states apart. -/
theorem SensorsAlike.alike {x : Thc} (h : SensorsAlike t.thc x) {r : MirrorRec} (hr : ∀ z, r ≠ .zone z) (n : Bool) :
    Alike t { t with thc := x } r n := by
  cases r
  case bay b => exact ⟨rfl, h.state _, lightsDiffer_eq_false_iff.mpr ⟨rfl, rfl⟩⟩
  case sensor i =>
    cases n
    · exact ⟨congrArg (·[i]) h.sensors, h.state i⟩
    · exact fun _ => h.state i
  case zone z => exact absurd rfl (hr z)
  all_goals cases n <;> simp [Alike, State.fan]

/-- A change of THC whose zones are marked. -/
theorem Runs.thcMarked (h : Runs s t) {x : Thc} (hx : SensorsAlike t.thc x) (l : List (Bool × MirrorRec × Bool))
    (hz : ∀ z, (x.zones[z].failedCount = t.thc.zones[z].failedCount ∧ x.zones[z].failsafe = t.thc.zones[z].failsafe ∧
      x.bank = t.thc.bank) ∨ (true, .zone z, true) ∈ l) : Runs s (Machine.marks l { t with thc := x }) := by
  refine h.marks l rfl fun r n => ?_
  by_cases hr : ∃ z, r = .zone z
  · obtain ⟨z, rfl⟩ := hr
    exact (hz z).imp id fun hmem => ⟨true, hmem, fun _ => rfl⟩
  · exact Or.inl (hx.alike (fun z e => hr ⟨z, e⟩) n)

theorem Runs.thc (h : Runs s t) {x : Thc} (hx : ThcAlike t.thc x) : Runs s { t with thc := x } :=
  h.thcMarked hx.sensorsAlike [] fun z => Or.inl ⟨(hx.zones z).1, (hx.zones z).2, hx.bank⟩

/-- The marks of a change that concerns one sensor. -/
def sensorMarks (i : SensorId) (x y : Thc) : List (Bool × MirrorRec × Bool) :=
  (decide (sensorState y i ≠ sensorState x i) || decide (y.sensors[i] ≠ x.sensors[i]), .sensor i,
    decide (sensorState y i ≠ sensorState x i) && decide (24 ≤ i.val)) ::
  if h : i.val < 24 then [(decide (sensorState y i ≠ sensorState x i), .bay ⟨i.val, h⟩, true)] else []

theorem setSensor_eq (i : SensorId) (x : Thc) (s : State) :
    setSensor i x s = marks (sensorMarks i s.thc x) { s with thc := x } := by
  unfold setSensor reportSensorState sensorMarks
  split <;> rfl

theorem sensorMarks_sensor {i : SensorId} {x y : Thc} (h : ¬ (y.sensors[i] = x.sensors[i] ∧ sensorState y i = sensorState x i)) :
    (true, MirrorRec.sensor i, decide (sensorState y i ≠ sensorState x i) && decide (24 ≤ i.val)) ∈ sensorMarks i x y := by
  have hchanged : (decide (sensorState y i ≠ sensorState x i) || decide (y.sensors[i] ≠ x.sensors[i])) = true := by
    by_cases hs : sensorState y i = sensorState x i
    · have hv : y.sensors[i] ≠ x.sensors[i] := fun hv => h ⟨hv, hs⟩
      rw [decide_eq_true hv, Bool.or_true]
    · rw [decide_eq_true hs, Bool.true_or]
  unfold sensorMarks
  rw [hchanged]
  exact List.mem_cons_self

theorem sensorMarks_bay {b : Bay} {x y : Thc} (h : sensorState y (driveSensor b) ≠ sensorState x (driveSensor b)) :
    (true, MirrorRec.bay b, true) ∈ sensorMarks (driveSensor b) x y := by
  unfold sensorMarks
  rw [dif_pos (show (driveSensor b).val < 24 from b.isLt), decide_eq_true h]
  exact List.mem_cons_of_mem _ List.mem_cons_self

theorem Runs.setSensor (h : Runs s t) {i : SensorId} {x : Thc} (hx : SensorAlone i t.thc x) : Runs s (setSensor i x t) := by
  rw [setSensor_eq]
  refine h.marks _ rfl fun r n => ?_
  cases r
  case bay b =>
    by_cases hb : sensorState x (driveSensor b) = sensorState t.thc (driveSensor b)
    · exact Or.inl ⟨rfl, hb, lightsDiffer_eq_false_iff.mpr ⟨rfl, rfl⟩⟩
    · have hi : driveSensor b = i := not_not.mp fun hi => hb (hx.states _ hi)
      subst hi
      exact Or.inr ⟨true, sensorMarks_bay hb, fun _ => rfl⟩
  case sensor j =>
    by_cases hj : j = i
    · subst hj
      by_cases hsame : x.sensors[j] = t.thc.sensors[j] ∧ sensorState x j = sensorState t.thc j
      · cases n
        · exact Or.inl hsame
        · exact Or.inl fun _ => hsame.2
      · cases n
        · exact Or.inr ⟨_, sensorMarks_sensor hsame, nofun⟩
        · by_cases hstate : 24 ≤ j.val → sensorState x j = sensorState t.thc j
          · exact Or.inl hstate
          · refine Or.inr ⟨_, sensorMarks_sensor hsame, fun _ => ?_⟩
            obtain ⟨hboard, hne⟩ := Classical.not_imp.mp hstate
            rw [decide_eq_true hne, decide_eq_true hboard, Bool.and_true]
    · cases n
      · exact Or.inl ⟨hx.sensors j hj, hx.states j hj⟩
      · exact Or.inl fun _ => hx.states j hj
  case zone z => exact Or.inl ⟨congrArg (fun v => v[z].failedCount) hx.zones, congrArg (fun v => v[z].failsafe) hx.zones, hx.bank⟩
  all_goals cases n <;> simp [Alike, State.fan]

end Sys2Proof.Machine

/-! Every operation between the takes of two orders keeps `Runs`: its changes are marked, and no mark is lost. -/

namespace Sys2Proof.Machine

variable {s t u : State}

/-! ### What concerns one sensor or the zones (R85, R86, R92, R95, R112) -/

theorem sensorState_eq_of {x y : Thc} {j : SensorId} (hsensor : y.sensors[j] = x.sensors[j])
    (hactive : ∀ b, driveSensor b = j → y.facts[b].active = x.facts[b].active)
    (hfitted : ∀ k, boardSensor k = j → y.fitted[k] = x.fitted[k]) : sensorState y j = sensorState x j := by
  unfold sensorState
  split
  · rename_i hj
    rw [hsensor, hactive ⟨j.val, hj⟩ rfl]
  · rename_i hj
    rw [hsensor, hfitted ⟨j.val - 24, by omega⟩ (Fin.ext (by simp only [boardSensor]; omega))]

theorem SensorAlone.of_fields {i : SensorId} {x y : Thc} (hsensors : ∀ j, j ≠ i → y.sensors[j] = x.sensors[j])
    (hactive : ∀ b, driveSensor b ≠ i → y.facts[b].active = x.facts[b].active)
    (hfitted : ∀ k, boardSensor k ≠ i → y.fitted[k] = x.fitted[k]) (hzones : y.zones = x.zones)
    (hbank : y.bank = x.bank) : SensorAlone i x y where
  sensors := hsensors
  states j hj := sensorState_eq_of (hsensors j hj) (fun b hb => hactive b (hb ▸ hj)) (fun k hk => hfitted k (hk ▸ hj))
  zones := hzones
  bank := hbank

theorem set_of_ne {α : Type} {n : Nat} (v : Vector α n) {i j : Fin n} (h : j ≠ i) (x : α) : (v.set i x)[j] = v[j] :=
  (getFin_set v i j x).trans (if_neg h)

theorem SensorAlone.activated (x : Thc) (b : Bay) (n : Nat) : SensorAlone (driveSensor b) x (x.activated b n) := by
  refine SensorAlone.of_fields (fun _ _ => rfl) (fun d hd => ?_) (fun _ _ => rfl) rfl rfl
  exact congrArg DriveFacts.active (set_of_ne x.facts (fun e => hd (congrArg driveSensor e)) _)

theorem SensorAlone.deactivated (x : Thc) (b : Bay) : SensorAlone (driveSensor b) x (x.deactivated b) := by
  refine SensorAlone.of_fields (fun j hj => set_of_ne x.sensors hj _) (fun d hd => ?_) (fun _ _ => rfl) rfl rfl
  exact congrArg DriveFacts.active (set_of_ne x.facts (fun e => hd (congrArg driveSensor e)) _)

theorem SensorAlone.fit (x : Thc) (n : Fin 8) (on : Bool) : SensorAlone (boardSensor n) x (x.fit n on) := by
  unfold Thc.fit
  split
  · exact SensorAlone.of_fields (fun _ _ => rfl) (fun _ _ => rfl) (fun _ _ => rfl) rfl rfl
  · refine SensorAlone.of_fields (fun j hj => set_of_ne x.sensors hj _) (fun _ _ => rfl) (fun k hk => ?_) rfl rfl
    exact set_of_ne x.fitted (fun e => hk (congrArg boardSensor e)) _

/-- The marks of the zones whose failed-fan count differs from before (R92). -/
def failedMarks (before : Vector ZoneRec 4) (s : State) (l : List ZoneId) : List (Bool × MirrorRec × Bool) :=
  l.map fun z => (decide ((s.zone z).failedCount ≠ before[z].failedCount), .zone z, true)

theorem markFailedCounts_eq (before : Vector ZoneRec 4) (s : State) :
    markFailedCounts before s = marks (failedMarks before s (List.finRange 4)) s := by
  have hfold : ∀ (l : List ZoneId) (u : State), l.foldl (fun s z =>
      markIf (decide ((s.zone z).failedCount ≠ before[z].failedCount)) (.zone z) true s) u =
        marks (failedMarks before u l) u := by
    intro l
    induction l with
    | nil => exact fun _ => rfl
    | cons z rest ih =>
      intro u
      rw [List.foldl_cons, ih]
      have hzone : ∀ c r n, (markIf c r n u).zone = u.zone := fun c r n => by
        funext d
        simp only [State.zone, markIf_keeps]
      simp only [failedMarks, hzone, marks, List.map_cons, List.foldl_cons]
  exact hfold _ s

/-- The failed-fan counts of THC changed and the zones compared with what they were (R92). -/
theorem Runs.failedCounts (h : Runs s t) {x : Thc} (hx : SensorsAlike t.thc x) {before : Vector ZoneRec 4}
    (hbefore : ∀ z : ZoneId, before[z].failedCount = t.thc.zones[z].failedCount)
    (hsafe : ∀ z : ZoneId, x.zones[z].failsafe = t.thc.zones[z].failsafe) (hbank : x.bank = t.thc.bank) :
    Runs s (markFailedCounts before { t with thc := x }) := by
  rw [markFailedCounts_eq]
  refine h.thcMarked hx _ fun z => ?_
  by_cases hz : x.zones[z].failedCount = t.thc.zones[z].failedCount
  · exact Or.inl ⟨hz, hsafe z, hbank⟩
  · have hne : decide (x.zones[z].failedCount ≠ before[z].failedCount) = true := by
      rw [hbefore]
      exact decide_eq_true hz
    exact Or.inr (List.mem_map.mpr ⟨z, List.mem_finRange z, by rw [← hne]; rfl⟩)

theorem Runs.deliverFailed (h : Runs s t) (f : FanId) (x : Bool) : Runs s (deliverFailed f x t) := by
  unfold Machine.deliverFailed
  refine h.failedCounts ?_ (fun _ => rfl) (fun z => ?_) rfl
  · exact ⟨rfl, fun _ => rfl, rfl⟩
  · simp only [Thc.refreshFailed, getFin_ofFn]

/-! ### What no record shows -/

theorem Runs.histPending (h : Runs s t) (v : Vector Byte 24) : Runs s { t with exp := { t.exp with histPending := v } } :=
  h.same rfl

theorem Runs.sbe (h : Runs s t) (x : Sbe) : Runs s { t with sbe := x } := h.same rfl

theorem Runs.pins (h : Runs s t) (x : Pins) : Runs s { t with pins := x } := h.same rfl

theorem Runs.clock (h : Runs s t) (x : Clock) : Runs s { t with clock := x } := h.same rfl

theorem Runs.sheds (h : Runs s t) (l : List ShedReq) : Runs s { t with pseq := { t.pseq with sheds := l } } := h.same rfl

/-! ### Histories, timers, the account (R3, R7, R19, R44) -/

theorem Runs.pushHistory (h : Runs s t) (b : Bay) (ev : HistEvent) : Runs s (pushHistory b ev t) := by
  unfold Machine.pushHistory
  exact (h.histPending _).updBay b _

theorem Runs.pushes (h : Runs s t) (b : Bay) (l : List HistEvent) :
    Runs s (l.foldl (fun s ev => Machine.pushHistory b ev s) t) := Runs.foldl (fun _ ev h => h.pushHistory b ev) l h

theorem Runs.setDebounce (h : Runs s t) (b : Bay) (x : Timer) : Runs s (setDebounce b x t) := h.same rfl

theorem Runs.setReplug (h : Runs s t) (b : Bay) (x : Timer) : Runs s (setReplug b x t) := h.same rfl

theorem Runs.updAccount (h : Runs s t) (f : Account → Account) : Runs s (updAccount f t) := h.updPseq _

theorem Runs.updPath (h : Runs s t) (b : Bay) (f : Path → Path) : Runs s (updPath b f t) := h.same rfl

/-! ### The sideband queue (R69 to R73, R80) -/

theorem Runs.startNext (h : Runs s t) : Runs s (startNext t) := by
  unfold Machine.startNext
  split
  · exact h
  · split
    · exact h.same rfl
    · split
      · exact h.same rfl
      · exact h

theorem Runs.joinOrder (h : Runs s t) (e : SbEntry) : Runs s (joinOrder e t) := (h.sbe _).startNext

theorem Runs.joinPoll (h : Runs s t) (e : SbEntry) : Runs s (joinPoll e t) := (h.sbe _).startNext

theorem Runs.placePoll (h : Runs s t) (b : Bay) : Runs s (placePoll b t) := by
  unfold Machine.placePoll
  split
  · exact h
  · exact (h.sbe _).joinPoll _

theorem Runs.pollVisit (h : Runs s t) : Runs s (pollVisit t) := by
  refine Runs.foldl (fun t b h => ?_) _ (h.sbe _)
  unfold visitBay
  split
  · exact h.placePoll b
  · exact h

theorem Runs.pollEntered (h : Runs s t) (b : Bay) : Runs s (pollEntered b t) := (h.sbe _).placePoll b

theorem Runs.pollLeft (h : Runs s t) (b : Bay) : Runs s (pollLeft b t) := h.same rfl

theorem Runs.followUp (h : Runs s t) (e : SbEntry) : Runs s (followUp e t) := by
  unfold Machine.followUp
  split
  · exact h.same rfl
  · exact h

theorem Runs.requestIdent (h : Runs s t) (b : Bay) : Runs s (requestIdent b t) := by
  unfold Machine.requestIdent
  split
  · exact h
  · exact h.joinPoll _

theorem Runs.purgeBay (h : Runs s t) (b : Bay) : Runs s (purgeBay b t) := by
  have hflight : Runs s (endFlightEmpty b t) := by
    unfold endFlightEmpty
    split
    · exact h
    · split
      · exact (h.sbe _).completeOpt _ _ _
      · exact h
  exact Runs.startNext (Runs.foldl (fun _ _ h => h.completeOpt _ _ _) _ (hflight.sbe _))

/-! ### A bay's move and its neighbours (R21, R22) -/

theorem ThcAlike.startingFact (x : Thc) (b : Bay) (on : Bool) :
    ThcAlike x { x with facts := x.facts.set b { x.facts[b] with starting := on } }.refreshPreload := by
  refine ⟨rfl, fun d => ?_, rfl, fun z => ?_, rfl⟩
  · refine (congrArg DriveFacts.active (getFin_set x.facts b d _)).trans ?_
    split
    · rename_i hd
      rw [hd]
    · rfl
  · simp only [Thc.refreshPreload, getFin_ofFn, and_self]

theorem Runs.handThermal (h : Runs s t) (b : Bay) : Runs s (handThermal b t) := by
  have hactive : Runs s (setActiveFact b (decide ((t.bay b).state = .active)) t) := by
    unfold setActiveFact
    split
    · exact h
    · split
      · exact h.setSensor (SensorAlone.activated _ b _)
      · exact h.setSensor (SensorAlone.deactivated _ b)
  unfold Machine.handThermal setStartingFact
  split
  · exact hactive
  · exact hactive.thc (ThcAlike.startingFact _ b _)

theorem Runs.handLights (h : Runs s t) (b : Bay) : Runs s (handLights b t) := by
  unfold Machine.handLights
  split
  · exact h
  · split
    · exact h.setLgt _
    · exact h

theorem Runs.handSideband (h : Runs s t) (b : Bay) (x : BayState) : Runs s (handSideband b x t) := by
  unfold Machine.handSideband
  dsimp only
  split
  · exact h.pollEntered b
  · split
    · exact h.pollLeft b
    · split
      · exact h.purgeBay b
      · exact h

theorem Runs.turnBay (h : Runs s t) (b : Bay) (j : Option QEntry) (f : BayRec → BayRec) : Runs s (turnBay b j f t) :=
  Runs.updBay (h.updPseq _) b f

theorem Runs.moveBayWith (h : Runs s t) (j : Option QEntry) (b : Bay) (f : BayRec → BayRec) :
    Runs s (moveBayWith j b f t) := (((h.turnBay b j f).handThermal b).handLights b).handSideband b _

theorem Runs.moveBay (h : Runs s t) (b : Bay) (f : BayRec → BayRec) : Runs s (moveBay b f t) := h.moveBayWith none b f

theorem Runs.report (h : Runs s t) (b : Bay) (acts : BayRec → Bool) (f : BayRec → BayRec) (l : List HistEvent) :
    Runs s (report b acts f l t) := by
  unfold Machine.report
  split
  · exact (h.moveBay b f).pushes b l
  · exact h

/-! ### Admission (chapter 2) -/

theorem Runs.attemptGood (h : Runs s t) (b : Bay) : Runs s (attemptGood b t) := by
  unfold Machine.attemptGood
  split
  · exact h
  · exact ((h.updPath b _).report b _ _ _).updPath b _

theorem Runs.attemptBegin (h : Runs s t) (b : Bay) : Runs s (attemptBegin b t) := by
  unfold Machine.attemptBegin
  split
  · exact h
  · dsimp only
    split
    · exact (h.updPath b _).attemptGood b
    · exact h.updPath b _

theorem Runs.admitEntry (h : Runs s t) (e : QEntry) : Runs s (admitEntry e t) := by
  unfold Machine.admitEntry
  split
  · exact (((h.updAccount _).report _ _ _ _).updPath _ _).attemptBegin _
  · exact h.updPseq _

theorem Runs.admitWhileFits (h : Runs s t) (n : Nat) : Runs s (admitWhileFits n t) := by
  induction n generalizing t with
  | zero => exact h
  | succ n ih =>
    unfold Machine.admitWhileFits
    split
    · exact h
    · split
      · exact ih (h.admitEntry _)
      · exact h

theorem Runs.updateBlocked (h : Runs s t) : Runs s (updateBlocked t) := by
  unfold Machine.updateBlocked
  dsimp only
  split
  · exact (h.updAccount _).useFree
  · exact h.updAccount _

theorem Runs.evaluate (h : Runs s t) : Runs s (evaluate t) := (h.admitWhileFits _).updateBlocked

theorem Runs.deliverEstimate (h : Runs s t) (n : Nat) : Runs s (deliverEstimate n t) := by
  have hnoted := h.updAccount fun a => { a with fanEstimate := n }
  unfold Machine.deliverEstimate
  dsimp only
  split
  · exact hnoted.evaluate
  · split
    · exact hnoted.updateBlocked
    · exact hnoted

theorem Runs.enqueue (h : Runs s t) (b : Bay) (c : QClass) (o : Option SlotId) : Runs s (enqueue b c o t) := by
  unfold Machine.enqueue
  split
  · exact ((h.moveBayWith _ b _).pushHistory b _).evaluate
  · exact h

theorem Runs.cancelQueued (h : Runs s t) (b : Bay) : Runs s (cancelQueued b t) := by
  unfold Machine.cancelQueued
  split
  · exact h
  · exact (h.completeOpt _ _ _).report b _ _ _

theorem Runs.lostQueued (h : Runs s t) (b : Bay) : Runs s (lostQueued b t) := by
  unfold Machine.lostQueued
  dsimp only
  split
  · exact h.moveBay b _
  · exact ((h.moveBay b _).completeOpt _ _ _).pushHistory b _

/-! ### The power path (chapter 3) -/

theorem Runs.exhausted (h : Runs s t) (b : Bay) (l : Ladder) : Runs s (exhausted b l t) :=
  (((h.completeOpt _ _ _).report b _ _ _).updPath b _).evaluate

theorem Runs.attemptFail (h : Runs s t) (b : Bay) (o : AttemptOutcome) : Runs s (attemptFail b o t) := by
  unfold Machine.attemptFail
  split
  · exact h
  · dsimp only
    split
    · exact (h.updPath b _).exhausted b _
    · exact h.updPath b _

theorem Runs.coolOffEnd (h : Runs s t) (b : Bay) : Runs s (coolOffEnd b t) := by
  unfold Machine.coolOffEnd
  split
  · exact (h.updPath b _).attemptBegin b
  · exact h

theorem Runs.spinEnd (h : Runs s t) (b : Bay) : Runs s (spinEnd b t) := by
  unfold Machine.spinEnd
  split
  · exact (((h.completeOpt _ _ _).report b _ _ _).updPath b _).evaluate
  · exact h

theorem Runs.runningFault (h : Runs s t) (b : Bay) (c : CutCause) : Runs s (runningFault b c t) :=
  (((h.completeOpt _ _ _).report b _ _ _).updPath b _).evaluate

theorem Runs.finishHold (h : Runs s t) (b : Bay) : Runs s (finishHold b t) :=
  ((h.completeOpt _ _ _).report b _ _ _).updPath b _

theorem Runs.startHold (h : Runs s t) (b : Bay) (n : Nat) : Runs s (startHold b n t) := by
  unfold Machine.startHold
  split
  · exact h.finishHold b
  · exact h.updPath b _

theorem Runs.standbyEnd (h : Runs s t) (b : Bay) (o : StandbyOutcome) (x : Option SbResult) (c : Option CutCause) :
    Runs s (standbyEnd b o x c t) := by
  unfold Machine.standbyEnd
  split
  · exact h
  · exact (((h.updPath b _).report b _ _ _).startHold b _).evaluate

theorem Runs.deliverStandby (h : Runs s t) (b : Bay) (r : SbResult) : Runs s (deliverStandby b r t) := by
  unfold Machine.deliverStandby
  split
  · exact h.standbyEnd b _ _ _
  · exact h

theorem Runs.immediateStop (h : Runs s t) (b : Bay) (n : SlotId) (k : Nat) : Runs s (immediateStop b n k t) :=
  ((((h.completeOpt _ _ _).updPath b _).report b _ _ _).startHold b _).evaluate

theorem Runs.requestStandby (h : Runs s t) {b : Bay} (hr : requestStandby b t = some u) : Runs s u := by
  unfold Machine.requestStandby at hr
  split at hr
  · cases hr
    exact h.joinOrder _
  · cases hr

theorem Runs.gracefulStop (h : Runs s t) (b : Bay) (n : SlotId) (k : Nat) : Runs s (gracefulStop b n k t) := by
  unfold Machine.gracefulStop
  dsimp only
  split
  · rename_i hr
    exact Runs.requestStandby ((h.updPath b _).report b _ _ _) hr
  · exact ((h.updPath b _).report b _ _ _).standbyEnd b _ _ _

theorem Runs.powerCut (h : Runs s t) (b : Bay) (c : CutCause) : Runs s (powerCut b c t) := by
  unfold Machine.powerCut
  split
  · exact h.runningFault b c
  · split
    · exact h.standbyEnd b _ _ _
    · exact h

theorem Runs.shed (h : Runs s t) (b : Bay) (n : Nat) : Runs s (shed b n t) := by
  unfold Machine.shed
  split
  · exact ((h.report b _ _ _).updPath b _).evaluate
  · exact h

theorem Runs.earlyCut (h : Runs s t) (b : Bay) : Runs s (earlyCut b t) := by
  have hcut := ((h.completeOpt (t.bay b).powerOrder .removed (cutDetail (t.path b) t.clock.tick)).report b (fun _ => true)
    (fun r => { r.settling with charge := none, powerOrder := none }) [.off .presenceLost]).updPath b Path.idle
  unfold Machine.earlyCut
  dsimp only
  split
  · exact hcut.evaluate
  · exact hcut

theorem Runs.enterSettling (h : Runs s t) (b : Bay) : Runs s (enterSettling b t) := by
  unfold Machine.enterSettling
  split
  · exact h
  · exact h.earlyCut b
  · exact h.earlyCut b
  · exact h.earlyCut b
  · exact h.earlyCut b
  · exact (h.lostQueued b).evaluate
  all_goals exact h.moveBay b _

theorem Runs.presenceChanged (h : Runs s t) (b : Bay) : Runs s (presenceChanged b t) :=
  ((h.pins _).enterSettling b).setDebounce b _

theorem Runs.enterOff (h : Runs s t) (b : Bay) (f : BayRec → BayRec) (ev : HistEvent) : Runs s (enterOff b f ev t) := by
  have hoff := ((h.moveBay b fun r => f (r.enter .off)).pushHistory b ev).requestIdent b
  unfold Machine.enterOff
  dsimp only
  split
  · exact hoff.enqueue b _ _
  · exact hoff

theorem Runs.arrived (h : Runs s t) (b : Bay) : Runs s (arrived b t) := by
  unfold Machine.arrived
  split
  · exact (h.setReplug b none).enterOff b _ _
  · exact h.enterOff b _ _

theorem Runs.debounceEnd (h : Runs s t) (b : Bay) : Runs s (debounceEnd b t) := by
  have hset := h.setDebounce b none
  unfold Machine.debounceEnd
  split
  · dsimp only
    split
    · exact ((hset.moveBay b _).pushHistory b _).setReplug b _
    · exact hset.moveBay b _
    · exact hset.arrived b
    · exact hset.enterOff b _ _
    · exact hset
  · exact h

theorem Runs.powerGoodRises (h : Runs s t) (b : Bay) : Runs s (powerGoodRises b t) := by
  have hset : Runs s (setPowerGood b true t) := h.pins _
  unfold Machine.powerGoodRises
  dsimp only
  split
  · exact hset.attemptGood b
  · exact hset

theorem Runs.tripRises (h : Runs s t) (b : Bay) : Runs s (tripRises b t) := by
  unfold Machine.tripRises
  split
  · exact h.attemptFail b _
  · exact h.powerCut b _

theorem Runs.powerGoodFalls (h : Runs s t) (b : Bay) : Runs s (powerGoodFalls b t) := (h.pins _).powerCut b _

theorem Runs.rampEnd (h : Runs s t) (b : Bay) : Runs s (rampEnd b t) := by
  unfold Machine.rampEnd
  split
  · exact h.attemptFail b _
  · exact h

theorem Runs.holdOver (h : Runs s t) (b : Bay) : Runs s (holdOver b t) := by
  unfold Machine.holdOver
  split
  · exact h.finishHold b
  · exact h

theorem Runs.staggerOut (h : Runs s t) : Runs s (staggerOut t) := by
  unfold Machine.staggerOut
  split
  · exact (h.updAccount _).evaluate
  · exact h

theorem Runs.shedTaken (h : Runs s t) (b : Bay) : Runs s (shedTaken b t) := by
  unfold Machine.shedTaken
  dsimp only
  split
  · exact h.sheds _
  · exact (h.sheds _).shed b _

theorem Runs.tickOn (h : Runs s t) : Runs s (tickOn t) := (h.clock _).updAccount _

/-! ### The zone period and the fans (chapters 5 to 7) -/

theorem Runs.deliverTemp (h : Runs s t) (b : Bay) (q : Option Int) : Runs s (deliverTemp b q t) := by
  unfold Machine.deliverTemp
  dsimp only
  split
  · refine (h.sheds _).setSensor (SensorAlone.of_fields (fun j hj => set_of_ne _ hj _) (fun d hd => ?_) (fun _ _ => rfl) rfl rfl)
    exact congrArg DriveFacts.active (set_of_ne t.thc.facts (fun e => hd (congrArg driveSensor e)) _)
  · exact h

theorem Runs.startBoardReads (h : Runs s t) : Runs s (startBoardReads t) :=
  h.thc ⟨rfl, fun _ => rfl, rfl, fun _ => ⟨rfl, rfl⟩, rfl⟩

theorem Runs.endBoardRead (h : Runs s t) (n : Fin 8) (q : Option Int) : Runs s (endBoardRead n q t) := by
  unfold Machine.endBoardRead
  split
  · exact h.setSensor (SensorAlone.of_fields (fun j hj => set_of_ne _ hj _) (fun _ _ => rfl) (fun _ _ => rfl) rfl rfl)
  · exact h

theorem periodZone_told (x : Thc) (z : ZoneId) :
    (periodZone x z).failedCount = x.zones[z].failedCount ∧ (periodZone x z).failsafe = x.zones[z].failsafe := by
  unfold periodZone
  split
  · exact ⟨rfl, rfl⟩
  · split <;> exact ⟨rfl, rfl⟩

theorem Runs.computeZones (h : Runs s t) : Runs s (computeZones t) := by
  refine Runs.foldl (fun _ _ h => h.mark _ _) _ (h.thc ⟨rfl, fun _ => rfl, rfl, fun z => ?_, rfl⟩)
  dsimp only
  rw [getFin_ofFn]
  exact periodZone_told t.thc z

theorem Runs.fitSensor (h : Runs s t) (m : Byte) (n : Fin 8) : Runs s (fitSensor m t n) := by
  refine Runs.setSensor (h.markIf _ _ _) ?_
  simp only [markIf_keeps]
  exact SensorAlone.fit t.thc n _

/-- Fitting board sensors leaves the zones. -/
theorem fitSensors_zones (m : Byte) (l : List (Fin 8)) (s : State) :
    (l.foldl (fitSensor m) s).thc.zones = s.thc.zones := by
  refine foldl_keeps (fun s : State => s.thc.zones) _ (fun u n => ?_) l s
  unfold fitSensor
  rw [setSensor_eq]
  obtain ⟨d, l, heq⟩ := marks_eq (sensorMarks (boardSensor n) (markIf (decide (u.thc.fitted[n] ≠ m.getLsbD n.val))
    (.sensor (boardSensor n)) false u).thc (u.thc.fit n (m.getLsbD n.val))) _
  rw [heq]
  exact (SensorAlone.fit u.thc n _).zones

theorem Runs.applyMap (h : Runs s t) : Runs s (applyMap t) := by
  unfold Machine.applyMap
  split
  · exact h
  · rename_i p _
    have hmapped : ∀ z : ZoneId, (t.thc.mapped p).zones[z].failedCount = t.thc.zones[z].failedCount ∧
        (t.thc.mapped p).zones[z].failsafe = t.thc.zones[z].failsafe := fun z => by
      simp only [Thc.mapped, getFin_ofFn, and_self]
    have hput : Runs s { t with thc := t.thc.mapped p } := h.thc ⟨rfl, fun _ => rfl, rfl, hmapped, rfl⟩
    have hfitted : Runs s ((List.finRange 8).foldl (Machine.fitSensor p.fitted) { t with thc := t.thc.mapped p }) :=
      Runs.foldl (fun _ n h => h.fitSensor _ n) _ hput
    have hzones := fitSensors_zones p.fitted (List.finRange 8) { t with thc := t.thc.mapped p }
    generalize (List.finRange 8).foldl (Machine.fitSensor p.fitted) { t with thc := t.thc.mapped p } = v at hfitted hzones ⊢
    have hsensors : SensorsAlike v.thc v.thc.refreshFailed.refreshPreload := ⟨rfl, fun _ => rfl, rfl⟩
    refine Runs.completeOpt (hfitted.failedCounts hsensors (fun z => ?_) (fun z => ?_) rfl) _ _ _
    · rw [hzones]
      exact (hmapped z).1.symm
    · simp only [Thc.refreshPreload, Thc.refreshFailed, getFin_ofFn]

theorem Runs.acceptSelect (h : Runs s t) (p : PendingSelect) (w : Vector CurveRec 4) : Runs s (acceptSelect p w t) := by
  unfold Machine.acceptSelect
  dsimp only
  refine Runs.completeOpt ?_ _ _ _
  have hmarks : ∀ (c : Bool) (v : State), (List.finRange 4).foldl (fun s z => Machine.markIf c (.zone z) true s) v =
      Machine.marks ((List.finRange 4).map fun z => (c, .zone z, true)) v := fun c v => by
    unfold Machine.marks
    rw [List.foldl_map]
  rw [hmarks]
  have hsensors : SensorsAlike t.thc (t.thc.selected p.bank w) := ⟨rfl, fun _ => rfl, rfl⟩
  refine h.thcMarked hsensors _ fun z => ?_
  by_cases hnotice : inFailsafe t.thc || decide (t.thc.bank ≠ some p.bank)
  · exact Or.inr (List.mem_map.mpr ⟨z, List.mem_finRange z, by rw [hnotice]⟩)
  · left
    simp only [Bool.or_eq_true, decide_eq_true_eq, not_or, not_not, inFailsafe, List.any_eq_true, not_exists, not_and,
      Bool.not_eq_true] at hnotice
    obtain ⟨hsafe, hbank⟩ := hnotice
    simp only [Thc.selected, getFin_ofFn]
    exact ⟨trivial, (hsafe z (List.mem_finRange z)).symm, hbank.symm⟩

theorem Runs.pendingSelect (h : Runs s t) (x : Option PendingSelect) :
    Runs s { t with thc := { t.thc with pendingSelect := x } } :=
  h.thc ⟨rfl, fun _ => rfl, rfl, fun _ => ⟨rfl, rfl⟩, rfl⟩

theorem Runs.pendingMap (h : Runs s t) (x : Option PendingMap) :
    Runs s { t with thc := { t.thc with pendingMap := x } } :=
  h.thc ⟨rfl, fun _ => rfl, rfl, fun _ => ⟨rfl, rfl⟩, rfl⟩

theorem Runs.applySelect (h : Runs s t) : Runs s (applySelect t) := by
  unfold Machine.applySelect
  split
  · exact h
  · have hcleared := h.pendingSelect none
    dsimp only
    split
    · exact hcleared.acceptSelect _ _
    · exact hcleared.completeOpt _ _ _

theorem Runs.fanWorks (h : Runs s t) {x : Fanu} (hx : x.fans = t.fanu.fans) : Runs s { t with fanu := x } := by
  refine h.same ?_
  simp only [State.face, hx]

theorem Runs.updWork (h : Runs s t) (f : FanId) (g : FanWork → FanWork) : Runs s (updWork f g t) := h.same rfl

theorem Runs.markFans (h : Runs s t) : Runs s (markFans t) := Runs.foldl (fun _ _ h => h.mark _ _) _ h

theorem Runs.deliverFans (h : Runs s t) : Runs s (deliverFans t) := h.deliverEstimate _

theorem Runs.zoneControl (h : Runs s t) (f : FanId) : Runs s (zoneControl f t) := (h.updFan f _).updWork f _

theorem Runs.applyOutput (h : Runs s t) (f : FanId) : Runs s (applyOutput f t) := by
  unfold Machine.applyOutput
  split
  · exact h.zoneControl f
  · exact h.updFan f _
  all_goals exact h

theorem Runs.leftFailed (h : Runs s t) (f : FanId) (x : FanState) : Runs s (leftFailed f x t) := by
  unfold Machine.leftFailed
  split
  · exact h.deliverFailed f _
  · exact h

theorem Runs.enterFailed (h : Runs s t) (f : FanId) : Runs s (enterFailed f t) :=
  ((h.updFan f _).updWork f _).deliverFailed f true

theorem Runs.endLearn (h : Runs s t) (f : FanId) (l : Learn) (r : Result) (m : Nat) : Runs s (endLearn f l r m t) :=
  ((((h.updWork f _).updFan f _).zoneControl f).completeOpt _ _ _).deliverFans

theorem Runs.noSpin (h : Runs s t) (f : FanId) (l : Learn) : Runs s (noSpin f l t) :=
  ((((h.updWork f _).updFan f _).enterFailed f).completeOpt _ _ _).deliverFans

theorem Runs.stopLearn (h : Runs s t) (f : FanId) (l : Learn) (r : Result) : Runs s (stopLearn f l r t) :=
  ((h.updWork f _).zoneControl f).completeOpt _ _ _

theorem Runs.visitLevel (h : Runs s t) (f : FanId) (l : Learn) (n : Fin 8) : Runs s (visitLevel f l n t) :=
  ((h.updWork f _).updFan f _).deliverFans

theorem Runs.judgeLevel (h : Runs s t) (f : FanId) (l : Learn) (rpm : Nat) : Runs s (judgeLevel f l rpm t) := by
  unfold Machine.judgeLevel
  split
  · split
    · exact h.visitLevel f l _
    · exact h.endLearn f l _ _
  · split
    · exact h.noSpin f l
    · exact h.endLearn f l _ _

theorem Runs.learnGate (h : Runs s t) (f : FanId) (l : Learn) : Runs s (learnGate f l t) := by
  unfold Machine.learnGate
  dsimp only
  split
  · exact h.updWork f _
  · split
    · exact h.judgeLevel f _ _
    · split
      · exact h.endLearn f _ _ _
      · exact h.updWork f _

theorem Runs.runningGate (h : Runs s t) (f : FanId) : Runs s (runningGate f t) := by
  unfold Machine.runningGate
  dsimp only
  split
  · split
    · split
      · exact ((h.updFan f _).updWork f _).deliverFans
      · exact h.updWork f _
    · exact h.updWork f _
  · exact h

theorem Runs.kickGate (h : Runs s t) (f : FanId) : Runs s (kickGate f t) := by
  unfold Machine.kickGate
  dsimp only
  split
  · exact h.updWork f _
  · split
    · exact ((h.updWork f _).zoneControl f).deliverFans
    · split
      · exact (((h.updWork f _).updFan f _).updWork f _).deliverFans
      · exact (((h.updWork f _).updFan f _).enterFailed f).deliverFans

theorem Runs.failedGate (h : Runs s t) (f : FanId) : Runs s (failedGate f t) := by
  unfold Machine.failedGate
  dsimp only
  split
  · split
    · exact ((((h.updWork f _).zoneControl f).updFan f _).deliverFailed f _).deliverFans
    · exact h.updWork f _
  · exact h.updWork f _

theorem Runs.actGate (h : Runs s t) (f : FanId) : Runs s (actGate t f) := by
  unfold Machine.actGate
  split
  · exact h.runningGate f
  · exact h.kickGate f
  · exact h.failedGate f
  · split
    · exact h
    · exact h.learnGate f _
  all_goals exact h

theorem Runs.gateJudged (h : Runs s t) : Runs s (gateJudged t) :=
  Runs.foldl (fun _ f h => h.actGate f) _ (Runs.foldl (fun _ f h => (h.updFan f _).updWork f _) _ (h.fanWorks rfl))

theorem Runs.gateExpiry (h : Runs s t) : Runs s (gateExpiry t) := h.gateJudged.markFans

theorem Runs.tachEdge (h : Runs s t) (f : FanId) : Runs s (tachEdge f t) := h.updWork f _

theorem Runs.handFan (h : Runs s t) (f : FanId) : Runs s (handFan t f) := by
  unfold Machine.handFan
  split
  · split
    · exact h.stopLearn f _ _
    · exact h
  · exact h.applyOutput f

theorem Runs.outputsStored (h : Runs s t) : Runs s (outputsStored t) := h.fanWorks rfl

theorem Runs.handOutputs (h : Runs s t) : Runs s (handOutputs t) :=
  (Runs.foldl (fun _ f h => h.handFan f) _ h.outputsStored).deliverFans.markFans

theorem Runs.periodTimer (h : Runs s t) (x : Timer) : Runs s { t with thc := { t.thc with periodTimer := x } } :=
  h.thc ⟨rfl, fun _ => rfl, rfl, fun _ => ⟨rfl, rfl⟩, rfl⟩

theorem Runs.zonePeriod (h : Runs s t) : Runs s (zonePeriod t) :=
  (h.periodTimer _).applyMap.applySelect.computeZones.handOutputs

/-! ### Transactions (chapter 4) -/

theorem Runs.deliverIdentity (h : Runs s t) (b : Bay) (o : Option Identity) : Runs s (deliverIdentity b o t) := by
  unfold Machine.deliverIdentity
  split
  · exact h
  · split
    · exact h.moveBay b _
    · exact h

theorem Runs.deliverHealth (h : Runs s t) (b : Bay) (o : Option Byte) : Runs s (deliverHealth b o t) := by
  unfold Machine.deliverHealth
  split
  · exact h
  · split
    · exact h.moveBay b _
    · exact h

theorem Runs.deliverResult (h : Runs s t) (e : SbEntry) (r : SbResult) (d : List Byte) :
    Runs s (deliverResult e r d t) := by
  unfold Machine.deliverResult
  dsimp only
  split
  · split
    · exact h.deliverTemp _ _
    · exact h
  · exact h.deliverIdentity _ _
  · exact h.deliverHealth _ _
  · exact h.deliverStandby _ _

theorem Runs.endTxn (h : Runs s t) (x : Txn) (r : SbResult) (d : List Byte) : Runs s (endTxn x r d t) :=
  ((((h.sbe _).completeOpt _ _ _).deliverResult _ _ _).followUp _).startNext

theorem Runs.attemptFailed (h : Runs s t) (x : Txn) (r : SbResult) : Runs s (attemptFailed x r t) := by
  unfold Machine.attemptFailed
  dsimp only
  split
  · exact h.endTxn _ _ _
  · exact h.same rfl

theorem Runs.attemptDeferred (h : Runs s t) (x : Txn) : Runs s (attemptDeferred x t) := by
  unfold Machine.attemptDeferred
  split
  · exact h.same rfl
  · exact h.endTxn _ _ _

theorem Runs.replyArrived (h : Runs s t) (l : List Byte) : Runs s (replyArrived l t) := by
  unfold Machine.replyArrived
  split
  · exact h
  · split
    · exact h
    · exact h.endTxn _ _ _
    · exact h.attemptDeferred _
    · exact h.attemptFailed _ _

theorem Runs.noReply (h : Runs s t) : Runs s (noReply t) := by
  unfold Machine.noReply
  split
  · exact h
  · exact h.attemptFailed _ _

theorem Runs.spacingEnd (h : Runs s t) : Runs s (spacingEnd t) := by
  unfold Machine.spacingEnd
  split
  · exact h
  · split
    · exact h.same rfl
    · exact h

/-! ### The orders (chapters 2 to 8, R157) -/

theorem Runs.powerOnOrder (h : Runs s t) (n : SlotId) : Runs s (powerOnOrder n t) := by
  unfold Machine.powerOnOrder powerOnBay
  split
  · split
    · exact h.enqueue _ _ _
    all_goals exact h.complete _ _ _
  · exact h.complete _ _ _

theorem Runs.powerOffOrder (h : Runs s t) (n : SlotId) : Runs s (powerOffOrder n t) := by
  unfold Machine.powerOffOrder powerOffBay
  split
  · split
    · exact h.complete _ _ _
    · exact h.complete _ _ _
    · exact h.complete _ _ _
    · exact h.complete _ _ _
    · exact ((h.cancelQueued _).complete _ _ _).evaluate
    · exact h.immediateStop _ _ _
    · exact h.immediateStop _ _ _
    · split
      · exact h.immediateStop _ _ _
      · exact h.gracefulStop _ _ _
    · exact h.complete _ _ _
  · exact h.complete _ _ _

theorem Runs.writePolicy (h : Runs s t) (p : Policy) (b : Bay) : Runs s (writePolicy p t b) := (h.updBay b _).mark _ _

theorem Runs.policyOrder (h : Runs s t) (n : SlotId) : Runs s (policyOrder n t) := by
  unfold Machine.policyOrder
  dsimp only
  split
  · exact h.complete _ _ _
  · split
    · exact h.complete _ _ _
    · split
      · exact h.complete _ _ _
      · exact Runs.complete (Runs.foldl (fun _ b h => h.writePolicy _ b) _ h) _ _ _

theorem Runs.clearBay (h : Runs s t) (b : Bay) : Runs s (clearBay t b) := by
  unfold Machine.clearBay
  split
  · exact (h.moveBay b _).pushHistory b _
  · exact h

theorem Runs.clearFaultOrder (h : Runs s t) (n : SlotId) : Runs s (clearFaultOrder n t) := by
  unfold Machine.clearFaultOrder clearAll clearOne
  dsimp only
  split
  · exact Runs.complete (Runs.foldl (fun _ _ h => h.clearBay _) _ h) _ _ _
  · split
    · split
      · exact (h.clearBay _).complete _ _ _
      all_goals exact h.complete _ _ _
    · exact h.complete _ _ _

theorem Runs.budgetOrder (h : Runs s t) (n : SlotId) : Runs s (budgetOrder n t) := by
  unfold Machine.budgetOrder
  dsimp only
  split
  · exact h.complete _ _ _
  · exact ((((h.updAccount _).useFree).mark _ _).complete _ _ _).evaluate

theorem Runs.queryOrder (h : Runs s t) (n : SlotId) : Runs s (queryOrder n t) := by
  unfold Machine.queryOrder setInterval queryBay
  split
  · exact (h.sbe _).complete _ _ _
  · split
    · split
      · exact h.complete _ _ _
      · exact h.complete _ _ _
      all_goals
        split
        · exact h.joinOrder _
        · exact h.complete _ _ _
    · exact h.complete _ _ _

theorem Runs.mapOrder (h : Runs s t) (n : SlotId) : Runs s (mapOrder n t) := by
  unfold Machine.mapOrder
  split
  · exact h.complete _ _ _
  · exact Runs.completeOpt (h.pendingMap _) _ _ _

theorem Runs.selectOrder (h : Runs s t) (n : SlotId) : Runs s (selectOrder n t) := by
  unfold Machine.selectOrder
  split
  · exact h.complete _ _ _
  · exact Runs.completeOpt (h.pendingSelect _) _ _ _

theorem Runs.configuredState (h : Runs s t) (f : FanId) (x : FanState) : Runs s (configuredState f x t) := by
  unfold Machine.configuredState
  split
  · split
    · exact (h.updFan f _).updWork f _
    · exact h.updWork f _
    all_goals exact ((h.zoneControl f).updFan f _).leftFailed f _
  · exact (h.updFan f _).leftFailed f _

theorem Runs.configOrder (h : Runs s t) (n : SlotId) : Runs s (configOrder n t) := by
  unfold Machine.configOrder
  split
  · exact h.complete _ _ _
  · split
    · split
      · exact h.complete _ _ _
      · exact ((((h.updFan _ _).mark _ _).configuredState _ _).complete _ _ _).deliverFans
    · exact h.complete _ _ _

theorem Runs.learnOrder (h : Runs s t) (n : SlotId) : Runs s (learnOrder n t) := by
  unfold Machine.learnOrder learnFan
  split
  · exact h.complete _ _ _
  · split
    · exact h.complete _ _ _
    · split
      · exact h.complete _ _ _
      · split
        · exact h.complete _ _ _
        · split
          · exact h.complete _ _ _
          · exact ((h.updFan _ _).leftFailed _ _).visitLevel _ _ _

theorem Runs.lightSetOrder (h : Runs s t) (n : SlotId) : Runs s (lightSetOrder n t) := by
  unfold Machine.lightSetOrder Machine.lightSet
  split
  · split
    · exact (h.setLgt _).complete _ _ _
    · split
      · exact (h.setLgt _).complete _ _ _
      · exact h.complete _ _ _
  · exact h.complete _ _ _

theorem Runs.locateOrder (h : Runs s t) (n : SlotId) : Runs s (locateOrder n t) := by
  unfold Machine.locateOrder Machine.locate
  split
  · split
    · exact (h.setLgt _).complete _ _ _
    · exact (h.setLgt _).complete _ _ _
  · exact h.complete _ _ _

theorem Runs.locateExpiry (h : Runs s t) (b : Bay) : Runs s (locateExpiry b t) := by
  unfold Machine.locateExpiry
  split
  · exact h.setLgt _
  · exact h

theorem Runs.lightSyncOrder (h : Runs s t) (n : SlotId) : Runs s (lightSyncOrder n t) := by
  unfold Machine.lightSyncOrder Machine.lightSync
  split
  · exact (h.setLgt _).complete _ _ _
  · exact h.complete _ _ _

theorem Runs.patternOrder (h : Runs s t) (n : SlotId) : Runs s (patternOrder n t) := by
  unfold Machine.patternOrder
  dsimp only
  split
  · split
    · exact h.complete _ _ _
    · exact (h.setLgt _).complete _ _ _
  · exact h.complete _ _ _

theorem Runs.autoMapOrder (h : Runs s t) (n : SlotId) : Runs s (autoMapOrder n t) := by
  unfold Machine.autoMapOrder
  split
  · exact h.complete _ _ _
  · exact (h.setLgt _).complete _ _ _

theorem Runs.abortTaken (h : Runs s t) (n m : SlotId) (x : Slot) : Runs s (abortTaken n m x t) := by
  unfold Machine.abortTaken
  split
  · unfold abortPowerOn
    split
    · exact ((h.cancelQueued _).complete _ _ _).evaluate
    · exact h.complete _ _ _
  · unfold abortQuery
    split
    · exact Runs.complete ((h.sbe _).completeOpt _ _ _) _ _ _
    · exact h.complete _ _ _
  · exact Runs.complete (Runs.complete (h.pendingMap _) _ _ _) _ _ _
  · exact Runs.complete (Runs.complete (h.pendingSelect _) _ _ _) _ _ _
  · unfold abortLearn
    split
    · exact ((h.stopLearn _ _ _).complete _ _ _).deliverFans
    · exact h.complete _ _ _
  · exact h.complete _ _ _

theorem Runs.abortOrder (h : Runs s t) (n : SlotId) : Runs s (abortOrder n t) := by
  unfold Machine.abortOrder
  split
  · dsimp only
    split
    · exact h.abortTaken _ _ _
    · exact h.complete _ _ _
  · exact h.complete _ _ _

end Sys2Proof.Machine

/-! Settles the owners' marks (O14): what a command's body leaves marked, and what the end of its step writes of it. -/

namespace Sys2Proof.Machine

variable {s t u : State}

/-! ### A record the end of a step writes (R156, R176) -/

theorem MirrorRec.index_injective : Function.Injective MirrorRec.index := by
  intro r q h
  have hval := congrArg Fin.val h
  cases r <;> cases q <;> simp only [MirrorRec.index] at hval
  case bay.bay b d => exact congrArg _ (Fin.ext hval)
  case fan.fan f g => exact congrArg _ (Fin.ext (by omega))
  case zone.zone y z => exact congrArg _ (Fin.ext (by omega))
  case sensor.sensor i j => exact congrArg _ (Fin.ext (by omega))
  case budget.budget => rfl
  all_goals omega

/-- A record marked before the end of a step: it still waits and was not written, or it waits no more and was written
once, its change bit set where its entry carried a notice. -/
def MarkKept (u v : State) (r : MirrorRec) (notice : Bool) : Prop :=
  (Waits v.exp.dirty r notice ∧ v.exp.counts[r.index] = u.exp.counts[r.index]) ∨
    (v.exp.dirty.find? (fun e => e.record = r) = none ∧ v.exp.counts[r.index] = u.exp.counts[r.index] + 1 ∧
      ∀ i, notice = true → r.changeBit = some i → v.exp.summary.getLsbD i.val = true)

theorem summaryAfter_kept (q : MirrorRec) (m : Bool) {w : Word} {k : Nat} (h : w.getLsbD k = true) :
    (summaryAfter q m w).getLsbD k = true := by
  unfold summaryAfter
  split
  · exact h
  · split
    · rw [BitVec.getLsbD_or, h, Bool.true_or]
    · exact h

theorem summaryAfter_set {r : MirrorRec} {i : Fin 29} (h : r.changeBit = some i) (w : Word) :
    (summaryAfter r true w).getLsbD i.val = true := by
  have hi : i.val < 32 := by omega
  unfold summaryAfter
  rw [h]
  simp [hi]

/-- The fields of EXP after one of the step's records is written. -/
theorem writeStepRecord_fields {e : DirtyEntry} {q : MirrorRec} (h : s.exp.dirty.find? (fun e => e.record = q) = some e) :
    (writeStepRecord s q).exp.dirty = s.exp.dirty.filter (fun e => e.record ≠ q) ∧
    (writeStepRecord s q).exp.counts = s.exp.counts.set q.index (s.exp.counts[q.index] + 1) ∧
    (writeStepRecord s q).exp.summary = summaryAfter q e.notice s.exp.summary := by
  unfold writeStepRecord
  rw [h]
  dsimp only
  unfold settleThaw
  split <;> exact ⟨rfl, rfl, rfl⟩

theorem writeStepRecord_none {q : MirrorRec} (h : s.exp.dirty.find? (fun e => e.record = q) = none) :
    writeStepRecord s q = s := by
  unfold writeStepRecord
  rw [h]

theorem find?_filter_ne {q r : MirrorRec} (h : r ≠ q) (l : List DirtyEntry) :
    (l.filter fun e => e.record ≠ q).find? (fun e => e.record = r) = l.find? fun e => e.record = r := by
  rw [List.find?_filter]
  refine congrArg (fun p => List.find? p l) (funext fun e => ?_)
  by_cases he : e.record = r <;> simp [he, h]

theorem find?_filter_self (r : MirrorRec) (l : List DirtyEntry) :
    (l.filter fun e => e.record ≠ r).find? (fun e => e.record = r) = none := by
  rw [List.find?_eq_none]
  intro e he
  simpa using (List.mem_filter.mp he).2

theorem MarkKept.writeStepRecord {v : State} {r : MirrorRec} {n : Bool} (h : MarkKept u v r n) (q : MirrorRec) :
    MarkKept u (writeStepRecord v q) r n := by
  cases hq : v.exp.dirty.find? (fun e => e.record = q) with
  | none => rwa [writeStepRecord_none hq]
  | some e =>
    obtain ⟨hdirty, hcounts, hsummary⟩ := writeStepRecord_fields hq
    unfold MarkKept Waits
    rw [hdirty, hcounts, hsummary]
    by_cases hr : r = q
    · subst hr
      rcases h with ⟨⟨e', he', hnotice⟩, hcount⟩ | ⟨hnone, -, -⟩
      · cases hq.symm.trans he'
        refine Or.inr ⟨find?_filter_self r _, ?_, fun i hn hi => ?_⟩
        · rw [getFin_set, if_pos rfl, hcount]
        · rw [hnotice hn]
          exact summaryAfter_set hi _
      · cases hq.symm.trans hnone
    · have hindex : r.index ≠ q.index := fun e => hr (MirrorRec.index_injective e)
      rw [find?_filter_ne hr, getFin_set, if_neg hindex]
      exact h.imp id fun ⟨hnone, hcount, hbit⟩ =>
        ⟨hnone, hcount, fun i hn hi => summaryAfter_kept _ _ (hbit i hn hi)⟩

/-- A record that waits at the end of a step's body is seen by the host: it waits on, or the step writes it. -/
theorem Waits.seen {r : MirrorRec} {n : Bool} (h : Waits u.exp.dirty r n) (hcounts : u.exp.counts = s.exp.counts) :
    MarkSeen s (finishStep u) r n := by
  have hfold : ∀ l : List MirrorRec, MarkKept u (l.foldl writeStepRecord u) r n := fun l =>
    List.foldlRecOn l _ (motive := fun v => MarkKept u v r n) (Or.inl ⟨h, rfl⟩) fun _ hv q _ => hv.writeStepRecord q
  have hkept : MarkKept u (finishStep u) r n := by
    unfold finishStep
    dsimp only
    split
    · exact hfold u.exp.stepMarks
    · exact Or.inl ⟨h, rfl⟩
  rcases hkept with ⟨⟨e, he, hnotice⟩, -⟩ | ⟨-, hcount, hbit⟩
  · exact Or.inl ⟨e, List.mem_of_find?_eq_some he, by simpa using List.find?_some he, hnotice⟩
  · exact Or.inr ⟨by rw [hcount, hcounts], hbit⟩

/-! ### The body of a command (R155) -/

/-- From the take of its order on, an order's action keeps `Runs`. -/
theorem take_runs (k : Kind) {act : SlotId → State → State} (hact : ∀ n {u : State}, Runs u (act n u)) (s : State) :
    Runs s (take k act s) ∨ ∃ n, Runs (takeSlot n s) (take k act s) := by
  unfold take
  split
  · exact Or.inl (Runs.refl s)
  · exact Or.inr ⟨_, hact _⟩

/-- The kind of order whose take a command is (R155). -/
def takenKind : Instr → Option Kind
  | .bayPowerOn => some .bayPowerOn
  | .bayPowerOff => some .bayPowerOff
  | .bayPolicy => some .bayPolicy
  | .clearFault => some .clearFault
  | .budgetSet => some .budgetSet
  | .sidebandQuery => some .sidebandQuery
  | .zoneMap => some .zoneMap
  | .curveSelect => some .curveSelect
  | .fanConfig => some .fanConfig
  | .fanLearn => some .fanLearn
  | .lightSet => some .lightSet
  | .locate => some .locate
  | .lightSync => some .lightSync
  | .patternLoad => some .patternLoad
  | .autoMap => some .autoMap
  | .abort => some .abort
  | _ => none

/-- The take of an order of one kind has an action of its owner for body, which keeps `Runs`. -/
theorem order_action {c : Instr} {k : Kind} (h : takenKind c = some k) :
    ∃ act : SlotId → State → State, (∀ s, body c s = take k act s) ∧ ∀ n u, Runs u (act n u) := by
  cases c <;> cases h
  case bayPowerOn => exact ⟨powerOnOrder, fun _ => rfl, fun n u => (Runs.refl u).powerOnOrder n⟩
  case bayPowerOff => exact ⟨powerOffOrder, fun _ => rfl, fun n u => (Runs.refl u).powerOffOrder n⟩
  case bayPolicy => exact ⟨policyOrder, fun _ => rfl, fun n u => (Runs.refl u).policyOrder n⟩
  case clearFault => exact ⟨clearFaultOrder, fun _ => rfl, fun n u => (Runs.refl u).clearFaultOrder n⟩
  case budgetSet => exact ⟨budgetOrder, fun _ => rfl, fun n u => (Runs.refl u).budgetOrder n⟩
  case sidebandQuery => exact ⟨queryOrder, fun _ => rfl, fun n u => (Runs.refl u).queryOrder n⟩
  case zoneMap => exact ⟨mapOrder, fun _ => rfl, fun n u => (Runs.refl u).mapOrder n⟩
  case curveSelect => exact ⟨selectOrder, fun _ => rfl, fun n u => (Runs.refl u).selectOrder n⟩
  case fanConfig => exact ⟨configOrder, fun _ => rfl, fun n u => (Runs.refl u).configOrder n⟩
  case fanLearn => exact ⟨learnOrder, fun _ => rfl, fun n u => (Runs.refl u).learnOrder n⟩
  case lightSet => exact ⟨lightSetOrder, fun _ => rfl, fun n u => (Runs.refl u).lightSetOrder n⟩
  case locate => exact ⟨locateOrder, fun _ => rfl, fun n u => (Runs.refl u).locateOrder n⟩
  case lightSync => exact ⟨lightSyncOrder, fun _ => rfl, fun n u => (Runs.refl u).lightSyncOrder n⟩
  case patternLoad => exact ⟨patternOrder, fun _ => rfl, fun n u => (Runs.refl u).patternOrder n⟩
  case autoMap => exact ⟨autoMapOrder, fun _ => rfl, fun n u => (Runs.refl u).autoMapOrder n⟩
  case abort => exact ⟨abortOrder, fun _ => rfl, fun n u => (Runs.refl u).abortOrder n⟩

/-- The bodies of the events and the counters, and of the take of a bad kind. -/
theorem event_runs {c : Instr} (hk : takenKind c = none) (hown : portOwn c = false) (s : State) :
    Runs s (body c s) ∨ ∃ n, Runs (takeSlot n s) (body c s) := by
  have r : Runs s s := Runs.refl s
  cases c
  case presenceChange b => exact Or.inl (r.presenceChanged b)
  case debounceExpiry b => exact Or.inl (r.debounceEnd b)
  case replugWindowExpiry b => exact Or.inl (r.setReplug b none)
  case activityEdge b => exact Or.inl (r.setLgt _)
  case powerGoodAsserted b => exact Or.inl (r.powerGoodRises b)
  case tripAsserted b => exact Or.inl (r.tripRises b)
  case powerGoodDeasserted b => exact Or.inl (r.powerGoodFalls b)
  case rampWindowEnd b => exact Or.inl (r.rampEnd b)
  case coolOffEnd b => exact Or.inl (r.coolOffEnd b)
  case spinWindowEnd b => exact Or.inl (r.spinEnd b)
  case holdEnd b => exact Or.inl (r.holdOver b)
  case staggerExpiry => exact Or.inl r.staggerOut
  case shedRequest b => exact Or.inl (r.shedTaken b)
  case pollTimerExpiry => exact Or.inl r.pollVisit
  case sidebandReply l => exact Or.inl (r.replyArrived l)
  case sidebandNoReply => exact Or.inl r.noReply
  case deferSpacingEnd => exact Or.inl r.spacingEnd
  case boardSensorReadTimer => exact Or.inl r.startBoardReads
  case boardSensorReadEnd n q => exact Or.inl (r.endBoardRead n q)
  case zonePeriodStart => exact Or.inl r.zonePeriod
  case tachGateExpiry => exact Or.inl r.gateExpiry
  case envelopeStep => exact Or.inl (r.setLgt _)
  case locateTimerExpiry b => exact Or.inl (r.locateExpiry b)
  case tachEdge f => exact Or.inl (r.tachEdge f)
  case uptimeCounterAdvance => exact Or.inl (r.clock _)
  case tickCounterAdvance => exact Or.inl r.tickOn
  case badKind =>
    show Runs s (takeBad s) ∨ ∃ n, Runs (takeSlot n s) (takeBad s)
    unfold takeBad
    split
    · exact Or.inl r
    · exact Or.inr ⟨_, (Runs.refl _).complete _ _ _⟩
  all_goals simp [portOwn, takenKind] at hown hk

/-- The body of a command that is not EXP's own keeps `Runs`, from its beginning or from the take of its order. -/
theorem body_runs (c : Instr) (s : State) (h : portOwn c = false) :
    Runs s (body c s) ∨ ∃ n, Runs (takeSlot n s) (body c s) := by
  cases hk : takenKind c with
  | none => exact event_runs hk h s
  | some k =>
    obtain ⟨act, hbody, hact⟩ := order_action hk
    rw [hbody]
    exact take_runs k (fun n {u} => hact n u) s

/-- A change of EXP's own state before a chain of operations is none of what they show. -/
theorem Alike.ofExp {e : Exp} {r : MirrorRec} {n : Bool} (h : Alike { s with exp := e } t r n) : Alike s t r n := by
  cases r <;> cases n <;> exact h

theorem body_told (c : Instr) (s : State) (h : portOwn c = false) (r : MirrorRec) (n : Bool) :
    Alike s (body c s) r n ∨ Waits (body c s).exp.dirty r n := by
  rcases body_runs c s h with hruns | ⟨m, hruns⟩
  · exact hruns.told r n
  · exact (hruns.told r n).imp (fun hsame => Alike.ofExp hsame) id

/-! ### The whole step -/

theorem Alike.finishStep {r : MirrorRec} {n : Bool} (h : Alike s u r n) : Alike s (finishStep u) r n := by
  obtain ⟨-, hbmon, hpseq, -, hthc, hfanu, hlgt, -⟩ := finishStep_keeps u
  exact h.trans (Alike.of_blocks (congrArg Bmon.bays hbmon) hthc (congrArg Pseq.shown hpseq) (congrArg Fanu.fans hfanu) hlgt r n)

/-- Whatever a step shows otherwise is marked, or the step has written it. -/
theorem step_told (c : Instr) (s : State) (hpower : c ≠ .powerOnReset) (hport : c ≠ .portReset) (r : MirrorRec) (n : Bool) :
    Alike s (finishStep (body c s)) r n ∨ MarkSeen s (finishStep (body c s)) r n := by
  by_cases hown : portOwn c = true
  · obtain ⟨hbmon, hpseq, -, hthc, hfanu, hlgt⟩ := portOwn_keeps c s hown hpower hport
    exact Or.inl (Alike.of_blocks (congrArg Bmon.bays hbmon) hthc (congrArg Pseq.shown hpseq) (congrArg Fanu.fans hfanu)
      hlgt r n).finishStep
  · have hbody := Bool.eq_false_iff.mpr hown
    have hcounts := (body_changes c s hbody).portKept.counts
    exact (body_told c s hbody r n).imp (fun hsame => hsame.finishStep) fun hwait => hwait.seen hcounts

/-- A mark made for each member of a list stays to the end of the list. -/
theorem waits_foldl {α : Type} {f : State → α → State} (hkeep : ∀ u a, Runs u (f u a)) {r : MirrorRec} {n : Bool} {a : α}
    (hmark : ∀ u, Waits (f u a).exp.dirty r n) {l : List α} (ha : a ∈ l) (u : State) :
    Waits (l.foldl f u).exp.dirty r n := by
  induction l generalizing u with
  | nil => cases ha
  | cons b rest ih =>
    rcases List.mem_cons.mp ha with rfl | ha
    · exact (Runs.foldl (fun _ b h => h.trans (hkeep _ b)) rest (Runs.refl (f u a))).waits r n (hmark u)
    · exact ih ha _

theorem waits_mark (r : MirrorRec) (n : Bool) (u : State) : Waits (mark r n u).exp.dirty r n := waits_addMark_self r n _

theorem waits_markFans (u : State) (f : FanId) : Waits (markFans u).exp.dirty (.fan f) false :=
  waits_foldl (fun u f => (Runs.refl u).mark (.fan f) false) (fun u => waits_mark (.fan f) false u) (List.mem_finRange f) u

theorem waits_computeZones (u : State) (z : ZoneId) : Waits (computeZones u).exp.dirty (.zone z) false :=
  waits_foldl (fun u z => (Runs.refl u).mark (.zone z) false) (fun u => waits_mark (.zone z) false u) (List.mem_finRange z) _

theorem waits_zonePeriod (s : State) (z : ZoneId) : Waits (zonePeriod s).exp.dirty (.zone z) false := by
  unfold zonePeriod
  exact (Runs.refl _).handOutputs.waits _ _ (waits_computeZones _ z)

theorem waits_zonePeriod_fan (s : State) (f : FanId) : Waits (zonePeriod s).exp.dirty (.fan f) false := by
  rw [zonePeriod_eq]
  exact waits_markFans _ f

theorem waits_gateExpiry (s : State) (f : FanId) : Waits (gateExpiry s).exp.dirty (.fan f) false := by
  rw [gateExpiry_eq]
  exact waits_markFans _ f

theorem waits_policies (p : Policy) {l : List Bay} {b : Bay} (hb : b ∈ l) (u : State) :
    Waits (l.foldl (writePolicy p) u).exp.dirty (.bay b) true :=
  waits_foldl (fun u b => (Runs.refl u).writePolicy p b) (fun _ => waits_mark (.bay b) true _) hb u

/-- An accepted policy marks every bay it names (R18). -/
theorem waits_bayPolicy {n : SlotId} (hk : takeKind .bayPolicy s = some n) (hlevel : (argByte s n 3).toNat < 4)
    (hmask : (argByte s n 4).setWidth 4 ≠ 0#4) {b : Bay} (hb : argByte s n 0 = 255 ∨ b.val = (argByte s n 0).toNat) :
    Waits (body .bayPolicy s).exp.dirty (.bay b) true := by
  have hnamed : (argByte s n 0).toNat < 24 ∨ argByte s n 0 = 255 := by
    rcases hb with hall | hone
    · exact Or.inr hall
    · exact Or.inl (hone ▸ b.isLt)
  obtain ⟨l, hbays, hmem⟩ := baysOf_some hnamed
  rw [show body .bayPolicy s = policyOrder n (takeSlot n s) from take_of_takeKind policyOrder hk,
    policyOrder_accepted (s := takeSlot n s) hbays (levelOfByte_some hlevel) hmask]
  exact ((Runs.refl _).complete _ _ _).waits _ _ (waits_policies _ ((hmem b).mpr hb) _)

/-- Settles O14: each owner's marks follow from `step_told`, the marks made in any case from what the bodies mark. -/
theorem ownersMarkWhatTheyChange : Obligations.OwnersMarkWhatTheyChange := by
  refine fun c s _ hpower hport => answers_of_body ?_
  have htold := step_told c s hpower hport
  refine ⟨fun b hb => ?_, fun hb => (htold .budget true).resolve_left hb, fun f hf => ?_, fun i hi => ?_, fun z hz => ?_,
    ?_, ?_, ?_⟩
  · refine (htold (.bay b) true).resolve_left fun ⟨hbay, hsensor, hlights⟩ => ?_
    rcases hb with hne | hne | hne
    · exact hne hbay
    · exact hne hsensor
    · exact absurd (hne.symm.trans hlights) nofun
  · by_cases hstate : ((finishStep (body c s)).fan f).state = (s.fan f).state
    · rw [decide_eq_false (not_not_intro hstate)]
      exact (htold (.fan f) false).resolve_left hf
    · rw [decide_eq_true hstate]
      exact (htold (.fan f) true).resolve_left hstate
  · by_cases hnotice : 24 ≤ i.val ∧ sensorState (finishStep (body c s)).thc i ≠ sensorState s.thc i
    · rw [decide_eq_true hnotice]
      exact (htold (.sensor i) true).resolve_left fun hsame => hnotice.2 (hsame hnotice.1)
    · rw [decide_eq_false hnotice]
      refine (htold (.sensor i) false).resolve_left fun ⟨hrecord, hstate⟩ => ?_
      exact hi.elim (fun hne => hne hrecord) (fun hne => hne hstate)
  · refine (htold (.zone z) true).resolve_left fun ⟨hcount, hsafe, hbank⟩ => ?_
    rcases hz with hne | hne | hne
    · exact hne hcount
    · exact hne hsafe
    · exact hne hbank
  · rintro rfl
    have hcounts := (body_changes .zonePeriodStart s rfl).portKept.counts
    exact ⟨fun z => (waits_zonePeriod s z).seen hcounts, fun f => (waits_zonePeriod_fan s f).seen hcounts⟩
  · rintro rfl f
    exact (waits_gateExpiry s f).seen (body_changes .tachGateExpiry s rfl).portKept.counts
  · rintro n rfl hk hlevel hmask b hb
    exact (waits_bayPolicy hk hlevel hmask hb).seen (body_changes .bayPolicy s rfl).portKept.counts

end Sys2Proof.Machine

/-! Settles the dispatcher, the bad kind and ABORT (O60). -/

namespace Sys2Proof.Machine

variable {s t u : State}

/-! ### The slot taken next (R155) -/

theorem behind_slot (pointer i : SlotId) : pointer + i + 1 - pointer - 1 = i := by abel

theorem slot_behind (pointer n : SlotId) : pointer + (n - pointer - 1) + 1 = n := by abel

theorem takeOrder_getElem (pointer : SlotId) {i : Nat} (hi : i < (takeOrder pointer).length) :
    (takeOrder pointer)[i] = pointer + ⟨i, by simpa [takeOrder] using hi⟩ + 1 := by
  simp [takeOrder]

/-- The slot taken next is the POSTED one nearest behind the pointer. -/
theorem nextPosted_iff (s : State) (n : SlotId) : nextPosted s = some n ↔ (s.slot n).state = .posted ∧
    ∀ m : SlotId, (s.slot m).state = .posted → (n - s.exp.pointer - 1).val ≤ (m - s.exp.pointer - 1).val := by
  have hlength : (takeOrder s.exp.pointer).length = 32 := by simp [takeOrder]
  have hat : ∀ m : SlotId, ∃ h : (m - s.exp.pointer - 1).val < (takeOrder s.exp.pointer).length,
      (takeOrder s.exp.pointer)[(m - s.exp.pointer - 1).val] = m := fun m =>
    ⟨by rw [hlength]; exact (m - s.exp.pointer - 1).isLt, (takeOrder_getElem _ _).trans (slot_behind _ m)⟩
  unfold nextPosted
  rw [List.find?_eq_some_iff_getElem]
  constructor
  · rintro ⟨hn, i, hi, hget, hbefore⟩
    refine ⟨of_decide_eq_true hn, fun m hm => ?_⟩
    obtain ⟨hmlt, hmget⟩ := hat m
    have hindex : (n - s.exp.pointer - 1).val = i := by
      rw [← hget, takeOrder_getElem, behind_slot]
    by_contra hlt
    have hno := hbefore (m - s.exp.pointer - 1).val (by omega)
    rw [hmget, decide_eq_true hm] at hno
    cases hno
  · rintro ⟨hn, hmin⟩
    obtain ⟨hlt, hget⟩ := hat n
    refine ⟨decide_eq_true hn, _, hlt, hget, fun j hj => ?_⟩
    have hj' : j < (takeOrder s.exp.pointer).length := hj.trans hlt
    rw [Bool.not_eq_true', decide_eq_false_iff_not]
    intro hposted
    have hle := hmin _ hposted
    rw [takeOrder_getElem, behind_slot] at hle
    exact absurd hj (Nat.not_lt.mpr hle)

/-! ### What a take leaves of the slots (R155, R156) -/

theorem finishStep_pointer (s : State) : (finishStep s).exp.pointer = s.exp.pointer := by
  have hwrite : ∀ (u : State) (r : MirrorRec), (writeStepRecord u r).exp.pointer = u.exp.pointer := fun u r => by
    unfold writeStepRecord
    split
    · rfl
    · unfold settleThaw
      split <;> rfl
  unfold finishStep
  dsimp only
  split
  · exact foldl_keeps (fun s : State => s.exp.pointer) _ hwrite _ s
  · rfl

/-- From a take on, the slot taken stays TAKEN or is DONE, and no other slot moves but from TAKEN to DONE. -/
theorem Runs.taken {n : SlotId} (h : Runs (takeSlot n s) t) : t.exp.pointer = n ∧ (t.slot n).kind = orderKind s n ∧
    (t.slot n).tag = orderTag s n ∧ ((t.slot n).state = .taken ∨ (t.slot n).state = .done) ∧
    ∀ m, m ≠ n → (s.slot m).state ≠ .taken → t.slot m = s.slot m := by
  have hown := h.slots n
  rw [slot_takeSlot, if_pos rfl] at hown
  have hothers : ∀ m, m ≠ n → (s.slot m).state ≠ .taken → t.slot m = s.slot m := fun m hm hstate => by
    have hslot := h.slots m
    rw [slot_takeSlot, if_neg hm] at hslot
    exact hslot.resolve_right fun hdone => hstate hdone.1
  rcases hown with hslot | ⟨-, hslot⟩ <;> rw [hslot]
  · exact ⟨h.pointer, rfl, rfl, Or.inl rfl, hothers⟩
  · exact ⟨h.pointer, rfl, rfl, Or.inr rfl, hothers⟩

theorem takeKind_of_next {k : Kind} {n : SlotId} (h : nextPosted s = some n) (hk : Kind.ofCode (orderKind s n) = some k) :
    takeKind k s = some n := by
  unfold takeKind
  rw [h]
  exact if_pos hk

/-- The step of a take, as far as the slots go. -/
theorem step_taken {c : Instr} {k : Kind} (hc : takenKind c = some k) {n : SlotId} (h : nextPosted s = some n)
    (hk : Kind.ofCode (orderKind s n) = some k) :
    let t := finishStep (body c s)
    t.exp.pointer = n ∧ (t.slot n).kind = orderKind s n ∧ (t.slot n).tag = orderTag s n ∧
    ((t.slot n).state = .taken ∨ (t.slot n).state = .done) ∧
    ∀ m, m ≠ n → (s.slot m).state ≠ .taken → t.slot m = s.slot m := by
  obtain ⟨act, hbody, hact⟩ := order_action hc
  have hruns : Runs (takeSlot n s) (body c s) := by
    rw [hbody, take_of_takeKind act (takeKind_of_next h hk)]
    exact hact n _
  have hslot := fun m => slot_of_slots (finishStep_slots (body c s)) m
  dsimp only
  simp only [finishStep_pointer, hslot]
  exact hruns.taken

/-! ### Orders completed at their take (R155, R156) -/

/-- An order that does no more than complete leaves the enclosure and the lights. -/
theorem answered_enclosure (n : SlotId) (r : Result) (d : List Byte) (s : State) :
    EnclosureKept s (finishStep (complete n r d (takeSlot n s))) ∧ (finishStep (complete n r d (takeSlot n s))).lgt = s.lgt :=
  ⟨⟨by simp, by simp, by simp, by simp, by simp, by simp, by simp⟩, by simp⟩

theorem answered_other {n m : SlotId} (hm : m ≠ n) (r : Result) (d : List Byte) (s : State) :
    (finishStep (complete n r d (takeSlot n s))).slot m = s.slot m := by
  rw [slot_of_slots (finishStep_slots _), slot_complete, if_neg fun h => hm h.1, slot_takeSlot, if_neg hm]

theorem badKind_answered {n : SlotId} (hw : s.mem.wf = true) (h : takeBadKind s = some n) :
    let t := finishStep (body .badKind s)
    TakeCompleted s t n .badKind [] ∧ t.exp.pointer = n ∧ EnclosureKept s t ∧ t.lgt = s.lgt := by
  have hbody : body .badKind s = complete n .badKind [] (takeSlot n s) := by
    show takeBad s = _
    unfold takeBad
    rw [h]
  have hruns : Runs (takeSlot n s) (complete n .badKind [] (takeSlot n s)) := (Runs.refl _).complete _ _ _
  obtain ⟨hkept, hlgt⟩ := answered_enclosure n .badKind [] s
  dsimp only
  rw [hbody, finishStep_pointer]
  exact ⟨(take_answered n hw .badKind []).1, hruns.taken.1, hkept, hlgt⟩

/-! ### ABORT (R157) -/

/-- The step of an ABORT taken from slot `n`. -/
def abortStep (n : SlotId) (s : State) : State := finishStep (abortOrder n (takeSlot n s))

theorem abortOrder_badTarget {n : SlotId} (h : 32 ≤ (argByte s n 0).toNat) :
    abortOrder n (takeSlot n s) = complete n .badArg [] (takeSlot n s) := dif_neg (Nat.not_lt.mpr h)

theorem abortOrder_target {n m : SlotId} (h : m.val = (argByte s n 0).toNat) : abortOrder n s =
    if (s.slot m).state = .taken then abortTaken n m (s.slot m) s
    else complete n .tooLate (abortDetail m (s.slot m)) s := by
  obtain ⟨i, hi⟩ := m
  obtain rfl : i = (argByte s n 0).toNat := h
  exact dif_pos hi

theorem slot_take_self (n : SlotId) (s : State) : (takeSlot n s).slot n = ⟨.taken, orderKind s n, orderTag s n⟩ := by
  rw [slot_takeSlot, if_pos rfl]

theorem slot_take_other {n m : SlotId} (h : m ≠ n) (s : State) : (takeSlot n s).slot m = s.slot m := by
  rw [slot_takeSlot, if_neg h]

/-- The detail of an ABORT of a TAKEN target (section 10.5). -/
theorem abortDetail_taken {x : Slot} (m : SlotId) (h : x.state = .taken) :
    abortDetail m x = [byte m.val, x.state.code, x.kind, 0xFF] ++ le16 x.tag.toNat := if_pos h

theorem abortDetail_not_taken {x : Slot} (m : SlotId) (h : x.state ≠ .taken) :
    abortDetail m x = [byte m.val, x.state.code] := if_neg h

/-- An ABORT of an order that cannot be aborted, by its kind (R157). -/
theorem abortTaken_notAbortable {x : Slot} {k : Option Kind} (hk : Kind.ofCode x.kind = k) (h1 : k ≠ some .bayPowerOn)
    (h2 : k ≠ some .sidebandQuery) (h3 : k ≠ some .zoneMap) (h4 : k ≠ some .curveSelect) (h5 : k ≠ some .fanLearn)
    (n m : SlotId) (s : State) : abortTaken n m x s = complete n .notAbortable (abortDetail m x) s := by
  unfold abortTaken
  rw [hk]
  split
  · exact absurd rfl h1
  · exact absurd rfl h2
  · exact absurd rfl h3
  · exact absurd rfl h4
  · exact absurd rfl h5
  · rfl

/-- An ABORT of itself (R157). -/
theorem abort_self {n : SlotId} (h : Takes s .abort n) (hn : n.val = (argByte s n 0).toNat) :
    ((abortStep n s).slot n).state = .done ∧
    (abortStep n s).mem.readBytes (resultBase n) 1 = [Result.notAbortable.code] ∧
    EnclosureKept s (abortStep n s) ∧ (abortStep n s).lgt = s.lgt := by
  have hslot := slot_take_self n s
  have hkind : Kind.ofCode ((takeSlot n s).slot n).kind = some .abort := by
    rw [hslot]
    exact (takeKind_next h.next).2
  have horder : abortOrder n (takeSlot n s) =
      complete n .notAbortable (abortDetail n ((takeSlot n s).slot n)) (takeSlot n s) := by
    rw [abortOrder_target (s := takeSlot n s) hn, if_pos (by rw [hslot])]
    exact abortTaken_notAbortable hkind nofun nofun nofun nofun nofun n n _
  have hdone := (take_answered n h.settled.mem .notAbortable (abortDetail n ((takeSlot n s).slot n))).1
  obtain ⟨hkept, hlgt⟩ := answered_enclosure n .notAbortable (abortDetail n ((takeSlot n s).slot n)) s
  unfold abortStep
  rw [horder]
  exact ⟨hdone.done, hdone.code, hkept, hlgt⟩

/-- A target that could not be cancelled: the ABORT alone completes (R157). -/
theorem abort_answered {n m : SlotId} (hw : s.mem.wf = true) (hm : m ≠ n) {r : Result} {d : List Byte}
    (h : abortOrder n (takeSlot n s) = complete n r d (takeSlot n s)) :
    TakeCompleted s (abortStep n s) n r d ∧ (abortStep n s).slot m = s.slot m ∧ EnclosureKept s (abortStep n s) ∧
    (abortStep n s).lgt = s.lgt := by
  obtain ⟨hkept, hlgt⟩ := answered_enclosure n r d s
  unfold abortStep
  rw [h]
  exact ⟨(take_answered n hw r d).1, answered_other hm r d s, hkept, hlgt⟩

/-- The target's order cancelled, then the ABORT answered OK (R157). -/
theorem cancelled_answered {n m : SlotId} (hm : m ≠ n) (hw : s.mem.wf = true) (htaken : (s.slot m).state = .taken)
    (hslots : u.exp.slots = (takeSlot n s).exp.slots) (hmem : u.mem = s.mem) (hclock : u.clock = s.clock)
    (d d' : List Byte) :
    let t := complete n .ok d (complete m .cancelled d' u)
    t.mem.wf = true ∧ TakeCompleted s t n .ok d ∧ Completed t m .cancelled (s.slot m).tag s.clock.uptime d' := by
  have hwu : u.mem.wf = true := hmem ▸ hw
  have hslot : u.slot m = s.slot m := (slot_of_slots hslots m).trans (slot_take_other hm s)
  have hself : u.slot n = ⟨.taken, orderKind s n, orderTag s n⟩ := (slot_of_slots hslots n).trans (slot_take_self n s)
  have hcancel := completed_complete hwu (by rw [hslot]; exact htaken) .cancelled d'
  rw [hslot, hclock] at hcancel
  have hwc := (complete_written m .cancelled d' u hwu).wf
  have hn : (complete m .cancelled d' u).slot n = u.slot n := by rw [slot_complete, if_neg fun h => hm h.1.symm]
  have hanswer := completed_complete hwc (by rw [hn, hself]) .ok d
  have hclock' : (complete m .cancelled d' u).clock = s.clock := by simp [hclock]
  rw [hn, hself, hclock'] at hanswer
  exact ⟨(complete_written n .ok d _ hwc).wf, hanswer, hcancel.complete hwc n .ok d⟩

/-- The same at the end of the step. -/
theorem cancelled_step {n m : SlotId} (hm : m ≠ n) (hw : s.mem.wf = true) (htaken : (s.slot m).state = .taken)
    (hslots : u.exp.slots = (takeSlot n s).exp.slots) (hmem : u.mem = s.mem) (hclock : u.clock = s.clock)
    (d d' : List Byte) :
    let t := finishStep (complete n .ok d (complete m .cancelled d' u))
    TakeCompleted s t n .ok d ∧ Completed t m .cancelled (s.slot m).tag s.clock.uptime d' := by
  obtain ⟨hwf, hanswer, hcancel⟩ := cancelled_answered hm hw htaken hslots hmem hclock d d'
  exact ⟨hanswer.finishStep hwf, hcancel.finishStep hwf⟩

/-- An ABORT of a TAKEN order is decided by the order's kind. -/
theorem abortOrder_taken {n m : SlotId} (hn : m.val = (argByte s n 0).toNat) (hm : m ≠ n)
    (htaken : (s.slot m).state = .taken) :
    abortOrder n (takeSlot n s) = abortTaken n m (s.slot m) (takeSlot n s) := by
  rw [abortOrder_target (s := takeSlot n s) hn, slot_take_other hm, if_pos htaken]

theorem abortStep_taken {n m : SlotId} (hn : m.val = (argByte s n 0).toNat) (hm : m ≠ n)
    (htaken : (s.slot m).state = .taken) : abortStep n s = finishStep (abortTaken n m (s.slot m) (takeSlot n s)) := by
  rw [abortStep, abortOrder_taken hn hm htaken]

/-! ### What an ABORT looks for (R41, R76, R128) -/

theorem queuedQuery_slot {m : SlotId} {e : SbEntry} (h : queuedQuery s m = some e) : e.slot = some m := by
  simpa using List.find?_some h

theorem queuedBayOf_spec {m : SlotId} {b : Bay} (h : queuedBayOf s m = some b) :
    (s.bay b).state = .queued ∧ (s.bay b).powerOrder = some m := by
  simpa using List.find?_some h

theorem queuedBayOf_only {m : SlotId} {b : Bay} (hstate : (s.bay b).state = .queued)
    (horder : (s.bay b).powerOrder = some m)
    (hone : ∀ d, (s.bay d).state = .queued → (s.bay d).powerOrder = some m → d = b) : queuedBayOf s m = some b := by
  cases hfind : queuedBayOf s m with
  | none => exact absurd (decide_eq_true ⟨hstate, horder⟩) (List.find?_eq_none.mp hfind b (List.mem_finRange b))
  | some d =>
    obtain ⟨hd, hd'⟩ := queuedBayOf_spec hfind
    rw [hone d hd hd']

theorem learnOf_only {m : SlotId} {f : FanId} {l : Learn} (hlearn : (s.fanWork f).learn = some l)
    (hslot : l.slot = some m) (hone : ∀ g y, (s.fanWork g).learn = some y → y.slot = some m → g = f) :
    learnOf s m = some (f, l) := by
  cases hfind : learnOf s m with
  | none =>
    have hno := List.findSome?_eq_none_iff.mp hfind f (List.mem_finRange f)
    rw [hlearn] at hno
    dsimp only at hno
    rw [if_pos hslot] at hno
    cases hno
  | some p =>
    obtain ⟨g, -, hg⟩ := List.exists_of_findSome?_eq_some hfind
    cases hwork : (s.fanWork g).learn with
    | none =>
      rw [hwork] at hg
      cases hg
    | some y =>
      rw [hwork] at hg
      dsimp only at hg
      split at hg
      · rename_i hy
        obtain rfl := hone g y hwork hy
        cases hwork.symm.trans hlearn
        exact hg.symm
      · cases hg

/-- The order class without the queries of a slot (R76). -/
def withoutQuery (m : SlotId) (s : State) : State :=
  { s with sbe := { s.sbe with orderQ := s.sbe.orderQ.filter fun e => e.slot ≠ some m } }

/-- A fan whose learn is gone, back in zone control (R127, R128). -/
def learnGone (f : FanId) (s : State) : State := zoneControl f (updWork f (fun w => { w with learn := none }) s)

theorem learnGone_slots (f : FanId) (s : State) : (learnGone f s).exp.slots = s.exp.slots := updFan_slots f _ _

theorem stopLearn_eq {f : FanId} {l : Learn} {m : SlotId} (h : l.slot = some m) (r : Result) (s : State) :
    stopLearn f l r s = complete m r (learnDetail f l ((learnGone f s).fan f)) (learnGone f s) := by
  unfold stopLearn
  rw [h]
  rfl

/-! ### The target by its kind -/

section Target

variable {n m : SlotId} (hn : m.val = (argByte s n 0).toNat) (hm : m ≠ n) (hw : s.mem.wf = true)
  (htaken : (s.slot m).state = .taken)

include hn hm hw htaken

/-- A pending order of THC is dropped, and its slot completes CANCELLED (R94, R111). -/
theorem abort_pending {x : Thc} (hbody : abortTaken n m (s.slot m) (takeSlot n s) =
      complete n .ok (abortDetail m (s.slot m)) (complete m .cancelled [] { takeSlot n s with thc := x })) :
    TakeCompleted s (abortStep n s) n .ok (abortDetail m (s.slot m)) ∧
    Completed (abortStep n s) m .cancelled (s.slot m).tag s.clock.uptime [] ∧ (abortStep n s).thc = x := by
  rw [abortStep_taken hn hm htaken, hbody]
  obtain ⟨hanswer, hcancel⟩ := cancelled_step (u := { takeSlot n s with thc := x }) hm hw htaken rfl rfl rfl
    (abortDetail m (s.slot m)) []
  exact ⟨hanswer, hcancel, by simp⟩

theorem abort_zoneMap (hk : Kind.ofCode (s.slot m).kind = some .zoneMap) :
    TakeCompleted s (abortStep n s) n .ok (abortDetail m (s.slot m)) ∧
    Completed (abortStep n s) m .cancelled (s.slot m).tag s.clock.uptime [] ∧
    (abortStep n s).thc = { s.thc with pendingMap := none } := by
  refine abort_pending hn hm hw htaken ?_
  unfold abortTaken
  rw [hk]
  rfl

theorem abort_curveSelect (hk : Kind.ofCode (s.slot m).kind = some .curveSelect) :
    TakeCompleted s (abortStep n s) n .ok (abortDetail m (s.slot m)) ∧
    Completed (abortStep n s) m .cancelled (s.slot m).tag s.clock.uptime [] ∧
    (abortStep n s).thc = { s.thc with pendingSelect := none } := by
  refine abort_pending hn hm hw htaken ?_
  unfold abortTaken
  rw [hk]
  rfl

theorem abort_query (hk : Kind.ofCode (s.slot m).kind = some .sidebandQuery)
    (hq : ∃ e ∈ s.sbe.orderQ, e.slot = some m) :
    TakeCompleted s (abortStep n s) n .ok (abortDetail m (s.slot m)) ∧ ((abortStep n s).slot m).state = .done ∧
    (abortStep n s).mem.readBytes (resultBase m) 1 = [Result.cancelled.code] ∧
    (abortStep n s).sbe = { s.sbe with orderQ := s.sbe.orderQ.filter fun e => e.slot ≠ some m } := by
  obtain ⟨e, he⟩ : ∃ e, queuedQuery (takeSlot n s) m = some e := by
    obtain ⟨e, hmem, hslot⟩ := hq
    exact Option.isSome_iff_exists.mp (List.find?_isSome.mpr ⟨e, hmem, decide_eq_true hslot⟩)
  have hslot := queuedQuery_slot he
  have hbody : abortTaken n m (s.slot m) (takeSlot n s) = complete n .ok (abortDetail m (s.slot m))
      (complete m .cancelled (queryDetail e 0 0 (waitTicks e.take s.clock.tick) []) (withoutQuery m (takeSlot n s))) := by
    unfold abortTaken
    rw [hk]
    dsimp only
    unfold abortQuery
    rw [he]
    dsimp only
    unfold dropQuery
    rw [hslot]
    rfl
  rw [abortStep_taken hn hm htaken, hbody]
  obtain ⟨hanswer, hcancel⟩ := cancelled_step (u := withoutQuery m (takeSlot n s)) hm hw htaken rfl rfl rfl
    (abortDetail m (s.slot m)) (queryDetail e 0 0 (waitTicks e.take s.clock.tick) [])
  exact ⟨hanswer, hcancel.done, hcancel.code, by simp [withoutQuery]⟩

theorem abort_query_late (hk : Kind.ofCode (s.slot m).kind = some .sidebandQuery)
    (hq : ∀ e ∈ s.sbe.orderQ, e.slot ≠ some m) :
    TakeCompleted s (abortStep n s) n .tooLate (abortDetail m (s.slot m)) ∧ (abortStep n s).slot m = s.slot m ∧
    (abortStep n s).sbe = s.sbe := by
  have hnone : queuedQuery (takeSlot n s) m = none :=
    List.find?_eq_none.mpr fun e he => by simpa using hq e he
  have hbody : abortOrder n (takeSlot n s) = complete n .tooLate (abortDetail m (s.slot m)) (takeSlot n s) := by
    rw [abortOrder_taken hn hm htaken]
    unfold abortTaken
    rw [hk]
    dsimp only
    unfold abortQuery
    rw [hnone]
  obtain ⟨hanswer, hslot, hkept, -⟩ := abort_answered hw hm hbody
  exact ⟨hanswer, hslot, hkept.sbe⟩

/-- A queued power-on is cancelled with its bay's entry (R41). -/
theorem abort_powerOn (hk : Kind.ofCode (s.slot m).kind = some .bayPowerOn) (hqueue : QueueMatches s) {b : Bay}
    (hstate : (s.bay b).state = .queued) (horder : (s.bay b).powerOrder = some m)
    (hone : ∀ d, (s.bay d).state = .queued → (s.bay d).powerOrder = some m → d = b)
    (hentry : ∀ e, entryOf s b = some e → e.slot = some m) :
    TakeCompleted s (abortStep n s) n .ok (abortDetail m (s.slot m)) ∧ ((abortStep n s).bay b).state = .off ∧
    ((abortStep n s).bay b).powerOrder = none ∧ b ∉ queuedBays (abortStep n s).pseq ∧
    ((abortStep n s).slot m).state = .done ∧ OthersKept (· = b) s (abortStep n s) := by
  have hbay := queuedBayOf_only (s := takeSlot n s) hstate horder hone
  obtain ⟨e, he⟩ := entryOf_of_queued hqueue hstate
  have heslot := hentry e he
  have hbody : abortTaken n m (s.slot m) (takeSlot n s) =
      evaluate (complete n .ok (abortDetail m (s.slot m)) (cancelQueued b (takeSlot n s))) := by
    unfold abortTaken
    rw [hk]
    dsimp only
    unfold abortPowerOn
    rw [hbay]
  have hself := slot_take_self n s
  obtain ⟨hanswer, hoff, hnone, hleft, hothers⟩ := cancelStep (s := takeSlot n s) (n := n) hw (by rw [hself]) hstate he
    (fun h => hm (Option.some.inj (heslot.symm.trans h))) (abortDetail m (s.slot m))
  have hdone : ((finishStep (evaluate (complete n .ok (abortDetail m (s.slot m)) (cancelQueued b (takeSlot n s))))).slot m).state
      = .done := by
    rw [evaluated_slot, slot_complete, if_neg fun h => hm h.1, cancelQueued_some (s := takeSlot n s) he, heslot,
      slot_of_slots (report_orders _ _ (by simp)).1]
    exact (completed_complete (s := takeSlot n s) hw (by rw [slot_take_other hm]; exact htaken) _ _).done
  rw [abortStep_taken hn hm htaken, hbody]
  rw [hself] at hanswer
  exact ⟨hanswer, hoff, hnone, hleft, hdone, hothers⟩

theorem abort_powerOn_late (hk : Kind.ofCode (s.slot m).kind = some .bayPowerOn)
    (hno : ∀ b, (s.bay b).state = .queued → (s.bay b).powerOrder ≠ some m) :
    TakeCompleted s (abortStep n s) n .tooLate (abortDetail m (s.slot m)) ∧ (abortStep n s).slot m = s.slot m ∧
    EnclosureKept s (abortStep n s) := by
  have hnone : queuedBayOf (takeSlot n s) m = none :=
    List.find?_eq_none.mpr fun b _ hb => by
      obtain ⟨hstate, horder⟩ := of_decide_eq_true hb
      exact hno b hstate horder
  have hbody : abortOrder n (takeSlot n s) = complete n .tooLate (abortDetail m (s.slot m)) (takeSlot n s) := by
    rw [abortOrder_taken hn hm htaken]
    unfold abortTaken
    rw [hk]
    dsimp only
    unfold abortPowerOn
    rw [hnone]
  obtain ⟨hanswer, hslot, hkept, -⟩ := abort_answered hw hm hbody
  exact ⟨hanswer, hslot, hkept⟩

/-- A learn is cancelled: its fan goes back to zone control with its learned minimum (R128). -/
theorem abort_learn (hk : Kind.ofCode (s.slot m).kind = some .fanLearn) {f : FanId} {l : Learn}
    (hlearn : (s.fanWork f).learn = some l) (hslot : l.slot = some m)
    (hone : ∀ g y, (s.fanWork g).learn = some y → y.slot = some m → g = f) :
    TakeCompleted s (abortStep n s) n .ok (abortDetail m (s.slot m)) ∧ ((abortStep n s).slot m).state = .done ∧
    ((abortStep n s).fan f).state = (if s.fanu.output[s.fanu.member[f]] = 0 then .stopped else .running) ∧
    ((abortStep n s).fanWork f).learn = none ∧ ((abortStep n s).fan f).learnedMin = (s.fan f).learnedMin := by
  have hfound := learnOf_only (s := takeSlot n s) hlearn hslot hone
  have hstop := stopLearn_eq (f := f) hslot .cancelled (takeSlot n s)
  have hbody : abortTaken n m (s.slot m) (takeSlot n s) =
      deliverFans (complete n .ok (abortDetail m (s.slot m)) (stopLearn f l .cancelled (takeSlot n s))) := by
    unfold abortTaken
    rw [hk]
    dsimp only
    unfold abortLearn
    rw [hfound]
  obtain ⟨hwf, hanswer, hcancel⟩ := cancelled_answered (u := learnGone f (takeSlot n s)) hm hw htaken
    (learnGone_slots f _) (by simp [learnGone]) (by simp [learnGone]) (abortDetail m (s.slot m))
    (learnDetail f l ((learnGone f (takeSlot n s)).fan f))
  rw [← hstop] at hwf hanswer hcancel
  obtain ⟨hfan, hnone⟩ := stopLearn_own f l .cancelled (takeSlot n s)
  generalize hv : complete n .ok (abortDetail m (s.slot m)) (stopLearn f l .cancelled (takeSlot n s)) = v at hwf hanswer hcancel hbody
  have hfanu : v.fanu = (stopLearn f l .cancelled (takeSlot n s)).fanu := by rw [← hv]; simp
  have hend : (finishStep (deliverFans v)).fanu = (stopLearn f l .cancelled (takeSlot n s)).fanu := by simp [hfanu]
  have hdelivered : Changes v (deliverFans v) := Changes.refl.deliverFans
  have hdriven : (finishStep (deliverFans v)).fan f = (s.fan f).driven (zoneOutput s f) :=
    (congrArg (fun x : Fanu => x.fans[f]) hend).trans hfan
  rw [abortStep_taken hn hm htaken, hbody]
  refine ⟨hdelivered.completed_finishStep hwf hanswer, (hdelivered.completed_finishStep hwf hcancel).done, ?_,
    (congrArg (fun x : Fanu => x.work[f].learn) hend).trans hnone, ?_⟩
  · rw [hdriven]
    unfold FanRec.driven zoneOutput
    split <;> rfl
  · rw [hdriven]
    unfold FanRec.driven
    split <;> rfl

end Target

/-- Settles O60: the slot taken next, what any take leaves of the slots, the bad kind, and ABORT by its target. -/
theorem badKindAndAbort : Obligations.BadKindAndAbort := by
  refine ⟨nextPosted_iff, fun s n k c hc hs hnext hk => ?_, fun s n hs hbad => ?_, fun s n h hqueue => ?_⟩
  · have htakes : takenKind c = some k := by
      fin_cases hc <;> rfl
    exact answers_of_body (step_taken htakes hnext hk)
  · exact answers_of_body (badKind_answered hs.mem hbad)
  · have hbody : body .abort s = abortOrder n (takeSlot n s) := take_of_takeKind abortOrder h.next
    refine answers_of_body ?_
    rw [hbody]
    have hw := h.settled.mem
    refine ⟨fun htarget => ?_, fun m hn => ⟨fun hm => ?_, fun hm hstate => ?_, fun hm htaken => ?_⟩, by simp, by simp⟩
    · obtain ⟨hkept, hlgt⟩ := answered_enclosure n .badArg [] s
      rw [abortOrder_badTarget htarget]
      exact ⟨(take_answered n hw .badArg []).1, hkept, hlgt⟩
    · subst hm
      exact abort_self h hn
    · have hlate : abortOrder n (takeSlot n s) = complete n .tooLate (abortDetail m (s.slot m)) (takeSlot n s) := by
        rw [abortOrder_target (s := takeSlot n s) hn, slot_take_other hm, if_neg hstate]
      rw [abortDetail_not_taken m hstate] at hlate
      exact abort_answered hw hm hlate
    · dsimp only
      rw [← abortDetail_taken m htaken]
      refine ⟨fun ⟨h1, h2, h3, h4, h5⟩ => ?_, abort_zoneMap hn hm hw htaken, abort_curveSelect hn hm hw htaken,
        abort_query hn hm hw htaken, abort_query_late hn hm hw htaken,
        fun b hk hstate horder hone hentry => abort_powerOn hn hm hw htaken hk hqueue hstate horder hone hentry,
        abort_powerOn_late hn hm hw htaken,
        fun f l hk hlearn hslot hone => abort_learn hn hm hw htaken hk hlearn hslot hone⟩
      refine abort_answered hw hm ?_
      rw [abortOrder_taken hn hm htaken]
      exact abortTaken_notAbortable rfl h1 h2 h3 h4 h5 n m _

end Sys2Proof.Machine

/-! Settles the counters and the events that change one record (O23). -/

namespace Sys2Proof.Machine

variable {s : State}

/-! ### The tick counter (R174) -/

theorem markIf_false (r : MirrorRec) (notice : Bool) (s : State) : markIf false r notice s = s := rfl

/-- A change of PSEQ that no shown value tells marks nothing (R44). -/
theorem updPseq_of_shown {f : Pseq → Pseq} (h : (f s.pseq).shown = s.pseq.shown) :
    updPseq f s = { s with pseq := f s.pseq } := by
  unfold updPseq
  rw [decide_eq_false (not_not_intro h), markIf_false]

theorem sinceTick_eq_map (x : Option Nat) : sinceTick x = x.map fun k => min (k + 1) 1001 := by
  cases x <;> rfl

/-- The budget record shows no tick count (R44). -/
theorem shown_sinceAdmission (p : Pseq) (x : Option Nat) :
    Pseq.shown { p with account := { p.account with sinceAdmission := x } } = p.shown := rfl

/-- A tick changes the two counts and marks nothing (R34, R174). -/
theorem tickOn_eq (s : State) : tickOn s = { s with
    clock := { s.clock with tick := s.clock.tick + 1 }
    pseq := { s.pseq with account := { s.pseq.account with
      sinceAdmission := s.pseq.account.sinceAdmission.map fun k => min (k + 1) 1001 } } } := by
  rw [← sinceTick_eq_map]
  unfold tickOn updAccount
  exact updPseq_of_shown (shown_sinceAdmission _ _)

/-! ### The defer spacing (R67) -/

theorem spacingEnd_of_spacing {x : Txn} (hflight : s.sbe.flight = some x) (hphase : x.phase = .spacing) :
    spacingEnd s = { s with sbe := { s.sbe with flight := some { x with phase := .attempt } } } := by
  unfold spacingEnd
  rw [hflight]
  exact if_pos hphase

/-! ### The end of a board read (R86) -/

@[simp] theorem markIf_stepDone (c : Bool) (r : MirrorRec) (notice : Bool) (s : State) :
    (markIf c r notice s).exp.stepDone = s.exp.stepDone := by cases c <;> rfl

@[simp] theorem setSensor_stepDone (i : SensorId) (x : Thc) (s : State) :
    (setSensor i x s).exp.stepDone = s.exp.stepDone := by
  unfold setSensor reportSensorState
  split <;> simp

/-- THC once the read of board sensor `n` is over (R86). -/
def boardReadOver (n : Fin 8) (reading : Option Int) (s : State) : Thc :=
  { s.thc with
    reading := s.thc.reading.set n false
    sensors := s.thc.sensors.set (boardSensor n) (s.thc.sensors[boardSensor n].read reading s.clock.uptime) }

theorem endBoardRead_of_reading {n : Fin 8} (h : s.thc.reading[n] = true) (reading : Option Int) :
    endBoardRead n reading s = setSensor (boardSensor n) (boardReadOver n reading s) s := if_pos h

theorem endBoardRead_thc {n : Fin 8} (h : s.thc.reading[n] = true) (reading : Option Int) :
    (endBoardRead n reading s).thc = boardReadOver n reading s := by
  rw [endBoardRead_of_reading h, setSensor_thc]

@[simp] theorem endBoardRead_stepDone (n : Fin 8) (reading : Option Int) (s : State) :
    (endBoardRead n reading s).exp.stepDone = s.exp.stepDone := by
  unfold endBoardRead
  split
  · exact setSensor_stepDone _ _ s
  · rfl

/-- The end of a read completes no order, so its marks wait in the dirty set and the end of the step writes nothing
(R156). -/
theorem endBoardRead_finishStep_mem (h : StepNoteEmpty s.exp) (n : Fin 8) (reading : Option Int) :
    (finishStep (endBoardRead n reading s)).mem = s.mem := by
  rw [finishStep_mem _ (Or.inl ((endBoardRead_stepDone n reading s).trans h.2))]
  simp

/-- Settles O23: the events that change one record give their next state; the end of a board read gives THC's. -/
theorem countersAndQuietEvents : Obligations.CountersAndQuietEvents := by
  refine ⟨fun s h => ⟨?uptime, ?tick, fun b => ?replug, fun f => ?edge, ?reads, fun x hflight hphase => ?spacing⟩,
    fun s k reading h hread => answers_of_body ?readEnd⟩
  case uptime => exact exec_of_body h rfl rfl
  case tick => exact exec_of_body h (tickOn_eq s) rfl
  case replug => exact exec_of_body h rfl rfl
  case edge => exact exec_of_body h rfl rfl
  case reads => exact exec_of_body h rfl rfl
  case spacing => exact exec_of_body h (spacingEnd_of_spacing hflight hphase) rfl
  case readEnd =>
    have hbody : body (.boardSensorReadEnd k reading) s = endBoardRead k reading s := rfl
    have hthc : (finishStep (endBoardRead k reading s)).thc = boardReadOver k reading s := by
      simp [endBoardRead_thc hread]
    rw [hbody, hthc]
    refine ⟨?_, by simp, by simp, by simp, by simp, by simp, by simp, by simp, endBoardRead_finishStep_mem h k reading⟩
    cases reading <;> rfl

end Sys2Proof.Machine

/-! Settles the step (O1), that every command answers (O2), and the events that cannot happen (O3). -/

namespace Sys2Proof.Machine

variable {s : State}

/-- Settles O1: the two branches of `step`. -/
theorem stepTakesTheFrontCommand : Obligations.StepTakesTheFrontCommand := by
  refine fun s => ⟨fun c rest h => ?front, fun h => ?idle⟩
  case front => rw [step, h]
  case idle => rw [step, h]

/-! ### What the body of a command leaves -/

/-- A write of unused bits changes EXP's state only (R151, R152). -/
theorem otherWrite_outside (w : OtherWrite) (s : State) :
    (body (.registerWriteOther w) s).mem = s.mem ∧ (body (.registerWriteOther w) s).pending = s.pending := by
  have hbody : body (.registerWriteOther w) s = otherWrite w s := rfl
  rw [hbody, otherWrite_keeps]
  exact ⟨rfl, rfl⟩

/-- EXP's own commands leave the queue of commands. -/
theorem portOwn_pending {c : Instr} (s : State) (hown : portOwn c = true) : (body c s).pending = s.pending := by
  cases c
  case powerOnReset => exact (powerOn_keeps s).2.2
  case registerWriteOther w => exact (otherWrite_outside w s).2
  case mirrorRecordWrite | orderPost | orderDone | changeSummary | changeEnable | doneInterruptEnable | freeze | thaw
      | autoThaw | portReset => simp [body]
  all_goals exact nomatch hown

/-- No command touches the queue of commands. -/
theorem body_pending (c : Instr) (s : State) : (body c s).pending = s.pending := by
  cases hown : portOwn c with
  | false => exact (body_changes c s hown).pending
  | true => exact portOwn_pending s hown

/-- Settles O2: a command goes on to its body and the end of the step, which leaves the queue and empties the note. -/
theorem everyCommandAnswersNext : Obligations.EveryCommandAnswersNext := fun c s =>
  answers_of_body ⟨by simp [body_pending], finishStep_note _⟩

/-! ### Events with no timer, request or order -/

theorem debounceEnd_idle {b : Bay} (h : s.bmon.debounce[b] = none) : debounceEnd b s = s := by simp [debounceEnd, h]

theorem rampEnd_idle {b : Bay} (h : (s.path b).rampTimer = none) : rampEnd b s = s := by simp [rampEnd, h]

theorem coolOffEnd_idle {b : Bay} (h : (s.path b).coolTimer = none) : coolOffEnd b s = s := by simp [coolOffEnd, h]

theorem spinEnd_idle {b : Bay} (h : (s.path b).spinTimer = none) : spinEnd b s = s := by simp [spinEnd, h]

theorem holdOver_idle {b : Bay} (h : (s.path b).holdTimer = none) : holdOver b s = s := by simp [holdOver, h]

theorem staggerOut_idle (h : s.account.staggerTimer = none) : staggerOut s = s := by simp [staggerOut, h]

theorem shedTaken_idle {b : Bay} (h : (s.pseq.sheds.find? fun q => q.bay = b) = none) : shedTaken b s = s := by
  simp only [shedTaken, takeShed, h]

theorem replyArrived_idle (h : attemptOf s = none) (bytes : List Byte) : replyArrived bytes s = s := by
  simp only [replyArrived, h]

theorem noReply_idle (h : attemptOf s = none) : noReply s = s := by simp only [noReply, h]

/-- No spacing runs where nothing is in flight, or what is in flight is in an attempt (R67). -/
theorem spacingEnd_idle (h : ∀ x, s.sbe.flight = some x → x.phase = .attempt) : spacingEnd s = s := by
  unfold spacingEnd
  split
  · rfl
  · rename_i x hx
    rw [h x hx]
    rfl

theorem endBoardRead_idle {n : Fin 8} (h : s.thc.reading[n] = false) (reading : Option Int) :
    endBoardRead n reading s = s := by simp [endBoardRead, h]

theorem locateExpiry_idle {b : Bay} (h : (s.chan (attentionChan b)).locateTimer = none) : locateExpiry b s = s := by
  simp [locateExpiry, h]

theorem freezeExpiry_idle (h : s.exp.freezeTimer = none) : freezeExpiry s = s := by simp [freezeExpiry, h]

theorem takeBad_idle (h : takeBadKind s = none) : takeBad s = s := by simp only [takeBad, h]

theorem take_idle {k : Kind} (act : SlotId → State → State) (h : takeKind k s = none) : take k act s = s := by
  simp only [take, h]

/-- A command whose body changes nothing answers the state itself. -/
theorem exec_of_idle {c : Instr} (hnote : StepNoteEmpty s.exp) (h : body c s = s) : exec c s = .next s :=
  exec_of_body hnote h rfl

/-- A take of a kind the dispatcher's next slot does not hold answers the state itself. -/
theorem exec_take_idle {c : Instr} {k : Kind} {act : SlotId → State → State} (hnote : StepNoteEmpty s.exp)
    (hbody : body c s = take k act s) (h : takeKind k s = none) : exec c s = .next s :=
  exec_of_idle hnote (hbody.trans (take_idle act h))

/-- Settles O3: the body of each such command changes nothing, and an empty note leaves the end of the step nothing to
write. -/
theorem eventsThatCannotHappenChangeNothing : Obligations.EventsThatCannotHappenChangeNothing := fun _ hnote =>
  ⟨fun _ h => exec_of_idle hnote (debounceEnd_idle h), fun _ h => exec_of_idle hnote (rampEnd_idle h),
    fun _ h => exec_of_idle hnote (coolOffEnd_idle h), fun _ h => exec_of_idle hnote (spinEnd_idle h),
    fun _ h => exec_of_idle hnote (holdOver_idle h), fun h => exec_of_idle hnote (staggerOut_idle h),
    fun _ h => exec_of_idle hnote (shedTaken_idle h), fun bytes h => exec_of_idle hnote (replyArrived_idle h bytes),
    fun h => exec_of_idle hnote (noReply_idle h), fun h => exec_of_idle hnote (spacingEnd_idle h),
    fun _ r h => exec_of_idle hnote (endBoardRead_idle h r), fun _ h => exec_of_idle hnote (locateExpiry_idle h),
    fun h => exec_of_idle hnote (freezeExpiry_idle h), fun h => exec_of_idle hnote (takeBad_idle h),
    exec_take_idle hnote rfl, exec_take_idle hnote rfl, exec_take_idle hnote rfl, exec_take_idle hnote rfl,
    exec_take_idle hnote rfl, exec_take_idle hnote rfl, exec_take_idle hnote rfl, exec_take_idle hnote rfl,
    exec_take_idle hnote rfl, exec_take_idle hnote rfl, exec_take_idle hnote rfl, exec_take_idle hnote rfl,
    exec_take_idle hnote rfl, exec_take_idle hnote rfl, exec_take_idle hnote rfl, exec_take_idle hnote rfl⟩

end Sys2Proof.Machine

/-! Settles the invariants of the blocks but EXP: the budget (O5), the admission queue (O6), the bay records (O7), the
sideband (O8) and the lights (O10). -/

namespace Sys2Proof.Machine

variable {s t : State}

/-! ### The blocks through a step -/

/-- The blocks but EXP stand as they did. -/
structure BlocksSame (s t : State) : Prop where
  bmon : t.bmon = s.bmon
  pseq : t.pseq = s.pseq
  sbe : t.sbe = s.sbe
  thc : t.thc = s.thc
  fanu : t.fanu = s.fanu
  lgt : t.lgt = s.lgt

theorem blocksSame_finishStep (s : State) : BlocksSame s (finishStep s) := by
  obtain ⟨-, hbmon, hpseq, hsbe, hthc, hfanu, hlgt, -⟩ := finishStep_keeps s
  exact ⟨hbmon, hpseq, hsbe, hthc, hfanu, hlgt⟩

/-- Once the owners have dropped their slots, a port reset is EXP's own (R166). -/
theorem blocksSame_portReset (s : State) : BlocksSame (dropSlots s) (body .portReset s) := by
  have hbody : body .portReset s = updExp Exp.portReset (dropSlots s) := rfl
  obtain ⟨-, hbmon, hpseq, hsbe, hthc, hfanu, hlgt, -⟩ := updExp_keeps Exp.portReset (dropSlots s)
  exact hbody ▸ ⟨hbmon, hpseq, hsbe, hthc, hfanu, hlgt⟩

/-- An invariant of the blocks but EXP is kept by a step if each kind of change keeps it and the reset values have it.
The end of a step and EXP's own commands leave those blocks; a port reset only makes their owners drop their slots, and
a power-on reset begins from the reset values. -/
theorem step_keeps_blocks {Inv : State → Prop} (hblocks : ∀ {s t}, BlocksSame s t → Inv s → Inv t)
    (hchange : ∀ {s t}, Changes s t → Inv s → Inv t) (hreset : ∀ p m f q, Inv (State.poweredOn p m f q)) :
    ∀ s t, Inv s → step s = .next t → Inv t := by
  refine step_keeps (fun s p => hblocks ⟨rfl, rfl, rfl, rfl, rfl, rfl⟩) (fun s t => hchange)
    (fun s => hblocks (blocksSame_finishStep s)) fun s c hown hi => ?_
  by_cases hpower : c = .powerOnReset
  · subst hpower
    exact hchange (powerOn_changes s) (hreset _ _ _ _)
  · by_cases hport : c = .portReset
    · subst hport
      exact hblocks (blocksSame_portReset s) (hchange (portReset_changes s) hi)
    · obtain ⟨hbmon, hpseq, hsbe, hthc, hfanu, hlgt⟩ := portOwn_keeps c s hown hpower hport
      exact hblocks ⟨hbmon, hpseq, hsbe, hthc, hfanu, hlgt⟩ hi

/-! ### The reset values -/

section ResetValues

variable (p : Pins) (m : Memory) (f : Nat) (q : List Instr)

/-- No bay holds a charge or starts at its reset values, and the account counts none (R24, R25). -/
theorem accountAgrees_poweredOn : AccountAgrees (State.poweredOn p m f q) := by
  constructor
  · simp only [heldUnits, poweredOn_bay]
    rfl
  · simp only [startingBays, poweredOn_bay]
    rfl

theorem budgetKept_poweredOn : BudgetKept (State.poweredOn p m f q) := by
  refine ⟨accountAgrees_poweredOn p m f q, le_rfl, Nat.zero_le _, ?rotating, ?solid, fun b c hc => ?charges⟩
  case rotating => exact show 8 ≤ 20 by decide
  case solid => exact show 5 ≤ 6 by decide
  case charges =>
    rw [poweredOn_bay] at hc
    cases hc

/-- The queue is empty and every bay EMPTY (R24, R45). -/
theorem queueMatches_poweredOn : QueueMatches (State.poweredOn p m f q) := by
  refine ⟨List.nodup_nil, fun b => ?_, fun _ he => absurd he List.not_mem_nil, fun _ he => absurd he List.not_mem_nil⟩
  rw [poweredOn_bay]
  exact iff_of_false List.not_mem_nil BayState.noConfusion

theorem bayShape_reset : BayShape BayRec.reset where
  phase := rfl
  settles := rfl
  caused := nofun
  cause := nofun
  charge := rfl
  order := nofun
  replugs := by decide
  mask := by decide
  shed := by decide

theorem baysShaped_poweredOn : BaysShaped (State.poweredOn p m f q) := fun b => by
  rw [poweredOn_bay]
  exact bayShape_reset

theorem sbeBounded_reset : SbeBounded Sbe.reset where
  orderRoom := Nat.zero_le _
  pollOnce := List.nodup_nil
  interval := by decide
  counts := nofun

/-- A dark channel without layers is sound under every pattern table. -/
theorem chanSound_reset (w : Vector Pattern 16) (c : Chan) : ChanSound w c Channel.reset where
  drives := rfl
  dark _ := rfl
  peak := nofun
  openings := Nat.zero_le _
  status _ := rfl
  located _ := ⟨rfl, rfl⟩

/-- The default patterns of R150 lie in range. -/
theorem patternInRange_defaults : ∀ i : PatId, PatternInRange Pattern.defaults[i] := by
  have h : ∀ i : PatId, Pattern.defaults[i].peak ≤ 255 ∧ Pattern.defaults[i].sustain ≤ Pattern.defaults[i].peak := by
    decide
  exact fun i => ⟨(h i).1, (h i).2⟩

theorem lgtSound_reset : LgtSound Lgt.reset := by
  refine ⟨patternInRange_defaults, fun c => ?_⟩
  rw [Lgt.reset, getFin_replicate]
  exact chanSound_reset _ c

end ResetValues

/-! ### The invariants -/

theorem BudgetKept.of_blocks (h : BudgetKept s) (hb : BlocksSame s t) : BudgetKept t :=
  have hbay := bay_of_bmon hb.bmon
  have haccount := account_of_pseq_eq hb.pseq
  h.same (fun b => by rw [hbay]) (fun b => by rw [hbay]) (by rw [haccount]) (by rw [haccount]) (by rw [haccount])

theorem QueueMatches.of_blocks (h : QueueMatches s) (hb : BlocksSame s t) : QueueMatches t :=
  h.same (fun b => by rw [bay_of_bmon hb.bmon]) (by rw [hb.pseq]) (by rw [hb.pseq])

/-- Settles O5: each change of a body keeps the account, an admission by its two tests, a BUDGET SET by R42's. -/
theorem budgetAccountStaysKept : Obligations.BudgetAccountStaysKept :=
  step_keeps_blocks (fun hb h => h.of_blocks hb) Changes.budget budgetKept_poweredOn

/-- Settles O6: a bay's entry joins and leaves the queue with its turn to and from QUEUED. -/
theorem admissionQueueMatchesTheBays : Obligations.AdmissionQueueMatchesTheBays :=
  step_keeps_blocks (fun hb h => h.of_blocks hb) Changes.queue queueMatches_poweredOn

/-- Settles O7: every change of a record, quiet or a turn of its state, keeps its shape. -/
theorem bayRecordsKeepTheirShape : Obligations.BayRecordsKeepTheirShape :=
  step_keeps_blocks (fun hb h => h.same (bay_of_bmon hb.bmon)) Changes.shaped baysShaped_poweredOn

/-- Settles O8: a join tests for room, and the counts of the transaction in flight advance below their limits only. -/
theorem sidebandStaysBounded : Obligations.SidebandStaysBounded :=
  step_keeps_blocks (Inv := fun s => SbeBounded s.sbe) (fun hb h => hb.sbe ▸ h) Changes.sideband
    fun _ _ _ _ => sbeBounded_reset

/-- Settles O10: every change LGT makes keeps the channels sound under its pattern table. -/
theorem lightChannelsStaySound : Obligations.LightChannelsStaySound :=
  step_keeps_blocks (Inv := fun s => LgtSound s.lgt) (fun hb h => hb.lgt ▸ h) Changes.lights
    fun _ _ _ _ => lgtSound_reset

end Sys2Proof.Machine

/-! Settles the exchange memory's canonical form (O4) and the exchange port (O11). -/

namespace Sys2Proof.Machine

variable {s : State}

/-! ### The exchange memory -/

theorem Memory.wf_hostWrites (w : List HostWrite) {m : Memory} (h : m.wf = true) :
    (w.foldl Memory.hostWrite m).wf = true := by
  induction w generalizing m with
  | nil => exact h
  | cons x rest ih => exact ih (Memory.wf_hostWrite h x)

theorem wf_mirrorWrite (h : s.mem.wf = true) : (mirrorWrite s).mem.wf = true := by
  unfold mirrorWrite
  split
  · exact h
  · exact (writeNext_written s h).wf

theorem poweredOn_mem (p : Pins) (m : Memory) (f : Nat) (q : List Instr) :
    (State.poweredOn p m f q).mem = writeLightDefaults m := by rw [State.poweredOn]

/-- The defaults a power-on reset writes lie inside the memory (R150). -/
theorem wf_powerOn (h : s.mem.wf = true) : (powerOn s).mem.wf = true := by
  refine ((powerOn_changes s).written ?_).wf
  rw [poweredOn_mem]
  exact (writeLightDefaults_written s.mem h).wf

/-- The host's writes, the mirror and the defaults of a power-on reset lie inside the memory; EXP's other commands write
none of it. -/
theorem wf_portOwn {c : Instr} (hown : portOwn c = true) (h : s.mem.wf = true) : (body c s).mem.wf = true := by
  cases c
  case powerOnReset => exact wf_powerOn h
  case mirrorRecordWrite => exact wf_mirrorWrite h
  case orderPost w _ _ => simpa [body] using Memory.wf_hostWrites w h
  case registerWriteOther w => exact (otherWrite_outside w s).1 ▸ h
  case orderDone | changeSummary | changeEnable | doneInterruptEnable | freeze | thaw | autoThaw | portReset =>
    simpa [body] using h
  all_goals exact nomatch hown

/-- Settles O4: every write of the part or the host lies inside the memory, so it keeps the canonical form. -/
theorem memoryStaysCanonical : Obligations.MemoryStaysCanonical :=
  step_keeps (Inv := fun s => s.mem.wf = true) (fun _ _ h => h) (fun _ _ hst h => (hst.written h).wf)
    (fun s h => (finishStep_written s h).wf) fun _ _ hown h => wf_portOwn hown h

/-! ### The exchange port -/

theorem allRecords_nodup : allRecords.Nodup := by
  decide

theorem expSound_reset : ExpSound Exp.reset where
  dirtyOnce := List.nodup_singleton _
  resetOnce w hw := by
    cases hw
    simpa [dirtyRecords, List.map_map, Function.comp_def] using allRecords_nodup
  ready := rfl
  resetLeft w hw := by
    cases hw
    simp [allRecords]
  summary := rfl
  enable := rfl
  collisions := Nat.zero_le _
  frozen := nofun
  timed := rfl
  thawing := nofun
  thawWaits _ hr := absurd hr List.not_mem_nil

theorem expSound_portOwn {c : Instr} (hown : portOwn c = true) (h : ExpSound s.exp) : ExpSound (body c s).exp :=
  match c, hown with
  | .powerOnReset, _ => (powerOn_changes s).port expSound_reset
  | .mirrorRecordWrite, _ => h.mirrorWrite
  | .orderPost w half bits, _ => ExpSound.postWrite (s := hostWrites w s) h half bits
  | .orderDone half bits, _ => h.doneWrite half bits
  | .changeSummary half bits, _ => h.summaryWrite half bits
  | .changeEnable half mask, _ => h.enableWrite half mask
  | .doneInterruptEnable _, _ => h.same ⟨rfl, rfl, rfl, rfl, rfl, rfl, rfl, rfl, rfl, rfl⟩
  | .freeze, _ => h.freezeOn
  | .thaw, _ => h.freezeOff
  | .autoThaw, _ => h.freezeExpiry
  | .portReset, _ => ((portReset_changes s).port h).portReset
  | .registerWriteOther w, _ => h.otherWrite w

/-- Settles O11: marks, completions and takes keep EXP sound, and so do its own commands and the end of a step. -/
theorem exchangePortStaysSound : Obligations.ExchangePortStaysSound :=
  step_keeps (Inv := fun s => ExpSound s.exp) (fun _ _ h => h) (fun _ _ hst h => hst.port h)
    (fun _ h => h.finishStep) fun _ _ hown h => expSound_portOwn hown h

end Sys2Proof.Machine

/-! Settles the reset state (O12), from the invariants' own reset lemmas. -/

namespace Sys2Proof.Machine

/-- The reset state's memory holds the defaults of R150 alone. -/
theorem wf_reset : State.reset.mem.wf = true := by
  rw [State.reset, poweredOn_mem]
  exact (writeLightDefaults_written [] rfl).wf

/-- Settles O12: State.reset is a power-on reset with quiet pins and an empty memory. -/
theorem resetMeetsEveryInvariant : Obligations.ResetMeetsEveryInvariant :=
  ⟨wf_reset, budgetKept_poweredOn _ _ _ _, queueMatches_poweredOn _ _ _ _, baysShaped_poweredOn _ _ _ _,
    sbeBounded_reset, ⟨thcInRange_reset, fanuInRange_reset⟩, lgtSound_reset, expSound_reset, rfl, rfl⟩

end Sys2Proof.Machine
